-- ==== Sys2Proof/Word.lean ====
section
/-! DEFINITION. The value types of the bron-crypto CORE engine: bytes, command words, register and mask
indices, register words, the modulus selector, and the tuples of field values that stand for points. -/

namespace Sys2Proof

/-- One byte of data memory (20_memory.md R70). -/
abbrev Byte := BitVec 8

/-- One 32-bit command word (30_encoding.md R110), and the width of a bus access (10_state.md R39). -/
abbrev Insn := BitVec 32

/-- A field register index, 0 to 31 (30_encoding.md R116). -/
abbrev FReg := Fin 32

/-- A mask register index, 0 to 7 (30_encoding.md R116). -/
abbrev MReg := Fin 8

/-- The content of a field register: an unsigned word of W = 64·NL bits (10_state.md R30). W is fixed by the
configuration, so the word is a natural number; that it stays below 2^W is part of the machine's invariant
(`Machine.State.Inv`), kept by every step. Log entry 20. -/
abbrev FWord := Nat

/-- The modulus a command works under, selected by its F bit: `p` for F = 0 (the base-field prime P), `q` for
F = 1 (the scalar-field prime Q) (30_encoding.md R112). -/
inductive FieldSel
  | p
  | q
  deriving DecidableEq, Repr

/-- A Weierstrass point `(X, Y, Z)` of field values (00_scope.md R23). -/
structure PointW where
  x : Nat
  y : Nat
  z : Nat
  deriving DecidableEq, Repr

/-- A twisted-Edwards point `(X, Y, Z, T)` of field values, in the register order of 00_scope.md R23. -/
structure PointE where
  x : Nat
  y : Nat
  z : Nat
  t : Nat
  deriving DecidableEq, Repr

/-- The fraction tuple `x_num, x_den, y_num, y_den` of PWMAP and PWFRAC (47_hash.md R320). -/
structure Fraction where
  xn : Nat
  xd : Nat
  yn : Nat
  yd : Nat
  deriving DecidableEq, Repr

end Sys2Proof
end

