-- ==== Sys2Proof/Config.lean ====
section
/-! DEFINITION. The configuration record of 00_scope.md R10, its two defined instances PALLAS and TOY109
(R12), the constraints of R10 and R13 to R15, and the free values of the model: opaque constants with no
body, so that nothing in Lean can tell their values. -/

namespace Sys2Proof

/-- The hash of the XMD expander: BLAKE2b with a 64-byte digest, unkeyed (47_hash.md R306). R10 fixes this one
value for the parameter `HASH`. -/
inductive HashName
  | blake2b512
  deriving DecidableEq, Repr

/-- The isogeny coefficient vectors `ISO_XNUM`, `ISO_XDEN`, `ISO_YNUM`, `ISO_YDEN` (47_hash.md R319), each from
the constant term up. `pallasIsoCoeffs` names the OPEN parameter `PALLAS_ISO_COEFFS` (92_eei_decisions.md D48):
its coefficients are the opaque constant `Config.pallasIsoCoeff`. Log entry 2. -/
inductive IsoVectors
  | given (xnum xden ynum yden : List Nat)
  | pallasIsoCoeffs
  deriving DecidableEq, Repr

/-- The configuration the engine is built for (00_scope.md R10), with the field names of that table. It is not
state (R9): no command and no host access changes it. -/
structure Config where
  /-- `NL`: 64-bit limbs in a field word -/
  nl : Nat
  /-- `P`: base-field prime -/
  p : Nat
  /-- `Q`: scalar-field prime -/
  q : Nat
  /-- `L_P`: wide-element size in bytes under P -/
  lP : Nat
  /-- `L_Q`: wide-element size in bytes under Q -/
  lQ : Nat
  /-- `CW_A` -/
  cwA : Nat
  /-- `CW_B` -/
  cwB : Nat
  /-- `CW_H`: Weierstrass cofactor-clearing multiplier -/
  cwH : Nat
  /-- `H2C_EN` -/
  h2cEn : Bool
  /-- `ISO_EN` -/
  isoEn : Bool
  /-- `ISO_A` -/
  isoA : Nat
  /-- `ISO_B` -/
  isoB : Nat
  /-- `SSWU_Z` -/
  sswuZ : Nat
  /-- `ISO_XNUM`, `ISO_XDEN`, `ISO_YNUM`, `ISO_YDEN` -/
  iso : IsoVectors
  /-- `EDW_EN` -/
  edwEn : Bool
  /-- `CE_A` -/
  ceA : Nat
  /-- `CE_D` -/
  ceD : Nat
  /-- `CE_H`: Edwards cofactor-clearing multiplier -/
  ceH : Nat
  /-- `HASH` -/
  hash : HashName
  deriving DecidableEq, Repr

/-! ### The free values -/

/-- Draw number `k` of the command executed at moment `clock` (00_scope.md R21). Log entry 4. -/
opaque Config.freeValue (clock k : Nat) : Nat

/-- The content of field register `i` after a reset at moment `clock`, `writes` (10_state.md R57). Log entry 12. -/
opaque Config.freeRegister (clock writes i : Nat) : Nat

/-- The content of mask register `j` after a reset at moment `clock`, `writes` (10_state.md R57). Log entry 12. -/
opaque Config.freeMask (clock writes j : Nat) : Bool

/-- Byte `a` of MEM after a power-on reset, or a soft reset in RUN, at moment `clock`, `writes` (10_state.md R57,
70_reset_and_hazards.md R381). Log entry 12. -/
opaque Config.freeMemByte (clock writes a : Nat) : BitVec 8

/-- Word `i` of IMEM after a power-on reset at moment `clock`, `writes` (10_state.md R57). Log entry 12. -/
opaque Config.freeImemWord (clock writes i : Nat) : BitVec 32

/-- What a host read of MEM byte `a` during RUN returns at moment `clock`, `writes` (20_memory.md R80); the same for two reads of
one moment (R81). Log entry 10. -/
opaque Config.freeBusByte (clock writes a : Nat) : BitVec 8

/-- Which index a host read of PC during RUN returns at moment `clock`, `writes` (10_state.md R47); the same for two reads of one
moment (20_memory.md R81). Log entry 11. -/
opaque Config.freePc (clock writes : Nat) : Nat

/-- Coefficient `i` of vector `v` of the OPEN parameter `PALLAS_ISO_COEFFS` (92_eei_decisions.md D48); vectors
0, 1, 2, 3 are x_num, x_den, y_num, y_den. Log entry 2. -/
opaque Config.pallasIsoCoeff (v i : Nat) : Nat

/-! ### The defined configurations (00_scope.md R12) -/

/-- `PALLAS`, the normative configuration (00_scope.md R12). `PALLAS_EDWARDS` is not supplied, so `EDW_EN = 0`
(93_implementation_defined.md §3); the Edwards parameters are then unused. Log entry 3. -/
def Config.pallas : Config where
  nl := 4
  p := 0x40000000000000000000000000000000224698fc094cf91b992d30ed00000001
  q := 0x40000000000000000000000000000000224698fc0994a8dd8c46eb2100000001
  lP := 48
  lQ := 48
  cwA := 0
  cwB := 5
  cwH := 1
  h2cEn := true
  isoEn := true
  isoA := 0x18354a2eb0ea8c9c49be2d7258370742b74134581a27a59f92bb4b0b657a014b
  isoB := 1265
  sswuZ := 0x40000000000000000000000000000000224698fc094cf91b992d30ed00000001 - 13
  iso := .pallasIsoCoeffs
  edwEn := false
  ceA := 0
  ceD := 0
  ceH := 1
  hash := .blake2b512

/-- `TOY109`, the spec's own test configuration (00_scope.md R12). -/
def Config.toy109 : Config where
  nl := 1
  p := 109
  q := 127
  lP := 17
  lQ := 17
  cwA := 2
  cwB := 4
  cwH := 1
  h2cEn := true
  isoEn := false
  isoA := 0
  isoB := 0
  sswuZ := 2
  iso := .given [] [] [] []
  edwEn := true
  ceA := 108
  ceD := 2
  ceH := 32
  hash := .blake2b512

/-! ### The constraints on a configuration -/

/-- The size constraints of 00_scope.md R10 that the machine's bounds rest on: `1 ≤ NL ≤ 8`, P and Q odd,
above 3 and below R, `Q ≠ P`, the wide sizes `ceil(1.5·ES) ≤ L ≤ 128`, multipliers of 1 to 64 bits, isogeny
vectors of at most 8 coefficients. -/
def Config.sized (c : Config) : Bool :=
  let es (m : Nat) : Nat := (Nat.log2 m + 8) / 8
  decide (1 ≤ c.nl ∧ c.nl ≤ 8)
    && decide (c.p % 2 = 1 ∧ 3 < c.p ∧ c.p < 2 ^ (64 * c.nl))
    && decide (c.q % 2 = 1 ∧ 3 < c.q ∧ c.q < 2 ^ (64 * c.nl) ∧ c.q ≠ c.p)
    && decide (3 * es c.p ≤ 2 * c.lP ∧ c.lP ≤ 128 ∧ 3 * es c.q ≤ 2 * c.lQ ∧ c.lQ ≤ 128)
    && decide (1 ≤ c.cwH ∧ c.cwH < 2 ^ 64 ∧ 1 ≤ c.ceH ∧ c.ceH < 2 ^ 64)
    && match c.iso with
       | .given xn xd yn yd =>
         decide (xn.length ≤ 8 ∧ xd.length ≤ 8 ∧ yn.length ≤ 8 ∧ yd.length ≤ 8)
       | .pallasIsoCoeffs => true

/-- A configuration the spec describes (00_scope.md R10): sized, with both moduli prime. -/
structure Config.PrimeFields (c : Config) : Prop where
  sized : c.sized = true
  primeP : Nat.Prime c.p
  primeQ : Nat.Prime c.q

/-- The constraint on the Weierstrass curve: it is not singular (00_scope.md R10) and has odd order, that is no
point of order 2, so `x³ + A·x + B` has no root mod P (R13). -/
structure Config.CurveOk (c : Config) : Prop where
  nonsingular : (4 * c.cwA ^ 3 + 27 * c.cwB ^ 2) % c.p ≠ 0
  oddOrder : ∀ x : Nat, (x ^ 3 + c.cwA * x + c.cwB) % c.p ≠ 0

/-- The constraint on the Edwards curve, used when `EDW_EN = 1` (00_scope.md R15): nonzero distinct
coefficients, `CE_A` a square and `CE_D` a non-square mod P. -/
structure Config.EdwardsOk (c : Config) : Prop where
  aNonzero : c.ceA % c.p ≠ 0
  dNonzero : c.ceD % c.p ≠ 0
  distinct : c.ceA % c.p ≠ c.ceD % c.p
  aSquare : ∃ r : Nat, (r * r) % c.p = c.ceA % c.p
  dNonSquare : ∀ r : Nat, (r * r) % c.p ≠ c.ceD % c.p

/-- Coefficient A' of the curve SSWU runs on: `ISO_A` when `ISO_EN = 1`, `CW_A` otherwise (00_scope.md R14). -/
def Config.sswuA (c : Config) : Nat := if c.isoEn then c.isoA else c.cwA

/-- Coefficient B' of the curve SSWU runs on: `ISO_B` when `ISO_EN = 1`, `CW_B` otherwise (00_scope.md R14). -/
def Config.sswuB (c : Config) : Nat := if c.isoEn then c.isoB else c.cwB

/-- The criteria of 00_scope.md R14 on SSWU_Z, used when `H2C_EN = 1`, with `g(x) = x³ + A'·x + B'`. -/
structure Config.SswuOk (c : Config) : Prop where
  abNonzero : (c.sswuA * c.sswuB) % c.p ≠ 0
  zNonSquare : ∀ r : Nat, (r * r) % c.p ≠ c.sswuZ % c.p
  zNotMinusOne : (c.sswuZ + 1) % c.p ≠ 0
  noRoot : ∀ x : Nat, (x ^ 3 + c.sswuA * x + c.sswuB) % c.p ≠ c.sswuZ % c.p
  exceptionalSquare : ∀ x : Nat, (x * (c.sswuZ * c.sswuA)) % c.p = c.sswuB % c.p →
    ∃ r : Nat, (r * r) % c.p = (x ^ 3 + c.sswuA * x + c.sswuB) % c.p

end Sys2Proof
end

