-- ==== Sys2Proof/Machine/Field.lean ====
section
/-! DEFINITION. Arithmetic of the configuration's two prime fields: derived parameters (00_scope.md R10), the
Montgomery conversions (R18), field arithmetic on values (R19), square roots (41_field.md R177), and the
integer encodings OS2IP and I2OSP (R20). -/

namespace Sys2Proof

/-- `W = 64·NL`, the register width in bits (00_scope.md R10). -/
def Config.width (c : Config) : Nat := 64 * c.nl

/-- `R = 2^W`, the Montgomery radix (00_scope.md R10). -/
def Config.radix (c : Config) : Nat := 2 ^ c.width

/-- `W/8`, the size of a raw register word in bytes (20_memory.md R89). -/
def Config.wordBytes (c : Config) : Nat := c.width / 8

/-- The modulus an F bit selects (30_encoding.md R112). -/
def Config.modulus (c : Config) : FieldSel → Nat
  | .p => c.p
  | .q => c.q

/-- `ES_m = ceil(bitlen(m)/8)`, the size of a canonical encoding in bytes (00_scope.md R10). -/
def Config.elemBytes (c : Config) (f : FieldSel) : Nat := (Nat.log2 (c.modulus f) + 1 + 7) / 8

/-- `L_m`, the size of a wide encoding in bytes (00_scope.md R10). -/
def Config.wideBytes (c : Config) : FieldSel → Nat
  | .p => c.lP
  | .q => c.lQ

end Sys2Proof

namespace Sys2Proof.Machine

/-! ### Arithmetic modulo m on values (00_scope.md R19) -/

/-- `(a + b) mod m`. -/
def addMod (m a b : Nat) : Nat := (a + b) % m

/-- `(a − b) mod m`, the representative in `[0, m)` (00_scope.md R16). -/
def subMod (m a b : Nat) : Nat := (a + (m - b % m)) % m

/-- `(a · b) mod m`. -/
def mulMod (m a b : Nat) : Nat := a * b % m

/-- `−a mod m`. -/
def negMod (m a : Nat) : Nat := (m - a % m) % m

/-- Square-and-multiply over the `k` low bits of `e`. -/
def powBits (m a : Nat) : Nat → Nat → Nat
  | 0, _ => 1 % m
  | k + 1, e =>
    if e = 0 then 1 % m
    else
      let h := powBits m a k (e / 2)
      if e % 2 = 1 then h * h % m * a % m else h * h % m

/-- `a^e mod m` (00_scope.md R19). -/
def powMod (m a e : Nat) : Nat := powBits m a (Nat.log2 e + 1) e

/-- `inv0_m(a) = a^(m−2) mod m`: the inverse for `a ≠ 0`, and 0 for `a = 0` (00_scope.md R19). -/
def invMod (m a : Nat) : Nat := powMod m a (m - 2)

/-- `is_square_m(a)`: `a = 0` or `a^((m−1)/2) = 1` (00_scope.md R19). -/
def isSquareMod (m a : Nat) : Bool := a % m == 0 || powMod m a ((m - 1) / 2) == 1

/-- `sgn0(a) = a mod 2` of a canonical value (00_scope.md R19). -/
def sgn0 (a : Nat) : Nat := a % 2

/-! ### A square root

41_field.md R177 and 47_hash.md R317 leave the method open: only `c² = a` is promised. Log entry 15. -/

/-- The exponent of 2 in `n`, looking at `k` bits at most. -/
def twoPart : Nat → Nat → Nat
  | 0, _ => 0
  | k + 1, n => if n % 2 = 1 then 0 else twoPart k (n / 2) + 1

/-- The least non-square from `z` on, within `k` candidates. -/
def nonSquareFrom (m : Nat) : Nat → Nat → Nat
  | 0, z => z
  | k + 1, z => if powMod m z ((m - 1) / 2) = m - 1 then z else nonSquareFrom m k (z + 1)

/-- From `r² = a·b`, `b^(2^j) = 1` and `g^(2^j) = −1`, a root of `a`. -/
def rootLoop (m : Nat) : Nat → Nat → Nat → Nat → Nat
  | 0, _, r, _ => r
  | j + 1, g, r, b =>
    if powMod m b (2 ^ j) = 1 then rootLoop m j (g * g % m) r b
    else rootLoop m j (g * g % m) (r * g % m) (b * (g * g % m) % m)

/-- One square root of the square `a` modulo the odd prime m (Tonelli and Shanks). -/
def sqrtMod (m a : Nat) : Nat :=
  let s := twoPart (m - 1) (m - 1)
  let t := (m - 1) / 2 ^ s
  let z := nonSquareFrom m m 2
  rootLoop m (s - 1) (powMod m z t) (powMod m a ((t + 1) / 2)) (powMod m a t)

/-! ### Montgomery words (00_scope.md R18) -/

/-- `R^(−1) mod m` for `R = 2^W` and odd m, as the W-th power of the inverse `(m + 1)/2` of 2. Log entry 23. -/
def radixInv (width m : Nat) : Nat := powMod m ((m + 1) / 2) width

end Sys2Proof.Machine

namespace Sys2Proof

/-- `val_m(w) = (w · R^(−1)) mod m`, the value a word stands for (00_scope.md R18). -/
def Config.val (c : Config) (f : FieldSel) (w : FWord) : Nat :=
  w * Machine.radixInv c.width (c.modulus f) % c.modulus f

/-- `mont_m(v) = (v · R) mod m`, the word that stands for the value v (00_scope.md R18). -/
def Config.mont (c : Config) (f : FieldSel) (v : Nat) : FWord := v * c.radix % c.modulus f

end Sys2Proof

namespace Sys2Proof.Machine

/-! ### Integer encodings (00_scope.md R20) -/

/-- `OS2IP(s)`: a byte string as a big-endian unsigned integer. -/
def os2ip (s : List Byte) : Nat := s.foldl (fun acc b => acc * 256 + b.toNat) 0

/-- `I2OSP(x, n)`: x as n big-endian bytes. -/
def i2osp (x : Nat) : Nat → List Byte
  | 0 => []
  | n + 1 => i2osp (x / 256) n ++ [BitVec.ofNat 8 x]

end Sys2Proof.Machine
end

