-- ==== Sys2Proof/Syntax.lean ====
section
/-! DEFINITION. The command set CORE-CMD v1: one constructor per row of spec/opcode_table.json (30_encoding.md
R118). Operands stand in assembler order (R125): destination register, destination mask, source registers,
source masks, immediate or address; `f` is the F bit of a command whose F policy is `F` (R112). -/

namespace Sys2Proof

/-- A command. -/
inductive Instr
  /-- HALT, opcode 0x01, rule R151 -/
  | halt
  /-- NOP, opcode 0x02, rule R152 -/
  | nop
  /-- MSET, opcode 0x03, rule R153 -/
  | mset (md : MReg)
  /-- FADD, opcode 0x04, rule R171 -/
  | fadd (f : FieldSel) (rd : FReg) (rs1 : FReg) (rs2 : FReg)
  /-- FSUB, opcode 0x05, rule R172 -/
  | fsub (f : FieldSel) (rd : FReg) (rs1 : FReg) (rs2 : FReg)
  /-- FNEG, opcode 0x06, rule R173 -/
  | fneg (f : FieldSel) (rd : FReg) (rs1 : FReg)
  /-- FMUL, opcode 0x07, rule R174 -/
  | fmul (f : FieldSel) (rd : FReg) (rs1 : FReg) (rs2 : FReg)
  /-- FSQR, opcode 0x08, rule R175 -/
  | fsqr (f : FieldSel) (rd : FReg) (rs1 : FReg)
  /-- FINV, opcode 0x09, rule R176 -/
  | finv (f : FieldSel) (rd : FReg) (md : MReg) (rs1 : FReg)
  /-- FSQRT, opcode 0x0A, rule R177 -/
  | fsqrt (f : FieldSel) (rd : FReg) (md : MReg) (rs1 : FReg)
  /-- FSEL, opcode 0x0B, rule R178 -/
  | fsel (f : FieldSel) (rd : FReg) (rs1 : FReg) (rs2 : FReg) (ms : MReg)
  /-- FISZ, opcode 0x0C, rule R179 -/
  | fisz (f : FieldSel) (md : MReg) (rs1 : FReg)
  /-- FEQ, opcode 0x0D, rule R180 -/
  | feq (f : FieldSel) (md : MReg) (rs1 : FReg) (rs2 : FReg)
  /-- FSGN0, opcode 0x0E, rule R181 -/
  | fsgn0 (f : FieldSel) (md : MReg) (rs1 : FReg)
  /-- FMOV, opcode 0x0F, rule R182 -/
  | fmov (rd : FReg) (rs1 : FReg)
  /-- MONTMUL, opcode 0x10, rule R201 -/
  | montmul (f : FieldSel) (rd : FReg) (rs1 : FReg) (rs2 : FReg)
  /-- MONTRED, opcode 0x11, rule R202 -/
  | montred (f : FieldSel) (rd : FReg) (rs1 : FReg) (rs2 : FReg)
  /-- FLDI, opcode 0x12, rule R183 -/
  | fldi (f : FieldSel) (rd : FReg) (imm : BitVec 16)
  /-- RAWI, opcode 0x13, rule R203 -/
  | rawi (rd : FReg) (imm : BitVec 16)
  /-- RAWR2, opcode 0x14, rule R204 -/
  | rawr2 (f : FieldSel) (rd : FReg)
  /-- FLD, opcode 0x15, rule R216 -/
  | fld (f : FieldSel) (rd : FReg) (md : MReg) (addr : BitVec 12)
  /-- FST, opcode 0x16, rule R217 -/
  | fst (f : FieldSel) (rd : FReg) (addr : BitVec 12)
  /-- FLDW, opcode 0x17, rule R218 -/
  | fldw (f : FieldSel) (rd : FReg) (addr : BitVec 12)
  /-- FLDU64, opcode 0x18, rule R219 -/
  | fldu64 (f : FieldSel) (rd : FReg) (addr : BitVec 12)
  /-- RAWLD, opcode 0x19, rule R220 -/
  | rawld (rd : FReg) (addr : BitVec 12)
  /-- RAWST, opcode 0x1A, rule R221 -/
  | rawst (rd : FReg) (addr : BitVec 12)
  /-- MCLR, opcode 0x1B, rule R154 -/
  | mclr (md : MReg)
  /-- MAND, opcode 0x1C, rule R155 -/
  | mand (md : MReg) (ms : MReg) (mt : MReg)
  /-- MOR, opcode 0x1D, rule R156 -/
  | mor (md : MReg) (ms : MReg) (mt : MReg)
  /-- MXOR, opcode 0x1E, rule R157 -/
  | mxor (md : MReg) (ms : MReg) (mt : MReg)
  /-- MNOT, opcode 0x1F, rule R158 -/
  | mnot (md : MReg) (ms : MReg)
  /-- PWADD, opcode 0x20, rule R237 -/
  | pwadd (rd : FReg) (rs1 : FReg) (rs2 : FReg)
  /-- PWDBL, opcode 0x21, rule R239 -/
  | pwdbl (rd : FReg) (rs1 : FReg)
  /-- PWNEG, opcode 0x22, rule R240 -/
  | pwneg (rd : FReg) (rs1 : FReg)
  /-- PWISID, opcode 0x23, rule R241 -/
  | pwisid (md : MReg) (rs1 : FReg)
  /-- PWEQ, opcode 0x24, rule R242 -/
  | pweq (md : MReg) (rs1 : FReg) (rs2 : FReg)
  /-- PWTOAFF, opcode 0x25, rule R243 -/
  | pwtoaff (rd : FReg) (md : MReg) (rs1 : FReg)
  /-- PWSETAFF, opcode 0x26, rule R244 -/
  | pwsetaff (rd : FReg) (md : MReg) (rs1 : FReg)
  /-- PWSMUL, opcode 0x27, rule R292 -/
  | pwsmul (f : FieldSel) (rd : FReg) (rs1 : FReg) (rs2 : FReg)
  /-- PWCLR, opcode 0x28, rule R295 -/
  | pwclr (rd : FReg) (rs1 : FReg)
  /-- PWMAP, opcode 0x29, rule R320 -/
  | pwmap (rd : FReg) (rs1 : FReg)
  /-- PWFRAC, opcode 0x2A, rule R321 -/
  | pwfrac (rd : FReg) (rs1 : FReg)
  /-- PWH2C, opcode 0x2B, rule R322 -/
  | pwh2c (rd : FReg)
  /-- PWE2C, opcode 0x2C, rule R323 -/
  | pwe2c (rd : FReg)
  /-- PWSEL, opcode 0x2D, rule R245 -/
  | pwsel (rd : FReg) (rs1 : FReg) (rs2 : FReg) (ms : MReg)
  /-- PEADD, opcode 0x30, rule R267 -/
  | peadd (rd : FReg) (rs1 : FReg) (rs2 : FReg)
  /-- PEDBL, opcode 0x31, rule R269 -/
  | pedbl (rd : FReg) (rs1 : FReg)
  /-- PENEG, opcode 0x32, rule R270 -/
  | peneg (rd : FReg) (rs1 : FReg)
  /-- PEISID, opcode 0x33, rule R271 -/
  | peisid (md : MReg) (rs1 : FReg)
  /-- PEEQ, opcode 0x34, rule R272 -/
  | peeq (md : MReg) (rs1 : FReg) (rs2 : FReg)
  /-- PETOAFF, opcode 0x35, rule R273 -/
  | petoaff (rd : FReg) (md : MReg) (rs1 : FReg)
  /-- PESETAFF, opcode 0x36, rule R274 -/
  | pesetaff (rd : FReg) (md : MReg) (rs1 : FReg)
  /-- PESMUL, opcode 0x37, rule R293 -/
  | pesmul (f : FieldSel) (rd : FReg) (rs1 : FReg) (rs2 : FReg)
  /-- PECLR, opcode 0x38, rule R296 -/
  | peclr (rd : FReg) (rs1 : FReg)
  /-- PESEL, opcode 0x39, rule R275 -/
  | pesel (rd : FReg) (rs1 : FReg) (rs2 : FReg) (ms : MReg)
  /-- H2F, opcode 0x3C, rule R310 -/
  | h2f (f : FieldSel) (rd : FReg) (count : BitVec 16)
  /-- XMD, opcode 0x3D, rule R308 -/
  | xmd (addr : BitVec 12)
  deriving DecidableEq, Repr

end Sys2Proof
end

