-- ==== Sys2Proof/WellFormed.lean ====
section
/-! DEFINITION. Which commands are well-formed. Register, mask, address and immediate bounds are carried by the
operand types, so the one check left is the element count of H2F (30_encoding.md R121). -/

namespace Sys2Proof

/-- The count of H2F is 1 to 32; "No other command has an illegal operand value" (30_encoding.md R121). -/
def Instr.wellFormed : Instr → Bool
  | .h2f _ _ count => decide (1 ≤ count.toNat ∧ count.toNat ≤ 32)
  | .halt => true
  | .nop => true
  | .mset _ => true
  | .fadd _ _ _ _ => true
  | .fsub _ _ _ _ => true
  | .fneg _ _ _ => true
  | .fmul _ _ _ _ => true
  | .fsqr _ _ _ => true
  | .finv _ _ _ _ => true
  | .fsqrt _ _ _ _ => true
  | .fsel _ _ _ _ _ => true
  | .fisz _ _ _ => true
  | .feq _ _ _ _ => true
  | .fsgn0 _ _ _ => true
  | .fmov _ _ => true
  | .montmul _ _ _ _ => true
  | .montred _ _ _ _ => true
  | .fldi _ _ _ => true
  | .rawi _ _ => true
  | .rawr2 _ _ => true
  | .fld _ _ _ _ => true
  | .fst _ _ _ => true
  | .fldw _ _ _ => true
  | .fldu64 _ _ _ => true
  | .rawld _ _ => true
  | .rawst _ _ => true
  | .mclr _ => true
  | .mand _ _ _ => true
  | .mor _ _ _ => true
  | .mxor _ _ _ => true
  | .mnot _ _ => true
  | .pwadd _ _ _ => true
  | .pwdbl _ _ => true
  | .pwneg _ _ => true
  | .pwisid _ _ => true
  | .pweq _ _ _ => true
  | .pwtoaff _ _ _ => true
  | .pwsetaff _ _ _ => true
  | .pwsmul _ _ _ _ => true
  | .pwclr _ _ => true
  | .pwmap _ _ => true
  | .pwfrac _ _ => true
  | .pwh2c _ => true
  | .pwe2c _ => true
  | .pwsel _ _ _ _ => true
  | .peadd _ _ _ => true
  | .pedbl _ _ => true
  | .peneg _ _ => true
  | .peisid _ _ => true
  | .peeq _ _ _ => true
  | .petoaff _ _ _ => true
  | .pesetaff _ _ _ => true
  | .pesmul _ _ _ _ => true
  | .peclr _ _ => true
  | .pesel _ _ _ _ => true
  | .xmd _ => true

end Sys2Proof
end

