-- ==== Sys2Proof/Decode.lean ====
section
/-! DEFINITION. The decoder of 30_encoding.md §§1 to 3, total on every 32-bit word and rejecting by name, the
encoder written from the same tables, the opcode map of R118 as a list of rows, and the assembler syntax of R125 and
R126. -/

namespace Sys2Proof

/-- Why a word is not a command. The machine reports each as E_ILLEGAL (60_exceptions.md R341). -/
inductive DecodeError
  /-- the opcode is reserved (30_encoding.md R119) -/
  | reservedOpcode
  /-- a reserved bit, an unused field, or the F bit of a policy-`0` command is not 0 (30_encoding.md R120) -/
  | reservedBits
  /-- the count of H2F is not 1 to 32 (30_encoding.md R121) -/
  | badCount
  deriving DecidableEq, Repr

/-- The field of `len` bits of a word whose lowest bit is `lo`, as an unsigned integer (00_scope.md R16). -/
def bitsOf (w : Insn) (lo len : Nat) : Nat := w.toNat / 2 ^ lo % 2 ^ len

/-- The F bit (30_encoding.md R112). -/
def fselOf (w : Insn) : FieldSel := if bitsOf w 25 1 = 0 then .p else .q

/-- `rd`, bits [24:20] of every format (30_encoding.md R113 to R115). -/
def rdOf (w : Insn) : FReg := Fin.ofNat 32 (bitsOf w 20 5)

/-- `rs1`, bits [19:15] of format R. -/
def rs1Of (w : Insn) : FReg := Fin.ofNat 32 (bitsOf w 15 5)

/-- `rs2`, bits [14:10] of format R. -/
def rs2Of (w : Insn) : FReg := Fin.ofNat 32 (bitsOf w 10 5)

/-- `md`, bits [9:7] of format R. -/
def mdOf (w : Insn) : MReg := Fin.ofNat 8 (bitsOf w 7 3)

/-- `ms`, bits [6:4] of format R. -/
def msOf (w : Insn) : MReg := Fin.ofNat 8 (bitsOf w 4 3)

/-- `mt`, bits [3:1] of format R. -/
def mtOf (w : Insn) : MReg := Fin.ofNat 8 (bitsOf w 1 3)

/-- `imm16`, bits [15:0] of format I (30_encoding.md R114). -/
def immOf (w : Insn) : BitVec 16 := BitVec.ofNat 16 (bitsOf w 0 16)

/-- `md`, bits [14:12] of format M (30_encoding.md R115). -/
def mdMOf (w : Insn) : MReg := Fin.ofNat 8 (bitsOf w 12 3)

/-- `addr12`, bits [11:0] of format M. -/
def addrOf (w : Insn) : BitVec 12 := BitVec.ofNat 12 (bitsOf w 0 12)

/-- Accept the command if every listed field (lowest bit, length) is 0: these are the bits below the opcode that
the row's `mask` covers and its `match` has as 0 (30_encoding.md R118, R120). -/
def accept (w : Insn) (mustBeZero : List (Nat × Nat)) (i : Instr) : Except DecodeError Instr :=
  if mustBeZero.all (fun r => bitsOf w r.1 r.2 == 0) then .ok i else .error .reservedBits

/-- `accept`, with the added condition of H2F on its count (30_encoding.md R121). -/
def acceptCount (w : Insn) (mustBeZero : List (Nat × Nat)) (i : Instr) : Except DecodeError Instr :=
  match accept w mustBeZero i with
  | .ok j => if j.wellFormed then .ok j else .error .badCount
  | .error e => .error e

/-- The decoder: the opcode, bits [31:26], alone selects the row (30_encoding.md R111); then the row's other
fixed bits are checked and its fields read. -/
def decode (w : Insn) : Except DecodeError Instr :=
  match bitsOf w 26 6 with
  | 0x01 => accept w [(0, 26)] .halt
  | 0x02 => accept w [(0, 26)] .nop
  | 0x03 => accept w [(0, 7), (10, 16)] (.mset (mdOf w))
  | 0x04 => accept w [(0, 10)] (.fadd (fselOf w) (rdOf w) (rs1Of w) (rs2Of w))
  | 0x05 => accept w [(0, 10)] (.fsub (fselOf w) (rdOf w) (rs1Of w) (rs2Of w))
  | 0x06 => accept w [(0, 15)] (.fneg (fselOf w) (rdOf w) (rs1Of w))
  | 0x07 => accept w [(0, 10)] (.fmul (fselOf w) (rdOf w) (rs1Of w) (rs2Of w))
  | 0x08 => accept w [(0, 15)] (.fsqr (fselOf w) (rdOf w) (rs1Of w))
  | 0x09 => accept w [(0, 7), (10, 5)] (.finv (fselOf w) (rdOf w) (mdOf w) (rs1Of w))
  | 0x0A => accept w [(0, 7), (10, 5)] (.fsqrt (fselOf w) (rdOf w) (mdOf w) (rs1Of w))
  | 0x0B => accept w [(0, 4), (7, 3)] (.fsel (fselOf w) (rdOf w) (rs1Of w) (rs2Of w) (msOf w))
  | 0x0C => accept w [(0, 7), (10, 5), (20, 5)] (.fisz (fselOf w) (mdOf w) (rs1Of w))
  | 0x0D => accept w [(0, 7), (20, 5)] (.feq (fselOf w) (mdOf w) (rs1Of w) (rs2Of w))
  | 0x0E => accept w [(0, 7), (10, 5), (20, 5)] (.fsgn0 (fselOf w) (mdOf w) (rs1Of w))
  | 0x0F => accept w [(0, 15), (25, 1)] (.fmov (rdOf w) (rs1Of w))
  | 0x10 => accept w [(0, 10)] (.montmul (fselOf w) (rdOf w) (rs1Of w) (rs2Of w))
  | 0x11 => accept w [(0, 10)] (.montred (fselOf w) (rdOf w) (rs1Of w) (rs2Of w))
  | 0x12 => accept w [(16, 4)] (.fldi (fselOf w) (rdOf w) (immOf w))
  | 0x13 => accept w [(16, 4), (25, 1)] (.rawi (rdOf w) (immOf w))
  | 0x14 => accept w [(0, 20)] (.rawr2 (fselOf w) (rdOf w))
  | 0x15 => accept w [(15, 5)] (.fld (fselOf w) (rdOf w) (mdMOf w) (addrOf w))
  | 0x16 => accept w [(12, 8)] (.fst (fselOf w) (rdOf w) (addrOf w))
  | 0x17 => accept w [(12, 8)] (.fldw (fselOf w) (rdOf w) (addrOf w))
  | 0x18 => accept w [(12, 8)] (.fldu64 (fselOf w) (rdOf w) (addrOf w))
  | 0x19 => accept w [(12, 8), (25, 1)] (.rawld (rdOf w) (addrOf w))
  | 0x1A => accept w [(12, 8), (25, 1)] (.rawst (rdOf w) (addrOf w))
  | 0x1B => accept w [(0, 7), (10, 16)] (.mclr (mdOf w))
  | 0x1C => accept w [(0, 1), (10, 16)] (.mand (mdOf w) (msOf w) (mtOf w))
  | 0x1D => accept w [(0, 1), (10, 16)] (.mor (mdOf w) (msOf w) (mtOf w))
  | 0x1E => accept w [(0, 1), (10, 16)] (.mxor (mdOf w) (msOf w) (mtOf w))
  | 0x1F => accept w [(0, 4), (10, 16)] (.mnot (mdOf w) (msOf w))
  | 0x20 => accept w [(0, 10), (25, 1)] (.pwadd (rdOf w) (rs1Of w) (rs2Of w))
  | 0x21 => accept w [(0, 15), (25, 1)] (.pwdbl (rdOf w) (rs1Of w))
  | 0x22 => accept w [(0, 15), (25, 1)] (.pwneg (rdOf w) (rs1Of w))
  | 0x23 => accept w [(0, 7), (10, 5), (20, 6)] (.pwisid (mdOf w) (rs1Of w))
  | 0x24 => accept w [(0, 7), (20, 6)] (.pweq (mdOf w) (rs1Of w) (rs2Of w))
  | 0x25 => accept w [(0, 7), (10, 5), (25, 1)] (.pwtoaff (rdOf w) (mdOf w) (rs1Of w))
  | 0x26 => accept w [(0, 7), (10, 5), (25, 1)] (.pwsetaff (rdOf w) (mdOf w) (rs1Of w))
  | 0x27 => accept w [(0, 10)] (.pwsmul (fselOf w) (rdOf w) (rs1Of w) (rs2Of w))
  | 0x28 => accept w [(0, 15), (25, 1)] (.pwclr (rdOf w) (rs1Of w))
  | 0x29 => accept w [(0, 15), (25, 1)] (.pwmap (rdOf w) (rs1Of w))
  | 0x2A => accept w [(0, 15), (25, 1)] (.pwfrac (rdOf w) (rs1Of w))
  | 0x2B => accept w [(0, 20), (25, 1)] (.pwh2c (rdOf w))
  | 0x2C => accept w [(0, 20), (25, 1)] (.pwe2c (rdOf w))
  | 0x2D => accept w [(0, 4), (7, 3), (25, 1)] (.pwsel (rdOf w) (rs1Of w) (rs2Of w) (msOf w))
  | 0x30 => accept w [(0, 10), (25, 1)] (.peadd (rdOf w) (rs1Of w) (rs2Of w))
  | 0x31 => accept w [(0, 15), (25, 1)] (.pedbl (rdOf w) (rs1Of w))
  | 0x32 => accept w [(0, 15), (25, 1)] (.peneg (rdOf w) (rs1Of w))
  | 0x33 => accept w [(0, 7), (10, 5), (20, 6)] (.peisid (mdOf w) (rs1Of w))
  | 0x34 => accept w [(0, 7), (20, 6)] (.peeq (mdOf w) (rs1Of w) (rs2Of w))
  | 0x35 => accept w [(0, 7), (10, 5), (25, 1)] (.petoaff (rdOf w) (mdOf w) (rs1Of w))
  | 0x36 => accept w [(0, 7), (10, 5), (25, 1)] (.pesetaff (rdOf w) (mdOf w) (rs1Of w))
  | 0x37 => accept w [(0, 10)] (.pesmul (fselOf w) (rdOf w) (rs1Of w) (rs2Of w))
  | 0x38 => accept w [(0, 15), (25, 1)] (.peclr (rdOf w) (rs1Of w))
  | 0x39 => accept w [(0, 4), (7, 3), (25, 1)] (.pesel (rdOf w) (rs1Of w) (rs2Of w) (msOf w))
  | 0x3C => acceptCount w [(16, 4)] (.h2f (fselOf w) (rdOf w) (immOf w))
  | 0x3D => accept w [(12, 14)] (.xmd (addrOf w))
  | _ => .error .reservedOpcode

/-- The instruction the decoder reads from the `nbits` low bits of `w`, numbered as spec/opcode_table.json numbers
them. Every command is one 32-bit word (30_encoding.md R110), so longer words are none. -/
def decodeTableWord (nbits w : Nat) : Option Instr :=
  if nbits ≤ 32 then
    match decode (BitVec.ofNat 32 (w % 2 ^ nbits)) with
    | .ok i => some i
    | .error _ => none
  else none

/-! ### The encoder -/

/-- The F bit of a modulus selector (30_encoding.md R112). -/
def fbit : FieldSel → Nat
  | .p => 0
  | .q => 1

/-- A word of format R (30_encoding.md R113). -/
def wordR (op f rd rs1 rs2 md ms mt : Nat) : Insn :=
  BitVec.ofNat 32 (op * 2 ^ 26 + f * 2 ^ 25 + rd * 2 ^ 20 + rs1 * 2 ^ 15 + rs2 * 2 ^ 10 + md * 2 ^ 7
    + ms * 2 ^ 4 + mt * 2)

/-- A word of format I (30_encoding.md R114). -/
def wordI (op f rd imm : Nat) : Insn :=
  BitVec.ofNat 32 (op * 2 ^ 26 + f * 2 ^ 25 + rd * 2 ^ 20 + imm)

/-- A word of format M (30_encoding.md R115). -/
def wordM (op f rd md addr : Nat) : Insn :=
  BitVec.ofNat 32 (op * 2 ^ 26 + f * 2 ^ 25 + rd * 2 ^ 20 + md * 2 ^ 12 + addr)

/-- The word of a command (30_encoding.md R113 to R115, R118): unused fields and reserved bits are 0. -/
def encode : Instr → Insn
  | .halt => wordR 0x01 0 0 0 0 0 0 0
  | .nop => wordR 0x02 0 0 0 0 0 0 0
  | .mset md => wordR 0x03 0 0 0 0 md.val 0 0
  | .fadd f rd rs1 rs2 => wordR 0x04 (fbit f) rd.val rs1.val rs2.val 0 0 0
  | .fsub f rd rs1 rs2 => wordR 0x05 (fbit f) rd.val rs1.val rs2.val 0 0 0
  | .fneg f rd rs1 => wordR 0x06 (fbit f) rd.val rs1.val 0 0 0 0
  | .fmul f rd rs1 rs2 => wordR 0x07 (fbit f) rd.val rs1.val rs2.val 0 0 0
  | .fsqr f rd rs1 => wordR 0x08 (fbit f) rd.val rs1.val 0 0 0 0
  | .finv f rd md rs1 => wordR 0x09 (fbit f) rd.val rs1.val 0 md.val 0 0
  | .fsqrt f rd md rs1 => wordR 0x0A (fbit f) rd.val rs1.val 0 md.val 0 0
  | .fsel f rd rs1 rs2 ms => wordR 0x0B (fbit f) rd.val rs1.val rs2.val 0 ms.val 0
  | .fisz f md rs1 => wordR 0x0C (fbit f) 0 rs1.val 0 md.val 0 0
  | .feq f md rs1 rs2 => wordR 0x0D (fbit f) 0 rs1.val rs2.val md.val 0 0
  | .fsgn0 f md rs1 => wordR 0x0E (fbit f) 0 rs1.val 0 md.val 0 0
  | .fmov rd rs1 => wordR 0x0F 0 rd.val rs1.val 0 0 0 0
  | .montmul f rd rs1 rs2 => wordR 0x10 (fbit f) rd.val rs1.val rs2.val 0 0 0
  | .montred f rd rs1 rs2 => wordR 0x11 (fbit f) rd.val rs1.val rs2.val 0 0 0
  | .fldi f rd imm => wordI 0x12 (fbit f) rd.val imm.toNat
  | .rawi rd imm => wordI 0x13 0 rd.val imm.toNat
  | .rawr2 f rd => wordR 0x14 (fbit f) rd.val 0 0 0 0 0
  | .fld f rd md addr => wordM 0x15 (fbit f) rd.val md.val addr.toNat
  | .fst f rd addr => wordM 0x16 (fbit f) rd.val 0 addr.toNat
  | .fldw f rd addr => wordM 0x17 (fbit f) rd.val 0 addr.toNat
  | .fldu64 f rd addr => wordM 0x18 (fbit f) rd.val 0 addr.toNat
  | .rawld rd addr => wordM 0x19 0 rd.val 0 addr.toNat
  | .rawst rd addr => wordM 0x1A 0 rd.val 0 addr.toNat
  | .mclr md => wordR 0x1B 0 0 0 0 md.val 0 0
  | .mand md ms mt => wordR 0x1C 0 0 0 0 md.val ms.val mt.val
  | .mor md ms mt => wordR 0x1D 0 0 0 0 md.val ms.val mt.val
  | .mxor md ms mt => wordR 0x1E 0 0 0 0 md.val ms.val mt.val
  | .mnot md ms => wordR 0x1F 0 0 0 0 md.val ms.val 0
  | .pwadd rd rs1 rs2 => wordR 0x20 0 rd.val rs1.val rs2.val 0 0 0
  | .pwdbl rd rs1 => wordR 0x21 0 rd.val rs1.val 0 0 0 0
  | .pwneg rd rs1 => wordR 0x22 0 rd.val rs1.val 0 0 0 0
  | .pwisid md rs1 => wordR 0x23 0 0 rs1.val 0 md.val 0 0
  | .pweq md rs1 rs2 => wordR 0x24 0 0 rs1.val rs2.val md.val 0 0
  | .pwtoaff rd md rs1 => wordR 0x25 0 rd.val rs1.val 0 md.val 0 0
  | .pwsetaff rd md rs1 => wordR 0x26 0 rd.val rs1.val 0 md.val 0 0
  | .pwsmul f rd rs1 rs2 => wordR 0x27 (fbit f) rd.val rs1.val rs2.val 0 0 0
  | .pwclr rd rs1 => wordR 0x28 0 rd.val rs1.val 0 0 0 0
  | .pwmap rd rs1 => wordR 0x29 0 rd.val rs1.val 0 0 0 0
  | .pwfrac rd rs1 => wordR 0x2A 0 rd.val rs1.val 0 0 0 0
  | .pwh2c rd => wordR 0x2B 0 rd.val 0 0 0 0 0
  | .pwe2c rd => wordR 0x2C 0 rd.val 0 0 0 0 0
  | .pwsel rd rs1 rs2 ms => wordR 0x2D 0 rd.val rs1.val rs2.val 0 ms.val 0
  | .peadd rd rs1 rs2 => wordR 0x30 0 rd.val rs1.val rs2.val 0 0 0
  | .pedbl rd rs1 => wordR 0x31 0 rd.val rs1.val 0 0 0 0
  | .peneg rd rs1 => wordR 0x32 0 rd.val rs1.val 0 0 0 0
  | .peisid md rs1 => wordR 0x33 0 0 rs1.val 0 md.val 0 0
  | .peeq md rs1 rs2 => wordR 0x34 0 0 rs1.val rs2.val md.val 0 0
  | .petoaff rd md rs1 => wordR 0x35 0 rd.val rs1.val 0 md.val 0 0
  | .pesetaff rd md rs1 => wordR 0x36 0 rd.val rs1.val 0 md.val 0 0
  | .pesmul f rd rs1 rs2 => wordR 0x37 (fbit f) rd.val rs1.val rs2.val 0 0 0
  | .peclr rd rs1 => wordR 0x38 0 rd.val rs1.val 0 0 0 0
  | .pesel rd rs1 rs2 ms => wordR 0x39 0 rd.val rs1.val rs2.val 0 ms.val 0
  | .h2f f rd count => wordI 0x3C (fbit f) rd.val count.toNat
  | .xmd addr => wordM 0x3D 0 0 0 addr.toNat

/-! ### The opcode map as a table -/

/-- The opcode of a command (30_encoding.md R118). -/
def Instr.opcode : Instr → Nat
  | .halt => 0x01
  | .nop => 0x02
  | .mset _ => 0x03
  | .fadd _ _ _ _ => 0x04
  | .fsub _ _ _ _ => 0x05
  | .fneg _ _ _ => 0x06
  | .fmul _ _ _ _ => 0x07
  | .fsqr _ _ _ => 0x08
  | .finv _ _ _ _ => 0x09
  | .fsqrt _ _ _ _ => 0x0A
  | .fsel _ _ _ _ _ => 0x0B
  | .fisz _ _ _ => 0x0C
  | .feq _ _ _ _ => 0x0D
  | .fsgn0 _ _ _ => 0x0E
  | .fmov _ _ => 0x0F
  | .montmul _ _ _ _ => 0x10
  | .montred _ _ _ _ => 0x11
  | .fldi _ _ _ => 0x12
  | .rawi _ _ => 0x13
  | .rawr2 _ _ => 0x14
  | .fld _ _ _ _ => 0x15
  | .fst _ _ _ => 0x16
  | .fldw _ _ _ => 0x17
  | .fldu64 _ _ _ => 0x18
  | .rawld _ _ => 0x19
  | .rawst _ _ => 0x1A
  | .mclr _ => 0x1B
  | .mand _ _ _ => 0x1C
  | .mor _ _ _ => 0x1D
  | .mxor _ _ _ => 0x1E
  | .mnot _ _ => 0x1F
  | .pwadd _ _ _ => 0x20
  | .pwdbl _ _ => 0x21
  | .pwneg _ _ => 0x22
  | .pwisid _ _ => 0x23
  | .pweq _ _ _ => 0x24
  | .pwtoaff _ _ _ => 0x25
  | .pwsetaff _ _ _ => 0x26
  | .pwsmul _ _ _ _ => 0x27
  | .pwclr _ _ => 0x28
  | .pwmap _ _ => 0x29
  | .pwfrac _ _ => 0x2A
  | .pwh2c _ => 0x2B
  | .pwe2c _ => 0x2C
  | .pwsel _ _ _ _ => 0x2D
  | .peadd _ _ _ => 0x30
  | .pedbl _ _ => 0x31
  | .peneg _ _ => 0x32
  | .peisid _ _ => 0x33
  | .peeq _ _ _ => 0x34
  | .petoaff _ _ _ => 0x35
  | .pesetaff _ _ _ => 0x36
  | .pesmul _ _ _ _ => 0x37
  | .peclr _ _ => 0x38
  | .pesel _ _ _ _ => 0x39
  | .h2f _ _ _ => 0x3C
  | .xmd _ => 0x3D

/-- The mnemonic of a command, as spec/opcode_table.json spells it. -/
def Instr.mnemonic : Instr → String
  | .halt => "HALT"
  | .nop => "NOP"
  | .mset _ => "MSET"
  | .fadd _ _ _ _ => "FADD"
  | .fsub _ _ _ _ => "FSUB"
  | .fneg _ _ _ => "FNEG"
  | .fmul _ _ _ _ => "FMUL"
  | .fsqr _ _ _ => "FSQR"
  | .finv _ _ _ _ => "FINV"
  | .fsqrt _ _ _ _ => "FSQRT"
  | .fsel _ _ _ _ _ => "FSEL"
  | .fisz _ _ _ => "FISZ"
  | .feq _ _ _ _ => "FEQ"
  | .fsgn0 _ _ _ => "FSGN0"
  | .fmov _ _ => "FMOV"
  | .montmul _ _ _ _ => "MONTMUL"
  | .montred _ _ _ _ => "MONTRED"
  | .fldi _ _ _ => "FLDI"
  | .rawi _ _ => "RAWI"
  | .rawr2 _ _ => "RAWR2"
  | .fld _ _ _ _ => "FLD"
  | .fst _ _ _ => "FST"
  | .fldw _ _ _ => "FLDW"
  | .fldu64 _ _ _ => "FLDU64"
  | .rawld _ _ => "RAWLD"
  | .rawst _ _ => "RAWST"
  | .mclr _ => "MCLR"
  | .mand _ _ _ => "MAND"
  | .mor _ _ _ => "MOR"
  | .mxor _ _ _ => "MXOR"
  | .mnot _ _ => "MNOT"
  | .pwadd _ _ _ => "PWADD"
  | .pwdbl _ _ => "PWDBL"
  | .pwneg _ _ => "PWNEG"
  | .pwisid _ _ => "PWISID"
  | .pweq _ _ _ => "PWEQ"
  | .pwtoaff _ _ _ => "PWTOAFF"
  | .pwsetaff _ _ _ => "PWSETAFF"
  | .pwsmul _ _ _ _ => "PWSMUL"
  | .pwclr _ _ => "PWCLR"
  | .pwmap _ _ => "PWMAP"
  | .pwfrac _ _ => "PWFRAC"
  | .pwh2c _ => "PWH2C"
  | .pwe2c _ => "PWE2C"
  | .pwsel _ _ _ _ => "PWSEL"
  | .peadd _ _ _ => "PEADD"
  | .pedbl _ _ => "PEDBL"
  | .peneg _ _ => "PENEG"
  | .peisid _ _ => "PEISID"
  | .peeq _ _ _ => "PEEQ"
  | .petoaff _ _ _ => "PETOAFF"
  | .pesetaff _ _ _ => "PESETAFF"
  | .pesmul _ _ _ _ => "PESMUL"
  | .peclr _ _ => "PECLR"
  | .pesel _ _ _ _ => "PESEL"
  | .h2f _ _ _ => "H2F"
  | .xmd _ => "XMD"

/-- One row of the opcode map of 30_encoding.md R118. -/
structure OpcodeRow where
  mnemonic : String
  opcode : Nat
  matchWord : Insn
  mask : Insn
  deriving DecidableEq, Repr

/-- Rows 1 to 15 of the opcode map of 30_encoding.md R118. -/
def opcodeRows1 : List OpcodeRow :=
  [⟨"HALT", 0x01, 0x04000000#32, 0xFFFFFFFF#32⟩,
   ⟨"NOP", 0x02, 0x08000000#32, 0xFFFFFFFF#32⟩,
   ⟨"MSET", 0x03, 0x0C000000#32, 0xFFFFFC7F#32⟩,
   ⟨"FADD", 0x04, 0x10000000#32, 0xFC0003FF#32⟩,
   ⟨"FSUB", 0x05, 0x14000000#32, 0xFC0003FF#32⟩,
   ⟨"FNEG", 0x06, 0x18000000#32, 0xFC007FFF#32⟩,
   ⟨"FMUL", 0x07, 0x1C000000#32, 0xFC0003FF#32⟩,
   ⟨"FSQR", 0x08, 0x20000000#32, 0xFC007FFF#32⟩,
   ⟨"FINV", 0x09, 0x24000000#32, 0xFC007C7F#32⟩,
   ⟨"FSQRT", 0x0A, 0x28000000#32, 0xFC007C7F#32⟩,
   ⟨"FSEL", 0x0B, 0x2C000000#32, 0xFC00038F#32⟩,
   ⟨"FISZ", 0x0C, 0x30000000#32, 0xFDF07C7F#32⟩,
   ⟨"FEQ", 0x0D, 0x34000000#32, 0xFDF0007F#32⟩,
   ⟨"FSGN0", 0x0E, 0x38000000#32, 0xFDF07C7F#32⟩,
   ⟨"FMOV", 0x0F, 0x3C000000#32, 0xFE007FFF#32⟩]

/-- Rows 16 to 30 of the opcode map of 30_encoding.md R118. -/
def opcodeRows2 : List OpcodeRow :=
  [⟨"MONTMUL", 0x10, 0x40000000#32, 0xFC0003FF#32⟩,
   ⟨"MONTRED", 0x11, 0x44000000#32, 0xFC0003FF#32⟩,
   ⟨"FLDI", 0x12, 0x48000000#32, 0xFC0F0000#32⟩,
   ⟨"RAWI", 0x13, 0x4C000000#32, 0xFE0F0000#32⟩,
   ⟨"RAWR2", 0x14, 0x50000000#32, 0xFC0FFFFF#32⟩,
   ⟨"FLD", 0x15, 0x54000000#32, 0xFC0F8000#32⟩,
   ⟨"FST", 0x16, 0x58000000#32, 0xFC0FF000#32⟩,
   ⟨"FLDW", 0x17, 0x5C000000#32, 0xFC0FF000#32⟩,
   ⟨"FLDU64", 0x18, 0x60000000#32, 0xFC0FF000#32⟩,
   ⟨"RAWLD", 0x19, 0x64000000#32, 0xFE0FF000#32⟩,
   ⟨"RAWST", 0x1A, 0x68000000#32, 0xFE0FF000#32⟩,
   ⟨"MCLR", 0x1B, 0x6C000000#32, 0xFFFFFC7F#32⟩,
   ⟨"MAND", 0x1C, 0x70000000#32, 0xFFFFFC01#32⟩,
   ⟨"MOR", 0x1D, 0x74000000#32, 0xFFFFFC01#32⟩,
   ⟨"MXOR", 0x1E, 0x78000000#32, 0xFFFFFC01#32⟩]

/-- Rows 31 to 45 of the opcode map of 30_encoding.md R118. -/
def opcodeRows3 : List OpcodeRow :=
  [⟨"MNOT", 0x1F, 0x7C000000#32, 0xFFFFFC0F#32⟩,
   ⟨"PWADD", 0x20, 0x80000000#32, 0xFE0003FF#32⟩,
   ⟨"PWDBL", 0x21, 0x84000000#32, 0xFE007FFF#32⟩,
   ⟨"PWNEG", 0x22, 0x88000000#32, 0xFE007FFF#32⟩,
   ⟨"PWISID", 0x23, 0x8C000000#32, 0xFFF07C7F#32⟩,
   ⟨"PWEQ", 0x24, 0x90000000#32, 0xFFF0007F#32⟩,
   ⟨"PWTOAFF", 0x25, 0x94000000#32, 0xFE007C7F#32⟩,
   ⟨"PWSETAFF", 0x26, 0x98000000#32, 0xFE007C7F#32⟩,
   ⟨"PWSMUL", 0x27, 0x9C000000#32, 0xFC0003FF#32⟩,
   ⟨"PWCLR", 0x28, 0xA0000000#32, 0xFE007FFF#32⟩,
   ⟨"PWMAP", 0x29, 0xA4000000#32, 0xFE007FFF#32⟩,
   ⟨"PWFRAC", 0x2A, 0xA8000000#32, 0xFE007FFF#32⟩,
   ⟨"PWH2C", 0x2B, 0xAC000000#32, 0xFE0FFFFF#32⟩,
   ⟨"PWE2C", 0x2C, 0xB0000000#32, 0xFE0FFFFF#32⟩,
   ⟨"PWSEL", 0x2D, 0xB4000000#32, 0xFE00038F#32⟩]

/-- Rows 46 to 57 of the opcode map of 30_encoding.md R118. -/
def opcodeRows4 : List OpcodeRow :=
  [⟨"PEADD", 0x30, 0xC0000000#32, 0xFE0003FF#32⟩,
   ⟨"PEDBL", 0x31, 0xC4000000#32, 0xFE007FFF#32⟩,
   ⟨"PENEG", 0x32, 0xC8000000#32, 0xFE007FFF#32⟩,
   ⟨"PEISID", 0x33, 0xCC000000#32, 0xFFF07C7F#32⟩,
   ⟨"PEEQ", 0x34, 0xD0000000#32, 0xFFF0007F#32⟩,
   ⟨"PETOAFF", 0x35, 0xD4000000#32, 0xFE007C7F#32⟩,
   ⟨"PESETAFF", 0x36, 0xD8000000#32, 0xFE007C7F#32⟩,
   ⟨"PESMUL", 0x37, 0xDC000000#32, 0xFC0003FF#32⟩,
   ⟨"PECLR", 0x38, 0xE0000000#32, 0xFE007FFF#32⟩,
   ⟨"PESEL", 0x39, 0xE4000000#32, 0xFE00038F#32⟩,
   ⟨"H2F", 0x3C, 0xF0000000#32, 0xFC0F0000#32⟩,
   ⟨"XMD", 0x3D, 0xF4000000#32, 0xFFFFF000#32⟩]

/-- The opcode map of 30_encoding.md R118: mnemonic, opcode, `match` and `mask`. -/
def opcodeRows : List OpcodeRow := opcodeRows1 ++ opcodeRows2 ++ opcodeRows3 ++ opcodeRows4

/-! ### Assembler syntax (30_encoding.md R125, R126) -/

/-- The suffix that names the modulus (30_encoding.md R125). -/
def suffixOf : Option FieldSel → String
  | none => ""
  | some .p => ".p"
  | some .q => ".q"

/-- `f0` … `f31`; a group is written as its base register. -/
def fieldName (r : FReg) : String := "f" ++ toString r.val

/-- `m0` … `m7`. -/
def maskName (j : MReg) : String := "m" ++ toString j.val

/-- Operands separated by commas. -/
def commaJoin : List String → String
  | [] => ""
  | [a] => a
  | a :: rest => a ++ ", " ++ commaJoin rest

/-- One line of assembler text (30_encoding.md R125). -/
def asmLine (name : String) (f : Option FieldSel) (operands : List String) : String :=
  match operands with
  | [] => name ++ suffixOf f
  | _ => name ++ suffixOf f ++ " " ++ commaJoin operands

/-- The assembler text of a command, its operands in the order of the syntax column of 30_encoding.md R118. R125 lets
immediates and addresses be decimal or hexadecimal and lets the suffix `.p` be left out; that this text has them decimal
and writes `.p` is a DESIGN CHOICE (log entry 27). -/
def Instr.assembly : Instr → String
  | .halt => asmLine "halt" none []
  | .nop => asmLine "nop" none []
  | .mset md => asmLine "mset" none [maskName md]
  | .fadd f rd rs1 rs2 => asmLine "fadd" (some f) [fieldName rd, fieldName rs1, fieldName rs2]
  | .fsub f rd rs1 rs2 => asmLine "fsub" (some f) [fieldName rd, fieldName rs1, fieldName rs2]
  | .fneg f rd rs1 => asmLine "fneg" (some f) [fieldName rd, fieldName rs1]
  | .fmul f rd rs1 rs2 => asmLine "fmul" (some f) [fieldName rd, fieldName rs1, fieldName rs2]
  | .fsqr f rd rs1 => asmLine "fsqr" (some f) [fieldName rd, fieldName rs1]
  | .finv f rd md rs1 => asmLine "finv" (some f) [fieldName rd, maskName md, fieldName rs1]
  | .fsqrt f rd md rs1 => asmLine "fsqrt" (some f) [fieldName rd, maskName md, fieldName rs1]
  | .fsel f rd rs1 rs2 ms => asmLine "fsel" (some f) [fieldName rd, fieldName rs1, fieldName rs2, maskName ms]
  | .fisz f md rs1 => asmLine "fisz" (some f) [maskName md, fieldName rs1]
  | .feq f md rs1 rs2 => asmLine "feq" (some f) [maskName md, fieldName rs1, fieldName rs2]
  | .fsgn0 f md rs1 => asmLine "fsgn0" (some f) [maskName md, fieldName rs1]
  | .fmov rd rs1 => asmLine "fmov" none [fieldName rd, fieldName rs1]
  | .montmul f rd rs1 rs2 => asmLine "montmul" (some f) [fieldName rd, fieldName rs1, fieldName rs2]
  | .montred f rd rs1 rs2 => asmLine "montred" (some f) [fieldName rd, fieldName rs1, fieldName rs2]
  | .fldi f rd imm => asmLine "fldi" (some f) [fieldName rd, toString imm.toNat]
  | .rawi rd imm => asmLine "rawi" none [fieldName rd, toString imm.toNat]
  | .rawr2 f rd => asmLine "rawr2" (some f) [fieldName rd]
  | .fld f rd md addr => asmLine "fld" (some f) [fieldName rd, maskName md, toString addr.toNat]
  | .fst f rd addr => asmLine "fst" (some f) [fieldName rd, toString addr.toNat]
  | .fldw f rd addr => asmLine "fldw" (some f) [fieldName rd, toString addr.toNat]
  | .fldu64 f rd addr => asmLine "fldu64" (some f) [fieldName rd, toString addr.toNat]
  | .rawld rd addr => asmLine "rawld" none [fieldName rd, toString addr.toNat]
  | .rawst rd addr => asmLine "rawst" none [fieldName rd, toString addr.toNat]
  | .mclr md => asmLine "mclr" none [maskName md]
  | .mand md ms mt => asmLine "mand" none [maskName md, maskName ms, maskName mt]
  | .mor md ms mt => asmLine "mor" none [maskName md, maskName ms, maskName mt]
  | .mxor md ms mt => asmLine "mxor" none [maskName md, maskName ms, maskName mt]
  | .mnot md ms => asmLine "mnot" none [maskName md, maskName ms]
  | .pwadd rd rs1 rs2 => asmLine "pwadd" none [fieldName rd, fieldName rs1, fieldName rs2]
  | .pwdbl rd rs1 => asmLine "pwdbl" none [fieldName rd, fieldName rs1]
  | .pwneg rd rs1 => asmLine "pwneg" none [fieldName rd, fieldName rs1]
  | .pwisid md rs1 => asmLine "pwisid" none [maskName md, fieldName rs1]
  | .pweq md rs1 rs2 => asmLine "pweq" none [maskName md, fieldName rs1, fieldName rs2]
  | .pwtoaff rd md rs1 => asmLine "pwtoaff" none [fieldName rd, maskName md, fieldName rs1]
  | .pwsetaff rd md rs1 => asmLine "pwsetaff" none [fieldName rd, maskName md, fieldName rs1]
  | .pwsmul f rd rs1 rs2 => asmLine "pwsmul" (some f) [fieldName rd, fieldName rs1, fieldName rs2]
  | .pwclr rd rs1 => asmLine "pwclr" none [fieldName rd, fieldName rs1]
  | .pwmap rd rs1 => asmLine "pwmap" none [fieldName rd, fieldName rs1]
  | .pwfrac rd rs1 => asmLine "pwfrac" none [fieldName rd, fieldName rs1]
  | .pwh2c rd => asmLine "pwh2c" none [fieldName rd]
  | .pwe2c rd => asmLine "pwe2c" none [fieldName rd]
  | .pwsel rd rs1 rs2 ms => asmLine "pwsel" none [fieldName rd, fieldName rs1, fieldName rs2, maskName ms]
  | .peadd rd rs1 rs2 => asmLine "peadd" none [fieldName rd, fieldName rs1, fieldName rs2]
  | .pedbl rd rs1 => asmLine "pedbl" none [fieldName rd, fieldName rs1]
  | .peneg rd rs1 => asmLine "peneg" none [fieldName rd, fieldName rs1]
  | .peisid md rs1 => asmLine "peisid" none [maskName md, fieldName rs1]
  | .peeq md rs1 rs2 => asmLine "peeq" none [maskName md, fieldName rs1, fieldName rs2]
  | .petoaff rd md rs1 => asmLine "petoaff" none [fieldName rd, maskName md, fieldName rs1]
  | .pesetaff rd md rs1 => asmLine "pesetaff" none [fieldName rd, maskName md, fieldName rs1]
  | .pesmul f rd rs1 rs2 => asmLine "pesmul" (some f) [fieldName rd, fieldName rs1, fieldName rs2]
  | .peclr rd rs1 => asmLine "peclr" none [fieldName rd, fieldName rs1]
  | .pesel rd rs1 rs2 ms => asmLine "pesel" none [fieldName rd, fieldName rs1, fieldName rs2, maskName ms]
  | .h2f f rd count => asmLine "h2f" (some f) [fieldName rd, toString count.toNat]
  | .xmd addr => asmLine "xmd" none [toString addr.toNat]

/-- One hexadecimal digit. -/
def hexDigit (n : Nat) : String :=
  match n with
  | 0 => "0" | 1 => "1" | 2 => "2" | 3 => "3" | 4 => "4" | 5 => "5" | 6 => "6" | 7 => "7"
  | 8 => "8" | 9 => "9" | 10 => "a" | 11 => "b" | 12 => "c" | 13 => "d" | 14 => "e" | _ => "f"

/-- The last `k` hexadecimal digits of a number. -/
def hexDigits : Nat → Nat → String
  | 0, _ => ""
  | k + 1, n => hexDigits k (n / 16) ++ hexDigit (n % 16)

/-- The disassembler: the assembler text of a legal word, `.word` and eight hexadecimal digits for any other
(30_encoding.md R125; log entry 27). -/
def disassemble (w : Insn) : String :=
  match decode w with
  | .ok i => i.assembly
  | .error _ => ".word 0x" ++ hexDigits 8 w.toNat

/-- The pseudo-instructions (30_encoding.md R126). -/
inductive Pseudo
  | fzero (f : FieldSel) (rd : FReg)
  | fone (f : FieldSel) (rd : FReg)
  | tomont (f : FieldSel) (rd rs1 r2 : FReg)
  | frommont (f : FieldSel) (rd rs1 z : FReg)
  | mmov (md ms : MReg)
  | pwcopy (rd rs1 : FReg)
  | pecopy (rd rs1 : FReg)
  deriving DecidableEq, Repr

/-- The one command a pseudo-instruction stands for (30_encoding.md R126). -/
def Pseudo.expand : Pseudo → Instr
  | .fzero f rd => .fldi f rd 0
  | .fone f rd => .fldi f rd 1
  | .tomont f rd rs1 r2 => .montmul f rd rs1 r2
  | .frommont f rd rs1 z => .montred f rd z rs1
  | .mmov md ms => .mor md ms ms
  | .pwcopy rd rs1 => .pwsel rd rs1 rs1 0
  | .pecopy rd rs1 => .pesel rd rs1 rs1 0

/-- One line of a program: a command, a pseudo-instruction, `.word v`, or `.org i` (30_encoding.md R125). A label
names an index and places nothing. -/
inductive AsmLine
  | command (i : Instr)
  | pseudo (p : Pseudo)
  | word (v : Insn)
  | org (i : Nat)
  deriving DecidableEq, Repr

/-- The words a program places, each with its IMEM index, from `index` on (30_encoding.md R125). -/
def assembleFrom (index : Nat) : List AsmLine → List (Nat × Insn)
  | [] => []
  | .command i :: rest => (index, encode i) :: assembleFrom (index + 1) rest
  | .pseudo p :: rest => (index, encode p.expand) :: assembleFrom (index + 1) rest
  | .word v :: rest => (index, v) :: assembleFrom (index + 1) rest
  | .org i :: rest => assembleFrom i rest

end Sys2Proof
end

