-- ==== Sys2Proof/Machine/State.lean ====
section
/-! DEFINITION. The state of the engine (10_state.md), the pending turns of its agents, the reasons a step can
stop, and the state after power-on reset (10_state.md R57). -/

namespace Sys2Proof.Machine

/-- A memory of `n`-bit cells: pairs of an address and a value, addresses strictly rising and no entry equal to
what an unlisted address reads as (`Memory.wf`). MEM is `Memory 8` (a list of `Host.Cell`), IMEM is
`Memory 32`. -/
abbrev Memory (n : Nat) := List (Nat × BitVec n)

/-- The run state of the sequencer (10_state.md R36). STATUS.BUSY is 1 exactly in `run`. -/
inductive RunState
  | idle
  | run
  deriving DecidableEq, Repr

/-- The error codes of 60_exceptions.md R340. -/
inductive ErrorCode
  | none
  | illegal
  | badReg
  | uninit
  | nonCanon
  | memRange
  | h2fLen
  | pcRange
  | abort
  deriving DecidableEq, Repr

/-- What a host access does: a read, or a write of the data on the bus. -/
inductive BusOp
  | read
  | write (data : BitVec 32)
  deriving DecidableEq, Repr

/-- One host access of the engine's 8 KiB window (20_memory.md R75): the offset from BASE, and the width in
bytes. Log entry 9. -/
structure BusAccess where
  offset : BitVec 13
  size : Nat
  op : BusOp
  deriving DecidableEq, Repr

/-- The bus's answer to a host access: the data of a read, and the error line (20_memory.md R79). -/
structure BusResponse where
  data : BitVec 32
  error : Bool
  deriving DecidableEq, Repr

/-- One turn of an agent (00_scope.md R8): the sequencer's, a host access, or the platform's reset input `rst`
(70_reset_and_hazards.md R380). Log entry 8. -/
inductive Turn
  | engine
  | bus (access : BusAccess)
  | rst
  deriving DecidableEq, Repr

/-- Everything the spec gives the machine (10_state.md R57), and the model's own `cfg`, `turns`, `resp`,
`clock` and `writes`. -/
structure State where
  /-- the configuration the engine is built for; not state (00_scope.md R9), never changed. Log entry 1. -/
  cfg : Config
  /-- `F[0..31]`, the contents of the field registers (10_state.md R30) -/
  f : Vector FWord 32
  /-- `FV[0..31]`, their valid bits (10_state.md R32) -/
  fv : Vector Bool 32
  /-- `M[0..7]`, the contents of the mask registers (10_state.md R33) -/
  m : Vector Bool 8
  /-- `MV[0..7]`, their valid bits (10_state.md R33) -/
  mv : Vector Bool 8
  /-- the program counter (10_state.md R35) -/
  pc : BitVec 9
  /-- the run state; STATUS.BUSY (10_state.md R36, R46) -/
  run : RunState
  /-- the abort latch (10_state.md R37) -/
  abortReq : Bool
  /-- STATUS.DONE (10_state.md R46) -/
  done : Bool
  /-- STATUS.ERR (10_state.md R46) -/
  err : Bool
  /-- STATUS.ERRCODE (10_state.md R46) -/
  errcode : ErrorCode
  /-- ENTRY (10_state.md R44) -/
  entry : BitVec 8
  /-- ERRPC (10_state.md R47) -/
  errpc : BitVec 9
  /-- ERRINSN (10_state.md R47) -/
  errinsn : Insn
  /-- IRQEN.DONE_IE (10_state.md R48) -/
  doneIE : Bool
  /-- IRQEN.ERR_IE (10_state.md R48) -/
  errIE : Bool
  /-- IRQST.DONE_IP (10_state.md R48) -/
  doneIP : Bool
  /-- IRQST.ERR_IP (10_state.md R48) -/
  errIP : Bool
  /-- MSGADDR (10_state.md R49) -/
  msgaddr : BitVec 12
  /-- MSGLEN (10_state.md R49) -/
  msglen : BitVec 13
  /-- DSTADDR (10_state.md R49) -/
  dstaddr : BitVec 12
  /-- DSTLEN (10_state.md R49) -/
  dstlen : BitVec 9
  /-- XMDLEN (10_state.md R49) -/
  xmdlen : BitVec 16
  /-- RETIRED (10_state.md R56) -/
  retired : BitVec 32
  /-- IMEM, 256 words (20_memory.md R72) -/
  imem : Memory 32
  /-- MEM, 4096 bytes (20_memory.md R70) -/
  mem : Memory 8
  /-- the model's own: the turns still to come, oldest first; when empty, the sequencer's. Log entry 8. -/
  turns : List Turn
  /-- the model's own: the bus's answer to the last host access. Log entry 9. -/
  resp : BusResponse
  /-- the model's own: the moment of the engine, that the free values of Config are applied to. Log entry 4. -/
  clock : Nat
  /-- the model's own: how many host writes there have been, the moment of the host. Log entry 4. -/
  writes : Nat
  deriving DecidableEq, Repr

/-- Why the machine stops with a fault: never. "No behaviour of this engine is `stuck`"
(93_implementation_defined.md); every error the spec names is an error stop, which is a next state
(60_exceptions.md R350). So the type has no constructor. -/
inductive Fault
  deriving DecidableEq, Repr

/-- Why a command has no meaning. -/
inductive Refusal
  /-- raised by an arm of `exec` whose command has no meaning yet; every command has one, so nothing raises it.
  Safe: the machine stops where the hardware goes on. -/
  | notModelled (mnemonic : String)
  deriving DecidableEq, Repr

/-- The engine after power-on reset (10_state.md R57): IDLE, pc 0, every CSR 0, every field and mask register
invalid. The configuration is the normative one, PALLAS (00_scope.md R12; log entry 1). R57 leaves the contents
of F, M, IMEM and MEM unspecified; the values here are log entries 5, 6 and 7. -/
def State.reset : State where
  cfg := Config.pallas
  f := Vector.replicate 32 0
  fv := Vector.replicate 32 false
  m := Vector.replicate 8 false
  mv := Vector.replicate 8 false
  pc := 0
  run := .idle
  abortReq := false
  done := false
  err := false
  errcode := .none
  entry := 0
  errpc := 0
  errinsn := 0
  doneIE := false
  errIE := false
  doneIP := false
  errIP := false
  msgaddr := 0
  msglen := 0
  dstaddr := 0
  dstlen := 0
  xmdlen := 0
  retired := 0
  imem := []
  mem := []
  turns := []
  resp := ⟨0, false⟩
  clock := 0
  writes := 0

end Sys2Proof.Machine
end

