-- ==== Sys2Proof/Machine/Ops.lean ====
section
/-! DEFINITION. The named operations over memory, registers, masks and run state that every meaning is written
with: reading and writing MEM and IMEM, the register and mask accessors (00_scope.md R17), the completion of a
command (10_state.md R51), the HALT stop (R52), the error stop (60_exceptions.md R350) and the START that is
the only way on from it (60_exceptions.md R353, 10_state.md R50), and the resets (70_reset_and_hazards.md
R380, R381). -/

namespace Sys2Proof.Machine

/-! ### Memories -/

/-- What an address that no entry lists reads as: 0, a DESIGN CHOICE (log entries 6 and 7). -/
def Memory.unlisted {n : Nat} : BitVec n := 0

/-- The cell at address `a`. -/
def Memory.read {n : Nat} : Memory n → Nat → BitVec n
  | [], _ => Memory.unlisted
  | (b, v) :: rest, a => if a = b then v else Memory.read rest a

/-- The entry list for the value `v` at `a` before `rest`: none when it is what an unlisted address reads as. -/
def Memory.entry {n : Nat} (a : Nat) (v : BitVec n) (rest : Memory n) : Memory n :=
  if v = Memory.unlisted then rest else (a, v) :: rest

/-- The memory with cell `a` holding `v`. -/
def Memory.write {n : Nat} : Memory n → Nat → BitVec n → Memory n
  | [], a, v => Memory.entry a v []
  | (b, x) :: rest, a, v =>
    if a < b then Memory.entry a v ((b, x) :: rest)
    else if a = b then Memory.entry a v rest
    else (b, x) :: Memory.write rest a v

/-- `MemRead(addr, n)` (00_scope.md R20). -/
def Memory.readList {n : Nat} (mem : Memory n) (a : Nat) : Nat → List (BitVec n)
  | 0 => []
  | k + 1 => mem.read a :: Memory.readList mem (a + 1) k

/-- `MemWrite(addr, n, s)` (00_scope.md R20): cell `k` of the list at `a + k`. -/
def Memory.writeList {n : Nat} (mem : Memory n) (a : Nat) : List (BitVec n) → Memory n
  | [] => mem
  | v :: rest => Memory.writeList (mem.write a v) (a + 1) rest

/-- The memory whose cells `a, a+1, …` (`k` of them) hold `g a, g (a+1), …`, and whose others are unlisted. -/
def Memory.tabulate {n : Nat} (g : Nat → BitVec n) (a : Nat) : Nat → Memory n
  | 0 => []
  | k + 1 => Memory.entry a (g a) (Memory.tabulate g (a + 1) k)

/-- The canonical form from address `lo` on, below `size`. -/
def Memory.wfFrom {n : Nat} (size lo : Nat) : Memory n → Bool
  | [] => true
  | (a, v) :: rest =>
    decide (lo ≤ a) && decide (a < size) && decide (v ≠ Memory.unlisted) && Memory.wfFrom size (a + 1) rest

/-- The canonical form of a memory of `size` cells: addresses strictly rising and below `size`, no entry equal to
what an unlisted address reads as. -/
def Memory.wf {n : Nat} (size : Nat) (mem : Memory n) : Bool := Memory.wfFrom size 0 mem

/-- The number of bytes of MEM (20_memory.md R70). -/
def memSize : Nat := 4096

/-- The number of words of IMEM (20_memory.md R72). -/
def imemSize : Nat := 256

/-! ### Field and mask registers (00_scope.md R17) -/

/-- The word of field register `i`. -/
def State.word (s : State) (i : Nat) : FWord := s.f[i]?.getD 0

/-- The valid bit `FV[i]`. -/
def State.fvalid (s : State) (i : Nat) : Bool := s.fv[i]?.getD false

/-- `F[i] <- w`: writes the word and sets the valid bit (10_state.md R32). -/
def State.setF (s : State) (i : Nat) (w : FWord) : State :=
  { s with f := s.f.setIfInBounds i w, fv := s.fv.setIfInBounds i true }

/-- `F[i], F[i+1], … <- ws`. -/
def State.setFs (s : State) (i : Nat) : List FWord → State
  | [] => s
  | w :: ws => State.setFs (s.setF i w) (i + 1) ws

/-- The bit of mask register `j`. -/
def State.mask (s : State) (j : MReg) : Bool := s.m[j]

/-- The valid bit `MV[j]`. -/
def State.mvalid (s : State) (j : MReg) : Bool := s.mv[j]

/-- `M[j] <- b`: writes the bit and sets the valid bit (10_state.md R33). -/
def State.setM (s : State) (j : MReg) (b : Bool) : State :=
  { s with m := s.m.set j b, mv := s.mv.set j true }

/-- `val_m(F[i])` under the modulus `f` selects. -/
def State.val (s : State) (f : FieldSel) (i : Nat) : Nat := s.cfg.val f (s.word i)

/-- `F[i] <- mont_m(v)`. -/
def State.putVal (s : State) (f : FieldSel) (i v : Nat) : State := s.setF i (s.cfg.mont f v)

/-- `F[i], F[i+1], … <- mont_m(vs)`. -/
def State.putVals (s : State) (f : FieldSel) (i : Nat) (vs : List Nat) : State :=
  s.setFs i (vs.map (s.cfg.mont f))

/-- `PW(r)`, the value triple read from base r under P (00_scope.md R23). -/
def State.pw (s : State) (r : Nat) : PointW := ⟨s.val .p r, s.val .p (r + 1), s.val .p (r + 2)⟩

/-- `PE(r)`, the value quadruple read from base r under P (00_scope.md R23). -/
def State.pe (s : State) (r : Nat) : PointE :=
  ⟨s.val .p r, s.val .p (r + 1), s.val .p (r + 2), s.val .p (r + 3)⟩

/-- The fraction tuple read from base r under P (47_hash.md R321). -/
def State.fraction (s : State) (r : Nat) : Fraction :=
  ⟨s.val .p r, s.val .p (r + 1), s.val .p (r + 2), s.val .p (r + 3)⟩

/-- `PW(r) <- p`. -/
def State.putW (s : State) (r : Nat) (p : PointW) : State := s.putVals .p r [p.x, p.y, p.z]

/-- `PE(r) <- p`. -/
def State.putE (s : State) (r : Nat) (p : PointE) : State := s.putVals .p r [p.x, p.y, p.z, p.t]

/-- Write a fraction tuple at base r (47_hash.md R320). -/
def State.putFraction (s : State) (r : Nat) (q : Fraction) : State :=
  s.putVals .p r [q.xn, q.xd, q.yn, q.yd]

/-- Draw number `k` of this step: `draw(m)`, some value in `[0, m)` (00_scope.md R21). Log entry 4. -/
def State.draw (s : State) (f : FieldSel) (k : Nat) : Nat :=
  Config.freeValue s.clock k % s.cfg.modulus f

/-! ### Data memory as the commands see it -/

/-- `MemRead(addr, n)` on MEM. -/
def State.memRead (s : State) (a n : Nat) : List Byte := s.mem.readList a n

/-- `MemWrite(addr, n, s)` on MEM. -/
def State.memWrite (s : State) (a : Nat) (bytes : List Byte) : State :=
  { s with mem := s.mem.writeList a bytes }

/-! ### The sequencer's run -/

/-- The word at `pc` in IMEM (10_state.md R51). -/
def State.fetch (s : State) : Insn := s.imem.read s.pc.toNat

/-- A command other than HALT has completed: `RETIRED` counts it and `pc` moves on (10_state.md R51). -/
def State.retire (s : State) : State :=
  { s with pc := s.pc + 1, retired := s.retired + 1, clock := s.clock + 1 }

/-- The HALT stop (10_state.md R51, R52; 40_control.md R151). -/
def State.haltStop (s : State) : State :=
  { s with
    run := .idle, done := true, doneIP := true, abortReq := false,
    retired := s.retired + 1, clock := s.clock + 1 }

/-- The error stop, the engine's one exception entry (60_exceptions.md R350): `insn` is the word fetched at the
stop, 0 when the stop came before a fetch. -/
def State.errorStop (s : State) (code : ErrorCode) (insn : Insn) : State :=
  { s with
    run := .idle, err := true, done := false, errcode := code, errpc := s.pc, errinsn := insn,
    errIP := true, abortReq := false, clock := s.clock + 1 }

/-- START in IDLE (10_state.md R50). It is the only way on after a stop: there is no return from an error
(60_exceptions.md R352, R353). -/
def State.start (s : State) : State :=
  { s with
    pc := s.entry.setWidth 9, done := false, err := false, errcode := .none, abortReq := false,
    retired := 0, run := .run }

/-! ### Resets -/

/-- Soft reset (70_reset_and_hazards.md R381, 10_state.md R57). The contents of F and M are free values, and so
is MEM when the engine was in RUN; IMEM stays. Log entries 12 and 22. -/
def State.softReset (s : State) : State :=
  { s with
    f := Vector.ofFn fun i => Config.freeRegister s.clock s.writes i.val % s.cfg.radix
    fv := Vector.replicate 32 false
    m := Vector.ofFn fun j => Config.freeMask s.clock s.writes j.val
    mv := Vector.replicate 8 false
    pc := 0, run := .idle, abortReq := false
    done := false, err := false, errcode := .none
    entry := 0, errpc := 0, errinsn := 0
    doneIE := false, errIE := false, doneIP := false, errIP := false
    msgaddr := 0, msglen := 0, dstaddr := 0, dstlen := 0, xmdlen := 0, retired := 0
    mem := match s.run with
      | .idle => s.mem
      | .run => Memory.tabulate (Config.freeMemByte s.clock s.writes) 0 memSize }

/-- Power-on reset through `rst` (70_reset_and_hazards.md R380, 10_state.md R57): as a soft reset, and MEM and
IMEM are free values too. -/
def State.powerOn (s : State) : State :=
  { s.softReset with
    mem := Memory.tabulate (Config.freeMemByte s.clock s.writes) 0 memSize
    imem := Memory.tabulate (Config.freeImemWord s.clock s.writes) 0 imemSize
    clock := s.clock + 1 }

end Sys2Proof.Machine
end

