-- ==== Sys2Proof/Machine/Flags.lean ====
section
/-! DEFINITION. The masks that commands compute, the engine's only flags (10_state.md R33): the tests of
41_field.md, 44_weierstrass.md and 45_edwards.md on values, and the status the host sees: error codes, STATUS,
IRQEN, IRQST, CFG, MASKS, FVALID and the interrupt output. -/

namespace Sys2Proof.Machine

/-! ### Result masks -/

/-- FISZ (41_field.md R179). -/
def isZeroFlag (a : Nat) : Bool := decide (a = 0)

/-- FEQ (41_field.md R180). -/
def equalFlag (a b : Nat) : Bool := decide (a = b)

/-- FSGN0 (41_field.md R181). -/
def signFlag (a : Nat) : Bool := decide (sgn0 a = 1)

/-- PWISID: `Z = 0` (44_weierstrass.md R241). -/
def pwIdentityFlag (p : PointW) : Bool := decide (p.z = 0)

/-- Cross-multiplied equality of two coordinates over two denominators: `a·z' − a'·z = 0 mod P`. -/
def crossEqual (m a z a' z' : Nat) : Bool :=
  decide (subMod m (mulMod m a z') (mulMod m a' z) = 0)

/-- PWEQ (44_weierstrass.md R242). -/
def pwEqualFlag (m : Nat) (p q : PointW) : Bool :=
  crossEqual m p.x p.z q.x q.z && crossEqual m p.y p.z q.y q.z

/-- The on-curve test of PWSETAFF: `y² − x³ − A·x − B = 0 mod P` (44_weierstrass.md R244). -/
def pwOnCurveFlag (c : Config) (x y : Nat) : Bool :=
  let m := c.p
  decide (subMod m (subMod m (subMod m (mulMod m y y) (mulMod m (mulMod m x x) x)) (mulMod m c.cwA x)) c.cwB = 0)

/-- PEISID: `X = 0 and Y = Z and Z ≠ 0` (45_edwards.md R271). -/
def peIdentityFlag (p : PointE) : Bool := decide (p.x = 0 ∧ p.y = p.z ∧ p.z ≠ 0)

/-- PEEQ (45_edwards.md R272). -/
def peEqualFlag (m : Nat) (p q : PointE) : Bool :=
  crossEqual m p.x p.z q.x q.z && crossEqual m p.y p.z q.y q.z

/-- The on-curve test of PESETAFF: `a·x² + y² − 1 − d·x²·y² = 0 mod P` (45_edwards.md R274). -/
def peOnCurveFlag (c : Config) (x y : Nat) : Bool :=
  let m := c.p
  let x2 := mulMod m x x
  let y2 := mulMod m y y
  decide (subMod m (subMod m (addMod m (mulMod m c.ceA x2) y2) 1) (mulMod m (mulMod m c.ceD x2) y2) = 0)

/-! ### What the host sees -/

/-- The number of an error code (60_exceptions.md R340). -/
def ErrorCode.number : ErrorCode → Nat
  | .none => 0
  | .illegal => 1
  | .badReg => 2
  | .uninit => 3
  | .nonCanon => 4
  | .memRange => 5
  | .h2fLen => 6
  | .pcRange => 7
  | .abort => 8

/-- A Bool as the integer 0 or 1. -/
def bit (b : Bool) : Nat := if b then 1 else 0

/-- STATUS (10_state.md R46): BUSY, DONE, ERR in bits 0, 1, 2, ERRCODE in bits [15:8]. -/
def State.statusWord (s : State) : BitVec 32 :=
  BitVec.ofNat 32 (bit (decide (s.run = .run)) + 2 * bit s.done + 4 * bit s.err + 256 * s.errcode.number)

/-- CFG (10_state.md R42): NL in bits [3:0], H2C_EN, ISO_EN, EDW_EN in bits 4, 5, 6. -/
def State.cfgWord (s : State) : BitVec 32 :=
  BitVec.ofNat 32 (s.cfg.nl % 16 + 16 * bit s.cfg.h2cEn + 32 * bit s.cfg.isoEn + 64 * bit s.cfg.edwEn)

/-- IRQEN (10_state.md R48). -/
def State.irqenWord (s : State) : BitVec 32 := BitVec.ofNat 32 (bit s.doneIE + 2 * bit s.errIE)

/-- IRQST (10_state.md R48). -/
def State.irqstWord (s : State) : BitVec 32 := BitVec.ofNat 32 (bit s.doneIP + 2 * bit s.errIP)

/-- The list's bits as a number, the first the least significant. -/
def bitsValue : List Bool → Nat
  | [] => 0
  | b :: rest => bit b + 2 * bitsValue rest

/-- MASKS (10_state.md R54): bit j reads `M[j]` where valid and 0 where not, bit 8+j reads `MV[j]`. -/
def State.masksWord (s : State) : BitVec 32 :=
  BitVec.ofNat 32 (bitsValue ((List.zipWith (fun b v => b && v) s.m.toList s.mv.toList) ++ s.mv.toList))

/-- FVALID (10_state.md R55): bit i reads `FV[i]`. -/
def State.fvalidWord (s : State) : BitVec 32 := BitVec.ofNat 32 (bitsValue s.fv.toList)

/-- The interrupt output, level-sensitive and active high (60_exceptions.md R360). -/
def State.irq (s : State) : Bool := (s.doneIP && s.doneIE) || (s.errIP && s.errIE)

end Sys2Proof.Machine
end

