-- ==== Sys2Proof/Machine/Operands.lean ====
section
/-! DEFINITION. The operand checks of a command in the order of 60_exceptions.md R346, and the frame every
command but HALT runs in: the first check that fails makes an error stop, else the effect happens and the
command retires. -/

namespace Sys2Proof.Machine

/-- What a command must be checked for, rule by rule (60_exceptions.md R346, checks 3 to 8). -/
structure Checks where
  /-- check 3: the count and the feature are right (30_encoding.md R121, R122) -/
  legal : Bool := true
  /-- check 4: register groups, base and size (R342) -/
  groups : List (Nat × Nat) := []
  /-- check 5: MEM ranges, start and length (R347) -/
  ranges : List (Nat × Nat) := []
  /-- check 6: the number of bytes a hashing command expands (R343) -/
  expands : Option Nat := none
  /-- check 7 and 8: source field registers; `some f` where the word must be canonical for the modulus `f`
  selects (R344, R345) -/
  words : List (Nat × Option FieldSel) := []
  /-- check 7: source masks (R345) -/
  masks : List MReg := []

/-- `ceil(n / 64)`, the number of digests an expansion of n bytes takes (47_hash.md R305). -/
def ellOf (n : Nat) : Nat := (n + 63) / 64

/-- Check 6 fails: `DSTLEN > 255` or `ell > 255` (60_exceptions.md R343). -/
def State.hashLengthBad (s : State) (n : Nat) : Bool :=
  decide (255 < s.dstlen.toNat) || decide (255 < ellOf n)

/-- The word of source register `i` is canonical for `f`, where a check is asked for (60_exceptions.md R344). -/
def State.canonical (s : State) (i : Nat) : Option FieldSel → Bool
  | none => true
  | some f => decide (s.word i < s.cfg.modulus f)

/-- The first check that fails, in the order of 60_exceptions.md R346. -/
def Checks.firstError (c : Checks) (s : State) : Option ErrorCode :=
  if !c.legal then some .illegal
  else if c.groups.any (fun g => decide (32 < g.1 + g.2)) then some .badReg
  else if c.ranges.any (fun r => decide (memSize < r.1 + r.2)) then some .memRange
  else if c.expands.any (fun n => s.hashLengthBad n) then some .h2fLen
  else if c.words.any (fun r => !s.fvalid r.1) || c.masks.any (fun j => !s.mvalid j) then some .uninit
  else if c.words.any (fun r => !s.canonical r.1 r.2) then some .nonCanon
  else none

/-- Run a command other than HALT: its checks, then its effect, then the completion of 10_state.md R51. A failing
check raises its error with no effect (00_scope.md R21), recording the word at `pc` (log entry 19). -/
def runCommand (c : Checks) (effect : State → State) (s : State) : Host.Outcome State Fault Refusal :=
  match c.firstError s with
  | some e => .next (s.errorStop e s.fetch)
  | none => .next (effect s).retire

/-! ### Operand forms -/

/-- Source register `r`, to be canonical for `f`. -/
def canon (f : FieldSel) (r : FReg) : Nat × Option FieldSel := (r.val, some f)

/-- Source register `r`, any word (42_montgomery.md R200). -/
def anyWord (r : FReg) : Nat × Option FieldSel := (r.val, none)

/-- The `n` source registers from base `b`, to be canonical under P (30_encoding.md R117). -/
def canonGroup (b n : Nat) : List (Nat × Option FieldSel) :=
  match n with
  | 0 => []
  | k + 1 => (b, some .p) :: canonGroup (b + 1) k

/-- A register group: base and size (30_encoding.md R117). -/
def group (r : FReg) (n : Nat) : Nat × Nat := (r.val, n)

/-- The MEM range of a load or store of `n` bytes (43_loadstore.md R215). -/
def range (addr : BitVec 12) (n : Nat) : Nat × Nat := (addr.toNat, n)

/-- The ranges of the message and the tag (47_hash.md R305). -/
def State.hashRanges (s : State) : List (Nat × Nat) :=
  [(s.msgaddr.toNat, s.msglen.toNat), (s.dstaddr.toNat, s.dstlen.toNat)]

/-- `msg = MemRead(MSGADDR, MSGLEN)` (10_state.md R49). -/
def State.message (s : State) : List Byte := s.memRead s.msgaddr.toNat s.msglen.toNat

/-- `dst = MemRead(DSTADDR, DSTLEN)` (10_state.md R49). -/
def State.tag (s : State) : List Byte := s.memRead s.dstaddr.toNat s.dstlen.toNat

end Sys2Proof.Machine
end

