-- ==== Sys2Proof/Machine/Control.lean ====
section
/-! DEFINITION. The control and mask commands (40_control.md). -/

namespace Sys2Proof.Machine

/-- HALT (40_control.md R151): the HALT stop; the command is counted in RETIRED and `pc` keeps its index. -/
def execHalt (s : State) : Host.Outcome State Fault Refusal := .next s.haltStop

/-- NOP (40_control.md R152). -/
def execNop (s : State) : Host.Outcome State Fault Refusal := runCommand {} id s

/-- MSET (40_control.md R153): `M[md] <- 1`. -/
def execMset (md : MReg) (s : State) : Host.Outcome State Fault Refusal :=
  runCommand {} (fun s => s.setM md true) s

/-- MCLR (40_control.md R154): `M[md] <- 0`. -/
def execMclr (md : MReg) (s : State) : Host.Outcome State Fault Refusal :=
  runCommand {} (fun s => s.setM md false) s

/-- A mask command on two source masks (40_control.md R150). -/
def maskCommand (op : Bool → Bool → Bool) (md ms mt : MReg) (s : State) : Host.Outcome State Fault Refusal :=
  runCommand { masks := [ms, mt] } (fun s => s.setM md (op (s.mask ms) (s.mask mt))) s

/-- MAND (40_control.md R155). -/
def execMand (md ms mt : MReg) (s : State) : Host.Outcome State Fault Refusal :=
  maskCommand (fun a b => a && b) md ms mt s

/-- MOR (40_control.md R156). -/
def execMor (md ms mt : MReg) (s : State) : Host.Outcome State Fault Refusal :=
  maskCommand (fun a b => a || b) md ms mt s

/-- MXOR (40_control.md R157). -/
def execMxor (md ms mt : MReg) (s : State) : Host.Outcome State Fault Refusal :=
  maskCommand (fun a b => a ^^ b) md ms mt s

/-- MNOT (40_control.md R158): `M[md] <- 1 − M[ms]`. -/
def execMnot (md ms : MReg) (s : State) : Host.Outcome State Fault Refusal :=
  runCommand { masks := [ms] } (fun s => s.setM md (!s.mask ms)) s

end Sys2Proof.Machine
end

