-- ==== Sys2Proof/Machine/FieldCommands.lean ====
section
/-! DEFINITION. The field element commands (41_field.md). -/

namespace Sys2Proof.Machine

/-- A command of one value and one result under the modulus of `f` (41_field.md R170). -/
def unaryCommand (op : Nat → Nat → Nat) (f : FieldSel) (rd rs1 : FReg) (s : State) :
    Host.Outcome State Fault Refusal :=
  runCommand { words := [canon f rs1] }
    (fun s => s.putVal f rd (op (s.cfg.modulus f) (s.val f rs1))) s

/-- A command of two values and one result under the modulus of `f` (41_field.md R170). -/
def binaryCommand (op : Nat → Nat → Nat → Nat) (f : FieldSel) (rd rs1 rs2 : FReg) (s : State) :
    Host.Outcome State Fault Refusal :=
  runCommand { words := [canon f rs1, canon f rs2] }
    (fun s => s.putVal f rd (op (s.cfg.modulus f) (s.val f rs1) (s.val f rs2))) s

/-- FADD (41_field.md R171). -/
def execFadd (f : FieldSel) (rd rs1 rs2 : FReg) (s : State) : Host.Outcome State Fault Refusal :=
  binaryCommand addMod f rd rs1 rs2 s

/-- FSUB (41_field.md R172). -/
def execFsub (f : FieldSel) (rd rs1 rs2 : FReg) (s : State) : Host.Outcome State Fault Refusal :=
  binaryCommand subMod f rd rs1 rs2 s

/-- FNEG (41_field.md R173). -/
def execFneg (f : FieldSel) (rd rs1 : FReg) (s : State) : Host.Outcome State Fault Refusal :=
  unaryCommand negMod f rd rs1 s

/-- FMUL (41_field.md R174). -/
def execFmul (f : FieldSel) (rd rs1 rs2 : FReg) (s : State) : Host.Outcome State Fault Refusal :=
  binaryCommand mulMod f rd rs1 rs2 s

/-- FSQR (41_field.md R175). -/
def execFsqr (f : FieldSel) (rd rs1 : FReg) (s : State) : Host.Outcome State Fault Refusal :=
  unaryCommand (fun m a => mulMod m a a) f rd rs1 s

/-- FINV (41_field.md R176): the inverse with ok 1, or a draw with ok 0 for 0. -/
def execFinv (f : FieldSel) (rd : FReg) (md : MReg) (rs1 : FReg) (s : State) :
    Host.Outcome State Fault Refusal :=
  runCommand { words := [canon f rs1] }
    (fun s =>
      let a := s.val f rs1
      if a ≠ 0 then (s.putVal f rd (invMod (s.cfg.modulus f) a)).setM md true
      else (s.putVal f rd (s.draw f 0)).setM md false) s

/-- The root of a square that FSQRT returns: one of `{r, m − r}`, chosen by a draw (41_field.md R177). -/
def State.drawnRoot (s : State) (f : FieldSel) (a : Nat) : Nat :=
  let m := s.cfg.modulus f
  let r := sqrtMod m a
  if Config.freeValue s.clock 0 % 2 = 0 then r else negMod m r

/-- FSQRT (41_field.md R177): a root with ok 1, or a draw with ok 0 for a non-square. -/
def execFsqrt (f : FieldSel) (rd : FReg) (md : MReg) (rs1 : FReg) (s : State) :
    Host.Outcome State Fault Refusal :=
  runCommand { words := [canon f rs1] }
    (fun s =>
      let a := s.val f rs1
      if isSquareMod (s.cfg.modulus f) a then (s.putVal f rd (s.drawnRoot f a)).setM md true
      else (s.putVal f rd (s.draw f 0)).setM md false) s

/-- FSEL (41_field.md R178): mask 1 selects `rs1`, and the word is copied unchanged. -/
def execFsel (f : FieldSel) (rd rs1 rs2 : FReg) (ms : MReg) (s : State) : Host.Outcome State Fault Refusal :=
  runCommand { words := [canon f rs1, canon f rs2], masks := [ms] }
    (fun s => s.setF rd (if s.mask ms then s.word rs1 else s.word rs2)) s

/-- FISZ (41_field.md R179). -/
def execFisz (f : FieldSel) (md : MReg) (rs1 : FReg) (s : State) : Host.Outcome State Fault Refusal :=
  runCommand { words := [canon f rs1] } (fun s => s.setM md (isZeroFlag (s.val f rs1))) s

/-- FEQ (41_field.md R180). -/
def execFeq (f : FieldSel) (md : MReg) (rs1 rs2 : FReg) (s : State) : Host.Outcome State Fault Refusal :=
  runCommand { words := [canon f rs1, canon f rs2] }
    (fun s => s.setM md (equalFlag (s.val f rs1) (s.val f rs2))) s

/-- FSGN0 (41_field.md R181). -/
def execFsgn0 (f : FieldSel) (md : MReg) (rs1 : FReg) (s : State) : Host.Outcome State Fault Refusal :=
  runCommand { words := [canon f rs1] } (fun s => s.setM md (signFlag (s.val f rs1))) s

/-- FMOV (41_field.md R182): the word copied unchanged, with no canonical check. -/
def execFmov (rd rs1 : FReg) (s : State) : Host.Outcome State Fault Refusal :=
  runCommand { words := [anyWord rs1] } (fun s => s.setF rd (s.word rs1)) s

/-- FLDI (41_field.md R183): `F[rd] <- mont_m(imm16 mod m)`. -/
def execFldi (f : FieldSel) (rd : FReg) (imm : BitVec 16) (s : State) : Host.Outcome State Fault Refusal :=
  runCommand {} (fun s => s.putVal f rd (imm.toNat % s.cfg.modulus f)) s

end Sys2Proof.Machine
end

