-- ==== Sys2Proof/Machine/Blake2b.lean ====
section
/-! DEFINITION. HASH: BLAKE2b with a 64-byte digest, unkeyed, no salt, no personalization (47_hash.md R306). The
spec names the function and leaves its definition to RFC 7693, so this file is PRESUMED (log entry 13). -/

namespace Sys2Proof.Machine

/-- A 64-bit word of BLAKE2b. -/
abbrev Word64 := BitVec 64

/-- The initialization vector. -/
def blakeIV : List Word64 :=
  [0x6a09e667f3bcc908, 0xbb67ae8584caa73b, 0x3c6ef372fe94f82b, 0xa54ff53a5f1d36f1,
   0x510e527fade682d1, 0x9b05688c2b3e6c1f, 0x1f83d9abfb41bd6b, 0x5be0cd19137e2179]

/-- The message schedule: the permutation of round r is row r mod 10. -/
def blakeSigma : List (List Nat) :=
  [[0, 1, 2, 3, 4, 5, 6, 7, 8, 9, 10, 11, 12, 13, 14, 15],
   [14, 10, 4, 8, 9, 15, 13, 6, 1, 12, 0, 2, 11, 7, 5, 3],
   [11, 8, 12, 0, 5, 2, 15, 13, 10, 14, 3, 6, 7, 1, 9, 4],
   [7, 9, 3, 1, 13, 12, 11, 14, 2, 6, 5, 10, 4, 0, 15, 8],
   [9, 0, 5, 7, 2, 4, 10, 15, 14, 1, 11, 12, 6, 8, 3, 13],
   [2, 12, 6, 10, 0, 11, 8, 3, 4, 13, 7, 5, 15, 14, 1, 9],
   [12, 5, 1, 15, 14, 13, 4, 10, 0, 7, 6, 3, 9, 2, 8, 11],
   [13, 11, 7, 14, 12, 1, 3, 9, 5, 0, 15, 4, 8, 6, 2, 10],
   [6, 15, 14, 9, 11, 3, 0, 8, 12, 2, 13, 7, 1, 4, 10, 5],
   [10, 2, 8, 4, 7, 6, 1, 5, 15, 11, 9, 14, 3, 12, 13, 0]]

/-- The working vector as the four rows of its 4 × 4 matrix. -/
structure BlakeRows where
  a : List Word64
  b : List Word64
  c : List Word64
  d : List Word64
  deriving DecidableEq, Repr

/-- A list turned left by n places. -/
def turnLeft (n : Nat) (l : List Word64) : List Word64 := l.drop n ++ l.take n

/-- The mixing function G on the four columns of the rows at once, with message words x then y. -/
def blakeMix (v : BlakeRows) (x y : List Word64) : BlakeRows :=
  let add (l r : List Word64) : List Word64 := List.zipWith (fun p q => p + q) l r
  let mix (n : Nat) (l r : List Word64) : List Word64 :=
    List.zipWith (fun p q => (p ^^^ q).rotateRight n) l r
  let a := add (add v.a v.b) x
  let d := mix 32 v.d a
  let c := add v.c d
  let b := mix 24 v.b c
  let a := add (add a b) y
  let d := mix 16 d a
  let c := add c d
  let b := mix 63 b c
  ⟨a, b, c, d⟩

/-- One round: the columns, then the diagonals. -/
def blakeRound (msg : List Word64) (v : BlakeRows) (perm : List Nat) : BlakeRows :=
  let word (i : Nat) : Word64 := msg.getD (perm.getD i 0) 0
  let col := blakeMix v ([0, 2, 4, 6].map word) ([1, 3, 5, 7].map word)
  let dia := blakeMix ⟨col.a, turnLeft 1 col.b, turnLeft 2 col.c, turnLeft 3 col.d⟩
    ([8, 10, 12, 14].map word) ([9, 11, 13, 15].map word)
  ⟨dia.a, turnLeft 3 dia.b, turnLeft 2 dia.c, turnLeft 1 dia.d⟩

/-- The compression function: chain value h, message block, byte count t, final-block flag. -/
def blakeCompress (h msg : List Word64) (t : Nat) (last : Bool) : List Word64 :=
  let iv4 : Word64 := blakeIV.getD 4 0 ^^^ BitVec.ofNat 64 t
  let iv5 : Word64 := blakeIV.getD 5 0 ^^^ BitVec.ofNat 64 (t / 2 ^ 64)
  let iv6 : Word64 := if last then ~~~(blakeIV.getD 6 0) else blakeIV.getD 6 0
  let v0 : BlakeRows := ⟨h.take 4, h.drop 4, blakeIV.take 4, [iv4, iv5, iv6, blakeIV.getD 7 0]⟩
  let rounds := blakeSigma ++ blakeSigma.take 2
  let v := rounds.foldl (blakeRound msg) v0
  List.zipWith (fun x y => x ^^^ y) h
    (List.zipWith (fun x y => x ^^^ y) (v.a ++ v.b) (v.c ++ v.d))

/-- The little-endian integer of a byte list. -/
def leValue : List Byte → Nat
  | [] => 0
  | b :: rest => b.toNat + 256 * leValue rest

/-- `n` bytes of an integer, least significant first. -/
def leBytes : Nat → Nat → List Byte
  | 0, _ => []
  | n + 1, x => BitVec.ofNat 8 x :: leBytes n (x / 256)

/-- The sixteen little-endian words of a 128-byte block, from word i on; a short block is filled with zeros. -/
def blockWords (block : List Byte) : Nat → List Word64
  | 0 => []
  | k + 1 => BitVec.ofNat 64 (leValue (block.take 8)) :: blockWords (block.drop 8) k

/-- Compress the message block by block, at most `fuel` blocks; `t` bytes are already counted. The last block, of
1 to 128 bytes (0 for the empty message), carries the final flag. -/
def blakeBlocks : Nat → List Word64 → Nat → List Byte → List Word64
  | 0, h, _, _ => h
  | k + 1, h, t, msg =>
    if msg.length ≤ 128 then blakeCompress h (blockWords msg 16) (t + msg.length) true
    else blakeBlocks k (blakeCompress h (blockWords msg 16) (t + 128) false) (t + 128) (msg.drop 128)

/-- BLAKE2b-512 of a byte string: parameter block of digest length 64, no key, fanout 1, depth 1. -/
def blake2b512 (msg : List Byte) : List Byte :=
  let h0 := (blakeIV.getD 0 0 ^^^ 0x01010040) :: blakeIV.drop 1
  let h := blakeBlocks (msg.length / 128 + 1) h0 0 msg
  h.flatMap fun w => leBytes 8 w.toNat

/-- The hash the configuration names (00_scope.md R10, 47_hash.md R306). -/
def hashOf : HashName → List Byte → List Byte
  | .blake2b512 => blake2b512

end Sys2Proof.Machine
end

