-- ==== Sys2Proof/Machine/Weierstrass.lean ====
section
/-! DEFINITION. The short-Weierstrass formulas and point commands (44_weierstrass.md). -/

namespace Sys2Proof.Machine

/-- `pwAdd`, the complete addition for arbitrary A, step by step as in 44_weierstrass.md R236. -/
def pwAdd (c : Config) (p1 p2 : PointW) : PointW :=
  let add := addMod c.p
  let sub := subMod c.p
  let mul := mulMod c.p
  let a := c.cwA
  let b3 := 3 * c.cwB % c.p
  let t0 := mul p1.x p2.x
  let t1 := mul p1.y p2.y
  let t2 := mul p1.z p2.z
  let t3 := add p1.x p1.y
  let t4 := add p2.x p2.y
  let t3 := mul t3 t4
  let t4 := add t0 t1
  let t3 := sub t3 t4
  let t4 := add p1.x p1.z
  let t5 := add p2.x p2.z
  let t4 := mul t4 t5
  let t5 := add t0 t2
  let t4 := sub t4 t5
  let t5 := add p1.y p1.z
  let x3 := add p2.y p2.z
  let t5 := mul t5 x3
  let x3 := add t1 t2
  let t5 := sub t5 x3
  let z3 := mul a t4
  let x3 := mul b3 t2
  let z3 := add x3 z3
  let x3 := sub t1 z3
  let z3 := add t1 z3
  let y3 := mul x3 z3
  let t1 := add t0 t0
  let t1 := add t1 t0
  let t2 := mul a t2
  let t4 := mul b3 t4
  let t1 := add t1 t2
  let t2 := sub t0 t2
  let t2 := mul a t2
  let t4 := add t4 t2
  let t0 := mul t1 t4
  let y3 := add y3 t0
  let t0 := mul t5 t4
  let x3 := mul t3 x3
  let x3 := sub x3 t0
  let t0 := mul t3 t1
  let z3 := mul t5 z3
  let z3 := add z3 t0
  ⟨x3, y3, z3⟩

/-- `pwDbl`, the doubling for arbitrary A, step by step as in 44_weierstrass.md R238. -/
def pwDbl (c : Config) (p : PointW) : PointW :=
  let add := addMod c.p
  let sub := subMod c.p
  let mul := mulMod c.p
  let a := c.cwA
  let b3 := 3 * c.cwB % c.p
  let t0 := mul p.x p.x
  let t1 := mul p.y p.y
  let t2 := mul p.z p.z
  let t3 := mul p.x p.y
  let t3 := add t3 t3
  let z3 := mul p.x p.z
  let z3 := add z3 z3
  let x3 := mul a z3
  let y3 := mul b3 t2
  let y3 := add x3 y3
  let x3 := sub t1 y3
  let y3 := add t1 y3
  let y3 := mul x3 y3
  let x3 := mul t3 x3
  let z3 := mul b3 z3
  let t2 := mul a t2
  let t3 := sub t0 t2
  let t3 := mul a t3
  let t3 := add t3 z3
  let z3 := add t0 t0
  let t0 := add z3 t0
  let t0 := add t0 t2
  let t0 := mul t0 t3
  let y3 := add y3 t0
  let t2 := mul p.y p.z
  let t2 := add t2 t2
  let t0 := mul t2 t3
  let x3 := sub x3 t0
  let z3 := mul t2 t1
  let z3 := add z3 z3
  let z3 := add z3 z3
  ⟨x3, y3, z3⟩

/-- The Weierstrass identity `(0, 1, 0)` (44_weierstrass.md). -/
def pwIdentity : PointW := ⟨0, 1, 0⟩

/-- Point negation (44_weierstrass.md R240). -/
def pwNeg (c : Config) (p : PointW) : PointW := ⟨p.x, negMod c.p p.y, p.z⟩

/-- PWADD (44_weierstrass.md R237). -/
def execPwadd (rd rs1 rs2 : FReg) (s : State) : Host.Outcome State Fault Refusal :=
  runCommand
    { groups := [group rd 3, group rs1 3, group rs2 3], words := canonGroup rs1 3 ++ canonGroup rs2 3 }
    (fun s => s.putW rd (pwAdd s.cfg (s.pw rs1) (s.pw rs2))) s

/-- A command of one Weierstrass point and one result point. -/
def pwUnaryCommand (op : Config → PointW → PointW) (rd rs1 : FReg) (s : State) :
    Host.Outcome State Fault Refusal :=
  runCommand { groups := [group rd 3, group rs1 3], words := canonGroup rs1 3 }
    (fun s => s.putW rd (op s.cfg (s.pw rs1))) s

/-- PWDBL (44_weierstrass.md R239). -/
def execPwdbl (rd rs1 : FReg) (s : State) : Host.Outcome State Fault Refusal :=
  pwUnaryCommand pwDbl rd rs1 s

/-- PWNEG (44_weierstrass.md R240). -/
def execPwneg (rd rs1 : FReg) (s : State) : Host.Outcome State Fault Refusal :=
  pwUnaryCommand pwNeg rd rs1 s

/-- PWISID (44_weierstrass.md R241). -/
def execPwisid (md : MReg) (rs1 : FReg) (s : State) : Host.Outcome State Fault Refusal :=
  runCommand { groups := [group rs1 3], words := canonGroup rs1 3 }
    (fun s => s.setM md (pwIdentityFlag (s.pw rs1))) s

/-- PWEQ (44_weierstrass.md R242). -/
def execPweq (md : MReg) (rs1 rs2 : FReg) (s : State) : Host.Outcome State Fault Refusal :=
  runCommand { groups := [group rs1 3, group rs2 3], words := canonGroup rs1 3 ++ canonGroup rs2 3 }
    (fun s => s.setM md (pwEqualFlag s.cfg.p (s.pw rs1) (s.pw rs2))) s

/-- PWTOAFF (44_weierstrass.md R243): the affine pair with ok 1, or two draws with ok 0 when `Z = 0`. -/
def execPwtoaff (rd : FReg) (md : MReg) (rs1 : FReg) (s : State) : Host.Outcome State Fault Refusal :=
  runCommand { groups := [group rd 2, group rs1 3], words := canonGroup rs1 3 }
    (fun s =>
      let m := s.cfg.p
      let p := s.pw rs1
      if p.z ≠ 0 then
        let zi := invMod m p.z
        (s.putVals .p rd [mulMod m p.x zi, mulMod m p.y zi]).setM md true
      else (s.putVals .p rd [s.draw .p 0, s.draw .p 1]).setM md false) s

/-- PWSETAFF (44_weierstrass.md R244): the point `(x, y, 1)` with ok 1, or three draws with ok 0 off the curve. -/
def execPwsetaff (rd : FReg) (md : MReg) (rs1 : FReg) (s : State) : Host.Outcome State Fault Refusal :=
  runCommand { groups := [group rd 3, group rs1 2], words := canonGroup rs1 2 }
    (fun s =>
      let x := s.val .p rs1
      let y := s.val .p (rs1.val + 1)
      if pwOnCurveFlag s.cfg x y then (s.putW rd ⟨x, y, 1⟩).setM md true
      else (s.putVals .p rd [s.draw .p 0, s.draw .p 1, s.draw .p 2]).setM md false) s

/-- The words of registers `r, r+1, …` (`n` of them). -/
def State.wordsFrom (s : State) (r : Nat) : Nat → List FWord
  | 0 => []
  | n + 1 => s.word r :: State.wordsFrom s (r + 1) n

/-- PWSEL (44_weierstrass.md R245): mask 1 selects the group at `rs1`; the words are copied unchanged. -/
def execPwsel (rd rs1 rs2 : FReg) (ms : MReg) (s : State) : Host.Outcome State Fault Refusal :=
  runCommand
    { groups := [group rd 3, group rs1 3, group rs2 3], words := canonGroup rs1 3 ++ canonGroup rs2 3,
      masks := [ms] }
    (fun s => s.setFs rd (s.wordsFrom (if s.mask ms then rs1 else rs2).val 3)) s

end Sys2Proof.Machine
end

