-- ==== Sys2Proof/Machine/Edwards.lean ====
section
/-! DEFINITION. The twisted-Edwards formulas and point commands (45_edwards.md). The commands exist only when
`EDW_EN = 1`; otherwise they raise E_ILLEGAL (30_encoding.md R122). -/

namespace Sys2Proof.Machine

/-- `peAdd`, the unified addition in extended coordinates, step by step as in 45_edwards.md R266. -/
def peAdd (cfg : Config) (p1 p2 : PointE) : PointE :=
  let add := addMod cfg.p
  let sub := subMod cfg.p
  let mul := mulMod cfg.p
  let a := mul p1.x p2.x
  let b := mul p1.y p2.y
  let c := mul (mul p1.t cfg.ceD) p2.t
  let d := mul p1.z p2.z
  let e := sub (sub (mul (add p1.x p1.y) (add p2.x p2.y)) a) b
  let f := sub d c
  let g := add d c
  let h := sub b (mul cfg.ceA a)
  ⟨mul e f, mul g h, mul f g, mul e h⟩

/-- `peDbl`, the dedicated doubling in extended coordinates, step by step as in 45_edwards.md R268; T is not
used. -/
def peDbl (cfg : Config) (p : PointE) : PointE :=
  let add := addMod cfg.p
  let sub := subMod cfg.p
  let mul := mulMod cfg.p
  let a := mul p.x p.x
  let b := mul p.y p.y
  let c := mul (mul 2 p.z) p.z
  let d := mul cfg.ceA a
  let e := sub (sub (mul (add p.x p.y) (add p.x p.y)) a) b
  let g := add d b
  let f := sub g c
  let h := sub d b
  ⟨mul e f, mul g h, mul f g, mul e h⟩

/-- The Edwards identity `(0, 1, 1, 0)` in the order X, Y, Z, T (45_edwards.md, 90_conflicts.md C2). -/
def peIdentity : PointE := ⟨0, 1, 1, 0⟩

/-- Point negation on the Edwards model: X and T (45_edwards.md R270). -/
def peNeg (cfg : Config) (p : PointE) : PointE := ⟨negMod cfg.p p.x, p.y, p.z, negMod cfg.p p.t⟩

/-- PEADD (45_edwards.md R267). -/
def execPeadd (rd rs1 rs2 : FReg) (s : State) : Host.Outcome State Fault Refusal :=
  runCommand
    { legal := s.cfg.edwEn, groups := [group rd 4, group rs1 4, group rs2 4],
      words := canonGroup rs1 4 ++ canonGroup rs2 4 }
    (fun s => s.putE rd (peAdd s.cfg (s.pe rs1) (s.pe rs2))) s

/-- A command of one Edwards point and one result point. -/
def peUnaryCommand (op : Config → PointE → PointE) (rd rs1 : FReg) (s : State) :
    Host.Outcome State Fault Refusal :=
  runCommand { legal := s.cfg.edwEn, groups := [group rd 4, group rs1 4], words := canonGroup rs1 4 }
    (fun s => s.putE rd (op s.cfg (s.pe rs1))) s

/-- PEDBL (45_edwards.md R269): all four registers are checked, although T is not used. -/
def execPedbl (rd rs1 : FReg) (s : State) : Host.Outcome State Fault Refusal :=
  peUnaryCommand peDbl rd rs1 s

/-- PENEG (45_edwards.md R270). -/
def execPeneg (rd rs1 : FReg) (s : State) : Host.Outcome State Fault Refusal :=
  peUnaryCommand peNeg rd rs1 s

/-- PEISID (45_edwards.md R271). -/
def execPeisid (md : MReg) (rs1 : FReg) (s : State) : Host.Outcome State Fault Refusal :=
  runCommand { legal := s.cfg.edwEn, groups := [group rs1 4], words := canonGroup rs1 4 }
    (fun s => s.setM md (peIdentityFlag (s.pe rs1))) s

/-- PEEQ (45_edwards.md R272). -/
def execPeeq (md : MReg) (rs1 rs2 : FReg) (s : State) : Host.Outcome State Fault Refusal :=
  runCommand
    { legal := s.cfg.edwEn, groups := [group rs1 4, group rs2 4],
      words := canonGroup rs1 4 ++ canonGroup rs2 4 }
    (fun s => s.setM md (peEqualFlag s.cfg.p (s.pe rs1) (s.pe rs2))) s

/-- PETOAFF (45_edwards.md R273): the affine pair with ok 1, or two draws with ok 0 when `Z = 0`. -/
def execPetoaff (rd : FReg) (md : MReg) (rs1 : FReg) (s : State) : Host.Outcome State Fault Refusal :=
  runCommand { legal := s.cfg.edwEn, groups := [group rd 2, group rs1 4], words := canonGroup rs1 4 }
    (fun s =>
      let m := s.cfg.p
      let p := s.pe rs1
      if p.z ≠ 0 then
        let zi := invMod m p.z
        (s.putVals .p rd [mulMod m p.x zi, mulMod m p.y zi]).setM md true
      else (s.putVals .p rd [s.draw .p 0, s.draw .p 1]).setM md false) s

/-- PESETAFF (45_edwards.md R274): the point `(x, y, 1, x·y)` with ok 1, or four draws with ok 0 off the
curve. -/
def execPesetaff (rd : FReg) (md : MReg) (rs1 : FReg) (s : State) : Host.Outcome State Fault Refusal :=
  runCommand { legal := s.cfg.edwEn, groups := [group rd 4, group rs1 2], words := canonGroup rs1 2 }
    (fun s =>
      let x := s.val .p rs1
      let y := s.val .p (rs1.val + 1)
      if peOnCurveFlag s.cfg x y then (s.putE rd ⟨x, y, 1, mulMod s.cfg.p x y⟩).setM md true
      else
        (s.putVals .p rd [s.draw .p 0, s.draw .p 1, s.draw .p 2, s.draw .p 3]).setM md false) s

/-- PESEL (45_edwards.md R275): mask 1 selects the group at `rs1`; the words are copied unchanged. -/
def execPesel (rd rs1 rs2 : FReg) (ms : MReg) (s : State) : Host.Outcome State Fault Refusal :=
  runCommand
    { legal := s.cfg.edwEn, groups := [group rd 4, group rs1 4, group rs2 4],
      words := canonGroup rs1 4 ++ canonGroup rs2 4, masks := [ms] }
    (fun s => s.setFs rd (s.wordsFrom (if s.mask ms then rs1 else rs2).val 4)) s

end Sys2Proof.Machine
end

