-- ==== Sys2Proof/Machine/Scalar.lean ====
section
/-! DEFINITION. Scalar multiplication and cofactor clearing (46_scalar_cofactor.md). -/

namespace Sys2Proof.Machine

/-- The ladder over bits `n − 1` down to 0 of k, double-and-add-always (46_scalar_cofactor.md R291). -/
def ladder {α : Type} (add : α → α → α) (dbl : α → α) (pt : α) (k : Nat) : Nat → α → α
  | 0, r => r
  | i + 1, r =>
    let d := dbl r
    let t := add d pt
    ladder add dbl pt k i (if k.testBit i then t else d)

/-- `smul(pt, k, add, dbl, O)` over exactly W bits (46_scalar_cofactor.md R291). -/
def smul {α : Type} (width : Nat) (add : α → α → α) (dbl : α → α) (o pt : α) (k : Nat) : α :=
  ladder add dbl pt k width o

/-- Double-and-add over bits `n − 1` down to 0 of h (46_scalar_cofactor.md R294). -/
def doubleAndAdd {α : Type} (add : α → α → α) (dbl : α → α) (pt : α) (h : Nat) : Nat → α → α
  | 0, r => r
  | i + 1, r =>
    let d := dbl r
    doubleAndAdd add dbl pt h i (if h.testBit i then add d pt else d)

/-- `clear(pt, h, add, dbl, O)` (46_scalar_cofactor.md R294): the identity function for h = 1. -/
def clearCofactor {α : Type} (h : Nat) (add : α → α → α) (dbl : α → α) (o pt : α) : α :=
  if h = 1 then pt else doubleAndAdd add dbl pt h (Nat.log2 h + 1) o

/-- `clear` on the Weierstrass curve, with `CW_H` (46_scalar_cofactor.md R295). -/
def pwClear (c : Config) (p : PointW) : PointW := clearCofactor c.cwH (pwAdd c) (pwDbl c) pwIdentity p

/-- `clear` on the Edwards curve, with `CE_H` (46_scalar_cofactor.md R296). -/
def peClear (c : Config) (p : PointE) : PointE := clearCofactor c.ceH (peAdd c) (peDbl c) peIdentity p

/-- PWSMUL (46_scalar_cofactor.md R292): the scalar under the modulus of `f`, the point under P. -/
def execPwsmul (f : FieldSel) (rd rs1 rs2 : FReg) (s : State) : Host.Outcome State Fault Refusal :=
  runCommand { groups := [group rd 3, group rs1 3], words := canonGroup rs1 3 ++ [canon f rs2] }
    (fun s =>
      s.putW rd (smul s.cfg.width (pwAdd s.cfg) (pwDbl s.cfg) pwIdentity (s.pw rs1) (s.val f rs2))) s

/-- PESMUL (46_scalar_cofactor.md R293). -/
def execPesmul (f : FieldSel) (rd rs1 rs2 : FReg) (s : State) : Host.Outcome State Fault Refusal :=
  runCommand
    { legal := s.cfg.edwEn, groups := [group rd 4, group rs1 4],
      words := canonGroup rs1 4 ++ [canon f rs2] }
    (fun s =>
      s.putE rd (smul s.cfg.width (peAdd s.cfg) (peDbl s.cfg) peIdentity (s.pe rs1) (s.val f rs2))) s

/-- PWCLR (46_scalar_cofactor.md R295). -/
def execPwclr (rd rs1 : FReg) (s : State) : Host.Outcome State Fault Refusal :=
  pwUnaryCommand pwClear rd rs1 s

/-- PECLR (46_scalar_cofactor.md R296). -/
def execPeclr (rd rs1 : FReg) (s : State) : Host.Outcome State Fault Refusal :=
  peUnaryCommand peClear rd rs1 s

end Sys2Proof.Machine
end

