-- ==== Sys2Proof/Machine/Hashing.lean ====
section
/-! DEFINITION. The XMD expander, hash-to-field, the SSWU map, the isogeny, fractions and hash-to-curve
(47_hash.md). -/

namespace Sys2Proof.Machine

/-! ### The expander (47_hash.md R307) -/

/-- `strxor`: bytewise XOR. -/
def strxor (a b : List Byte) : List Byte := List.zipWith (fun x y => x ^^^ y) a b

/-- `b_i || b_(i+1) || …`, `k` digests, from `b_0` and `b_(i−1)` (47_hash.md R307). -/
def xmdDigests (hash : List Byte → List Byte) (b0 dstPrime : List Byte) : Nat → Nat → List Byte → List Byte
  | 0, _, _ => []
  | k + 1, i, prev =>
    let b := hash (strxor b0 prev ++ i2osp i 1 ++ dstPrime)
    b ++ xmdDigests hash b0 dstPrime k (i + 1) b

/-- `expand_message_xmd(msg, dst, n)` (47_hash.md R307). -/
def expandMessageXmd (hash : List Byte → List Byte) (msg dst : List Byte) (n : Nat) : List Byte :=
  let ell := ellOf n
  let dstPrime := dst ++ i2osp dst.length 1
  let zPad := i2osp 0 128
  let b0 := hash (zPad ++ msg ++ i2osp n 2 ++ i2osp 0 1 ++ dstPrime)
  let b1 := hash (b0 ++ i2osp 1 1 ++ dstPrime)
  (b1 ++ xmdDigests hash b0 dstPrime (ell - 1) 2 b1).take n

/-- `count` chunks of L bytes, each read big-endian and reduced (47_hash.md R309). -/
def fieldChunks (m l : Nat) : Nat → List Byte → List Nat
  | 0, _ => []
  | k + 1, bytes => os2ip (bytes.take l) % m :: fieldChunks m l k (bytes.drop l)

/-- `hash_to_field(msg, dst, count, m)` (47_hash.md R309). -/
def hashToField (c : Config) (f : FieldSel) (msg dst : List Byte) (count : Nat) : List Nat :=
  fieldChunks (c.modulus f) (c.wideBytes f) count
    (expandMessageXmd (hashOf c.hash) msg dst (count * c.wideBytes f))

/-! ### The SSWU map (47_hash.md R315 to R320) -/

/-- `g(x) = x³ + A'·x + B'` on the curve SSWU runs on (47_hash.md R315, R318). -/
def sswuG (c : Config) (x : Nat) : Nat :=
  let m := c.p
  addMod m (addMod m (mulMod m (mulMod m x x) x) (mulMod m c.sswuA x)) c.sswuB

/-- The first candidate x1 of `sswu(u)`, with its exceptional case (47_hash.md R318). -/
def sswuX1 (c : Config) (u : Nat) : Nat :=
  let m := c.p
  let z := c.sswuZ
  let u2 := mulMod m u u
  let zu2 := mulMod m z u2
  let tv1 := invMod m (addMod m (mulMod m zu2 zu2) zu2)
  if tv1 = 0 then mulMod m c.sswuB (invMod m (mulMod m z c.sswuA))
  else mulMod m (mulMod m (negMod m c.sswuB) (invMod m (c.sswuA % m))) (addMod m 1 tv1)

/-- `sswu(u)` as the pair `(x, y)` (47_hash.md R318). -/
def sswu (c : Config) (u : Nat) : Nat × Nat :=
  let m := c.p
  let x1 := sswuX1 c u
  let x2 := mulMod m (mulMod m c.sswuZ (mulMod m u u)) x1
  let x := if isSquareMod m (sswuG c x1) then x1 else x2
  let y := sqrtMod m (sswuG c x)
  (x, if sgn0 u = sgn0 y then y else negMod m y)

/-- `Σ_i K[i]·x^i` mod m, the coefficients from the constant term up (47_hash.md R319). -/
def polyEval (m x : Nat) : List Nat → Nat
  | [] => 0
  | k :: ks => addMod m k (mulMod m x (polyEval m x ks))

/-- The four coefficient vectors; those of PALLAS are the OPEN parameter `PALLAS_ISO_COEFFS`, of lengths 4, 2, 4
and 3 (47_hash.md R319; log entry 2). -/
def isoVectors : IsoVectors → List Nat × List Nat × List Nat × List Nat
  | .given xn xd yn yd => (xn, xd, yn, yd)
  | .pallasIsoCoeffs =>
    ([Config.pallasIsoCoeff 0 0, Config.pallasIsoCoeff 0 1, Config.pallasIsoCoeff 0 2, Config.pallasIsoCoeff 0 3],
     [Config.pallasIsoCoeff 1 0, Config.pallasIsoCoeff 1 1],
     [Config.pallasIsoCoeff 2 0, Config.pallasIsoCoeff 2 1, Config.pallasIsoCoeff 2 2, Config.pallasIsoCoeff 2 3],
     [Config.pallasIsoCoeff 3 0, Config.pallasIsoCoeff 3 1, Config.pallasIsoCoeff 3 2])

/-- `iso_map(x', y')` in fraction form; the denominators are monic, their leading 1 not stored (47_hash.md
R319). -/
def isoMap (c : Config) (x y : Nat) : Fraction :=
  let m := c.p
  let v := isoVectors c.iso
  ⟨polyEval m x v.1, polyEval m x (v.2.1 ++ [1]), mulMod m y (polyEval m x v.2.2.1),
   polyEval m x (v.2.2.2 ++ [1])⟩

/-- The map of PWMAP on values: SSWU, then the isogeny when `ISO_EN = 1` (47_hash.md R320). -/
def mapToCurve (c : Config) (u : Nat) : Fraction :=
  let xy := sswu c u
  if c.isoEn then isoMap c xy.1 xy.2 else ⟨xy.1, 1, xy.2, 1⟩

/-- The projective point of a fraction; a zero denominator gives the identity (47_hash.md R321). -/
def fractionPoint (c : Config) (q : Fraction) : PointW :=
  let m := c.p
  let zc := mulMod m q.xd q.yd
  if zc = 0 then pwIdentity else ⟨mulMod m q.xn q.yd, mulMod m q.yn q.xd, zc⟩

/-- `hash_to_curve` on values (47_hash.md R322). -/
def hashToCurve (c : Config) (msg dst : List Byte) : PointW :=
  let us := hashToField c .p msg dst 2
  let q0 := fractionPoint c (mapToCurve c (us.getD 0 0))
  let q1 := fractionPoint c (mapToCurve c (us.getD 1 0))
  pwClear c (pwAdd c q0 q1)

/-- `encode_to_curve` on values (47_hash.md R323). -/
def encodeToCurve (c : Config) (msg dst : List Byte) : PointW :=
  let us := hashToField c .p msg dst 1
  pwClear c (fractionPoint c (mapToCurve c (us.getD 0 0)))

/-! ### The commands -/

/-- XMD (47_hash.md R308): the inputs are read before the output is written. -/
def execXmd (addr : BitVec 12) (s : State) : Host.Outcome State Fault Refusal :=
  runCommand
    { ranges := s.hashRanges ++ [range addr s.xmdlen.toNat], expands := some s.xmdlen.toNat }
    (fun s =>
      s.memWrite addr.toNat (expandMessageXmd (hashOf s.cfg.hash) s.message s.tag s.xmdlen.toNat)) s

/-- H2F (47_hash.md R310). A count outside 1 to 32 is illegal (30_encoding.md R121). -/
def execH2f (f : FieldSel) (rd : FReg) (count : BitVec 16) (s : State) : Host.Outcome State Fault Refusal :=
  runCommand
    { legal := (Instr.h2f f rd count).wellFormed, groups := [group rd count.toNat], ranges := s.hashRanges,
      expands := some (count.toNat * s.cfg.wideBytes f) }
    (fun s => s.putVals f rd (hashToField s.cfg f s.message s.tag count.toNat)) s

/-- PWMAP (47_hash.md R320); it exists when `H2C_EN = 1` (30_encoding.md R122). -/
def execPwmap (rd rs1 : FReg) (s : State) : Host.Outcome State Fault Refusal :=
  runCommand { legal := s.cfg.h2cEn, groups := [group rd 4], words := [canon .p rs1] }
    (fun s => s.putFraction rd (mapToCurve s.cfg (s.val .p rs1))) s

/-- PWFRAC (47_hash.md R321); it exists in every configuration (30_encoding.md R122). -/
def execPwfrac (rd rs1 : FReg) (s : State) : Host.Outcome State Fault Refusal :=
  runCommand { groups := [group rd 3, group rs1 4], words := canonGroup rs1 4 }
    (fun s => s.putW rd (fractionPoint s.cfg (s.fraction rs1))) s

/-- PWH2C (47_hash.md R322). -/
def execPwh2c (rd : FReg) (s : State) : Host.Outcome State Fault Refusal :=
  runCommand
    { legal := s.cfg.h2cEn, groups := [group rd 3], ranges := s.hashRanges, expands := some (2 * s.cfg.lP) }
    (fun s => s.putW rd (hashToCurve s.cfg s.message s.tag)) s

/-- PWE2C (47_hash.md R323). -/
def execPwe2c (rd : FReg) (s : State) : Host.Outcome State Fault Refusal :=
  runCommand
    { legal := s.cfg.h2cEn, groups := [group rd 3], ranges := s.hashRanges, expands := some s.cfg.lP }
    (fun s => s.putW rd (encodeToCurve s.cfg s.message s.tag)) s

end Sys2Proof.Machine
end

