-- ==== Sys2Proof/Machine/LoadStore.lean ====
section
/-! DEFINITION. The load and store commands (43_loadstore.md). -/

namespace Sys2Proof.Machine

/-- FLD (43_loadstore.md R216): an element with its validity flag, or a draw with flag 0. -/
def execFld (f : FieldSel) (rd : FReg) (md : MReg) (addr : BitVec 12) (s : State) :
    Host.Outcome State Fault Refusal :=
  runCommand { ranges := [range addr (s.cfg.elemBytes f)] }
    (fun s =>
      let x := os2ip (s.memRead addr.toNat (s.cfg.elemBytes f))
      if x < s.cfg.modulus f then (s.putVal f rd x).setM md true
      else (s.putVal f rd (s.draw f 0)).setM md false) s

/-- FST (43_loadstore.md R217): the canonical encoding of the value. -/
def execFst (f : FieldSel) (rd : FReg) (addr : BitVec 12) (s : State) : Host.Outcome State Fault Refusal :=
  runCommand { ranges := [range addr (s.cfg.elemBytes f)], words := [canon f rd] }
    (fun s => s.memWrite addr.toNat (i2osp (s.val f rd) (s.cfg.elemBytes f))) s

/-- Load an `n`-byte integer and reduce it (43_loadstore.md R218, R219). -/
def loadReduced (n : Nat) (f : FieldSel) (rd : FReg) (addr : BitVec 12) (s : State) :
    Host.Outcome State Fault Refusal :=
  runCommand { ranges := [range addr n] }
    (fun s => s.putVal f rd (os2ip (s.memRead addr.toNat n) % s.cfg.modulus f)) s

/-- FLDW (43_loadstore.md R218). -/
def execFldw (f : FieldSel) (rd : FReg) (addr : BitVec 12) (s : State) : Host.Outcome State Fault Refusal :=
  loadReduced (s.cfg.wideBytes f) f rd addr s

/-- FLDU64 (43_loadstore.md R219). -/
def execFldu64 (f : FieldSel) (rd : FReg) (addr : BitVec 12) (s : State) : Host.Outcome State Fault Refusal :=
  loadReduced 8 f rd addr s

/-- RAWLD (43_loadstore.md R220): the word itself, no reduction. -/
def execRawld (rd : FReg) (addr : BitVec 12) (s : State) : Host.Outcome State Fault Refusal :=
  runCommand { ranges := [range addr s.cfg.wordBytes] }
    (fun s => s.setF rd (os2ip (s.memRead addr.toNat s.cfg.wordBytes))) s

/-- RAWST (43_loadstore.md R221): the word, most significant limb first. -/
def execRawst (rd : FReg) (addr : BitVec 12) (s : State) : Host.Outcome State Fault Refusal :=
  runCommand { ranges := [range addr s.cfg.wordBytes], words := [anyWord rd] }
    (fun s => s.memWrite addr.toNat (i2osp (s.word rd) s.cfg.wordBytes)) s

end Sys2Proof.Machine
end

