-- ==== Sys2Proof/Machine/Montgomery.lean ====
section
/-! DEFINITION. The raw Montgomery commands (42_montgomery.md). -/

namespace Sys2Proof.Machine

/-- `(t · R^(−1)) mod m` (42_montgomery.md R201, R202). -/
def montReduce (c : Config) (f : FieldSel) (t : Nat) : FWord :=
  t * radixInv c.width (c.modulus f) % c.modulus f

/-- MONTMUL (42_montgomery.md R201): words of any value. -/
def execMontmul (f : FieldSel) (rd rs1 rs2 : FReg) (s : State) : Host.Outcome State Fault Refusal :=
  runCommand { words := [anyWord rs1, anyWord rs2] }
    (fun s => s.setF rd (montReduce s.cfg f (s.word rs1 * s.word rs2))) s

/-- MONTRED (42_montgomery.md R202): the double-width value `F[rs1] · 2^W + F[rs2]`. -/
def execMontred (f : FieldSel) (rd rs1 rs2 : FReg) (s : State) : Host.Outcome State Fault Refusal :=
  runCommand { words := [anyWord rs1, anyWord rs2] }
    (fun s => s.setF rd (montReduce s.cfg f (s.word rs1 * s.cfg.radix + s.word rs2))) s

/-- RAWI (42_montgomery.md R203): the immediate itself. -/
def execRawi (rd : FReg) (imm : BitVec 16) (s : State) : Host.Outcome State Fault Refusal :=
  runCommand {} (fun s => s.setF rd imm.toNat) s

/-- RAWR2 (42_montgomery.md R204): `(R · R) mod m`. -/
def execRawr2 (f : FieldSel) (rd : FReg) (s : State) : Host.Outcome State Fault Refusal :=
  runCommand {} (fun s => s.setF rd (s.cfg.radix * s.cfg.radix % s.cfg.modulus f)) s

end Sys2Proof.Machine
end

