-- ==== Sys2Proof/Machine/Dispatch.lean ====
section
/-! DEFINITION. The meaning of every command: one arm per constructor of Instr. -/

namespace Sys2Proof.Machine

/-- Execute a command (10_state.md R51): its checks, its effect and its completion. -/
def exec (i : Instr) (s : State) : Host.Outcome State Fault Refusal :=
  match i with
  | .halt => Sys2Proof.Machine.execHalt s
  | .nop => Sys2Proof.Machine.execNop s
  | .mset md => Sys2Proof.Machine.execMset md s
  | .fadd f rd rs1 rs2 => Sys2Proof.Machine.execFadd f rd rs1 rs2 s
  | .fsub f rd rs1 rs2 => Sys2Proof.Machine.execFsub f rd rs1 rs2 s
  | .fneg f rd rs1 => Sys2Proof.Machine.execFneg f rd rs1 s
  | .fmul f rd rs1 rs2 => Sys2Proof.Machine.execFmul f rd rs1 rs2 s
  | .fsqr f rd rs1 => Sys2Proof.Machine.execFsqr f rd rs1 s
  | .finv f rd md rs1 => Sys2Proof.Machine.execFinv f rd md rs1 s
  | .fsqrt f rd md rs1 => Sys2Proof.Machine.execFsqrt f rd md rs1 s
  | .fsel f rd rs1 rs2 ms => Sys2Proof.Machine.execFsel f rd rs1 rs2 ms s
  | .fisz f md rs1 => Sys2Proof.Machine.execFisz f md rs1 s
  | .feq f md rs1 rs2 => Sys2Proof.Machine.execFeq f md rs1 rs2 s
  | .fsgn0 f md rs1 => Sys2Proof.Machine.execFsgn0 f md rs1 s
  | .fmov rd rs1 => Sys2Proof.Machine.execFmov rd rs1 s
  | .montmul f rd rs1 rs2 => Sys2Proof.Machine.execMontmul f rd rs1 rs2 s
  | .montred f rd rs1 rs2 => Sys2Proof.Machine.execMontred f rd rs1 rs2 s
  | .fldi f rd imm => Sys2Proof.Machine.execFldi f rd imm s
  | .rawi rd imm => Sys2Proof.Machine.execRawi rd imm s
  | .rawr2 f rd => Sys2Proof.Machine.execRawr2 f rd s
  | .fld f rd md addr => Sys2Proof.Machine.execFld f rd md addr s
  | .fst f rd addr => Sys2Proof.Machine.execFst f rd addr s
  | .fldw f rd addr => Sys2Proof.Machine.execFldw f rd addr s
  | .fldu64 f rd addr => Sys2Proof.Machine.execFldu64 f rd addr s
  | .rawld rd addr => Sys2Proof.Machine.execRawld rd addr s
  | .rawst rd addr => Sys2Proof.Machine.execRawst rd addr s
  | .mclr md => Sys2Proof.Machine.execMclr md s
  | .mand md ms mt => Sys2Proof.Machine.execMand md ms mt s
  | .mor md ms mt => Sys2Proof.Machine.execMor md ms mt s
  | .mxor md ms mt => Sys2Proof.Machine.execMxor md ms mt s
  | .mnot md ms => Sys2Proof.Machine.execMnot md ms s
  | .pwadd rd rs1 rs2 => Sys2Proof.Machine.execPwadd rd rs1 rs2 s
  | .pwdbl rd rs1 => Sys2Proof.Machine.execPwdbl rd rs1 s
  | .pwneg rd rs1 => Sys2Proof.Machine.execPwneg rd rs1 s
  | .pwisid md rs1 => Sys2Proof.Machine.execPwisid md rs1 s
  | .pweq md rs1 rs2 => Sys2Proof.Machine.execPweq md rs1 rs2 s
  | .pwtoaff rd md rs1 => Sys2Proof.Machine.execPwtoaff rd md rs1 s
  | .pwsetaff rd md rs1 => Sys2Proof.Machine.execPwsetaff rd md rs1 s
  | .pwsmul f rd rs1 rs2 => Sys2Proof.Machine.execPwsmul f rd rs1 rs2 s
  | .pwclr rd rs1 => Sys2Proof.Machine.execPwclr rd rs1 s
  | .pwmap rd rs1 => Sys2Proof.Machine.execPwmap rd rs1 s
  | .pwfrac rd rs1 => Sys2Proof.Machine.execPwfrac rd rs1 s
  | .pwh2c rd => Sys2Proof.Machine.execPwh2c rd s
  | .pwe2c rd => Sys2Proof.Machine.execPwe2c rd s
  | .pwsel rd rs1 rs2 ms => Sys2Proof.Machine.execPwsel rd rs1 rs2 ms s
  | .peadd rd rs1 rs2 => Sys2Proof.Machine.execPeadd rd rs1 rs2 s
  | .pedbl rd rs1 => Sys2Proof.Machine.execPedbl rd rs1 s
  | .peneg rd rs1 => Sys2Proof.Machine.execPeneg rd rs1 s
  | .peisid md rs1 => Sys2Proof.Machine.execPeisid md rs1 s
  | .peeq md rs1 rs2 => Sys2Proof.Machine.execPeeq md rs1 rs2 s
  | .petoaff rd md rs1 => Sys2Proof.Machine.execPetoaff rd md rs1 s
  | .pesetaff rd md rs1 => Sys2Proof.Machine.execPesetaff rd md rs1 s
  | .pesmul f rd rs1 rs2 => Sys2Proof.Machine.execPesmul f rd rs1 rs2 s
  | .peclr rd rs1 => Sys2Proof.Machine.execPeclr rd rs1 s
  | .pesel rd rs1 rs2 ms => Sys2Proof.Machine.execPesel rd rs1 rs2 ms s
  | .h2f f rd count => Sys2Proof.Machine.execH2f f rd count s
  | .xmd addr => Sys2Proof.Machine.execXmd addr s

end Sys2Proof.Machine
end

