-- ==== Sys2Proof/Machine/Sequencer.lean ====
section
/-! DEFINITION. One turn of the sequencer (10_state.md R51, 60_exceptions.md R346). -/

namespace Sys2Proof.Machine

/-- One sequencer step: nothing in IDLE (log entry 24); in RUN the abort check, the `pc` check, the fetch, the
decoding and the execution, in the order of 60_exceptions.md R346. -/
def State.sequencerStep (s : State) : Host.Outcome State Fault Refusal :=
  match s.run with
  | .idle => .next s
  | .run =>
    if s.abortReq then .next (s.errorStop .abort 0)
    else if 256 ≤ s.pc.toNat then .next (s.errorStop .pcRange 0)
    else
      match decode s.fetch with
      | .error _ => .next (s.errorStop .illegal s.fetch)
      | .ok i => exec i s

end Sys2Proof.Machine
end

