-- ==== Sys2Proof/Machine/Bus.lean ====
section
/-! DEFINITION. The host's bus window (20_memory.md R75 to R81) and the control and status registers behind it
(10_state.md R39 to R49, R54 to R56). -/

namespace Sys2Proof.Machine

/-- The ranges of the window (20_memory.md R75). -/
inductive WindowRange
  | csr
  | imem
  | mem
  | reserved
  deriving DecidableEq, Repr

/-- The range an offset lies in (20_memory.md R75). -/
def windowRange (off : Nat) : WindowRange :=
  if off < 0x48 then .csr
  else if off < 0x400 then .reserved
  else if off < 0x800 then .imem
  else if off < 0x1000 then .reserved
  else .mem

/-- An access of this offset and width gets a bus error (20_memory.md R79). That it does in RUN too, where R80 has most
writes ignored with no bus error and names no exception, is a DESIGN CHOICE (log entry 26). -/
def busError (off size : Nat) : Bool :=
  match windowRange off with
  | .csr => !(decide (size = 4) && decide (off % 4 = 0))
  | .imem => !(decide (size = 4) && decide (off % 4 = 0))
  | .mem => !((decide (size = 1) || decide (size = 2) || decide (size = 4)) && decide (off % size = 0))
  | .reserved => false

/-! ### Reads -/

/-- How many steps, at most `n`, a run takes and is still going: each completes a command. So the run stands, one after
the other, at this many indices after `pc`, the last of them that of the HALT or of the command that ends it,
where `n` is enough (10_state.md R51, 60_exceptions.md R350). -/
def State.commandsAhead : Nat → State → Nat
  | 0, _ => 0
  | n + 1, s =>
    match s.sequencerStep with
    | .next t =>
      match t.run with
      | .run => State.commandsAhead n t + 1
      | .idle => 0
    | .fault _ => 0
    | .refused _ => 0

/-- The engine left alone: no turn pending, no answer on the bus. -/
def State.leftAlone (s : State) : State := { s with turns := [], resp := ⟨0, false⟩ }

/-- PC (10_state.md R47): `pc` in IDLE; in RUN the index of some command, not yet completed, of the run as it goes on
when left alone, a free value. Log entry 11. -/
def State.pcWord (s : State) : BitVec 32 :=
  match s.run with
  | .idle => s.pc.setWidth 32
  | .run =>
    let ahead := State.commandsAhead (255 - s.pc.toNat) s.leftAlone
    BitVec.ofNat 32 (s.pc.toNat + Config.freePc s.clock s.writes % (ahead + 1))

/-- A CSR read (10_state.md R40). -/
def State.csrRead (s : State) (off : Nat) : BitVec 32 :=
  match off with
  | 0x000 => 0x42524E31
  | 0x004 => s.cfgWord
  | 0x00C => s.statusWord
  | 0x010 => s.entry.setWidth 32
  | 0x014 => s.pcWord
  | 0x018 => s.errpc.setWidth 32
  | 0x01C => s.errinsn
  | 0x020 => s.irqenWord
  | 0x024 => s.irqstWord
  | 0x028 => s.msgaddr.setWidth 32
  | 0x02C => s.msglen.setWidth 32
  | 0x030 => s.dstaddr.setWidth 32
  | 0x034 => s.dstlen.setWidth 32
  | 0x038 => s.xmdlen.setWidth 32
  | 0x03C => s.masksWord
  | 0x040 => s.fvalidWord
  | 0x044 => s.retired
  | _ => 0

/-- The byte of MEM a host read finds at `a`: the byte in IDLE, a free value in RUN (20_memory.md R80). Log entry
10. -/
def State.hostMemByte (s : State) (a : Nat) : Byte :=
  match s.run with
  | .idle => s.mem.read a
  | .run => Config.freeBusByte s.clock s.writes a

/-- `n` bytes of MEM from `a` on the little-endian lanes of the bus (20_memory.md R78). -/
def State.laneValue (s : State) (a : Nat) : Nat → Nat
  | 0 => 0
  | n + 1 => (s.hostMemByte a).toNat + 256 * State.laneValue s (a + 1) n

/-- A host read (20_memory.md R75, R78, R79). R78 places byte k of a MEM access on data bits 8k to 8k + 7; that the data
bits above the access are 0 in an 8- or 16-bit read is a DESIGN CHOICE (log entry 9). -/
def State.busRead (s : State) (off size : Nat) : BusResponse :=
  if busError off size then ⟨0, true⟩
  else match windowRange off with
    | .csr => ⟨s.csrRead off, false⟩
    | .imem => ⟨s.imem.read ((off - 0x400) / 4), false⟩
    | .mem => ⟨BitVec.ofNat 32 (s.laneValue (off - 0x1000) size), false⟩
    | .reserved => ⟨0, false⟩

/-! ### Writes -/

/-- A write of CTRL (10_state.md R45): SRST first, else START in IDLE, ABORT in RUN. -/
def State.ctrlWrite (s : State) (d : BitVec 32) : State :=
  if d.getLsbD 2 then s.softReset
  else match s.run with
    | .idle => if d.getLsbD 0 then s.start else s
    | .run => if d.getLsbD 1 then { s with abortReq := true } else s

/-- A write of a read-write CSR that acts in IDLE only (10_state.md R39, R44, R49). -/
def State.idleCsrWrite (s : State) (off : Nat) (d : BitVec 32) : State :=
  match off with
  | 0x010 => { s with entry := d.setWidth 8 }
  | 0x028 => { s with msgaddr := d.setWidth 12 }
  | 0x02C => { s with msglen := d.setWidth 13 }
  | 0x030 => { s with dstaddr := d.setWidth 12 }
  | 0x034 => { s with dstlen := d.setWidth 9 }
  | 0x038 => { s with xmdlen := d.setWidth 16 }
  | _ => s

/-- A CSR write: CTRL, IRQEN and IRQST act in both run states, the others in IDLE only, and a write of a
read-only CSR is ignored (10_state.md R39, R45, R48; 20_memory.md R80). -/
def State.csrWrite (s : State) (off : Nat) (d : BitVec 32) : State :=
  match off with
  | 0x008 => s.ctrlWrite d
  | 0x020 => { s with doneIE := d.getLsbD 0, errIE := d.getLsbD 1 }
  | 0x024 => { s with doneIP := s.doneIP && !d.getLsbD 0, errIP := s.errIP && !d.getLsbD 1 }
  | _ =>
    match s.run with
    | .idle => s.idleCsrWrite off d
    | .run => s

/-- The bytes of `n` little-endian lanes (20_memory.md R78). -/
def laneBytes : Nat → Nat → List Byte
  | 0, _ => []
  | n + 1, v => BitVec.ofNat 8 v :: laneBytes n (v / 256)

/-- The effect of a host write (20_memory.md R78 to R80): ignored with a bus error, in a reserved range, and in
RUN except for CTRL, IRQEN and IRQST. -/
def State.busWriteEffect (s : State) (off size : Nat) (d : BitVec 32) : State :=
  if busError off size then s
  else match windowRange off with
    | .csr => s.csrWrite off d
    | .imem =>
      match s.run with
      | .idle => { s with imem := s.imem.write ((off - 0x400) / 4) d }
      | .run => s
    | .mem =>
      match s.run with
      | .idle => s.memWrite (off - 0x1000) (laneBytes size d.toNat)
      | .run => s
    | .reserved => s

/-- One host access: the bus's answer goes to `resp`. A write is counted. A read changes
nothing else, so that two reads with no write and no engine step between them get the same answer (20_memory.md R81;
log entries 4 and 9). A wrongly sized or misaligned write gets its bus error in RUN too (log entry 26). -/
def State.busAccess (s : State) (a : BusAccess) : State :=
  match a.op with
  | .read => { s with resp := s.busRead a.offset.toNat a.size }
  | .write d =>
    let t := s.busWriteEffect a.offset.toNat a.size d
    { t with resp := ⟨0, busError a.offset.toNat a.size⟩, writes := t.writes + 1 }

end Sys2Proof.Machine
end

