-- ==== Sys2Proof/Machine/Step.lean ====
section
/-! DEFINITION. One step of the machine: the next turn of its agents (00_scope.md R8). -/

namespace Sys2Proof.Machine

/-- One step: the oldest pending turn, or the sequencer's when none is pending. Log entry 8. -/
def step (s : State) : Host.Outcome State Fault Refusal :=
  match s.turns with
  | [] => s.sequencerStep
  | .engine :: rest => State.sequencerStep { s with turns := rest }
  | .bus a :: rest => .next (State.busAccess { s with turns := rest } a)
  | .rst :: rest => .next (State.powerOn { s with turns := rest })

/-- The state in which the very next step fetches and runs the command whose `nbits` low bits are `w`: no turn of
another agent is pending, the sequencer is in RUN with no abort requested, and the word stands in IMEM at `pc`
(at index 0 where `pc` is past IMEM). It stands for what the host does through the bus (log entry 18). -/
def State.withFetchWord (s : State) (nbits w : Nat) : State :=
  let pc : BitVec 9 := if s.pc.toNat < imemSize then s.pc else 0
  { s with
    turns := [], run := .run, abortReq := false, pc := pc
    imem := s.imem.write pc.toNat (BitVec.ofNat 32 (w % 2 ^ nbits)) }

end Sys2Proof.Machine
end

