-- ==== Sys2Proof/Safety.lean ====
section
/-! DEFINITION. What counts as a safe run, in the terms the claims use: the machine's invariant, and, rule by
rule and apart from the meanings, which operands a command names, which of its checks fails first
(60_exceptions.md R346), and what it may write. The claims hold the meanings against these tables. -/

namespace Sys2Proof

/-! ### Tables over the commands, each from one rule of the spec -/

/-- The command exists in this configuration (30_encoding.md R122). -/
def Instr.present (c : Config) : Instr → Bool
  | .halt => true
  | .nop => true
  | .mset _ => true
  | .fadd _ _ _ _ => true
  | .fsub _ _ _ _ => true
  | .fneg _ _ _ => true
  | .fmul _ _ _ _ => true
  | .fsqr _ _ _ => true
  | .finv _ _ _ _ => true
  | .fsqrt _ _ _ _ => true
  | .fsel _ _ _ _ _ => true
  | .fisz _ _ _ => true
  | .feq _ _ _ _ => true
  | .fsgn0 _ _ _ => true
  | .fmov _ _ => true
  | .montmul _ _ _ _ => true
  | .montred _ _ _ _ => true
  | .fldi _ _ _ => true
  | .rawi _ _ => true
  | .rawr2 _ _ => true
  | .fld _ _ _ _ => true
  | .fst _ _ _ => true
  | .fldw _ _ _ => true
  | .fldu64 _ _ _ => true
  | .rawld _ _ => true
  | .rawst _ _ => true
  | .mclr _ => true
  | .mand _ _ _ => true
  | .mor _ _ _ => true
  | .mxor _ _ _ => true
  | .mnot _ _ => true
  | .pwadd _ _ _ => true
  | .pwdbl _ _ => true
  | .pwneg _ _ => true
  | .pwisid _ _ => true
  | .pweq _ _ _ => true
  | .pwtoaff _ _ _ => true
  | .pwsetaff _ _ _ => true
  | .pwsmul _ _ _ _ => true
  | .pwclr _ _ => true
  | .pwmap _ _ => c.h2cEn
  | .pwfrac _ _ => true
  | .pwh2c _ => c.h2cEn
  | .pwe2c _ => c.h2cEn
  | .pwsel _ _ _ _ => true
  | .peadd _ _ _ => c.edwEn
  | .pedbl _ _ => c.edwEn
  | .peneg _ _ => c.edwEn
  | .peisid _ _ => c.edwEn
  | .peeq _ _ _ => c.edwEn
  | .petoaff _ _ _ => c.edwEn
  | .pesetaff _ _ _ => c.edwEn
  | .pesmul _ _ _ _ => c.edwEn
  | .peclr _ _ => c.edwEn
  | .pesel _ _ _ _ => c.edwEn
  | .h2f _ _ _ => true
  | .xmd _ => true

/-- The register groups of a command, base and size: 3 for a Weierstrass point, 4 for an Edwards point or a
fraction, 2 for an affine pair, the count for H2F (60_exceptions.md R342). -/
def Instr.groups : Instr → List (Nat × Nat)
  | .halt => []
  | .nop => []
  | .mset _ => []
  | .fadd _ _ _ _ => []
  | .fsub _ _ _ _ => []
  | .fneg _ _ _ => []
  | .fmul _ _ _ _ => []
  | .fsqr _ _ _ => []
  | .finv _ _ _ _ => []
  | .fsqrt _ _ _ _ => []
  | .fsel _ _ _ _ _ => []
  | .fisz _ _ _ => []
  | .feq _ _ _ _ => []
  | .fsgn0 _ _ _ => []
  | .fmov _ _ => []
  | .montmul _ _ _ _ => []
  | .montred _ _ _ _ => []
  | .fldi _ _ _ => []
  | .rawi _ _ => []
  | .rawr2 _ _ => []
  | .fld _ _ _ _ => []
  | .fst _ _ _ => []
  | .fldw _ _ _ => []
  | .fldu64 _ _ _ => []
  | .rawld _ _ => []
  | .rawst _ _ => []
  | .mclr _ => []
  | .mand _ _ _ => []
  | .mor _ _ _ => []
  | .mxor _ _ _ => []
  | .mnot _ _ => []
  | .pwadd rd rs1 rs2 => [(rd.val, 3), (rs1.val, 3), (rs2.val, 3)]
  | .pwdbl rd rs1 => [(rd.val, 3), (rs1.val, 3)]
  | .pwneg rd rs1 => [(rd.val, 3), (rs1.val, 3)]
  | .pwisid _ rs1 => [(rs1.val, 3)]
  | .pweq _ rs1 rs2 => [(rs1.val, 3), (rs2.val, 3)]
  | .pwtoaff rd _ rs1 => [(rd.val, 2), (rs1.val, 3)]
  | .pwsetaff rd _ rs1 => [(rd.val, 3), (rs1.val, 2)]
  | .pwsmul _ rd rs1 _ => [(rd.val, 3), (rs1.val, 3)]
  | .pwclr rd rs1 => [(rd.val, 3), (rs1.val, 3)]
  | .pwmap rd _ => [(rd.val, 4)]
  | .pwfrac rd rs1 => [(rd.val, 3), (rs1.val, 4)]
  | .pwh2c rd => [(rd.val, 3)]
  | .pwe2c rd => [(rd.val, 3)]
  | .pwsel rd rs1 rs2 _ => [(rd.val, 3), (rs1.val, 3), (rs2.val, 3)]
  | .peadd rd rs1 rs2 => [(rd.val, 4), (rs1.val, 4), (rs2.val, 4)]
  | .pedbl rd rs1 => [(rd.val, 4), (rs1.val, 4)]
  | .peneg rd rs1 => [(rd.val, 4), (rs1.val, 4)]
  | .peisid _ rs1 => [(rs1.val, 4)]
  | .peeq _ rs1 rs2 => [(rs1.val, 4), (rs2.val, 4)]
  | .petoaff rd _ rs1 => [(rd.val, 2), (rs1.val, 4)]
  | .pesetaff rd _ rs1 => [(rd.val, 4), (rs1.val, 2)]
  | .pesmul _ rd rs1 _ => [(rd.val, 4), (rs1.val, 4)]
  | .peclr rd rs1 => [(rd.val, 4), (rs1.val, 4)]
  | .pesel rd rs1 rs2 _ => [(rd.val, 4), (rs1.val, 4), (rs2.val, 4)]
  | .h2f _ rd count => [(rd.val, count.toNat)]
  | .xmd _ => []

/-- The `n` registers of a point source from base `b`, each to be canonical under P (60_exceptions.md R344). -/
def pointSource (b n : Nat) : List (Nat × Option FieldSel) := (List.range n).map fun k => (b + k, some .p)

/-- The source field registers of a command, with the modulus its word must be below, if any (60_exceptions.md
R344, R345): none for MONTMUL, MONTRED, FMOV and RAWST. -/
def Instr.sources : Instr → List (Nat × Option FieldSel)
  | .halt => []
  | .nop => []
  | .mset _ => []
  | .fadd f _ rs1 rs2 => [(rs1.val, some f), (rs2.val, some f)]
  | .fsub f _ rs1 rs2 => [(rs1.val, some f), (rs2.val, some f)]
  | .fneg f _ rs1 => [(rs1.val, some f)]
  | .fmul f _ rs1 rs2 => [(rs1.val, some f), (rs2.val, some f)]
  | .fsqr f _ rs1 => [(rs1.val, some f)]
  | .finv f _ _ rs1 => [(rs1.val, some f)]
  | .fsqrt f _ _ rs1 => [(rs1.val, some f)]
  | .fsel f _ rs1 rs2 _ => [(rs1.val, some f), (rs2.val, some f)]
  | .fisz f _ rs1 => [(rs1.val, some f)]
  | .feq f _ rs1 rs2 => [(rs1.val, some f), (rs2.val, some f)]
  | .fsgn0 f _ rs1 => [(rs1.val, some f)]
  | .fmov _ rs1 => [(rs1.val, none)]
  | .montmul _ _ rs1 rs2 => [(rs1.val, none), (rs2.val, none)]
  | .montred _ _ rs1 rs2 => [(rs1.val, none), (rs2.val, none)]
  | .fldi _ _ _ => []
  | .rawi _ _ => []
  | .rawr2 _ _ => []
  | .fld _ _ _ _ => []
  | .fst f rd _ => [(rd.val, some f)]
  | .fldw _ _ _ => []
  | .fldu64 _ _ _ => []
  | .rawld _ _ => []
  | .rawst rd _ => [(rd.val, none)]
  | .mclr _ => []
  | .mand _ _ _ => []
  | .mor _ _ _ => []
  | .mxor _ _ _ => []
  | .mnot _ _ => []
  | .pwadd _ rs1 rs2 => pointSource rs1.val 3 ++ pointSource rs2.val 3
  | .pwdbl _ rs1 => pointSource rs1.val 3
  | .pwneg _ rs1 => pointSource rs1.val 3
  | .pwisid _ rs1 => pointSource rs1.val 3
  | .pweq _ rs1 rs2 => pointSource rs1.val 3 ++ pointSource rs2.val 3
  | .pwtoaff _ _ rs1 => pointSource rs1.val 3
  | .pwsetaff _ _ rs1 => pointSource rs1.val 2
  | .pwsmul f _ rs1 rs2 => pointSource rs1.val 3 ++ [(rs2.val, some f)]
  | .pwclr _ rs1 => pointSource rs1.val 3
  | .pwmap _ rs1 => [(rs1.val, some .p)]
  | .pwfrac _ rs1 => pointSource rs1.val 4
  | .pwh2c _ => []
  | .pwe2c _ => []
  | .pwsel _ rs1 rs2 _ => pointSource rs1.val 3 ++ pointSource rs2.val 3
  | .peadd _ rs1 rs2 => pointSource rs1.val 4 ++ pointSource rs2.val 4
  | .pedbl _ rs1 => pointSource rs1.val 4
  | .peneg _ rs1 => pointSource rs1.val 4
  | .peisid _ rs1 => pointSource rs1.val 4
  | .peeq _ rs1 rs2 => pointSource rs1.val 4 ++ pointSource rs2.val 4
  | .petoaff _ _ rs1 => pointSource rs1.val 4
  | .pesetaff _ _ rs1 => pointSource rs1.val 2
  | .pesmul f _ rs1 rs2 => pointSource rs1.val 4 ++ [(rs2.val, some f)]
  | .peclr _ rs1 => pointSource rs1.val 4
  | .pesel _ rs1 rs2 _ => pointSource rs1.val 4 ++ pointSource rs2.val 4
  | .h2f _ _ _ => []
  | .xmd _ => []

/-- The source masks of a command: only the selects and the mask logic read masks (10_state.md R34). -/
def Instr.sourceMasks : Instr → List MReg
  | .halt => []
  | .nop => []
  | .mset _ => []
  | .fadd _ _ _ _ => []
  | .fsub _ _ _ _ => []
  | .fneg _ _ _ => []
  | .fmul _ _ _ _ => []
  | .fsqr _ _ _ => []
  | .finv _ _ _ _ => []
  | .fsqrt _ _ _ _ => []
  | .fsel _ _ _ _ ms => [ms]
  | .fisz _ _ _ => []
  | .feq _ _ _ _ => []
  | .fsgn0 _ _ _ => []
  | .fmov _ _ => []
  | .montmul _ _ _ _ => []
  | .montred _ _ _ _ => []
  | .fldi _ _ _ => []
  | .rawi _ _ => []
  | .rawr2 _ _ => []
  | .fld _ _ _ _ => []
  | .fst _ _ _ => []
  | .fldw _ _ _ => []
  | .fldu64 _ _ _ => []
  | .rawld _ _ => []
  | .rawst _ _ => []
  | .mclr _ => []
  | .mand _ ms mt => [ms, mt]
  | .mor _ ms mt => [ms, mt]
  | .mxor _ ms mt => [ms, mt]
  | .mnot _ ms => [ms]
  | .pwadd _ _ _ => []
  | .pwdbl _ _ => []
  | .pwneg _ _ => []
  | .pwisid _ _ => []
  | .pweq _ _ _ => []
  | .pwtoaff _ _ _ => []
  | .pwsetaff _ _ _ => []
  | .pwsmul _ _ _ _ => []
  | .pwclr _ _ => []
  | .pwmap _ _ => []
  | .pwfrac _ _ => []
  | .pwh2c _ => []
  | .pwe2c _ => []
  | .pwsel _ _ _ ms => [ms]
  | .peadd _ _ _ => []
  | .pedbl _ _ => []
  | .peneg _ _ => []
  | .peisid _ _ => []
  | .peeq _ _ _ => []
  | .petoaff _ _ _ => []
  | .pesetaff _ _ _ => []
  | .pesmul _ _ _ _ => []
  | .peclr _ _ => []
  | .pesel _ _ _ ms => [ms]
  | .h2f _ _ _ => []
  | .xmd _ => []

/-- The field registers a command writes, base and number. -/
def Instr.dest : Instr → Nat × Nat
  | .halt => (0, 0)
  | .nop => (0, 0)
  | .mset _ => (0, 0)
  | .fadd _ rd _ _ => (rd.val, 1)
  | .fsub _ rd _ _ => (rd.val, 1)
  | .fneg _ rd _ => (rd.val, 1)
  | .fmul _ rd _ _ => (rd.val, 1)
  | .fsqr _ rd _ => (rd.val, 1)
  | .finv _ rd _ _ => (rd.val, 1)
  | .fsqrt _ rd _ _ => (rd.val, 1)
  | .fsel _ rd _ _ _ => (rd.val, 1)
  | .fisz _ _ _ => (0, 0)
  | .feq _ _ _ _ => (0, 0)
  | .fsgn0 _ _ _ => (0, 0)
  | .fmov rd _ => (rd.val, 1)
  | .montmul _ rd _ _ => (rd.val, 1)
  | .montred _ rd _ _ => (rd.val, 1)
  | .fldi _ rd _ => (rd.val, 1)
  | .rawi rd _ => (rd.val, 1)
  | .rawr2 _ rd => (rd.val, 1)
  | .fld _ rd _ _ => (rd.val, 1)
  | .fst _ _ _ => (0, 0)
  | .fldw _ rd _ => (rd.val, 1)
  | .fldu64 _ rd _ => (rd.val, 1)
  | .rawld rd _ => (rd.val, 1)
  | .rawst _ _ => (0, 0)
  | .mclr _ => (0, 0)
  | .mand _ _ _ => (0, 0)
  | .mor _ _ _ => (0, 0)
  | .mxor _ _ _ => (0, 0)
  | .mnot _ _ => (0, 0)
  | .pwadd rd _ _ => (rd.val, 3)
  | .pwdbl rd _ => (rd.val, 3)
  | .pwneg rd _ => (rd.val, 3)
  | .pwisid _ _ => (0, 0)
  | .pweq _ _ _ => (0, 0)
  | .pwtoaff rd _ _ => (rd.val, 2)
  | .pwsetaff rd _ _ => (rd.val, 3)
  | .pwsmul _ rd _ _ => (rd.val, 3)
  | .pwclr rd _ => (rd.val, 3)
  | .pwmap rd _ => (rd.val, 4)
  | .pwfrac rd _ => (rd.val, 3)
  | .pwh2c rd => (rd.val, 3)
  | .pwe2c rd => (rd.val, 3)
  | .pwsel rd _ _ _ => (rd.val, 3)
  | .peadd rd _ _ => (rd.val, 4)
  | .pedbl rd _ => (rd.val, 4)
  | .peneg rd _ => (rd.val, 4)
  | .peisid _ _ => (0, 0)
  | .peeq _ _ _ => (0, 0)
  | .petoaff rd _ _ => (rd.val, 2)
  | .pesetaff rd _ _ => (rd.val, 4)
  | .pesmul _ rd _ _ => (rd.val, 4)
  | .peclr rd _ => (rd.val, 4)
  | .pesel rd _ _ _ => (rd.val, 4)
  | .h2f _ rd count => (rd.val, count.toNat)
  | .xmd _ => (0, 0)

/-- The mask register a command writes (10_state.md R34). -/
def Instr.destMask : Instr → Option MReg
  | .halt => none
  | .nop => none
  | .mset md => some md
  | .fadd _ _ _ _ => none
  | .fsub _ _ _ _ => none
  | .fneg _ _ _ => none
  | .fmul _ _ _ _ => none
  | .fsqr _ _ _ => none
  | .finv _ _ md _ => some md
  | .fsqrt _ _ md _ => some md
  | .fsel _ _ _ _ _ => none
  | .fisz _ md _ => some md
  | .feq _ md _ _ => some md
  | .fsgn0 _ md _ => some md
  | .fmov _ _ => none
  | .montmul _ _ _ _ => none
  | .montred _ _ _ _ => none
  | .fldi _ _ _ => none
  | .rawi _ _ => none
  | .rawr2 _ _ => none
  | .fld _ _ md _ => some md
  | .fst _ _ _ => none
  | .fldw _ _ _ => none
  | .fldu64 _ _ _ => none
  | .rawld _ _ => none
  | .rawst _ _ => none
  | .mclr md => some md
  | .mand md _ _ => some md
  | .mor md _ _ => some md
  | .mxor md _ _ => some md
  | .mnot md _ => some md
  | .pwadd _ _ _ => none
  | .pwdbl _ _ => none
  | .pwneg _ _ => none
  | .pwisid md _ => some md
  | .pweq md _ _ => some md
  | .pwtoaff _ md _ => some md
  | .pwsetaff _ md _ => some md
  | .pwsmul _ _ _ _ => none
  | .pwclr _ _ => none
  | .pwmap _ _ => none
  | .pwfrac _ _ => none
  | .pwh2c _ => none
  | .pwe2c _ => none
  | .pwsel _ _ _ _ => none
  | .peadd _ _ _ => none
  | .pedbl _ _ => none
  | .peneg _ _ => none
  | .peisid md _ => some md
  | .peeq md _ _ => some md
  | .petoaff _ md _ => some md
  | .pesetaff _ md _ => some md
  | .pesmul _ _ _ _ => none
  | .peclr _ _ => none
  | .pesel _ _ _ _ => none
  | .h2f _ _ _ => none
  | .xmd _ => none

end Sys2Proof

namespace Sys2Proof.Machine

/-- The MEM ranges a command is checked for, start and length (60_exceptions.md R347). -/
def State.rangesOf (s : State) : Instr → List (Nat × Nat)
  | .halt => []
  | .nop => []
  | .mset _ => []
  | .fadd _ _ _ _ => []
  | .fsub _ _ _ _ => []
  | .fneg _ _ _ => []
  | .fmul _ _ _ _ => []
  | .fsqr _ _ _ => []
  | .finv _ _ _ _ => []
  | .fsqrt _ _ _ _ => []
  | .fsel _ _ _ _ _ => []
  | .fisz _ _ _ => []
  | .feq _ _ _ _ => []
  | .fsgn0 _ _ _ => []
  | .fmov _ _ => []
  | .montmul _ _ _ _ => []
  | .montred _ _ _ _ => []
  | .fldi _ _ _ => []
  | .rawi _ _ => []
  | .rawr2 _ _ => []
  | .fld f _ _ addr => [(addr.toNat, s.cfg.elemBytes f)]
  | .fst f _ addr => [(addr.toNat, s.cfg.elemBytes f)]
  | .fldw f _ addr => [(addr.toNat, s.cfg.wideBytes f)]
  | .fldu64 _ _ addr => [(addr.toNat, 8)]
  | .rawld _ addr => [(addr.toNat, s.cfg.wordBytes)]
  | .rawst _ addr => [(addr.toNat, s.cfg.wordBytes)]
  | .mclr _ => []
  | .mand _ _ _ => []
  | .mor _ _ _ => []
  | .mxor _ _ _ => []
  | .mnot _ _ => []
  | .pwadd _ _ _ => []
  | .pwdbl _ _ => []
  | .pwneg _ _ => []
  | .pwisid _ _ => []
  | .pweq _ _ _ => []
  | .pwtoaff _ _ _ => []
  | .pwsetaff _ _ _ => []
  | .pwsmul _ _ _ _ => []
  | .pwclr _ _ => []
  | .pwmap _ _ => []
  | .pwfrac _ _ => []
  | .pwh2c _ => [(s.msgaddr.toNat, s.msglen.toNat), (s.dstaddr.toNat, s.dstlen.toNat)]
  | .pwe2c _ => [(s.msgaddr.toNat, s.msglen.toNat), (s.dstaddr.toNat, s.dstlen.toNat)]
  | .pwsel _ _ _ _ => []
  | .peadd _ _ _ => []
  | .pedbl _ _ => []
  | .peneg _ _ => []
  | .peisid _ _ => []
  | .peeq _ _ _ => []
  | .petoaff _ _ _ => []
  | .pesetaff _ _ _ => []
  | .pesmul _ _ _ _ => []
  | .peclr _ _ => []
  | .pesel _ _ _ _ => []
  | .h2f _ _ _ => [(s.msgaddr.toNat, s.msglen.toNat), (s.dstaddr.toNat, s.dstlen.toNat)]
  | .xmd addr => [(s.msgaddr.toNat, s.msglen.toNat), (s.dstaddr.toNat, s.dstlen.toNat),
      (addr.toNat, s.xmdlen.toNat)]

/-- The number of bytes a hashing command expands (47_hash.md R305, R308, R310, R322, R323). -/
def State.expandsOf (s : State) : Instr → Option Nat
  | .halt => none
  | .nop => none
  | .mset _ => none
  | .fadd _ _ _ _ => none
  | .fsub _ _ _ _ => none
  | .fneg _ _ _ => none
  | .fmul _ _ _ _ => none
  | .fsqr _ _ _ => none
  | .finv _ _ _ _ => none
  | .fsqrt _ _ _ _ => none
  | .fsel _ _ _ _ _ => none
  | .fisz _ _ _ => none
  | .feq _ _ _ _ => none
  | .fsgn0 _ _ _ => none
  | .fmov _ _ => none
  | .montmul _ _ _ _ => none
  | .montred _ _ _ _ => none
  | .fldi _ _ _ => none
  | .rawi _ _ => none
  | .rawr2 _ _ => none
  | .fld _ _ _ _ => none
  | .fst _ _ _ => none
  | .fldw _ _ _ => none
  | .fldu64 _ _ _ => none
  | .rawld _ _ => none
  | .rawst _ _ => none
  | .mclr _ => none
  | .mand _ _ _ => none
  | .mor _ _ _ => none
  | .mxor _ _ _ => none
  | .mnot _ _ => none
  | .pwadd _ _ _ => none
  | .pwdbl _ _ => none
  | .pwneg _ _ => none
  | .pwisid _ _ => none
  | .pweq _ _ _ => none
  | .pwtoaff _ _ _ => none
  | .pwsetaff _ _ _ => none
  | .pwsmul _ _ _ _ => none
  | .pwclr _ _ => none
  | .pwmap _ _ => none
  | .pwfrac _ _ => none
  | .pwh2c _ => some (2 * s.cfg.wideBytes .p)
  | .pwe2c _ => some (s.cfg.wideBytes .p)
  | .pwsel _ _ _ _ => none
  | .peadd _ _ _ => none
  | .pedbl _ _ => none
  | .peneg _ _ => none
  | .peisid _ _ => none
  | .peeq _ _ _ => none
  | .petoaff _ _ _ => none
  | .pesetaff _ _ _ => none
  | .pesmul _ _ _ _ => none
  | .peclr _ _ => none
  | .pesel _ _ _ _ => none
  | .h2f f _ count => some (count.toNat * s.cfg.wideBytes f)
  | .xmd _ => some s.xmdlen.toNat

/-- The MEM range a command stores to, start and length: only FST, RAWST and XMD store (20_memory.md R70). -/
def State.storeOf (s : State) : Instr → Nat × Nat
  | .halt => (0, 0)
  | .nop => (0, 0)
  | .mset _ => (0, 0)
  | .fadd _ _ _ _ => (0, 0)
  | .fsub _ _ _ _ => (0, 0)
  | .fneg _ _ _ => (0, 0)
  | .fmul _ _ _ _ => (0, 0)
  | .fsqr _ _ _ => (0, 0)
  | .finv _ _ _ _ => (0, 0)
  | .fsqrt _ _ _ _ => (0, 0)
  | .fsel _ _ _ _ _ => (0, 0)
  | .fisz _ _ _ => (0, 0)
  | .feq _ _ _ _ => (0, 0)
  | .fsgn0 _ _ _ => (0, 0)
  | .fmov _ _ => (0, 0)
  | .montmul _ _ _ _ => (0, 0)
  | .montred _ _ _ _ => (0, 0)
  | .fldi _ _ _ => (0, 0)
  | .rawi _ _ => (0, 0)
  | .rawr2 _ _ => (0, 0)
  | .fld _ _ _ _ => (0, 0)
  | .fst f _ addr => (addr.toNat, s.cfg.elemBytes f)
  | .fldw _ _ _ => (0, 0)
  | .fldu64 _ _ _ => (0, 0)
  | .rawld _ _ => (0, 0)
  | .rawst _ addr => (addr.toNat, s.cfg.wordBytes)
  | .mclr _ => (0, 0)
  | .mand _ _ _ => (0, 0)
  | .mor _ _ _ => (0, 0)
  | .mxor _ _ _ => (0, 0)
  | .mnot _ _ => (0, 0)
  | .pwadd _ _ _ => (0, 0)
  | .pwdbl _ _ => (0, 0)
  | .pwneg _ _ => (0, 0)
  | .pwisid _ _ => (0, 0)
  | .pweq _ _ _ => (0, 0)
  | .pwtoaff _ _ _ => (0, 0)
  | .pwsetaff _ _ _ => (0, 0)
  | .pwsmul _ _ _ _ => (0, 0)
  | .pwclr _ _ => (0, 0)
  | .pwmap _ _ => (0, 0)
  | .pwfrac _ _ => (0, 0)
  | .pwh2c _ => (0, 0)
  | .pwe2c _ => (0, 0)
  | .pwsel _ _ _ _ => (0, 0)
  | .peadd _ _ _ => (0, 0)
  | .pedbl _ _ => (0, 0)
  | .peneg _ _ => (0, 0)
  | .peisid _ _ => (0, 0)
  | .peeq _ _ _ => (0, 0)
  | .petoaff _ _ _ => (0, 0)
  | .pesetaff _ _ _ => (0, 0)
  | .pesmul _ _ _ _ => (0, 0)
  | .peclr _ _ => (0, 0)
  | .pesel _ _ _ _ => (0, 0)
  | .h2f _ _ _ => (0, 0)
  | .xmd addr => (addr.toNat, s.xmdlen.toNat)

/-! ### Which check fails first -/

/-- Checks 3 to 8 of 60_exceptions.md R346 for a decoded command: the first that fails. -/
def State.operandError (s : State) (i : Instr) : Option ErrorCode :=
  if i.wellFormed = false ∨ i.present s.cfg = false then some .illegal
  else if ∃ g ∈ i.groups, 32 < g.1 + g.2 then some .badReg
  else if ∃ r ∈ s.rangesOf i, 4096 < r.1 + r.2 then some .memRange
  else if ∃ n ∈ s.expandsOf i, 255 < s.dstlen.toNat ∨ 255 * 64 < n then some .h2fLen
  else if (∃ r ∈ i.sources, s.fvalid r.1 = false) ∨ (∃ j ∈ i.sourceMasks, s.mvalid j = false) then some .uninit
  else if ∃ r ∈ i.sources, ∃ f ∈ r.2, s.cfg.modulus f ≤ s.word r.1 then some .nonCanon
  else none

/-- All the checks of 60_exceptions.md R346 for one sequencer step: the first error, with the word that ERRINSN
then holds (R350). -/
def State.firstFailure (s : State) : Option (ErrorCode × Insn) :=
  if s.abortReq then some (.abort, 0)
  else if 256 ≤ s.pc.toNat then some (.pcRange, 0)
  else match decode s.fetch with
    | .error _ => some (.illegal, s.fetch)
    | .ok i => (s.operandError i).map fun e => (e, s.fetch)

/-- The state after the stop sequence of 60_exceptions.md R350, field by field. -/
def State.stopped (s : State) (code : ErrorCode) (insn : Insn) : State :=
  { s with
    run := .idle, err := true, done := false, errcode := code, errpc := s.pc, errinsn := insn,
    errIP := true, abortReq := false, clock := s.clock + 1 }

/-! ### Secrets -/

/-- `t` is `s` but for the words of field registers, the values of masks and the bytes of MEM: what a run may hold
that is secret (70_reset_and_hazards.md R392). -/
def State.SameButSecrets (s t : State) : Prop := { s with f := t.f, m := t.m, mem := t.mem } = t

/-! ### Sources and frames -/

/-- Field register `r` can be read as an element of the field `f` selects: it is valid and its word is canonical
(41_field.md R170). -/
def State.Reads (s : State) (f : FieldSel) (r : Nat) : Prop :=
  s.fvalid r = true ∧ s.word r < s.cfg.modulus f

/-- The `n` registers from base `b` can be read as coordinates: the group fits (30_encoding.md R117) and each is
valid and canonical under P (44_weierstrass.md R235, 45_edwards.md R265). -/
def State.ReadsGroup (s : State) (b n : Nat) : Prop :=
  b + n ≤ 32 ∧ ∀ k < n, s.Reads .p (b + k)

/-- `t` is `s` after a command that completed (10_state.md R51) and wrote the `n` field registers from `b`, the
masks in `md` and nothing else: `pc` and RETIRED count on; each register outside `b … b+n−1` keeps word and valid
bit and each inside is valid; each mask outside `md` keeps value and valid bit and each inside is valid; every
byte of MEM reads as before; every other field of the state is as it was. -/
structure State.Completes (s t : State) (b n : Nat) (md : List MReg) : Prop where
  others : t = { s with
    f := t.f, fv := t.fv, m := t.m, mv := t.mv,
    pc := s.pc + 1, retired := s.retired + 1, clock := s.clock + 1 }
  words : ∀ i, (i < b ∨ b + n ≤ i) → t.word i = s.word i ∧ t.fvalid i = s.fvalid i
  written : ∀ k < n, t.fvalid (b + k) = true
  masks : ∀ j, j ∉ md → t.mask j = s.mask j ∧ t.mvalid j = s.mvalid j
  writtenMasks : ∀ j ∈ md, t.mvalid j = true
  bytes : ∀ a, t.mem.read a = s.mem.read a

/-- `t` is `s` after a command that completed and stored to the `n` bytes of MEM from `a` and wrote nothing else:
every byte outside reads as before, and every other field of the state is as it was. -/
structure State.CompletesStore (s t : State) (a n : Nat) : Prop where
  others : t = { s with mem := t.mem, pc := s.pc + 1, retired := s.retired + 1, clock := s.clock + 1 }
  bytes : ∀ b, (b < a ∨ a + n ≤ b) → t.mem.read b = s.mem.read b

/-- The state after one command, where it completes or stops. For claims about sequences of commands. -/
def State.after (s : State) (i : Instr) : State :=
  match exec i s with
  | .next t => t
  | .fault _ => s
  | .refused _ => s

/-- The message and the tag of a hashing command lie in MEM and the tag has at most 255 bytes (47_hash.md
R305). -/
def State.HashInputsOk (s : State) : Prop :=
  s.msgaddr.toNat + s.msglen.toNat ≤ 4096 ∧ s.dstaddr.toNat + s.dstlen.toNat ≤ 4096 ∧ s.dstlen.toNat ≤ 255

/-! ### Points of the configured curves -/

/-- `p` is a triple on the curve `Y²·Z = X³ + A·X·Z² + B·Z³` over F_P (00_scope.md R10, R23). -/
def OnW (c : Config) (p : PointW) : Prop :=
  (p.y ^ 2 * p.z) % c.p = (p.x ^ 3 + c.cwA * p.x * p.z ^ 2 + c.cwB * p.z ^ 3) % c.p

/-- `p` is a valid extended quadruple on `a·x² + y² = 1 + d·x²·y²` over F_P: `Z ≠ 0`, `T·Z = X·Y` and the curve
equation (00_scope.md R10, R23). -/
def OnE (c : Config) (p : PointE) : Prop :=
  p.z % c.p ≠ 0 ∧ (p.t * p.z) % c.p = (p.x * p.y) % c.p ∧
    (c.ceA * p.x ^ 2 * p.z ^ 2 + p.y ^ 2 * p.z ^ 2) % c.p = (p.z ^ 4 + c.ceD * p.x ^ 2 * p.y ^ 2) % c.p

/-! ### The invariant of the machine -/

/-- What every step keeps: a sized configuration; both memories in canonical form; every register word of W bits
(10_state.md R30); `pc` and ERRPC at most 256 (R35); DONE and ERR never both 1, ERRCODE 0 exactly without ERR
(R46); in RUN neither is set (R50) and `pc` is ENTRY plus RETIRED (R50, R51, R53); an abort is only requested in
RUN (R37, R45). -/
structure State.Inv (s : State) : Prop where
  sized : s.cfg.sized = true
  mem : Memory.wf memSize s.mem = true
  imem : Memory.wf imemSize s.imem = true
  words : ∀ i, s.word i < s.cfg.radix
  pc : s.pc.toNat ≤ 256
  errpc : s.errpc.toNat ≤ 256
  status : ¬(s.done = true ∧ s.err = true)
  errcode : s.err = true ↔ s.errcode ≠ .none
  running : s.run = .run → s.done = false ∧ s.err = false
  counted : s.run = .run → s.pc.toNat = s.entry.toNat + s.retired.toNat
  abort : s.abortReq = true → s.run = .run

end Sys2Proof.Machine
end

