-- ==== Sys2Proof/Certificates/Slice0/Obligations.lean ====
section
/-! DEFINITION. The statements for the provers, each from the numbered rules of spec/ that its docstring names. -/

open Sys2Proof Sys2Proof.Machine

/-! ### Encoding -/

/-- 30_encoding.md R113 to R118 and R121: the decoder reads back every operand of every well-formed command from
the word the encoder lays out. -/
def Obligations.DecodeEncodeRoundTrip : Prop :=
  ∀ i : Instr, i.wellFormed = true → decode (encode i) = .ok i

/-- 30_encoding.md R118, R120: a word that decodes has no bit the encoding does not account for, and is a
well-formed command. -/
def Obligations.DecodedWordsAreEncodings : Prop :=
  ∀ (w : Insn) (i : Instr), decode w = .ok i → i.wellFormed = true ∧ encode i = w

/-- 30_encoding.md R118, R121: a word is a command exactly when it matches the row of that mnemonic under the row's
mask, and for H2F when its count is 1 to 32. -/
def Obligations.DecoderFollowsTheOpcodeMap : Prop :=
  ∀ w : Insn,
    (∀ i, decode w = .ok i → ∃ r ∈ opcodeRows,
      r.mnemonic = i.mnemonic ∧ r.opcode = bitsOf w 26 6 ∧ w &&& r.mask = r.matchWord ∧
      (r.mnemonic = "H2F" → 1 ≤ bitsOf w 0 16 ∧ bitsOf w 0 16 ≤ 32)) ∧
    (∀ r ∈ opcodeRows, w &&& r.mask = r.matchWord →
      (r.mnemonic = "H2F" → 1 ≤ bitsOf w 0 16 ∧ bitsOf w 0 16 ≤ 32) →
      ∃ i, decode w = .ok i ∧ i.mnemonic = r.mnemonic) ∧
    (∀ r ∈ opcodeRows, w &&& r.mask = r.matchWord → r.mnemonic = "H2F" →
      ¬(1 ≤ bitsOf w 0 16 ∧ bitsOf w 0 16 ≤ 32) → decode w = .error .badCount)

/-- 30_encoding.md R127: the fourteen worked encodings, and the four illegal examples. -/
def Obligations.WorkedEncodingsDecode : Prop :=
  decode 0x04000000#32 = .ok .halt ∧
  decode 0x10308800#32 = .ok (.fadd .p 3 1 2) ∧
  decode 0x1C418800#32 = .ok (.fmul .p 4 3 2) ∧
  decode 0x24508100#32 = .ok (.finv .p 5 2 1) ∧
  decode 0x2E219050#32 = .ok (.fsel .q 2 3 4 5) ∧
  decode 0x70000194#32 = .ok (.mand 3 1 2) ∧
  decode 0x4A700001#32 = .ok (.fldi .q 7 1) ∧
  decode 0xF0A00002#32 = .ok (.h2f .p 10 2) ∧
  decode 0x54100100#32 = .ok (.fld .p 1 0 0x100) ∧
  decode 0x58300110#32 = .ok (.fst .p 3 0x110) ∧
  decode 0xF4000800#32 = .ok (.xmd 0x800) ∧
  decode 0x80600C00#32 = .ok (.pwadd 6 0 3) ∧
  decode 0xB4600C10#32 = .ok (.pwsel 6 0 3 1) ∧
  decode 0x9E01A400#32 = .ok (.pwsmul .q 0 3 9) ∧
  decode 0x00000000#32 = .error .reservedOpcode ∧
  decode 0x04000001#32 = .error .reservedBits ∧
  decode 0x3E000000#32 = .error .reservedBits ∧
  decode 0xF0A00000#32 = .error .badCount

/-! ### One step of the sequencer -/

/-- 10_state.md R51: in RUN, with no abort requested and `pc` inside IMEM, a step on the sequencer's turn is the
execution of the command that the word at `pc` decodes to. In IDLE the sequencer runs no command (10_state.md R36,
60_exceptions.md R352), and its turn leaves the state as it is; that such a turn is a step is the model's choice (log
entry 24). -/
def Obligations.StepExecutesTheDecodedCommand : Prop :=
  ∀ (s : State) (rest : List Turn),
    (∀ i : Instr,
      s.run = .run → s.abortReq = false → s.pc.toNat < 256 → decode (s.imem.read s.pc.toNat) = .ok i →
      (s.turns = [] → step s = exec i s) ∧
      (s.turns = .engine :: rest → step s = exec i { s with turns := rest })) ∧
    (s.run = .idle →
      (s.turns = [] → step s = .next s) ∧
      (s.turns = .engine :: rest → step s = .next { s with turns := rest }))

/-- Log entry 18 (the model's own): a word placed by `withFetchWord` is the command the very next step executes. -/
def Obligations.PlacedWordIsTheNextCommand : Prop :=
  ∀ (s : State) (w : Nat) (i : Instr), decode (BitVec.ofNat 32 w) = .ok i →
    step (s.withFetchWord 32 w) = exec i (s.withFetchWord 32 w)

/-- 60_exceptions.md R341: a fetched word stops the run with E_ILLEGAL exactly when it matches no row of the opcode
map, or is an H2F with a count outside 1 to 32, or a command of a feature the configuration lacks. -/
def Obligations.MalformedWordStopsWithIllegal : Prop :=
  ∀ s : State, s.turns = [] → s.run = .run → s.abortReq = false → s.pc.toNat < 256 →
    (step s = .next (s.stopped .illegal s.fetch) ↔
      (∀ r ∈ opcodeRows, s.fetch &&& r.mask ≠ r.matchWord) ∨
      (∃ r ∈ opcodeRows, s.fetch &&& r.mask = r.matchWord ∧
        (r.mnemonic = "H2F" ∧ ¬(1 ≤ bitsOf s.fetch 0 16 ∧ bitsOf s.fetch 0 16 ≤ 32) ∨
          (0x30 ≤ r.opcode ∧ r.opcode ≤ 0x39) ∧ s.cfg.edwEn = false ∨
          r.mnemonic ∈ ["PWMAP", "PWH2C", "PWE2C"] ∧ s.cfg.h2cEn = false)))

/-- 60_exceptions.md R348, R346, R349: a step that begins with an abort request stops with E_ABORT; one that begins
with `pc = 256` stops with E_PCRANGE, ERRPC 256 and ERRINSN 0; and `pc` comes to 256 after a command at index 255
that leaves the run going. -/
def Obligations.StopsBeforeTheFetch : Prop :=
  ∀ s : State, s.turns = [] → s.run = .run →
    (s.abortReq = true → step s = .next (s.stopped .abort 0)) ∧
    (s.abortReq = false → s.pc.toNat = 256 →
      step s = .next (s.stopped .pcRange 0) ∧ (s.stopped .pcRange 0).errpc.toNat = 256 ∧
        (s.stopped .pcRange 0).errinsn = 0) ∧
    (∀ t, s.pc.toNat = 255 → step s = .next t → t.run = .run → t.pc.toNat = 256)

/-- 60_exceptions.md R346: a step of a run reports the first check that fails, in the order of the rule, and the
command then has no effect; when none fails the command executes and completes. -/
def Obligations.FirstFailingCheckIsReported : Prop :=
  ∀ s : State, s.turns = [] → s.run = .run →
    (∀ e w, s.firstFailure = some (e, w) → step s = .next (s.stopped e w)) ∧
    (s.firstFailure = none → ∃ i t, decode s.fetch = .ok i ∧ exec i s = .next t ∧ step s = .next t ∧
      t.retired = s.retired + 1 ∧ t.err = s.err ∧ t.errcode = s.errcode)

/-- 60_exceptions.md R350: the stop sequence, field by field, and what the host sees of it. -/
def Obligations.ErrorStopRecord : Prop :=
  ∀ (s : State) (e : ErrorCode) (w : Insn), s.turns = [] → s.run = .run → s.firstFailure = some (e, w) →
    ∃ t, step s = .next t ∧
      t.run = .idle ∧ t.err = true ∧ t.done = false ∧ t.errcode = e ∧ t.errpc = s.pc ∧ t.errinsn = w ∧
      t.errIP = true ∧ t.abortReq = false ∧
      t.pc = s.pc ∧ t.retired = s.retired ∧
      t.f = s.f ∧ t.fv = s.fv ∧ t.m = s.m ∧ t.mv = s.mv ∧ t.mem = s.mem ∧ t.imem = s.imem ∧
      t.entry = s.entry ∧ t.doneIE = s.doneIE ∧ t.errIE = s.errIE ∧ t.doneIP = s.doneIP ∧
      t.msgaddr = s.msgaddr ∧ t.msglen = s.msglen ∧ t.dstaddr = s.dstaddr ∧ t.dstlen = s.dstlen ∧
      t.xmdlen = s.xmdlen ∧ t.cfg = s.cfg ∧
      t.busRead 0x00C 4 = ⟨BitVec.ofNat 32 (4 + 256 * e.number), false⟩ ∧
      t.irq = (s.doneIP && s.doneIE || s.errIE)

/-- 10_state.md R51, R32 to R34, 20_memory.md R70, R72: a command other than HALT whose checks pass completes,
counts on `pc` and RETIRED, and writes nothing but its destination registers, its destination mask and the bytes it
stores to (the tables of Safety.lean); each destination becomes valid. -/
def Obligations.CommandWritesOnlyItsDestinations : Prop :=
  ∀ (i : Instr) (s : State), i ≠ .halt → s.operandError i = none →
    ∃ t, exec i s = .next t ∧
      t = { s with
        f := t.f, fv := t.fv, m := t.m, mv := t.mv, mem := t.mem,
        pc := s.pc + 1, retired := s.retired + 1, clock := s.clock + 1 } ∧
      (∀ r, (r < i.dest.1 ∨ i.dest.1 + i.dest.2 ≤ r) → t.word r = s.word r ∧ t.fvalid r = s.fvalid r) ∧
      (∀ k < i.dest.2, t.fvalid (i.dest.1 + k) = true) ∧
      (∀ j, i.destMask ≠ some j → t.mask j = s.mask j ∧ t.mvalid j = s.mvalid j) ∧
      (∀ j, i.destMask = some j → t.mvalid j = true) ∧
      (∀ a, (a < (s.storeOf i).1 ∨ (s.storeOf i).1 + (s.storeOf i).2 ≤ a) → t.mem.read a = s.mem.read a)

/-- 10_state.md R51, R52, 40_control.md R151, R152: what HALT and NOP do; and in a state of the invariant a step
that ends the run is a completed HALT or an error stop. -/
def Obligations.HaltIsTheOnlyNormalEnd : Prop :=
  (∀ s : State, exec .halt s = .next { s with
    run := .idle, done := true, doneIP := true, abortReq := false,
    retired := s.retired + 1, clock := s.clock + 1 }) ∧
  (∀ s : State, exec .nop s = .next { s with
    pc := s.pc + 1, retired := s.retired + 1, clock := s.clock + 1 }) ∧
  (∀ s t : State, s.Inv → s.turns = [] → s.run = .run → step s = .next t → t.run = .idle →
    (t.done = true ∧ t.err = false ∧ s.abortReq = false ∧ decode s.fetch = .ok .halt ∧ exec .halt s = .next t) ∨
    (t.done = false ∧ t.err = true ∧ t.errcode ≠ .none))

/-- 00_scope.md R9: no step, whoever's turn it is, changes the configuration. -/
def Obligations.ConfigurationNeverChanges : Prop :=
  ∀ s t : State, step s = .next t → t.cfg = s.cfg

/-- 10_state.md R32, R33, 70_reset_and_hazards.md R382, R384: a step that is neither an `rst` turn nor a write of 1
to CTRL.SRST keeps every valid register and mask valid; one that is makes them all invalid. -/
def Obligations.OnlyResetsClearValidBits : Prop :=
  ∀ s t : State, step s = .next t →
    (((∃ rest, s.turns = .rst :: rest) ∨
        ∃ rest d, s.turns = .bus ⟨0x008, 4, .write d⟩ :: rest ∧ d.getLsbD 2 = true) →
      (∀ r, t.fvalid r = false) ∧ (∀ j, t.mvalid j = false)) ∧
    ((∀ rest, s.turns ≠ .rst :: rest) →
      (∀ rest d, s.turns = .bus ⟨0x008, 4, .write d⟩ :: rest → d.getLsbD 2 = false) →
      (∀ r, s.fvalid r = true → t.fvalid r = true) ∧ (∀ j, s.mvalid j = true → t.mvalid j = true))

/-! ### The whole machine -/

/-- The invariant of the machine holds right after reset. -/
def Obligations.InvariantAfterReset : Prop := State.reset.Inv

/-- From every state that meets the invariant, every step, whoever's turn it is, gives one that meets it. -/
def Obligations.StepKeepsTheInvariant : Prop :=
  ∀ s t : State, s.Inv → step s = .next t → t.Inv

/-- 10_state.md R53, R35: a run left alone by the host ends within `257 − pc` steps, at a HALT or with an error, and
if as late as that with E_PCRANGE; `pc` counts up by one per command; it completes at most 256 commands. -/
def Obligations.RunEndsInBoundedSteps : Prop :=
  ∀ s : State, s.Inv → s.turns = [] → s.run = .run →
    ∃ (k : Nat) (t : State), 1 ≤ k ∧ k ≤ 257 - s.pc.toNat ∧
      Host.Core.run Sys2Proof.core k s = .next t ∧ t.run = .idle ∧ (t.done = true ∨ t.err = true) ∧
      t.retired.toNat ≤ 256 ∧
      (s.abortReq = false → k = 257 - s.pc.toNat → t.errcode = .pcRange ∧ t.errpc.toNat = 256) ∧
      ∀ j < k, ∃ u : State, Host.Core.run Sys2Proof.core j s = .next u ∧ u.run = .run ∧
        u.pc.toNat = s.pc.toNat + j

/-- 70_reset_and_hazards.md R392, as far as a model without time shows it: two runs that the host leaves alone, from
states that differ only in the words of field registers, the values of masks and the bytes of MEM, differ in nothing
else after any number of steps (not in `pc`, the run state, an error, a counter or a valid bit); or there is a first
step at which they part, and there one of them stops with E_NONCANON, the one check that looks at a word
(60_exceptions.md R344, R346), while the other does not. -/
def Obligations.SecretsDoNotSteerARun : Prop :=
  ∀ (k : Nat) (s₁ s₂ : State), s₁.turns = [] → s₁.SameButSecrets s₂ →
    (∃ t₁ t₂ : State, Host.Core.run Sys2Proof.core k s₁ = .next t₁ ∧ Host.Core.run Sys2Proof.core k s₂ = .next t₂ ∧
      t₁.SameButSecrets t₂) ∨
    (∃ (j : Nat) (u₁ u₂ : State), j < k ∧ Host.Core.run Sys2Proof.core j s₁ = .next u₁ ∧
      Host.Core.run Sys2Proof.core j s₂ = .next u₂ ∧ u₁.SameButSecrets u₂ ∧ u₁.run = .run ∧
      (u₁.firstFailure = some (.nonCanon, u₁.fetch) ∧ u₂.firstFailure = none ∨
        u₁.firstFailure = none ∧ u₂.firstFailure = some (.nonCanon, u₂.fetch)))

/-! ### Masks (40_control.md) -/

/-- 40_control.md R153 to R158: the mask commands complete, write their mask and nothing else. -/
def Obligations.MaskCommandResults : Prop :=
  ∀ (md ms mt : MReg) (s : State),
    (∃ t, exec (.mset md) s = .next t ∧ s.Completes t 0 0 [md] ∧ t.mask md = true) ∧
    (∃ t, exec (.mclr md) s = .next t ∧ s.Completes t 0 0 [md] ∧ t.mask md = false) ∧
    (s.mvalid ms = true →
      ∃ t, exec (.mnot md ms) s = .next t ∧ s.Completes t 0 0 [md] ∧ t.mask md = !s.mask ms) ∧
    (s.mvalid ms = true → s.mvalid mt = true →
      (∃ t, exec (.mand md ms mt) s = .next t ∧ s.Completes t 0 0 [md] ∧
        (t.mask md = true ↔ s.mask ms = true ∧ s.mask mt = true)) ∧
      (∃ t, exec (.mor md ms mt) s = .next t ∧ s.Completes t 0 0 [md] ∧
        (t.mask md = true ↔ s.mask ms = true ∨ s.mask mt = true)) ∧
      (∃ t, exec (.mxor md ms mt) s = .next t ∧ s.Completes t 0 0 [md] ∧
        (t.mask md = true ↔ s.mask ms ≠ s.mask mt)))

/-! ### Field elements (41_field.md) -/

/-- 41_field.md R171 to R173: addition, subtraction and negation, on words and on values. -/
def Obligations.FieldSumsAndNegation : Prop :=
  ∀ (f : FieldSel) (rd rs1 rs2 : FReg) (s : State), s.cfg.sized = true → s.Reads f rs1 →
    (∃ t, exec (.fneg f rd rs1) s = .next t ∧ s.Completes t rd 1 [] ∧
      t.word rd = (s.cfg.modulus f - s.word rs1) % s.cfg.modulus f ∧
      t.val f rd = (s.cfg.modulus f - s.val f rs1) % s.cfg.modulus f) ∧
    (s.Reads f rs2 →
      (∃ t, exec (.fadd f rd rs1 rs2) s = .next t ∧ s.Completes t rd 1 [] ∧
        t.word rd = (s.word rs1 + s.word rs2) % s.cfg.modulus f ∧
        t.val f rd = (s.val f rs1 + s.val f rs2) % s.cfg.modulus f) ∧
      (∃ t, exec (.fsub f rd rs1 rs2) s = .next t ∧ s.Completes t rd 1 [] ∧
        t.word rd = (s.word rs1 + s.cfg.modulus f - s.word rs2) % s.cfg.modulus f ∧
        t.val f rd = (s.val f rs1 + s.cfg.modulus f - s.val f rs2) % s.cfg.modulus f))

/-- 41_field.md R174, R175, 42_montgomery.md R205: products and squares on values; FMUL writes the word MONTMUL
writes, and FSQR the word FMUL writes. -/
def Obligations.FieldProducts : Prop :=
  ∀ (f : FieldSel) (rd rs1 rs2 : FReg) (s : State), s.cfg.sized = true → s.Reads f rs1 → s.Reads f rs2 →
    (∃ t, exec (.fmul f rd rs1 rs2) s = .next t ∧ exec (.montmul f rd rs1 rs2) s = .next t ∧
      s.Completes t rd 1 [] ∧ t.word rd < s.cfg.modulus f ∧
      t.val f rd = s.val f rs1 * s.val f rs2 % s.cfg.modulus f) ∧
    (∃ t, exec (.fsqr f rd rs1) s = .next t ∧ exec (.fmul f rd rs1 rs1) s = .next t ∧
      s.Completes t rd 1 [] ∧ t.val f rd = s.val f rs1 * s.val f rs1 % s.cfg.modulus f)

/-- 41_field.md R176, 60_exceptions.md R354: FINV gives the inverse with mask 1; of 0 it gives some canonical word
with mask 0. -/
def Obligations.InverseOrFlag : Prop :=
  ∀ (f : FieldSel) (rd : FReg) (md : MReg) (rs1 : FReg) (s : State), s.cfg.PrimeFields → s.Reads f rs1 →
    ∃ t, exec (.finv f rd md rs1) s = .next t ∧ s.Completes t rd 1 [md] ∧ t.word rd < s.cfg.modulus f ∧
      (s.val f rs1 ≠ 0 → t.mask md = true ∧ s.val f rs1 * t.val f rd % s.cfg.modulus f = 1) ∧
      (s.val f rs1 = 0 → t.mask md = false)

/-- 41_field.md R177, 60_exceptions.md R354: FSQRT gives a root with mask 1 exactly when the value is a square;
otherwise some canonical word with mask 0. -/
def Obligations.SquareRootOrFlag : Prop :=
  ∀ (f : FieldSel) (rd : FReg) (md : MReg) (rs1 : FReg) (s : State), s.cfg.PrimeFields → s.Reads f rs1 →
    ∃ t, exec (.fsqrt f rd md rs1) s = .next t ∧ s.Completes t rd 1 [md] ∧ t.word rd < s.cfg.modulus f ∧
      (t.mask md = true ↔ ∃ r : Nat, r * r % s.cfg.modulus f = s.val f rs1) ∧
      (t.mask md = true → t.val f rd * t.val f rd % s.cfg.modulus f = s.val f rs1)

/-- 41_field.md R178, R182, 44_weierstrass.md R245, 45_edwards.md R275: the selects and the move copy words
unchanged; mask 1 selects the first source. The destination may overlap a source. -/
def Obligations.SelectsCopyWords : Prop :=
  ∀ (f : FieldSel) (rd rs1 rs2 : FReg) (ms : MReg) (s : State),
    (s.fvalid rs1 = true →
      ∃ t, exec (.fmov rd rs1) s = .next t ∧ s.Completes t rd 1 [] ∧ t.word rd = s.word rs1) ∧
    (s.Reads f rs1 → s.Reads f rs2 → s.mvalid ms = true →
      ∃ t, exec (.fsel f rd rs1 rs2 ms) s = .next t ∧ s.Completes t rd 1 [] ∧
        t.word rd = if s.mask ms then s.word rs1 else s.word rs2) ∧
    (rd.val + 3 ≤ 32 → s.ReadsGroup rs1 3 → s.ReadsGroup rs2 3 → s.mvalid ms = true →
      ∃ t, exec (.pwsel rd rs1 rs2 ms) s = .next t ∧ s.Completes t rd 3 [] ∧
        ∀ k < 3, t.word (rd + k) = if s.mask ms then s.word (rs1 + k) else s.word (rs2 + k)) ∧
    (s.cfg.edwEn = true → rd.val + 4 ≤ 32 → s.ReadsGroup rs1 4 → s.ReadsGroup rs2 4 → s.mvalid ms = true →
      ∃ t, exec (.pesel rd rs1 rs2 ms) s = .next t ∧ s.Completes t rd 4 [] ∧
        ∀ k < 4, t.word (rd + k) = if s.mask ms then s.word (rs1 + k) else s.word (rs2 + k))

/-- 41_field.md R179 to R181: the tests write a mask; for canonical words equality of values is equality of words,
a value is 0 exactly when its word is, and the sign is the parity of the value. -/
def Obligations.FieldTests : Prop :=
  ∀ (f : FieldSel) (md : MReg) (rs1 rs2 : FReg) (s : State), s.cfg.sized = true → s.Reads f rs1 →
    (∃ t, exec (.fisz f md rs1) s = .next t ∧ s.Completes t 0 0 [md] ∧
      (t.mask md = true ↔ s.val f rs1 = 0) ∧ (t.mask md = true ↔ s.word rs1 = 0)) ∧
    (∃ t, exec (.fsgn0 f md rs1) s = .next t ∧ s.Completes t 0 0 [md] ∧
      (t.mask md = true ↔ s.val f rs1 % 2 = 1)) ∧
    (s.Reads f rs2 →
      ∃ t, exec (.feq f md rs1 rs2) s = .next t ∧ s.Completes t 0 0 [md] ∧
        (t.mask md = true ↔ s.val f rs1 = s.val f rs2) ∧ (t.mask md = true ↔ s.word rs1 = s.word rs2))

/-- 41_field.md R183, 42_montgomery.md R203, R204: the constant loads read no register; FLDI writes the Montgomery
word of its immediate, RAWI the immediate itself, RAWR2 `R² mod m`. -/
def Obligations.ConstantLoads : Prop :=
  ∀ (f : FieldSel) (rd : FReg) (imm : BitVec 16) (s : State), s.cfg.sized = true →
    (∃ t, exec (.fldi f rd imm) s = .next t ∧ s.Completes t rd 1 [] ∧
      t.word rd = imm.toNat * 2 ^ (64 * s.cfg.nl) % s.cfg.modulus f ∧
      t.val f rd = imm.toNat % s.cfg.modulus f) ∧
    (∃ t, exec (.rawi rd imm) s = .next t ∧ s.Completes t rd 1 [] ∧ t.word rd = imm.toNat) ∧
    (∃ t, exec (.rawr2 f rd) s = .next t ∧ s.Completes t rd 1 [] ∧
      t.word rd = 2 ^ (64 * s.cfg.nl) * 2 ^ (64 * s.cfg.nl) % s.cfg.modulus f)

/-- 41_field.md R185: the field axioms, each as an equality of the words that command sequences leave. -/
def Obligations.FieldAxioms : Prop :=
  ∀ (f : FieldSel) (a b c d e : FReg) (md : MReg) (s : State), s.cfg.PrimeFields →
    s.Reads f a → s.Reads f b → s.Reads f c → d ≠ a → d ≠ b → d ≠ c → e ≠ a → e ≠ b → e ≠ c → e ≠ d →
    (s.after (.fadd f d a b)).word d = (s.after (.fadd f d b a)).word d ∧
    ((s.after (.fadd f d a b)).after (.fadd f d d c)).word d =
      ((s.after (.fadd f d b c)).after (.fadd f d a d)).word d ∧
    ((s.after (.fldi f d 0)).after (.fadd f d a d)).word d = s.word a ∧
    ((s.after (.fneg f d a)).after (.fadd f d a d)).word d = 0 ∧
    (s.after (.fmul f d a b)).word d = (s.after (.fmul f d b a)).word d ∧
    ((s.after (.fmul f d a b)).after (.fmul f d d c)).word d =
      ((s.after (.fmul f d b c)).after (.fmul f d a d)).word d ∧
    ((s.after (.fadd f d b c)).after (.fmul f d a d)).word d =
      (((s.after (.fmul f d a b)).after (.fmul f e a c)).after (.fadd f d d e)).word d ∧
    ((s.after (.fldi f d 1)).after (.fmul f d a d)).word d = s.word a ∧
    (s.val f a ≠ 0 → (s.after (.finv f d md a)).mask md = true ∧
      ((s.after (.finv f d md a)).after (.fmul f d a d)).word d = (s.after (.fldi f d 1)).word d) ∧
    (s.after (.fsub f d a b)).word d = ((s.after (.fneg f d b)).after (.fadd f d a d)).word d ∧
    (s.after (.fsqr f d a)).word d = (s.after (.fmul f d a a)).word d

/-! ### Raw Montgomery words (42_montgomery.md) -/

/-- 42_montgomery.md R200 to R202: for words of any value the result is the exact residue of the product, or of the
double-width value, divided by R. -/
def Obligations.MontgomeryResidues : Prop :=
  ∀ (f : FieldSel) (rd rs1 rs2 : FReg) (s : State), s.cfg.sized = true →
    s.fvalid rs1 = true → s.fvalid rs2 = true →
    (∃ t, exec (.montmul f rd rs1 rs2) s = .next t ∧ s.Completes t rd 1 [] ∧ t.word rd < s.cfg.modulus f ∧
      t.word rd * 2 ^ (64 * s.cfg.nl) % s.cfg.modulus f = s.word rs1 * s.word rs2 % s.cfg.modulus f) ∧
    (∃ t, exec (.montred f rd rs1 rs2) s = .next t ∧ s.Completes t rd 1 [] ∧ t.word rd < s.cfg.modulus f ∧
      t.word rd * 2 ^ (64 * s.cfg.nl) % s.cfg.modulus f =
        (s.word rs1 * 2 ^ (64 * s.cfg.nl) + s.word rs2) % s.cfg.modulus f)

/-- 42_montgomery.md R206: the conversions a program can rely on, with `r2 = R² mod m` in register b, 0 in register z
and 1 in register o; and the PALLAS constants. -/
def Obligations.MontgomeryConversions : Prop :=
  (∀ (f : FieldSel) (rd v x b z o : FReg) (s : State), s.cfg.sized = true →
    s.fvalid v = true → s.Reads f x → s.fvalid b = true → s.fvalid z = true → s.fvalid o = true →
    s.word b = s.cfg.radix * s.cfg.radix % s.cfg.modulus f → s.word z = 0 → s.word o = 1 → rd ≠ b →
    (∃ t, exec (.montmul f rd v b) s = .next t ∧ t.word rd = s.cfg.mont f (s.word v % s.cfg.modulus f)) ∧
    (∃ t, exec (.montred f rd z x) s = .next t ∧ t.word rd = s.val f x) ∧
    (∃ t, exec (.montmul f rd x o) s = .next t ∧ t.word rd = s.val f x) ∧
    (∃ t u, exec (.montred f rd z x) s = .next t ∧ exec (.montmul f rd rd b) t = .next u ∧
      u.word rd = s.word x) ∧
    (∃ t, exec (.fldi f rd 1) s = .next t ∧ t.word rd = s.cfg.mont f 1 ∧
      t.word rd = s.cfg.radix % s.cfg.modulus f)) ∧
  (∀ (rd : FReg) (s : State), s.cfg = Config.pallas →
    (∃ t, exec (.fldi .p rd 1) s = .next t ∧
      t.word rd = 0x3fffffffffffffffffffffffffffffff992c350be41914ad34786d38fffffffd) ∧
    (∃ t, exec (.rawr2 .p rd) s = .next t ∧
      t.word rd = 0x096d41af7b9cb7147797a99bc3c95d18d7d30dbd8b0de0e78c78ecb30000000f) ∧
    (∃ t, exec (.fldi .q rd 1) s = .next t ∧
      t.word rd = 0x3fffffffffffffffffffffffffffffff992c350be34205675b2b3e9cfffffffd) ∧
    (∃ t, exec (.rawr2 .q rd) s = .next t ∧
      t.word rd = 0x096d41af7ccfdaa97fae231004ccf59067bb433d891a16e3fc9678ff0000000f))

/-- 30_encoding.md R126: each pseudo-instruction is one command, its expansion and its effect. -/
def Obligations.PseudoInstructionEffects : Prop :=
  ∀ (f : FieldSel) (rd rs1 r2 z : FReg) (md ms : MReg) (s : State), s.cfg.sized = true →
    ((Pseudo.fzero f rd).expand = .fldi f rd 0 ∧ (Pseudo.fone f rd).expand = .fldi f rd 1 ∧
      (Pseudo.tomont f rd rs1 r2).expand = .montmul f rd rs1 r2 ∧
      (Pseudo.frommont f rd rs1 z).expand = .montred f rd z rs1 ∧ (Pseudo.mmov md ms).expand = .mor md ms ms ∧
      (Pseudo.pwcopy rd rs1).expand = .pwsel rd rs1 rs1 0 ∧ (Pseudo.pecopy rd rs1).expand = .pesel rd rs1 rs1 0) ∧
    (∃ t, exec (Pseudo.fzero f rd).expand s = .next t ∧ s.Completes t rd 1 [] ∧ t.word rd = 0) ∧
    (∃ t, exec (Pseudo.fone f rd).expand s = .next t ∧ s.Completes t rd 1 [] ∧ t.word rd = s.cfg.mont f 1 ∧
      t.val f rd = 1) ∧
    (s.fvalid rs1 = true → s.fvalid r2 = true →
      s.word r2 = 2 ^ (64 * s.cfg.nl) * 2 ^ (64 * s.cfg.nl) % s.cfg.modulus f →
      ∃ t, exec (Pseudo.tomont f rd rs1 r2).expand s = .next t ∧ s.Completes t rd 1 [] ∧
        t.word rd = s.cfg.mont f (s.word rs1 % s.cfg.modulus f) ∧
        t.val f rd = s.word rs1 % s.cfg.modulus f) ∧
    (s.fvalid rs1 = true → s.fvalid z = true → s.word z = 0 →
      ∃ t, exec (Pseudo.frommont f rd rs1 z).expand s = .next t ∧ s.Completes t rd 1 [] ∧
        t.word rd = s.val f rs1) ∧
    (s.mvalid ms = true →
      ∃ t, exec (Pseudo.mmov md ms).expand s = .next t ∧ s.Completes t 0 0 [md] ∧ t.mask md = s.mask ms) ∧
    (rd.val + 3 ≤ 32 → s.ReadsGroup rs1 3 → s.mvalid 0 = true →
      ∃ t, exec (Pseudo.pwcopy rd rs1).expand s = .next t ∧ s.Completes t rd 3 [] ∧
        ∀ k < 3, t.word (rd + k) = s.word (rs1 + k)) ∧
    (s.cfg.edwEn = true → rd.val + 4 ≤ 32 → s.ReadsGroup rs1 4 → s.mvalid 0 = true →
      ∃ t, exec (Pseudo.pecopy rd rs1).expand s = .next t ∧ s.Completes t rd 4 [] ∧
        ∀ k < 4, t.word (rd + k) = s.word (rs1 + k))

/-! ### Loads and stores (43_loadstore.md) -/

/-- 43_loadstore.md R216, R215: FLD reads a big-endian integer; below the modulus it loads the value with mask 1,
otherwise some canonical word with mask 0. -/
def Obligations.CanonicalLoad : Prop :=
  ∀ (f : FieldSel) (rd : FReg) (md : MReg) (addr : BitVec 12) (s : State), s.cfg.sized = true →
    addr.toNat + s.cfg.elemBytes f ≤ 4096 →
    ∃ t, exec (.fld f rd md addr) s = .next t ∧ s.Completes t rd 1 [md] ∧ t.word rd < s.cfg.modulus f ∧
      ∀ x, x = ∑ k ∈ Finset.range (s.cfg.elemBytes f),
          (s.mem.read (addr.toNat + k)).toNat * 256 ^ (s.cfg.elemBytes f - 1 - k) →
        (x < s.cfg.modulus f → t.mask md = true ∧ t.val f rd = x) ∧
        (s.cfg.modulus f ≤ x → t.mask md = false)

/-- 43_loadstore.md R218 to R220, R215: the wide and 64-bit loads reduce the big-endian integer they read, and the
raw load takes it as the word. -/
def Obligations.ReducingAndRawLoads : Prop :=
  ∀ (f : FieldSel) (rd : FReg) (addr : BitVec 12) (s : State), s.cfg.sized = true →
    (addr.toNat + s.cfg.wideBytes f ≤ 4096 →
      ∃ t, exec (.fldw f rd addr) s = .next t ∧ s.Completes t rd 1 [] ∧ t.word rd < s.cfg.modulus f ∧
        t.val f rd = (∑ k ∈ Finset.range (s.cfg.wideBytes f),
          (s.mem.read (addr.toNat + k)).toNat * 256 ^ (s.cfg.wideBytes f - 1 - k)) % s.cfg.modulus f) ∧
    (addr.toNat + 8 ≤ 4096 →
      ∃ t, exec (.fldu64 f rd addr) s = .next t ∧ s.Completes t rd 1 [] ∧ t.word rd < s.cfg.modulus f ∧
        t.val f rd = (∑ k ∈ Finset.range 8,
          (s.mem.read (addr.toNat + k)).toNat * 256 ^ (8 - 1 - k)) % s.cfg.modulus f) ∧
    (addr.toNat + 8 * s.cfg.nl ≤ 4096 →
      ∃ t, exec (.rawld rd addr) s = .next t ∧ s.Completes t rd 1 [] ∧
        t.word rd = ∑ k ∈ Finset.range (8 * s.cfg.nl),
          (s.mem.read (addr.toNat + k)).toNat * 256 ^ (8 * s.cfg.nl - 1 - k))

/-- 43_loadstore.md R217, R221, 20_memory.md R76: FST stores the value and RAWST the word, most significant byte
first; every byte outside the stored ones reads as before. -/
def Obligations.StoresAreBigEndian : Prop :=
  ∀ (f : FieldSel) (rd : FReg) (addr : BitVec 12) (s : State), s.cfg.sized = true →
    Memory.wf memSize s.mem = true →
    (addr.toNat + s.cfg.elemBytes f ≤ 4096 → s.Reads f rd →
      ∃ t, exec (.fst f rd addr) s = .next t ∧ s.CompletesStore t addr.toNat (s.cfg.elemBytes f) ∧
        ∀ k < s.cfg.elemBytes f, (t.mem.read (addr.toNat + k)).toNat =
          s.val f rd / 256 ^ (s.cfg.elemBytes f - 1 - k) % 256) ∧
    (addr.toNat + 8 * s.cfg.nl ≤ 4096 → s.fvalid rd = true →
      ∃ t, exec (.rawst rd addr) s = .next t ∧ s.CompletesStore t addr.toNat (8 * s.cfg.nl) ∧
        ∀ k < 8 * s.cfg.nl, (t.mem.read (addr.toNat + k)).toNat =
          s.word rd / 256 ^ (8 * s.cfg.nl - 1 - k) % 256)

/-- 43_loadstore.md R222: the three round trips of loads and stores. -/
def Obligations.StoreLoadRoundTrips : Prop :=
  ∀ (f : FieldSel) (rs rd : FReg) (md : MReg) (addr : BitVec 12) (s : State), s.Inv →
    (addr.toNat + s.cfg.elemBytes f ≤ 4096 → s.Reads f rs →
      ∃ t u, exec (.fst f rs addr) s = .next t ∧ exec (.fld f rd md addr) t = .next u ∧
        u.word rd = s.word rs ∧ u.mask md = true) ∧
    (addr.toNat + s.cfg.elemBytes f ≤ 4096 → os2ip (s.memRead addr.toNat (s.cfg.elemBytes f)) < s.cfg.modulus f →
      ∃ t u, exec (.fld f rd md addr) s = .next t ∧ exec (.fst f rd addr) t = .next u ∧ u.mem = s.mem) ∧
    (addr.toNat + 8 * s.cfg.nl ≤ 4096 → s.fvalid rs = true →
      ∃ t u, exec (.rawst rs addr) s = .next t ∧ exec (.rawld rd addr) t = .next u ∧ u.word rd = s.word rs)

/-! ### Weierstrass points (44_weierstrass.md) -/

/-- 44_weierstrass.md R236 to R239: the polynomials that the step lists of the addition and the doubling compute,
mod P. -/
def Obligations.WeierstrassPolynomials : Prop :=
  ∀ (rd rs1 rs2 : FReg) (s : State), s.cfg.sized = true → rd.val + 3 ≤ 32 → s.ReadsGroup rs1 3 →
    ∀ a b X1 Y1 Z1 : ZMod s.cfg.p, a = s.cfg.cwA → b = s.cfg.cwB →
      X1 = (s.pw rs1).x → Y1 = (s.pw rs1).y → Z1 = (s.pw rs1).z →
    (∃ t, exec (.pwdbl rd rs1) s = .next t ∧ s.Completes t rd 3 [] ∧
      (∀ k < 3, t.word (rd + k) < s.cfg.p) ∧
      ((t.pw rd).x : ZMod s.cfg.p) =
        2 * X1 * Y1 * (Y1 ^ 2 - 2 * a * X1 * Z1 - 3 * b * Z1 ^ 2)
          - 2 * Y1 * Z1 * (a * X1 ^ 2 + 6 * b * X1 * Z1 - a ^ 2 * Z1 ^ 2) ∧
      ((t.pw rd).y : ZMod s.cfg.p) =
        (Y1 ^ 2 + 2 * a * X1 * Z1 + 3 * b * Z1 ^ 2) * (Y1 ^ 2 - 2 * a * X1 * Z1 - 3 * b * Z1 ^ 2)
          + (3 * X1 ^ 2 + a * Z1 ^ 2) * (a * X1 ^ 2 + 6 * b * X1 * Z1 - a ^ 2 * Z1 ^ 2) ∧
      ((t.pw rd).z : ZMod s.cfg.p) = 8 * Y1 ^ 3 * Z1) ∧
    (s.ReadsGroup rs2 3 →
      ∀ X2 Y2 Z2 : ZMod s.cfg.p, X2 = (s.pw rs2).x → Y2 = (s.pw rs2).y → Z2 = (s.pw rs2).z →
      ∃ t, exec (.pwadd rd rs1 rs2) s = .next t ∧ s.Completes t rd 3 [] ∧
        (∀ k < 3, t.word (rd + k) < s.cfg.p) ∧
        ((t.pw rd).x : ZMod s.cfg.p) =
          (X1 * Y2 + X2 * Y1) * (Y1 * Y2 - a * (X1 * Z2 + X2 * Z1) - 3 * b * Z1 * Z2)
            - (Y1 * Z2 + Y2 * Z1) * (a * X1 * X2 + 3 * b * (X1 * Z2 + X2 * Z1) - a ^ 2 * Z1 * Z2) ∧
        ((t.pw rd).y : ZMod s.cfg.p) =
          (3 * X1 * X2 + a * Z1 * Z2) * (a * X1 * X2 + 3 * b * (X1 * Z2 + X2 * Z1) - a ^ 2 * Z1 * Z2)
            + (Y1 * Y2 + a * (X1 * Z2 + X2 * Z1) + 3 * b * Z1 * Z2)
              * (Y1 * Y2 - a * (X1 * Z2 + X2 * Z1) - 3 * b * Z1 * Z2) ∧
        ((t.pw rd).z : ZMod s.cfg.p) =
          (Y1 * Z2 + Y2 * Z1) * (Y1 * Y2 + a * (X1 * Z2 + X2 * Z1) + 3 * b * Z1 * Z2)
            + (X1 * Y2 + X2 * Y1) * (3 * X1 * X2 + a * Z1 * Z2))

/-- 44_weierstrass.md R240 to R242: negation, the identity test and the equality test; negating twice gives the
words back. -/
def Obligations.WeierstrassNegationAndTests : Prop :=
  ∀ (rd rs1 rs2 : FReg) (md : MReg) (s : State), s.cfg.sized = true → s.ReadsGroup rs1 3 →
    (rd.val + 3 ≤ 32 →
      ∃ t u, exec (.pwneg rd rs1) s = .next t ∧ s.Completes t rd 3 [] ∧ (∀ k < 3, t.word (rd + k) < s.cfg.p) ∧
        t.pw rd = ⟨(s.pw rs1).x, (s.cfg.p - (s.pw rs1).y) % s.cfg.p, (s.pw rs1).z⟩ ∧
        exec (.pwneg rd rd) t = .next u ∧ ∀ k < 3, u.word (rd + k) = s.word (rs1 + k)) ∧
    (∃ t, exec (.pwisid md rs1) s = .next t ∧ s.Completes t 0 0 [md] ∧
      (t.mask md = true ↔ (s.pw rs1).z = 0)) ∧
    (s.ReadsGroup rs2 3 →
      ∃ t, exec (.pweq md rs1 rs2) s = .next t ∧ s.Completes t 0 0 [md] ∧
        (t.mask md = true ↔
          (s.pw rs1).x * (s.pw rs2).z % s.cfg.p = (s.pw rs2).x * (s.pw rs1).z % s.cfg.p ∧
          (s.pw rs1).y * (s.pw rs2).z % s.cfg.p = (s.pw rs2).y * (s.pw rs1).z % s.cfg.p))

/-- 44_weierstrass.md R243, 45_edwards.md R273: the affine pair is the quotient of the coordinates with mask 1, and
for Z = 0 two canonical words with mask 0. -/
def Obligations.AffineConversions : Prop :=
  ∀ (rd rs1 : FReg) (md : MReg) (s : State), s.cfg.PrimeFields → rd.val + 2 ≤ 32 →
    (s.ReadsGroup rs1 3 →
      ∃ t, exec (.pwtoaff rd md rs1) s = .next t ∧ s.Completes t rd 2 [md] ∧ (∀ k < 2, t.word (rd + k) < s.cfg.p) ∧
        ((s.pw rs1).z ≠ 0 → t.mask md = true ∧
          t.val .p rd * (s.pw rs1).z % s.cfg.p = (s.pw rs1).x ∧
          t.val .p (rd + 1) * (s.pw rs1).z % s.cfg.p = (s.pw rs1).y) ∧
        ((s.pw rs1).z = 0 → t.mask md = false)) ∧
    (s.cfg.edwEn = true → s.ReadsGroup rs1 4 →
      ∃ t, exec (.petoaff rd md rs1) s = .next t ∧ s.Completes t rd 2 [md] ∧ (∀ k < 2, t.word (rd + k) < s.cfg.p) ∧
        ((s.pe rs1).z ≠ 0 → t.mask md = true ∧
          t.val .p rd * (s.pe rs1).z % s.cfg.p = (s.pe rs1).x ∧
          t.val .p (rd + 1) * (s.pe rs1).z % s.cfg.p = (s.pe rs1).y) ∧
        ((s.pe rs1).z = 0 → t.mask md = false))

/-- 44_weierstrass.md R244, 45_edwards.md R274: a pair on the curve gives the point with mask 1; any other pair gives
canonical words with mask 0. -/
def Obligations.PointsFromAffinePairs : Prop :=
  ∀ (rd rs1 : FReg) (md : MReg) (s : State) (x y : Nat), s.cfg.sized = true → s.ReadsGroup rs1 2 →
    x = s.val .p rs1 → y = s.val .p (rs1 + 1) →
    (rd.val + 3 ≤ 32 →
      ∃ t, exec (.pwsetaff rd md rs1) s = .next t ∧ s.Completes t rd 3 [md] ∧ (∀ k < 3, t.word (rd + k) < s.cfg.p) ∧
        (t.mask md = true ↔ y ^ 2 % s.cfg.p = (x ^ 3 + s.cfg.cwA * x + s.cfg.cwB) % s.cfg.p) ∧
        (t.mask md = true → t.pw rd = ⟨x, y, 1⟩)) ∧
    (s.cfg.edwEn = true → rd.val + 4 ≤ 32 →
      ∃ t, exec (.pesetaff rd md rs1) s = .next t ∧ s.Completes t rd 4 [md] ∧ (∀ k < 4, t.word (rd + k) < s.cfg.p) ∧
        (t.mask md = true ↔
          (s.cfg.ceA * x ^ 2 + y ^ 2) % s.cfg.p = (1 + s.cfg.ceD * x ^ 2 * y ^ 2) % s.cfg.p) ∧
        (t.mask md = true → t.pe rd = ⟨x, y, 1, x * y % s.cfg.p⟩))

/-- 44_weierstrass.md R237, R239, R246, R247: addition commutes word for word; adding the identity gives the projective
multiple by Y; adding the negative gives Z = 0; and doubling a triple on the curve gives the words of adding it to
itself. -/
def Obligations.WeierstrassGroupLaws : Prop :=
  ∀ (rd a b : FReg) (s : State), s.cfg.sized = true → rd.val + 3 ≤ 32 → s.ReadsGroup a 3 → s.ReadsGroup b 3 →
    (∃ t, exec (.pwadd rd a b) s = .next t ∧ exec (.pwadd rd b a) s = .next t ∧
      (s.pw b = ⟨0, 1, 0⟩ → t.pw rd =
        ⟨(s.pw a).x * (s.pw a).y % s.cfg.p, (s.pw a).y * (s.pw a).y % s.cfg.p,
          (s.pw a).z * (s.pw a).y % s.cfg.p⟩) ∧
      (s.pw b = ⟨(s.pw a).x, (s.cfg.p - (s.pw a).y) % s.cfg.p, (s.pw a).z⟩ →
        (t.pw rd).x = 0 ∧ (t.pw rd).z = 0)) ∧
    (OnW s.cfg (s.pw a) → ∃ t, exec (.pwdbl rd a) s = .next t ∧ exec (.pwadd rd a a) s = .next t)

/-- 44_weierstrass.md R237, R246, 00_scope.md R13: on a curve of odd order, for points that are not the identity,
PWADD gives the sum of the chord and tangent law, with no exceptional pair: the chord for different x, the tangent
for equal points, the identity for opposite ones. Stated without division, for `x = X/Z` and `y = Y/Z`. -/
def Obligations.PwaddIsTheGroupLaw : Prop :=
  ∀ (rd rs1 rs2 : FReg) (s : State), s.cfg.PrimeFields → s.cfg.CurveOk → rd.val + 3 ≤ 32 →
    s.ReadsGroup rs1 3 → s.ReadsGroup rs2 3 → OnW s.cfg (s.pw rs1) → OnW s.cfg (s.pw rs2) →
    ∃ t, exec (.pwadd rd rs1 rs2) s = .next t ∧ OnW s.cfg (t.pw rd) ∧
      ∀ a X1 Y1 Z1 X2 Y2 Z2 X3 Y3 Z3 : ZMod s.cfg.p, a = s.cfg.cwA →
        X1 = (s.pw rs1).x → Y1 = (s.pw rs1).y → Z1 = (s.pw rs1).z →
        X2 = (s.pw rs2).x → Y2 = (s.pw rs2).y → Z2 = (s.pw rs2).z →
        X3 = (t.pw rd).x → Y3 = (t.pw rd).y → Z3 = (t.pw rd).z → Z1 ≠ 0 → Z2 ≠ 0 →
        (X1 * Z2 ≠ X2 * Z1 → Z3 ≠ 0 ∧
          X3 * Z1 * Z2 * (X2 * Z1 - X1 * Z2) ^ 2 =
            Z3 * ((Y2 * Z1 - Y1 * Z2) ^ 2 * Z1 * Z2 - (X1 * Z2 + X2 * Z1) * (X2 * Z1 - X1 * Z2) ^ 2) ∧
          Y3 * (X2 * Z1 - X1 * Z2) * Z1 =
            (Y2 * Z1 - Y1 * Z2) * (X1 * Z3 - X3 * Z1) - Y1 * (X2 * Z1 - X1 * Z2) * Z3) ∧
        (X1 * Z2 = X2 * Z1 → Y1 * Z2 = Y2 * Z1 → Z3 ≠ 0 ∧
          X3 * (2 * Y1 * Z1) ^ 2 * Z1 =
            Z3 * ((3 * X1 ^ 2 + a * Z1 ^ 2) ^ 2 * Z1 - 2 * X1 * (2 * Y1 * Z1) ^ 2) ∧
          Y3 * (2 * Y1 * Z1) * Z1 =
            (3 * X1 ^ 2 + a * Z1 ^ 2) * (X1 * Z3 - X3 * Z1) - Y1 * (2 * Y1 * Z1) * Z3) ∧
        (X1 * Z2 = X2 * Z1 → Y1 * Z2 = -(Y2 * Z1) → X3 = 0 ∧ Y3 ≠ 0 ∧ Z3 = 0)

/-! ### Edwards points (45_edwards.md) -/

/-- 45_edwards.md R266 to R269: the polynomials of the unified addition and of the dedicated doubling, mod P; the
doubling does not use T. -/
def Obligations.EdwardsPolynomials : Prop :=
  ∀ (rd rs1 rs2 : FReg) (s : State), s.cfg.sized = true → s.cfg.edwEn = true → rd.val + 4 ≤ 32 →
    s.ReadsGroup rs1 4 →
    ∀ a d X1 Y1 Z1 T1 : ZMod s.cfg.p, a = s.cfg.ceA → d = s.cfg.ceD →
      X1 = (s.pe rs1).x → Y1 = (s.pe rs1).y → Z1 = (s.pe rs1).z → T1 = (s.pe rs1).t →
    (∃ t, exec (.pedbl rd rs1) s = .next t ∧ s.Completes t rd 4 [] ∧ (∀ k < 4, t.word (rd + k) < s.cfg.p) ∧
      ((t.pe rd).x : ZMod s.cfg.p) = 2 * X1 * Y1 * (a * X1 ^ 2 + Y1 ^ 2 - 2 * Z1 ^ 2) ∧
      ((t.pe rd).y : ZMod s.cfg.p) = (a * X1 ^ 2 + Y1 ^ 2) * (a * X1 ^ 2 - Y1 ^ 2) ∧
      ((t.pe rd).z : ZMod s.cfg.p) = (a * X1 ^ 2 + Y1 ^ 2 - 2 * Z1 ^ 2) * (a * X1 ^ 2 + Y1 ^ 2) ∧
      ((t.pe rd).t : ZMod s.cfg.p) = 2 * X1 * Y1 * (a * X1 ^ 2 - Y1 ^ 2)) ∧
    (s.ReadsGroup rs2 4 →
      ∀ X2 Y2 Z2 T2 : ZMod s.cfg.p,
        X2 = (s.pe rs2).x → Y2 = (s.pe rs2).y → Z2 = (s.pe rs2).z → T2 = (s.pe rs2).t →
      ∃ t, exec (.peadd rd rs1 rs2) s = .next t ∧ s.Completes t rd 4 [] ∧
        (∀ k < 4, t.word (rd + k) < s.cfg.p) ∧
        ((t.pe rd).x : ZMod s.cfg.p) = (X1 * Y2 + Y1 * X2) * (Z1 * Z2 - d * T1 * T2) ∧
        ((t.pe rd).y : ZMod s.cfg.p) = (Z1 * Z2 + d * T1 * T2) * (Y1 * Y2 - a * X1 * X2) ∧
        ((t.pe rd).z : ZMod s.cfg.p) = (Z1 * Z2 - d * T1 * T2) * (Z1 * Z2 + d * T1 * T2) ∧
        ((t.pe rd).t : ZMod s.cfg.p) = (X1 * Y2 + Y1 * X2) * (Y1 * Y2 - a * X1 * X2))

/-- 45_edwards.md R270 to R272: negation of X and T, the identity test and the equality test; negating twice gives the
words back. -/
def Obligations.EdwardsNegationAndTests : Prop :=
  ∀ (rd rs1 rs2 : FReg) (md : MReg) (s : State), s.cfg.sized = true → s.cfg.edwEn = true → s.ReadsGroup rs1 4 →
    (rd.val + 4 ≤ 32 →
      ∃ t u, exec (.peneg rd rs1) s = .next t ∧ s.Completes t rd 4 [] ∧ (∀ k < 4, t.word (rd + k) < s.cfg.p) ∧
        t.pe rd = ⟨(s.cfg.p - (s.pe rs1).x) % s.cfg.p, (s.pe rs1).y, (s.pe rs1).z,
          (s.cfg.p - (s.pe rs1).t) % s.cfg.p⟩ ∧
        exec (.peneg rd rd) t = .next u ∧ ∀ k < 4, u.word (rd + k) = s.word (rs1 + k)) ∧
    (∃ t, exec (.peisid md rs1) s = .next t ∧ s.Completes t 0 0 [md] ∧
      (t.mask md = true ↔ (s.pe rs1).x = 0 ∧ (s.pe rs1).y = (s.pe rs1).z ∧ (s.pe rs1).z ≠ 0)) ∧
    (s.ReadsGroup rs2 4 →
      ∃ t, exec (.peeq md rs1 rs2) s = .next t ∧ s.Completes t 0 0 [md] ∧
        (t.mask md = true ↔
          (s.pe rs1).x * (s.pe rs2).z % s.cfg.p = (s.pe rs2).x * (s.pe rs1).z % s.cfg.p ∧
          (s.pe rs1).y * (s.pe rs2).z % s.cfg.p = (s.pe rs2).y * (s.pe rs1).z % s.cfg.p))

/-- 45_edwards.md R266 to R269, R276, 00_scope.md R15: for a square a and a non-square d the addition is complete: the
sum of two valid quadruples is valid (Z is not 0, T·Z = X·Y, on the curve) and is the affine sum; and the doubling is
valid and, by PEEQ's test, the same point as the sum of the point with itself. -/
def Obligations.EdwardsAdditionIsComplete : Prop :=
  ∀ (rd rs1 rs2 : FReg) (s : State), s.cfg.PrimeFields → s.cfg.edwEn = true → s.cfg.EdwardsOk →
    rd.val + 4 ≤ 32 → s.ReadsGroup rs1 4 → OnE s.cfg (s.pe rs1) →
    (s.ReadsGroup rs2 4 → OnE s.cfg (s.pe rs2) →
      ∃ t, exec (.peadd rd rs1 rs2) s = .next t ∧ OnE s.cfg (t.pe rd) ∧
        ∀ a d X1 Y1 Z1 X2 Y2 Z2 : ZMod s.cfg.p, a = s.cfg.ceA → d = s.cfg.ceD →
          X1 = (s.pe rs1).x → Y1 = (s.pe rs1).y → Z1 = (s.pe rs1).z →
          X2 = (s.pe rs2).x → Y2 = (s.pe rs2).y → Z2 = (s.pe rs2).z →
          (t.pe rd).x * ((Z1 * Z2) ^ 2 + d * X1 * X2 * Y1 * Y2) =
            (t.pe rd).z * ((X1 * Y2 + Y1 * X2) * Z1 * Z2) ∧
          (t.pe rd).y * ((Z1 * Z2) ^ 2 - d * X1 * X2 * Y1 * Y2) =
            (t.pe rd).z * ((Y1 * Y2 - a * X1 * X2) * Z1 * Z2) ∧
          (Z1 * Z2) ^ 2 + d * X1 * X2 * Y1 * Y2 ≠ 0 ∧ (Z1 * Z2) ^ 2 - d * X1 * X2 * Y1 * Y2 ≠ 0) ∧
    (∃ t u, exec (.pedbl rd rs1) s = .next t ∧ OnE s.cfg (t.pe rd) ∧ exec (.peadd rd rs1 rs1) s = .next u ∧
      (t.pe rd).x * (u.pe rd).z % s.cfg.p = (u.pe rd).x * (t.pe rd).z % s.cfg.p ∧
      (t.pe rd).y * (u.pe rd).z % s.cfg.p = (u.pe rd).y * (t.pe rd).z % s.cfg.p)

/-! ### Scalars and cofactors (46_scalar_cofactor.md) -/

/-- 46_scalar_cofactor.md R290 to R293: the result is the ladder over exactly W bits of the scalar, most significant
first, double-and-add-always, with the engine's own addition and doubling; and scalar 0 gives `(0, 1, 0)`. -/
def Obligations.ScalarMultiplicationLadder : Prop :=
  ∀ (f : FieldSel) (rd rs1 rs2 : FReg) (s : State), s.cfg.sized = true → s.Reads f rs2 →
    (rd.val + 3 ≤ 32 → s.ReadsGroup rs1 3 →
      ∃ t, exec (.pwsmul f rd rs1 rs2) s = .next t ∧ s.Completes t rd 3 [] ∧ (∀ k < 3, t.word (rd + k) < s.cfg.p) ∧
        t.pw rd = (List.range (64 * s.cfg.nl)).reverse.foldl
          (fun r i => if (s.val f rs2).testBit i then pwAdd s.cfg (pwDbl s.cfg r) (s.pw rs1) else pwDbl s.cfg r)
          ⟨0, 1, 0⟩ ∧
        (s.val f rs2 = 0 → t.pw rd = ⟨0, 1, 0⟩)) ∧
    (s.cfg.edwEn = true → rd.val + 4 ≤ 32 → s.ReadsGroup rs1 4 →
      ∃ t, exec (.pesmul f rd rs1 rs2) s = .next t ∧ s.Completes t rd 4 [] ∧ (∀ k < 4, t.word (rd + k) < s.cfg.p) ∧
        t.pe rd = (List.range (64 * s.cfg.nl)).reverse.foldl
          (fun r i => if (s.val f rs2).testBit i then peAdd s.cfg (peDbl s.cfg r) (s.pe rs1) else peDbl s.cfg r)
          ⟨0, 1, 1, 0⟩)

/-- 46_scalar_cofactor.md R294 to R296: with multiplier 1 the words are copied unchanged; with a larger one the result
is double-and-add over its bits. -/
def Obligations.CofactorClearing : Prop :=
  ∀ (rd rs1 : FReg) (s : State), s.cfg.sized = true →
    (rd.val + 3 ≤ 32 → s.ReadsGroup rs1 3 →
      ∃ t, exec (.pwclr rd rs1) s = .next t ∧ s.Completes t rd 3 [] ∧ (∀ k < 3, t.word (rd + k) < s.cfg.p) ∧
        (s.cfg.cwH = 1 → ∀ k < 3, t.word (rd + k) = s.word (rs1 + k)) ∧
        (s.cfg.cwH ≠ 1 → t.pw rd = (List.range (Nat.log2 s.cfg.cwH + 1)).reverse.foldl
          (fun r i => if s.cfg.cwH.testBit i then pwAdd s.cfg (pwDbl s.cfg r) (s.pw rs1) else pwDbl s.cfg r)
          ⟨0, 1, 0⟩)) ∧
    (s.cfg.edwEn = true → rd.val + 4 ≤ 32 → s.ReadsGroup rs1 4 →
      ∃ t, exec (.peclr rd rs1) s = .next t ∧ s.Completes t rd 4 [] ∧ (∀ k < 4, t.word (rd + k) < s.cfg.p) ∧
        (s.cfg.ceH = 1 → ∀ k < 4, t.word (rd + k) = s.word (rs1 + k)) ∧
        (s.cfg.ceH ≠ 1 → t.pe rd = (List.range (Nat.log2 s.cfg.ceH + 1)).reverse.foldl
          (fun r i => if s.cfg.ceH.testBit i then peAdd s.cfg (peDbl s.cfg r) (s.pe rs1) else peDbl s.cfg r)
          ⟨0, 1, 1, 0⟩))

/-! ### Hashing (47_hash.md) -/

/-- 47_hash.md R307: the expander's output is the first n bytes of the chain of digests, for any hash. -/
def Obligations.ExpanderDigestChain : Prop :=
  ∀ (hash : List Byte → List Byte) (msg dst : List Byte) (n : Nat) (b : Nat → List Byte),
    b 0 = hash (List.replicate 128 0#8 ++ msg ++ [BitVec.ofNat 8 (n / 256), BitVec.ofNat 8 n] ++ [0#8]
      ++ (dst ++ [BitVec.ofNat 8 dst.length])) →
    b 1 = hash (b 0 ++ [1#8] ++ (dst ++ [BitVec.ofNat 8 dst.length])) →
    (∀ i, 2 ≤ i → i ≤ (n + 63) / 64 → b i = hash (List.zipWith (fun x y => x ^^^ y) (b 0) (b (i - 1))
      ++ [BitVec.ofNat 8 i] ++ (dst ++ [BitVec.ofNat 8 dst.length]))) →
    expandMessageXmd hash msg dst n = (((List.range ((n + 63) / 64)).map fun i => b (i + 1)).flatten).take n

/-- 47_hash.md R305, R308 to R310: XMD stores the expansion of the message and the tag that the CSRs locate; H2F
writes the big-endian chunks of L bytes of the expansion of `count · L` bytes, reduced. -/
def Obligations.HashingCommands : Prop :=
  ∀ s : State, s.cfg.sized = true → s.HashInputsOk →
    (∀ addr : BitVec 12, addr.toNat + s.xmdlen.toNat ≤ 4096 → Memory.wf memSize s.mem = true →
      ∃ t, exec (.xmd addr) s = .next t ∧ s.CompletesStore t addr.toNat s.xmdlen.toNat ∧
        t.memRead addr.toNat s.xmdlen.toNat = expandMessageXmd (hashOf s.cfg.hash)
          (s.memRead s.msgaddr.toNat s.msglen.toNat) (s.memRead s.dstaddr.toNat s.dstlen.toNat)
          s.xmdlen.toNat) ∧
    (∀ (f : FieldSel) (rd : FReg) (count : BitVec 16),
      1 ≤ count.toNat → count.toNat ≤ 32 → rd.val + count.toNat ≤ 32 →
      ∃ t, exec (.h2f f rd count) s = .next t ∧ s.Completes t rd count.toNat [] ∧
        ∀ bytes, bytes = expandMessageXmd (hashOf s.cfg.hash)
            (s.memRead s.msgaddr.toNat s.msglen.toNat) (s.memRead s.dstaddr.toNat s.dstlen.toNat)
            (count.toNat * s.cfg.wideBytes f) →
          bytes.length = count.toNat * s.cfg.wideBytes f ∧
          ∀ k < count.toNat, t.word (rd + k) < s.cfg.modulus f ∧
            t.val f (rd + k) = (∑ j ∈ Finset.range (s.cfg.wideBytes f),
              (bytes.getD (k * s.cfg.wideBytes f + j) 0#8).toNat * 256 ^ (s.cfg.wideBytes f - 1 - j))
                % s.cfg.modulus f)

/-- 47_hash.md R315 to R320: PWMAP maps every u. With Z, A', B' as the configuration gives them, x is the first
candidate when g of it is a square and `Z·u²` times it otherwise; y is the root of g(x) whose parity is that of u; and
the four results are the isogeny's fractions of (x, y), or `(x, 1, y, 1)` where there is no isogeny. -/
def Obligations.SswuMapping : Prop :=
  ∀ (rd rs1 : FReg) (s : State), s.cfg.PrimeFields → s.cfg.h2cEn = true → s.cfg.SswuOk → rd.val + 4 ≤ 32 →
    s.Reads .p rs1 →
    ∃ (t : State) (u x1 x y : Nat), exec (.pwmap rd rs1) s = .next t ∧ s.Completes t rd 4 [] ∧
      (∀ k < 4, t.word (rd + k) < s.cfg.p) ∧ u = s.val .p rs1 ∧ x < s.cfg.p ∧ y < s.cfg.p ∧
      (∀ Z A B U X1 X Y w : ZMod s.cfg.p, Z = s.cfg.sswuZ → A = s.cfg.sswuA → B = s.cfg.sswuB →
        U = u → X1 = x1 → X = x → Y = y → w = Z ^ 2 * U ^ 4 + Z * U ^ 2 →
        (w = 0 → X1 * Z * A = B) ∧ (w ≠ 0 → X1 * A * w = -B * (w + 1)) ∧
        (IsSquare (X1 ^ 3 + A * X1 + B) → X = X1) ∧
        (¬IsSquare (X1 ^ 3 + A * X1 + B) → X = Z * U ^ 2 * X1) ∧
        Y ^ 2 = X ^ 3 + A * X + B) ∧
      (y ≠ 0 → y % 2 = u % 2) ∧
      (s.cfg.isoEn = false → t.fraction rd = ⟨x, 1, y, 1⟩) ∧
      (s.cfg.isoEn = true → ∀ k1 k2 k3 k4, isoVectors s.cfg.iso = (k1, k2, k3, k4) →
        ∀ X Y : ZMod s.cfg.p, X = x → Y = y →
        ((t.fraction rd).xn : ZMod s.cfg.p) =
          ∑ i ∈ Finset.range k1.length, ((k1.getD i 0 : Nat) : ZMod s.cfg.p) * X ^ i ∧
        ((t.fraction rd).xd : ZMod s.cfg.p) =
          X ^ k2.length + ∑ i ∈ Finset.range k2.length, ((k2.getD i 0 : Nat) : ZMod s.cfg.p) * X ^ i ∧
        ((t.fraction rd).yn : ZMod s.cfg.p) =
          Y * ∑ i ∈ Finset.range k3.length, ((k3.getD i 0 : Nat) : ZMod s.cfg.p) * X ^ i ∧
        ((t.fraction rd).yd : ZMod s.cfg.p) =
          X ^ k4.length + ∑ i ∈ Finset.range k4.length, ((k4.getD i 0 : Nat) : ZMod s.cfg.p) * X ^ i)

/-- 47_hash.md R321: a fraction becomes a projective point without inversion, and a zero denominator the identity. -/
def Obligations.FractionToPoint : Prop :=
  ∀ (rd rs1 : FReg) (s : State), s.cfg.sized = true → rd.val + 3 ≤ 32 → s.ReadsGroup rs1 4 →
    ∃ t, exec (.pwfrac rd rs1) s = .next t ∧ s.Completes t rd 3 [] ∧ (∀ k < 3, t.word (rd + k) < s.cfg.p) ∧
      ((s.fraction rs1).xd * (s.fraction rs1).yd % s.cfg.p = 0 → t.pw rd = ⟨0, 1, 0⟩) ∧
      ((s.fraction rs1).xd * (s.fraction rs1).yd % s.cfg.p ≠ 0 → t.pw rd =
        ⟨(s.fraction rs1).xn * (s.fraction rs1).yd % s.cfg.p,
          (s.fraction rs1).yn * (s.fraction rs1).xd % s.cfg.p,
          (s.fraction rs1).xd * (s.fraction rs1).yd % s.cfg.p⟩)

/-- 47_hash.md R322, R323: PWH2C leaves, word for word, the point that the sequence H2F, PWMAP, PWMAP, PWFRAC, PWFRAC,
PWADD, PWCLR leaves on the same inputs; and PWE2C that of H2F, PWMAP, PWFRAC, PWCLR. -/
def Obligations.HashToCurveIsItsSequence : Prop :=
  ∀ (rd : FReg) (s : State), s.cfg.sized = true → s.cfg.h2cEn = true → rd.val + 3 ≤ 32 → s.HashInputsOk →
    (∃ t t1 t2 t3 t4 t5 t6 t7, exec (.pwh2c rd) s = .next t ∧ s.Completes t rd 3 [] ∧
      exec (.h2f .p 0 2) s = .next t1 ∧ exec (.pwmap 4 0) t1 = .next t2 ∧ exec (.pwmap 8 1) t2 = .next t3 ∧
      exec (.pwfrac 12 4) t3 = .next t4 ∧ exec (.pwfrac 15 8) t4 = .next t5 ∧
      exec (.pwadd 18 12 15) t5 = .next t6 ∧ exec (.pwclr 21 18) t6 = .next t7 ∧
      ∀ k < 3, t.word (rd + k) = t7.word (21 + k)) ∧
    (∃ t t1 t2 t3 t4, exec (.pwe2c rd) s = .next t ∧ s.Completes t rd 3 [] ∧
      exec (.h2f .p 0 1) s = .next t1 ∧ exec (.pwmap 4 0) t1 = .next t2 ∧ exec (.pwfrac 8 4) t2 = .next t3 ∧
      exec (.pwclr 12 8) t3 = .next t4 ∧ ∀ k < 3, t.word (rd + k) = t4.word (12 + k))

/-! ### The host's side (10_state.md, 20_memory.md, 60_exceptions.md, 70_reset_and_hazards.md) -/

/-- 10_state.md R50, R45, R37: a write of CTRL without SRST. In IDLE bit 0 starts a run and bit 1 is ignored; in RUN bit
1 requests an abort and bit 0 is ignored; other bits do nothing. CTRL reads 0. -/
def Obligations.CtrlStartsAndAborts : Prop :=
  ∀ (s : State) (rest : List Turn) (d : BitVec 32), s.turns = .bus ⟨0x008, 4, .write d⟩ :: rest →
    d.getLsbD 2 = false →
    (s.run = .idle → d.getLsbD 0 = true → step s = .next { s with
      turns := rest, resp := ⟨0, false⟩, writes := s.writes + 1,
      pc := BitVec.ofNat 9 s.entry.toNat, done := false, err := false, errcode := .none,
      abortReq := false, retired := 0, run := .run }) ∧
    (s.run = .idle → d.getLsbD 0 = false → step s = .next { s with
      turns := rest, resp := ⟨0, false⟩, writes := s.writes + 1 }) ∧
    (s.run = .run → step s = .next { s with
      turns := rest, resp := ⟨0, false⟩, writes := s.writes + 1, abortReq := s.abortReq || d.getLsbD 1 }) ∧
    s.busRead 0x008 4 = ⟨0, false⟩

/-- 70_reset_and_hazards.md R380, R381, 10_state.md R57: what a soft reset (a write of 1 to CTRL.SRST, in either run
state, whatever the other bits) and the reset input leave. -/
def Obligations.ResetsLeaveTheirValues : Prop :=
  ∀ (s : State) (rest : List Turn) (d : BitVec 32) (soft : Bool),
    (soft = true → s.turns = .bus ⟨0x008, 4, .write d⟩ :: rest ∧ d.getLsbD 2 = true) →
    (soft = false → s.turns = .rst :: rest) →
    ∃ t, step s = .next t ∧ t.turns = rest ∧ t.cfg = s.cfg ∧
      (∀ r, t.fvalid r = false) ∧ (∀ j, t.mvalid j = false) ∧ t.pc = 0 ∧ t.run = .idle ∧ t.abortReq = false ∧
      t.done = false ∧ t.err = false ∧ t.errcode = .none ∧ t.entry = 0 ∧ t.errpc = 0 ∧ t.errinsn = 0 ∧
      t.doneIE = false ∧ t.errIE = false ∧ t.doneIP = false ∧ t.errIP = false ∧ t.irq = false ∧
      t.msgaddr = 0 ∧ t.msglen = 0 ∧ t.dstaddr = 0 ∧ t.dstlen = 0 ∧ t.xmdlen = 0 ∧ t.retired = 0 ∧
      (soft = true → t.imem = s.imem) ∧ (soft = true → s.run = .idle → t.mem = s.mem)

/-- 60_exceptions.md R360, 10_state.md R48: the interrupt output is the enabled pending bits; writing IRQST clears
exactly the pending bits written as 1, writing IRQEN sets the enables and leaves the pending bits, in both run
states; and a read of either gives its two bits, the others 0 (10_state.md R39). -/
def Obligations.InterruptOutputAndClearing : Prop :=
  ∀ (s : State) (rest : List Turn) (d : BitVec 32),
    (s.irq = true ↔ s.doneIP = true ∧ s.doneIE = true ∨ s.errIP = true ∧ s.errIE = true) ∧
    (s.turns = .bus ⟨0x024, 4, .write d⟩ :: rest → step s = .next { s with
      turns := rest, resp := ⟨0, false⟩, writes := s.writes + 1,
      doneIP := if d.getLsbD 0 then false else s.doneIP,
      errIP := if d.getLsbD 1 then false else s.errIP }) ∧
    (s.turns = .bus ⟨0x020, 4, .write d⟩ :: rest → step s = .next { s with
      turns := rest, resp := ⟨0, false⟩, writes := s.writes + 1,
      doneIE := d.getLsbD 0, errIE := d.getLsbD 1 }) ∧
    (s.busRead 0x020 4).error = false ∧ (s.busRead 0x024 4).error = false ∧
    (∀ j, (s.busRead 0x020 4).data.getLsbD j = (decide (j = 0) && s.doneIE || decide (j = 1) && s.errIE)) ∧
    (∀ j, (s.busRead 0x024 4).data.getLsbD j = (decide (j = 0) && s.doneIP || decide (j = 1) && s.errIP))

/-- 20_memory.md R81: a host read changes nothing but the answer on the bus (the model's own, log entry 9), and a second
read of the same location right after it gets the same answer, in both run states. -/
def Obligations.HostReadsHaveNoEffect : Prop :=
  ∀ (s : State) (rest : List Turn) (off : BitVec 13) (size : Nat),
    s.turns = .bus ⟨off, size, .read⟩ :: .bus ⟨off, size, .read⟩ :: rest →
    ∃ t u, step s = .next t ∧ t = { s with turns := .bus ⟨off, size, .read⟩ :: rest, resp := t.resp } ∧
      step t = .next u ∧ u.resp = t.resp

/-- 20_memory.md R75, R79, R80, 10_state.md R39: a misaligned or wrongly sized access of the CSRs, IMEM or MEM, and no
other access, gets a bus error; such a write, a write of a reserved range, a write of a read-only CSR, and in RUN every
write but those of CTRL, IRQEN and IRQST change nothing but the answer on the bus; a read that errs or falls in a reserved
range answers 0. That a wrongly sized or misaligned write in RUN gets the error of R79, and not the silence of R80, is the
model's choice (log entry 26). -/
def Obligations.RefusedAccessesChangeNothing : Prop :=
  ∀ (s : State) (rest : List Turn) (off : BitVec 13) (size : Nat) (op : BusOp),
    s.turns = .bus ⟨off, size, op⟩ :: rest →
    ∃ t, step s = .next t ∧
      (t.resp.error = true ↔
        ((off.toNat < 0x48 ∨ 0x400 ≤ off.toNat ∧ off.toNat < 0x800) ∧ ¬(size = 4 ∧ off.toNat % 4 = 0)) ∨
        (0x1000 ≤ off.toNat ∧
          ¬(size = 1 ∨ size = 2 ∧ off.toNat % 2 = 0 ∨ size = 4 ∧ off.toNat % 4 = 0))) ∧
      (op = .read →
        (t.resp.error = true ∨ 0x48 ≤ off.toNat ∧ off.toNat < 0x400 ∨ 0x800 ≤ off.toNat ∧ off.toNat < 0x1000) →
        t.resp.data = 0) ∧
      (∀ d, op = .write d →
        (t.resp.error = true ∨ 0x48 ≤ off.toNat ∧ off.toNat < 0x400 ∨ 0x800 ≤ off.toNat ∧ off.toNat < 0x1000 ∨
          off.toNat ∈ [0x000, 0x004, 0x00C, 0x014, 0x018, 0x01C, 0x03C, 0x040, 0x044] ∨
          s.run = .run ∧ off.toNat ∉ [0x008, 0x020, 0x024]) →
        t = { s with turns := rest, resp := ⟨0, t.resp.error⟩, writes := s.writes + 1 })

/-- 20_memory.md R78, R72: in IDLE a host access of n bytes of MEM moves byte `a + k` on data bits `8k` to `8k + 7`,
and every other byte stays; an IMEM access moves the whole word. That the data bits above the access are 0 in an 8- or
16-bit read is no rule of the spec but the model's choice (log entry 9). -/
def Obligations.HostLanesAndWords : Prop :=
  ∀ (s : State) (rest : List Turn) (off : BitVec 13) (size : Nat) (d : BitVec 32), s.run = .idle →
    Memory.wf memSize s.mem = true → Memory.wf imemSize s.imem = true →
    (0x1000 ≤ off.toNat → (size = 1 ∨ size = 2 ∧ off.toNat % 2 = 0 ∨ size = 4 ∧ off.toNat % 4 = 0) →
      (s.turns = .bus ⟨off, size, .write d⟩ :: rest →
        ∃ t, step s = .next t ∧
          t = { s with turns := rest, resp := ⟨0, false⟩, writes := s.writes + 1, mem := t.mem } ∧
          (∀ k < size, t.mem.read (off.toNat - 0x1000 + k) = d.extractLsb' (8 * k) 8) ∧
          (∀ b, (b < off.toNat - 0x1000 ∨ off.toNat - 0x1000 + size ≤ b) → t.mem.read b = s.mem.read b)) ∧
      (s.turns = .bus ⟨off, size, .read⟩ :: rest →
        ∃ t, step s = .next t ∧ t.resp.error = false ∧
          (∀ k < size, t.resp.data.extractLsb' (8 * k) 8 = s.mem.read (off.toNat - 0x1000 + k)) ∧
          (∀ j, 8 * size ≤ j → t.resp.data.getLsbD j = false))) ∧
    (0x400 ≤ off.toNat → off.toNat < 0x800 → off.toNat % 4 = 0 →
      (s.turns = .bus ⟨off, 4, .write d⟩ :: rest →
        ∃ t, step s = .next t ∧
          t = { s with turns := rest, resp := ⟨0, false⟩, writes := s.writes + 1, imem := t.imem } ∧
          t.imem.read ((off.toNat - 0x400) / 4) = d ∧
          (∀ i, i ≠ (off.toNat - 0x400) / 4 → t.imem.read i = s.imem.read i)) ∧
      (s.turns = .bus ⟨off, 4, .read⟩ :: rest →
        ∃ t, step s = .next t ∧ t.resp = ⟨s.imem.read ((off.toNat - 0x400) / 4), false⟩))

/-- 10_state.md R39, R44, R49: in IDLE a write of ENTRY, MSGADDR, MSGLEN, DSTADDR, DSTLEN or XMDLEN stores the bits the
field defines, which a read gives back, and changes what no other location reads as. -/
def Obligations.IdleCsrWritesStoreTheirField : Prop :=
  ∀ (s : State) (rest : List Turn) (off : BitVec 13) (d mask : BitVec 32), s.run = .idle →
    (off, mask) ∈ [((0x010 : BitVec 13), (0xFF : BitVec 32)), (0x028, 0xFFF), (0x02C, 0x1FFF), (0x030, 0xFFF),
      (0x034, 0x1FF), (0x038, 0xFFFF)] →
    s.turns = .bus ⟨off, 4, .write d⟩ :: rest →
    ∃ t, step s = .next t ∧ t.resp = ⟨0, false⟩ ∧ t.busRead off.toNat 4 = ⟨d &&& mask, false⟩ ∧
      (∀ o n, o ≠ off.toNat → t.busRead o n = s.busRead o n) ∧
      t.f = s.f ∧ t.fv = s.fv ∧ t.m = s.m ∧ t.mv = s.mv ∧ t.run = .idle

/-- 10_state.md R41, R42, R46, R47, R54 to R56: what the read-only CSRs read, bit by bit. -/
def Obligations.ReadOnlyCsrViews : Prop :=
  ∀ s : State, s.cfg.sized = true →
    (s.busRead 0x000 4).data = 0x42524E31 ∧
    (s.busRead 0x004 4).data.toNat = s.cfg.nl + 16 * s.cfg.h2cEn.toNat + 32 * s.cfg.isoEn.toNat
      + 64 * s.cfg.edwEn.toNat ∧
    (s.busRead 0x00C 4).data.toNat = (if s.run = .run then 1 else 0) + 2 * s.done.toNat + 4 * s.err.toNat
      + 256 * s.errcode.number ∧
    (s.run = .idle → (s.busRead 0x014 4).data.toNat = s.pc.toNat) ∧
    (s.busRead 0x018 4).data.toNat = s.errpc.toNat ∧
    (s.busRead 0x01C 4).data = s.errinsn ∧
    (∀ j : MReg, (s.busRead 0x03C 4).data.getLsbD j = (s.mvalid j && s.mask j) ∧
      (s.busRead 0x03C 4).data.getLsbD (8 + j) = s.mvalid j) ∧
    (∀ j, 16 ≤ j → (s.busRead 0x03C 4).data.getLsbD j = false) ∧
    (∀ i < 32, (s.busRead 0x040 4).data.getLsbD i = s.fvalid i) ∧
    (s.busRead 0x044 4).data = s.retired

/-- 10_state.md R47: a read of PC during RUN returns, whatever the free value, the index `r` of a command of the run that
has not completed: it is not below `pc` and inside IMEM; every word from `pc` up to it is a command other than HALT; and
the run, left alone, comes to stand at `r`, still in RUN, every command before it completed. So the read returns `pc`
itself where a check of the next step fails, the abort check among them. That the run is looked at as it goes on when left
alone is log entry 11. At `pc = 256`, where no command is left, the read returns 256. -/
def Obligations.PcReadDuringARun : Prop :=
  ∀ (s : State) (r : Nat), s.run = .run → s.pc.toNat ≤ 256 → (s.busRead 0x014 4).data.toNat = r →
    s.pc.toNat ≤ r ∧ (s.pc.toNat = 256 → r = 256) ∧ (s.pc.toNat < 256 → r ≤ 255) ∧
    (∀ j, s.pc.toNat ≤ j → j < r → ∃ i, decode (s.imem.read j) = .ok i ∧ i ≠ .halt) ∧
    (∃ t : State, Host.Core.run Sys2Proof.core (r - s.pc.toNat) s.leftAlone = .next t ∧ t.run = .run ∧
      t.pc.toNat = r ∧ t.retired = s.retired + BitVec.ofNat 32 (r - s.pc.toNat)) ∧
    (s.firstFailure ≠ none → r = s.pc.toNat)

/-- 10_state.md R57, 00_scope.md R12: the values the spec gives for the state after power-on reset, in the normative
configuration (log entry 1). CFG reads 0x34, the value 10_state.md R42 gives for PALLAS with EDW_EN = 0; that EDW_EN is 0
while PALLAS_EDWARDS is OPEN is log entry 3. -/
def Obligations.ResetStateValues : Prop :=
  State.reset.cfg = Config.pallas ∧ (∀ r, State.reset.fvalid r = false) ∧ (∀ j, State.reset.mvalid j = false) ∧
  State.reset.pc = 0 ∧ State.reset.run = .idle ∧ State.reset.abortReq = false ∧
  State.reset.statusWord = 0 ∧ State.reset.entry = 0 ∧ State.reset.errpc = 0 ∧ State.reset.errinsn = 0 ∧
  State.reset.irqenWord = 0 ∧ State.reset.irqstWord = 0 ∧ State.reset.irq = false ∧
  State.reset.msgaddr = 0 ∧ State.reset.msglen = 0 ∧ State.reset.dstaddr = 0 ∧ State.reset.dstlen = 0 ∧
  State.reset.xmdlen = 0 ∧ State.reset.retired = 0 ∧
  State.reset.busRead 0x004 4 = ⟨0x34, false⟩
end

