-- ==== Sys2Proof/Laws/Memory.lean ====
section
/-! SUPPORT. The laws of a memory in canonical form: what a read gives after a write, that every memory operation
keeps the form, and that equal contents are equal data. -/

namespace Sys2Proof.Machine

variable {n : Nat}

theorem Memory.read_nil (a : Nat) : Memory.read ([] : Memory n) a = Memory.unlisted := rfl

theorem Memory.read_entry_same (a : Nat) (v : BitVec n) (rest : Memory n)
    (h : Memory.read rest a = Memory.unlisted) : Memory.read (Memory.entry a v rest) a = v := by
  by_cases hv : v = Memory.unlisted <;> simp [Memory.entry, hv, h, Memory.read]

theorem Memory.read_entry_other (a b : Nat) (v : BitVec n) (rest : Memory n) (h : b ≠ a) :
    Memory.read (Memory.entry a v rest) b = Memory.read rest b := by
  by_cases hv : v = Memory.unlisted <;> simp [Memory.entry, hv, h, Memory.read]

/-- A memory whose listed addresses start at `lo` lists nothing below. -/
theorem Memory.read_below {size lo : Nat} {mem : Memory n} (h : Memory.wfFrom size lo mem = true) {a : Nat}
    (ha : a < lo) : mem.read a = Memory.unlisted := by
  induction mem generalizing lo with
  | nil => rfl
  | cons c rest ih =>
    simp only [Memory.wfFrom, Bool.and_eq_true, decide_eq_true_eq] at h
    rw [Memory.read, if_neg (by omega), ih h.2 (by omega)]

theorem Memory.wfFrom_mono {size lo hi : Nat} {mem : Memory n} (h : Memory.wfFrom size hi mem = true)
    (hle : lo ≤ hi) : Memory.wfFrom size lo mem = true := by
  cases mem with
  | nil => rfl
  | cons c rest =>
    simp only [Memory.wfFrom, Bool.and_eq_true, decide_eq_true_eq] at h ⊢
    exact ⟨⟨⟨by omega, h.1.1.2⟩, h.1.2⟩, h.2⟩

theorem Memory.wfFrom_entry {size lo a : Nat} {v : BitVec n} {rest : Memory n} (hlo : lo ≤ a) (ha : a < size)
    (h : Memory.wfFrom size (a + 1) rest = true) : Memory.wfFrom size lo (Memory.entry a v rest) = true := by
  unfold Memory.entry
  split
  · exact Memory.wfFrom_mono h (by omega)
  · simp [Memory.wfFrom, *]

theorem Memory.wfFrom_write {size lo a : Nat} {v : BitVec n} {mem : Memory n} (hlo : lo ≤ a) (ha : a < size)
    (h : Memory.wfFrom size lo mem = true) : Memory.wfFrom size lo (mem.write a v) = true := by
  induction mem generalizing lo with
  | nil => exact Memory.wfFrom_entry hlo ha rfl
  | cons c rest ih =>
    have h0 := h
    simp only [Memory.wfFrom, Bool.and_eq_true, decide_eq_true_eq] at h
    unfold Memory.write
    split_ifs with h1 h2
    · refine Memory.wfFrom_entry hlo ha ?_
      simp only [Memory.wfFrom, Bool.and_eq_true, decide_eq_true_eq]
      exact ⟨⟨⟨by omega, h.1.1.2⟩, h.1.2⟩, h.2⟩
    · exact Memory.wfFrom_entry hlo ha (h2 ▸ h.2)
    · simp only [Memory.wfFrom, Bool.and_eq_true, decide_eq_true_eq]
      exact ⟨h.1, ih (by omega) h.2⟩

/-- A write inside the memory keeps the canonical form. -/
theorem Memory.wf_write {size a : Nat} {v : BitVec n} {mem : Memory n} (ha : a < size)
    (h : mem.wf size = true) : (mem.write a v).wf size = true :=
  Memory.wfFrom_write (Nat.zero_le a) ha h

theorem Memory.read_write_same_from {size lo a : Nat} {v : BitVec n} {mem : Memory n}
    (h : Memory.wfFrom size lo mem = true) : (mem.write a v).read a = v := by
  induction mem generalizing lo with
  | nil => exact Memory.read_entry_same a v [] rfl
  | cons c rest ih =>
    have h0 := h
    simp only [Memory.wfFrom, Bool.and_eq_true, decide_eq_true_eq] at h
    unfold Memory.write
    split_ifs with h1 h2
    · refine Memory.read_entry_same _ _ _ ?_
      rw [Memory.read, if_neg (by omega), Memory.read_below h.2 (by omega)]
    · exact Memory.read_entry_same _ _ _ (Memory.read_below h.2 (by omega))
    · rw [Memory.read, if_neg h2, ih h.2]

/-- A read of the cell just written gives the value written. -/
theorem Memory.read_write_same {size a : Nat} {v : BitVec n} {mem : Memory n} (h : mem.wf size = true) :
    (mem.write a v).read a = v :=
  Memory.read_write_same_from h

/-- In any memory, canonical or not, a value that is not what an unlisted address reads as is read back. -/
theorem Memory.read_write_same_of_ne {a : Nat} {v : BitVec n} {mem : Memory n} (hv : v ≠ Memory.unlisted) :
    (mem.write a v).read a = v := by
  induction mem with
  | nil => exact Memory.read_entry_same a v [] rfl
  | cons c rest ih =>
    unfold Memory.write
    split_ifs with h1 h2
    · rw [Memory.entry, if_neg hv, Memory.read, if_pos rfl]
    · rw [Memory.entry, if_neg hv, Memory.read, if_pos rfl]
    · rw [Memory.read, if_neg h2, ih]

/-- A write leaves every other cell alone. -/
theorem Memory.read_write_other (mem : Memory n) {a b : Nat} (v : BitVec n) (h : b ≠ a) :
    (mem.write a v).read b = mem.read b := by
  induction mem with
  | nil => exact Memory.read_entry_other a b v [] h
  | cons c rest ih =>
    unfold Memory.write
    split_ifs with h1 h2
    · exact Memory.read_entry_other a b v _ h
    · rw [Memory.read_entry_other a b v rest h, Memory.read, if_neg (by omega)]
    · simp only [Memory.read, ih]

/-- Storing a list of cells that fits keeps the canonical form. -/
theorem Memory.wf_writeList {size a : Nat} {vs : List (BitVec n)} {mem : Memory n}
    (h : mem.wf size = true) (ha : a + vs.length ≤ size) : (mem.writeList a vs).wf size = true := by
  induction vs generalizing mem a with
  | nil => exact h
  | cons v rest ih =>
    simp only [List.length_cons] at ha
    exact ih (Memory.wf_write (by omega) h) (by omega)

/-- Storing a list leaves every cell outside it alone. -/
theorem Memory.read_writeList_outside (mem : Memory n) {a b : Nat} (vs : List (BitVec n))
    (h : b < a ∨ a + vs.length ≤ b) : (mem.writeList a vs).read b = mem.read b := by
  induction vs generalizing mem a with
  | nil => rfl
  | cons v rest ih =>
    simp only [List.length_cons] at h
    rw [Memory.writeList, ih _ (by omega), Memory.read_write_other _ _ (by omega)]

/-- Cell `k` of a stored list reads as its element `k`. -/
theorem Memory.read_writeList_inside {size a k : Nat} {vs : List (BitVec n)} {mem : Memory n}
    (h : mem.wf size = true) (ha : a + vs.length ≤ size) (hk : k < vs.length) :
    (mem.writeList a vs).read (a + k) = vs[k] := by
  induction vs generalizing mem a k with
  | nil => simp at hk
  | cons v rest ih =>
    simp only [List.length_cons] at ha hk
    cases k with
    | zero =>
      rw [Memory.writeList, Nat.add_zero, Memory.read_writeList_outside _ _ (by omega)]
      exact Memory.read_write_same h
    | succ k =>
      rw [Memory.writeList, show a + (k + 1) = a + 1 + k from by omega,
        ih (Memory.wf_write (by omega) h) (by omega) (by omega)]
      rfl

@[simp] theorem Memory.length_readList (mem : Memory n) (a k : Nat) : (mem.readList a k).length = k := by
  induction k generalizing a with
  | zero => rfl
  | succ k ih => simp [Memory.readList, ih]

theorem Memory.getElem_readList (mem : Memory n) (a k i : Nat) (h : i < (mem.readList a k).length) :
    (mem.readList a k)[i] = mem.read (a + i) := by
  induction k generalizing a i with
  | zero => simp [Memory.readList] at h
  | succ k ih =>
    cases i with
    | zero => rfl
    | succ i =>
      simp only [Memory.readList, List.getElem_cons_succ]
      rw [ih, show a + 1 + i = a + (i + 1) from by omega]

/-- A byte string depends only on the cells it covers. -/
theorem Memory.readList_congr {mem mem' : Memory n} {a k : Nat}
    (h : ∀ i, a ≤ i → i < a + k → mem.read i = mem'.read i) : mem.readList a k = mem'.readList a k := by
  induction k generalizing a with
  | zero => rfl
  | succ k ih =>
    rw [Memory.readList, Memory.readList, h a (by omega) (by omega),
      ih fun i h1 h2 => h i (by omega) (by omega)]

/-- A stored list reads back as it was. -/
theorem Memory.readList_writeList {size a : Nat} {vs : List (BitVec n)} {mem : Memory n}
    (h : mem.wf size = true) (ha : a + vs.length ≤ size) :
    (mem.writeList a vs).readList a vs.length = vs := by
  refine List.ext_getElem (by simp) fun i h1 h2 => ?_
  rw [Memory.getElem_readList, Memory.read_writeList_inside h ha h2]

theorem Memory.wfFrom_tabulate (size : Nat) (g : Nat → BitVec n) (a k : Nat) (h : a + k ≤ size) :
    Memory.wfFrom size a (Memory.tabulate g a k) = true := by
  induction k generalizing a with
  | zero => rfl
  | succ k ih => exact Memory.wfFrom_entry (Nat.le_refl a) (by omega) (ih (a + 1) (by omega))

/-- A tabulated memory that fits is in canonical form. -/
theorem Memory.wf_tabulate (size : Nat) (g : Nat → BitVec n) (k : Nat) (h : k ≤ size) :
    Memory.wf size (Memory.tabulate g 0 k) = true :=
  Memory.wfFrom_tabulate size g 0 k (by omega)

/-- A tabulated memory reads as its function. -/
theorem Memory.read_tabulate (g : Nat → BitVec n) (a k i : Nat) (h : a ≤ i) (hi : i < a + k) :
    Memory.read (Memory.tabulate g a k) i = g i := by
  induction k generalizing a with
  | zero => omega
  | succ k ih =>
    rw [Memory.tabulate]
    by_cases hai : i = a
    · subst hai
      refine Memory.read_entry_same _ _ _ ?_
      exact Memory.read_below (Memory.wfFrom_tabulate (i + 1 + k) g (i + 1) k (by omega)) (by omega)
    · rw [Memory.read_entry_other _ _ _ _ hai, ih (a + 1) (by omega) (by omega)]

/-- Two memories in canonical form that read the same are the same data. -/
theorem Memory.ext_from {size lo : Nat} {mem mem' : Memory n} (h : Memory.wfFrom size lo mem = true)
    (h' : Memory.wfFrom size lo mem' = true) (hr : ∀ a, mem.read a = mem'.read a) : mem = mem' := by
  induction mem generalizing mem' lo with
  | nil =>
    cases mem' with
    | nil => rfl
    | cons c rest =>
      simp only [Memory.wfFrom, Bool.and_eq_true, decide_eq_true_eq] at h'
      exact absurd (by simpa [Memory.read] using (hr c.1).symm) h'.1.2
  | cons c rest ih =>
    simp only [Memory.wfFrom, Bool.and_eq_true, decide_eq_true_eq] at h
    cases mem' with
    | nil => exact absurd (by simpa [Memory.read] using hr c.1) h.1.2
    | cons c' rest' =>
      simp only [Memory.wfFrom, Bool.and_eq_true, decide_eq_true_eq] at h'
      have hc : c.1 = c'.1 := by
        rcases Nat.lt_trichotomy c.1 c'.1 with hlt | heq | hgt
        · have := hr c.1
          rw [Memory.read, if_pos rfl, Memory.read, if_neg (by omega), Memory.read_below h'.2 (by omega)] at this
          exact absurd this h.1.2
        · exact heq
        · have := (hr c'.1).symm
          rw [Memory.read, if_pos rfl, Memory.read, if_neg (by omega), Memory.read_below h.2 (by omega)] at this
          exact absurd this h'.1.2
      have hv : c.2 = c'.2 := by
        have := hr c.1
        rwa [Memory.read, if_pos rfl, Memory.read, if_pos hc] at this
      have hcc : c = c' := Prod.ext hc hv
      subst hcc
      refine congrArg _ (ih h.2 h'.2 fun a => ?_)
      by_cases ha : a = c.1
      · rw [ha, Memory.read_below h.2 (by omega), Memory.read_below h'.2 (by omega)]
      · have := hr a
        rwa [Memory.read, if_neg ha, Memory.read, if_neg ha] at this

theorem Memory.ext {size : Nat} {mem mem' : Memory n} (h : mem.wf size = true) (h' : mem'.wf size = true)
    (hr : ∀ a, mem.read a = mem'.read a) : mem = mem' :=
  Memory.ext_from h h' hr

/-- The memories of the reset state are in canonical form. -/
theorem reset_mem_wf : Memory.wf memSize State.reset.mem = true := rfl

theorem reset_imem_wf : Memory.wf imemSize State.reset.imem = true := rfl

end Sys2Proof.Machine
end

