-- ==== Sys2Proof/Laws/Bus.lean ====
section
/-! SUPPORT. What one host access does, range by range, and what the status words read. -/

namespace Sys2Proof.Machine

/-! ### One access -/

theorem State.busAccess_read (s : State) (off : BitVec 13) (size : Nat) :
    s.busAccess ⟨off, size, .read⟩ = { s with resp := s.busRead off.toNat size } := rfl

/-- An aligned word write of a CSR. -/
theorem State.busAccess_csr (s : State) (off : BitVec 13) (d : BitVec 32) (ho : off.toNat % 4 = 0)
    (hl : off.toNat < 0x48) : s.busAccess ⟨off, 4, .write d⟩ =
      { s.csrWrite off.toNat d with resp := ⟨0, false⟩, writes := (s.csrWrite off.toNat d).writes + 1 } := by
  have h1 : busError off.toNat 4 = false := by simp [busError, windowRange, hl, ho]
  have h2 : windowRange off.toNat = .csr := by simp [windowRange, hl]
  simp only [State.busAccess, State.busWriteEffect, h1, h2, Bool.false_eq_true, if_false]

/-! ### Lanes (20_memory.md R78) -/

/-- A host read of MEM depends on the run state, MEM and the moment only. -/
theorem State.laneValue_congr {s t : State} (hr : s.run = t.run) (hm : s.mem = t.mem) (hc : s.clock = t.clock)
    (hw : s.writes = t.writes) (a n : Nat) : s.laneValue a n = t.laneValue a n := by
  induction n generalizing a with
  | zero => rfl
  | succ n ih => simp only [State.laneValue, State.hostMemByte, hr, hm, hc, hw, ih]

/-- In IDLE, on the run state and MEM only. -/
theorem State.laneValue_idle {s t : State} (hs : s.run = .idle) (ht : t.run = .idle) (hm : s.mem = t.mem)
    (a n : Nat) : s.laneValue a n = t.laneValue a n := by
  induction n generalizing a with
  | zero => rfl
  | succ n ih => simp only [State.laneValue, State.hostMemByte, hs, ht, hm, ih]

/-- The `n` lanes hold a number of `8n` bits, byte `a + k` as its digit `k`. -/
theorem State.laneValue_lt (s : State) (a n : Nat) : s.laneValue a n < 256 ^ n := by
  induction n generalizing a with
  | zero => simp [State.laneValue]
  | succ n ih =>
    have h1 := (s.hostMemByte a).isLt
    have h2 := ih (a + 1)
    rw [State.laneValue, pow_succ]
    omega

theorem State.laneValue_digit (s : State) (a n k : Nat) (h : k < n) :
    s.laneValue a n / 256 ^ k % 256 = (s.hostMemByte (a + k)).toNat := by
  induction n generalizing a k with
  | zero => omega
  | succ n ih =>
    have h1 := (s.hostMemByte a).isLt
    rw [State.laneValue]
    cases k with
    | zero =>
      simp only [pow_zero, Nat.div_one, Nat.add_zero]
      omega
    | succ k =>
      rw [pow_succ', ← Nat.div_div_eq_div_mul,
        show ((s.hostMemByte a).toNat + 256 * s.laneValue (a + 1) n) / 256 = s.laneValue (a + 1) n from by omega,
        ih (a + 1) k (by omega), show a + 1 + k = a + (k + 1) from by omega]

@[simp] theorem length_laneBytes (n v : Nat) : (laneBytes n v).length = n := by
  induction n generalizing v with
  | zero => rfl
  | succ n ih => simp [laneBytes, ih]

theorem getElem_laneBytes (n v k : Nat) (h : k < (laneBytes n v).length) :
    (laneBytes n v)[k] = BitVec.ofNat 8 (v / 256 ^ k) := by
  induction n generalizing v k with
  | zero => simp at h
  | succ n ih =>
    cases k with
    | zero => simp [laneBytes]
    | succ k =>
      rw [length_laneBytes] at h
      simp only [laneBytes, List.getElem_cons_succ]
      rw [ih, pow_succ', ← Nat.div_div_eq_div_mul]

/-! ### What the status words read -/

theorem testBit_bitsValue (l : List Bool) (j : Nat) : (bitsValue l).testBit j = l.getD j false := by
  induction l generalizing j with
  | nil => simp [bitsValue]
  | cons b l ih =>
    cases j with
    | zero => cases b <;> simp [bitsValue, bit, Nat.testBit_zero]
    | succ j =>
      have h : (bit b + 2 * bitsValue l) / 2 = bitsValue l := by
        cases b
        · simp [bit]
        · simp only [bit, if_true]
          omega
      rw [bitsValue, Nat.testBit_succ, h, ih]
      rfl

end Sys2Proof.Machine
end

