-- ==== Sys2Proof/Laws/Field.lean ====
section
/-! SUPPORT. The laws of the field arithmetic: every operation on values is the operation of `ZMod m`, the
Montgomery conversions are inverse to each other, and so are the integer encodings. -/

namespace Sys2Proof.Machine

/-! ### Powers and inverses -/

theorem powBits_eq (m a k e : Nat) (h : e < 2 ^ k) : powBits m a k e = a ^ e % m := by
  induction k generalizing e with
  | zero =>
    have : e = 0 := by simpa using h
    subst this
    simp [powBits]
  | succ k ih =>
    by_cases he : e = 0
    · subst he
      simp [powBits]
    have hk : e / 2 < 2 ^ k := by omega
    simp only [powBits, if_neg he, ih _ hk]
    have key : ∀ x : Nat, x % m * (x % m) % m = x * x % m := fun x => (Nat.mul_mod x x m).symm
    split
    · rename_i hodd
      rw [key, Nat.mod_mul_mod, ← pow_add, ← pow_succ]
      congr 2
      omega
    · rename_i heven
      rw [key, ← pow_add]
      congr 2
      omega

/-- `powMod` is the power (00_scope.md R19). -/
theorem powMod_eq (m a e : Nat) : powMod m a e = a ^ e % m :=
  powBits_eq m a _ e Nat.lt_log2_self

theorem invMod_eq (m a : Nat) : invMod m a = a ^ (m - 2) % m := powMod_eq m a _

/-! ### The operations in `ZMod m` -/

section Casts

variable (m a b : Nat)

@[simp] theorem cast_addMod : ((addMod m a b : Nat) : ZMod m) = a + b := by simp [addMod]

@[simp] theorem cast_mulMod : ((mulMod m a b : Nat) : ZMod m) = a * b := by simp [mulMod]

theorem cast_subMod (h : 0 < m) : ((subMod m a b : Nat) : ZMod m) = a - b := by
  have hb : b % m ≤ m := (Nat.mod_lt b h).le
  simp [subMod, Nat.cast_sub hb, sub_eq_add_neg]

theorem cast_negMod (h : 0 < m) : ((negMod m a : Nat) : ZMod m) = -a := by
  have hb : a % m ≤ m := (Nat.mod_lt a h).le
  simp [negMod, Nat.cast_sub hb]

@[simp] theorem cast_powMod (e : Nat) : ((powMod m a e : Nat) : ZMod m) = (a : ZMod m) ^ e := by
  simp [powMod_eq]

theorem addMod_lt (h : 0 < m) : addMod m a b < m := Nat.mod_lt _ h
theorem subMod_lt (h : 0 < m) : subMod m a b < m := Nat.mod_lt _ h
theorem mulMod_lt (h : 0 < m) : mulMod m a b < m := Nat.mod_lt _ h
theorem negMod_lt (h : 0 < m) : negMod m a < m := Nat.mod_lt _ h
theorem powMod_lt (e : Nat) (h : 0 < m) : powMod m a e < m := powMod_eq m a e ▸ Nat.mod_lt _ h
theorem invMod_lt (h : 0 < m) : invMod m a < m := powMod_lt m a _ h

end Casts

/-- `inv0` is the inverse of the field (00_scope.md R19). -/
theorem cast_invMod (m a : Nat) (hm : Nat.Prime m) (h2 : 2 < m) : ((invMod m a : Nat) : ZMod m) = (a : ZMod m)⁻¹ := by
  have : Fact m.Prime := ⟨hm⟩
  rw [invMod_eq, ZMod.natCast_mod, Nat.cast_pow]
  by_cases ha : (a : ZMod m) = 0
  · rw [ha, inv_zero, zero_pow (by omega)]
  · refine eq_inv_of_mul_eq_one_left ?_
    rw [← pow_succ, show m - 2 + 1 = m - 1 from by omega, ZMod.pow_card_sub_one_eq_one ha]

/-- Two canonical values are equal when their classes are. -/
theorem eq_of_cast_eq {m a b : Nat} (ha : a < m) (hb : b < m) (h : (a : ZMod m) = b) : a = b := by
  have := (ZMod.natCast_eq_natCast_iff' a b m).1 h
  rwa [Nat.mod_eq_of_lt ha, Nat.mod_eq_of_lt hb] at this

/-! ### Sizes -/

/-- What the size constraints of 00_scope.md R10 say of a modulus. -/
theorem modulus_bounds {c : Config} (h : c.sized = true) (f : FieldSel) :
    c.modulus f % 2 = 1 ∧ 3 < c.modulus f ∧ c.modulus f < c.radix := by
  simp only [Config.sized, Bool.and_eq_true, decide_eq_true_eq] at h
  cases f <;> simp only [Config.modulus, Config.radix, Config.width] <;> tauto

theorem modulus_pos {c : Config} (h : c.sized = true) (f : FieldSel) : 0 < c.modulus f := by
  have := modulus_bounds h f
  omega

theorem nl_bounds {c : Config} (h : c.sized = true) : 1 ≤ c.nl ∧ c.nl ≤ 8 := by
  simp only [Config.sized, Bool.and_eq_true, decide_eq_true_eq] at h
  tauto

theorem wordBytes_eq (c : Config) : c.wordBytes = 8 * c.nl := by
  simp only [Config.wordBytes, Config.width]
  omega

theorem radix_eq (c : Config) : c.radix = 256 ^ c.wordBytes := by
  rw [wordBytes_eq, Config.radix, Config.width, show (256 : Nat) = 2 ^ 8 from rfl, ← pow_mul]
  congr 1
  omega

/-- A canonical value fits in the bytes of its encoding (43_loadstore.md R217). -/
theorem modulus_lt_pow_elemBytes (c : Config) (f : FieldSel) : c.modulus f < 256 ^ c.elemBytes f := by
  rw [show (256 : Nat) = 2 ^ 8 from rfl, ← pow_mul]
  refine lt_of_lt_of_le Nat.lt_log2_self (Nat.pow_le_pow_right (by omega) ?_)
  simp only [Config.elemBytes]
  omega

/-! ### Montgomery words -/

/-- `radixInv` is the inverse of `R = 2^W` (00_scope.md R18). -/
theorem radixInv_spec (width m : Nat) (hodd : m % 2 = 1) : (((2 ^ width : Nat) : ZMod m)) * (radixInv width m : Nat) = 1 := by
  have h : ((2 * ((m + 1) / 2) : Nat) : ZMod m) = 1 := by
    rw [show 2 * ((m + 1) / 2) = m + 1 from by omega]
    simp
  rw [radixInv, cast_powMod, Nat.cast_pow, ← mul_pow, ← Nat.cast_mul, h, one_pow]

theorem val_lt {c : Config} (h : c.sized = true) (f : FieldSel) (w : Nat) : c.val f w < c.modulus f :=
  Nat.mod_lt _ (modulus_pos h f)

theorem mont_lt {c : Config} (h : c.sized = true) (f : FieldSel) (v : Nat) : c.mont f v < c.modulus f :=
  Nat.mod_lt _ (modulus_pos h f)

theorem mont_lt_radix {c : Config} (h : c.sized = true) (f : FieldSel) (v : Nat) : c.mont f v < c.radix :=
  (mont_lt h f v).trans (modulus_bounds h f).2.2

@[simp] theorem cast_mont (c : Config) (f : FieldSel) (v : Nat) :
    ((c.mont f v : Nat) : ZMod (c.modulus f)) = v * (c.radix : Nat) := by
  simp [Config.mont]

theorem cast_val_mul_radix {c : Config} (h : c.sized = true) (f : FieldSel) (w : Nat) :
    ((c.val f w : Nat) : ZMod (c.modulus f)) * (c.radix : Nat) = w := by
  have hr := radixInv_spec c.width (c.modulus f) (modulus_bounds h f).1
  rw [Config.val, ZMod.natCast_mod, Nat.cast_mul, mul_assoc, mul_comm (Nat.cast (radixInv _ _)), Config.radix, hr,
    mul_one]

/-- `val_m(mont_m(v)) = v mod m`. -/
theorem val_mont {c : Config} (h : c.sized = true) (f : FieldSel) (v : Nat) :
    c.val f (c.mont f v) = v % c.modulus f := by
  have hm := modulus_pos h f
  refine eq_of_cast_eq (val_lt h f _) (Nat.mod_lt _ hm) ?_
  have hr := radixInv_spec c.width (c.modulus f) (modulus_bounds h f).1
  rw [Config.val, ZMod.natCast_mod, Nat.cast_mul, cast_mont, ZMod.natCast_mod, mul_assoc, Config.radix, hr, mul_one]

/-- `mont_m(val_m(w)) = w` for a canonical word (00_scope.md R18). -/
theorem mont_val {c : Config} (h : c.sized = true) (f : FieldSel) {w : Nat} (hw : w < c.modulus f) :
    c.mont f (c.val f w) = w := by
  refine eq_of_cast_eq (mont_lt h f _) hw ?_
  rw [cast_mont, cast_val_mul_radix h]

/-- A canonical word is known by its value. -/
theorem word_eq_of_val_eq {c : Config} (h : c.sized = true) (f : FieldSel) {w w' : Nat} (hw : w < c.modulus f)
    (hw' : w' < c.modulus f) (hv : c.val f w = c.val f w') : w = w' := by
  rw [← mont_val h f hw, ← mont_val h f hw', hv]

/-! ### Integer encodings (00_scope.md R20) -/

theorem os2ip_append_single (s : List Byte) (b : Byte) : os2ip (s ++ [b]) = os2ip s * 256 + b.toNat := by
  simp [os2ip]

theorem os2ip_lt (s : List Byte) : os2ip s < 256 ^ s.length := by
  induction s using List.reverseRecOn with
  | nil => simp [os2ip]
  | append_singleton s b ih =>
    rw [os2ip_append_single, List.length_append, List.length_singleton, pow_succ]
    have := b.isLt
    omega

/-- `OS2IP` as the sum of its digits, most significant first (00_scope.md R20). -/
theorem os2ip_eq_sum (s : List Byte) :
    os2ip s = ∑ k ∈ Finset.range s.length, (s.getD k 0#8).toNat * 256 ^ (s.length - 1 - k) := by
  induction s using List.reverseRecOn with
  | nil => rfl
  | append_singleton s b ih =>
    rw [os2ip_append_single, ih, List.length_append, List.length_singleton, Finset.sum_range_succ, Finset.sum_mul]
    congr 1
    · refine Finset.sum_congr rfl fun k hk => ?_
      have hk := Finset.mem_range.1 hk
      rw [List.getD_append _ _ _ _ hk, mul_assoc, ← pow_succ]
      congr 2
      omega
    · simp

@[simp] theorem length_i2osp (x n : Nat) : (i2osp x n).length = n := by
  induction n generalizing x with
  | zero => rfl
  | succ n ih => simp [i2osp, ih]

/-- Byte `k` of `I2OSP(x, n)` is digit `n − 1 − k` of x in base 256. -/
theorem getElem_i2osp (x n k : Nat) (h : k < (i2osp x n).length) :
    (i2osp x n)[k] = BitVec.ofNat 8 (x / 256 ^ (n - 1 - k)) := by
  induction n generalizing x with
  | zero => simp at h
  | succ n ih =>
    simp only [length_i2osp] at h
    simp only [i2osp]
    by_cases hk : k < n
    · rw [List.getElem_append_left (by simpa using hk), ih, Nat.div_div_eq_div_mul, ← pow_succ',
        show n + 1 - 1 - k = n - 1 - k + 1 from by omega]
    · have : k = n := by omega
      subst this
      rw [List.getElem_append_right (by simp)]
      simp

theorem os2ip_i2osp (x n : Nat) (h : x < 256 ^ n) : os2ip (i2osp x n) = x := by
  induction n generalizing x with
  | zero =>
    have : x = 0 := by simpa using h
    subst this
    rfl
  | succ n ih =>
    rw [i2osp, os2ip_append_single, ih _ (by rw [pow_succ] at h; omega), BitVec.toNat_ofNat]
    omega

theorem i2osp_os2ip (s : List Byte) : i2osp (os2ip s) s.length = s := by
  induction s using List.reverseRecOn with
  | nil => rfl
  | append_singleton s b ih =>
    have hb := b.isLt
    rw [List.length_append, List.length_singleton, i2osp, os2ip_append_single,
      show (os2ip s * 256 + b.toNat) / 256 = os2ip s from by omega, ih]
    congr 2
    apply BitVec.eq_of_toNat_eq
    rw [BitVec.toNat_ofNat]
    omega

end Sys2Proof.Machine
end

