-- ==== Sys2Proof/Laws/State.lean ====
section
/-! SUPPORT. The laws of State: one lemma per field per update, and what the register and mask accessors read after
an update. -/

namespace Sys2Proof.Machine

/-! ### One register, one mask, a byte string -/

@[simp] theorem State.setF_cfg (s : State) (i : Nat) (w : FWord) : (s.setF i w).cfg = s.cfg := rfl
@[simp] theorem State.setF_f (s : State) (i : Nat) (w : FWord) : (s.setF i w).f = s.f.setIfInBounds i w := rfl
@[simp] theorem State.setF_fv (s : State) (i : Nat) (w : FWord) : (s.setF i w).fv = s.fv.setIfInBounds i true := rfl
@[simp] theorem State.setF_m (s : State) (i : Nat) (w : FWord) : (s.setF i w).m = s.m := rfl
@[simp] theorem State.setF_mv (s : State) (i : Nat) (w : FWord) : (s.setF i w).mv = s.mv := rfl
@[simp] theorem State.setF_pc (s : State) (i : Nat) (w : FWord) : (s.setF i w).pc = s.pc := rfl
@[simp] theorem State.setF_run (s : State) (i : Nat) (w : FWord) : (s.setF i w).run = s.run := rfl
@[simp] theorem State.setF_abortReq (s : State) (i : Nat) (w : FWord) : (s.setF i w).abortReq = s.abortReq := rfl
@[simp] theorem State.setF_done (s : State) (i : Nat) (w : FWord) : (s.setF i w).done = s.done := rfl
@[simp] theorem State.setF_err (s : State) (i : Nat) (w : FWord) : (s.setF i w).err = s.err := rfl
@[simp] theorem State.setF_errcode (s : State) (i : Nat) (w : FWord) : (s.setF i w).errcode = s.errcode := rfl
@[simp] theorem State.setF_entry (s : State) (i : Nat) (w : FWord) : (s.setF i w).entry = s.entry := rfl
@[simp] theorem State.setF_errpc (s : State) (i : Nat) (w : FWord) : (s.setF i w).errpc = s.errpc := rfl
@[simp] theorem State.setF_errinsn (s : State) (i : Nat) (w : FWord) : (s.setF i w).errinsn = s.errinsn := rfl
@[simp] theorem State.setF_doneIE (s : State) (i : Nat) (w : FWord) : (s.setF i w).doneIE = s.doneIE := rfl
@[simp] theorem State.setF_errIE (s : State) (i : Nat) (w : FWord) : (s.setF i w).errIE = s.errIE := rfl
@[simp] theorem State.setF_doneIP (s : State) (i : Nat) (w : FWord) : (s.setF i w).doneIP = s.doneIP := rfl
@[simp] theorem State.setF_errIP (s : State) (i : Nat) (w : FWord) : (s.setF i w).errIP = s.errIP := rfl
@[simp] theorem State.setF_msgaddr (s : State) (i : Nat) (w : FWord) : (s.setF i w).msgaddr = s.msgaddr := rfl
@[simp] theorem State.setF_msglen (s : State) (i : Nat) (w : FWord) : (s.setF i w).msglen = s.msglen := rfl
@[simp] theorem State.setF_dstaddr (s : State) (i : Nat) (w : FWord) : (s.setF i w).dstaddr = s.dstaddr := rfl
@[simp] theorem State.setF_dstlen (s : State) (i : Nat) (w : FWord) : (s.setF i w).dstlen = s.dstlen := rfl
@[simp] theorem State.setF_xmdlen (s : State) (i : Nat) (w : FWord) : (s.setF i w).xmdlen = s.xmdlen := rfl
@[simp] theorem State.setF_retired (s : State) (i : Nat) (w : FWord) : (s.setF i w).retired = s.retired := rfl
@[simp] theorem State.setF_imem (s : State) (i : Nat) (w : FWord) : (s.setF i w).imem = s.imem := rfl
@[simp] theorem State.setF_mem (s : State) (i : Nat) (w : FWord) : (s.setF i w).mem = s.mem := rfl
@[simp] theorem State.setF_turns (s : State) (i : Nat) (w : FWord) : (s.setF i w).turns = s.turns := rfl
@[simp] theorem State.setF_resp (s : State) (i : Nat) (w : FWord) : (s.setF i w).resp = s.resp := rfl
@[simp] theorem State.setF_clock (s : State) (i : Nat) (w : FWord) : (s.setF i w).clock = s.clock := rfl
@[simp] theorem State.setF_writes (s : State) (i : Nat) (w : FWord) : (s.setF i w).writes = s.writes := rfl

@[simp] theorem State.setM_cfg (s : State) (j : MReg) (b : Bool) : (s.setM j b).cfg = s.cfg := rfl
@[simp] theorem State.setM_f (s : State) (j : MReg) (b : Bool) : (s.setM j b).f = s.f := rfl
@[simp] theorem State.setM_fv (s : State) (j : MReg) (b : Bool) : (s.setM j b).fv = s.fv := rfl
@[simp] theorem State.setM_m (s : State) (j : MReg) (b : Bool) : (s.setM j b).m = s.m.set j b := rfl
@[simp] theorem State.setM_mv (s : State) (j : MReg) (b : Bool) : (s.setM j b).mv = s.mv.set j true := rfl
@[simp] theorem State.setM_pc (s : State) (j : MReg) (b : Bool) : (s.setM j b).pc = s.pc := rfl
@[simp] theorem State.setM_run (s : State) (j : MReg) (b : Bool) : (s.setM j b).run = s.run := rfl
@[simp] theorem State.setM_abortReq (s : State) (j : MReg) (b : Bool) : (s.setM j b).abortReq = s.abortReq := rfl
@[simp] theorem State.setM_done (s : State) (j : MReg) (b : Bool) : (s.setM j b).done = s.done := rfl
@[simp] theorem State.setM_err (s : State) (j : MReg) (b : Bool) : (s.setM j b).err = s.err := rfl
@[simp] theorem State.setM_errcode (s : State) (j : MReg) (b : Bool) : (s.setM j b).errcode = s.errcode := rfl
@[simp] theorem State.setM_entry (s : State) (j : MReg) (b : Bool) : (s.setM j b).entry = s.entry := rfl
@[simp] theorem State.setM_errpc (s : State) (j : MReg) (b : Bool) : (s.setM j b).errpc = s.errpc := rfl
@[simp] theorem State.setM_errinsn (s : State) (j : MReg) (b : Bool) : (s.setM j b).errinsn = s.errinsn := rfl
@[simp] theorem State.setM_doneIE (s : State) (j : MReg) (b : Bool) : (s.setM j b).doneIE = s.doneIE := rfl
@[simp] theorem State.setM_errIE (s : State) (j : MReg) (b : Bool) : (s.setM j b).errIE = s.errIE := rfl
@[simp] theorem State.setM_doneIP (s : State) (j : MReg) (b : Bool) : (s.setM j b).doneIP = s.doneIP := rfl
@[simp] theorem State.setM_errIP (s : State) (j : MReg) (b : Bool) : (s.setM j b).errIP = s.errIP := rfl
@[simp] theorem State.setM_msgaddr (s : State) (j : MReg) (b : Bool) : (s.setM j b).msgaddr = s.msgaddr := rfl
@[simp] theorem State.setM_msglen (s : State) (j : MReg) (b : Bool) : (s.setM j b).msglen = s.msglen := rfl
@[simp] theorem State.setM_dstaddr (s : State) (j : MReg) (b : Bool) : (s.setM j b).dstaddr = s.dstaddr := rfl
@[simp] theorem State.setM_dstlen (s : State) (j : MReg) (b : Bool) : (s.setM j b).dstlen = s.dstlen := rfl
@[simp] theorem State.setM_xmdlen (s : State) (j : MReg) (b : Bool) : (s.setM j b).xmdlen = s.xmdlen := rfl
@[simp] theorem State.setM_retired (s : State) (j : MReg) (b : Bool) : (s.setM j b).retired = s.retired := rfl
@[simp] theorem State.setM_imem (s : State) (j : MReg) (b : Bool) : (s.setM j b).imem = s.imem := rfl
@[simp] theorem State.setM_mem (s : State) (j : MReg) (b : Bool) : (s.setM j b).mem = s.mem := rfl
@[simp] theorem State.setM_turns (s : State) (j : MReg) (b : Bool) : (s.setM j b).turns = s.turns := rfl
@[simp] theorem State.setM_resp (s : State) (j : MReg) (b : Bool) : (s.setM j b).resp = s.resp := rfl
@[simp] theorem State.setM_clock (s : State) (j : MReg) (b : Bool) : (s.setM j b).clock = s.clock := rfl
@[simp] theorem State.setM_writes (s : State) (j : MReg) (b : Bool) : (s.setM j b).writes = s.writes := rfl

@[simp] theorem State.memWrite_cfg (s : State) (a : Nat) (bs : List Byte) : (s.memWrite a bs).cfg = s.cfg := rfl
@[simp] theorem State.memWrite_f (s : State) (a : Nat) (bs : List Byte) : (s.memWrite a bs).f = s.f := rfl
@[simp] theorem State.memWrite_fv (s : State) (a : Nat) (bs : List Byte) : (s.memWrite a bs).fv = s.fv := rfl
@[simp] theorem State.memWrite_m (s : State) (a : Nat) (bs : List Byte) : (s.memWrite a bs).m = s.m := rfl
@[simp] theorem State.memWrite_mv (s : State) (a : Nat) (bs : List Byte) : (s.memWrite a bs).mv = s.mv := rfl
@[simp] theorem State.memWrite_pc (s : State) (a : Nat) (bs : List Byte) : (s.memWrite a bs).pc = s.pc := rfl
@[simp] theorem State.memWrite_run (s : State) (a : Nat) (bs : List Byte) : (s.memWrite a bs).run = s.run := rfl
@[simp] theorem State.memWrite_abortReq (s : State) (a : Nat) (bs : List Byte) : (s.memWrite a bs).abortReq = s.abortReq := rfl
@[simp] theorem State.memWrite_done (s : State) (a : Nat) (bs : List Byte) : (s.memWrite a bs).done = s.done := rfl
@[simp] theorem State.memWrite_err (s : State) (a : Nat) (bs : List Byte) : (s.memWrite a bs).err = s.err := rfl
@[simp] theorem State.memWrite_errcode (s : State) (a : Nat) (bs : List Byte) : (s.memWrite a bs).errcode = s.errcode := rfl
@[simp] theorem State.memWrite_entry (s : State) (a : Nat) (bs : List Byte) : (s.memWrite a bs).entry = s.entry := rfl
@[simp] theorem State.memWrite_errpc (s : State) (a : Nat) (bs : List Byte) : (s.memWrite a bs).errpc = s.errpc := rfl
@[simp] theorem State.memWrite_errinsn (s : State) (a : Nat) (bs : List Byte) : (s.memWrite a bs).errinsn = s.errinsn := rfl
@[simp] theorem State.memWrite_doneIE (s : State) (a : Nat) (bs : List Byte) : (s.memWrite a bs).doneIE = s.doneIE := rfl
@[simp] theorem State.memWrite_errIE (s : State) (a : Nat) (bs : List Byte) : (s.memWrite a bs).errIE = s.errIE := rfl
@[simp] theorem State.memWrite_doneIP (s : State) (a : Nat) (bs : List Byte) : (s.memWrite a bs).doneIP = s.doneIP := rfl
@[simp] theorem State.memWrite_errIP (s : State) (a : Nat) (bs : List Byte) : (s.memWrite a bs).errIP = s.errIP := rfl
@[simp] theorem State.memWrite_msgaddr (s : State) (a : Nat) (bs : List Byte) : (s.memWrite a bs).msgaddr = s.msgaddr := rfl
@[simp] theorem State.memWrite_msglen (s : State) (a : Nat) (bs : List Byte) : (s.memWrite a bs).msglen = s.msglen := rfl
@[simp] theorem State.memWrite_dstaddr (s : State) (a : Nat) (bs : List Byte) : (s.memWrite a bs).dstaddr = s.dstaddr := rfl
@[simp] theorem State.memWrite_dstlen (s : State) (a : Nat) (bs : List Byte) : (s.memWrite a bs).dstlen = s.dstlen := rfl
@[simp] theorem State.memWrite_xmdlen (s : State) (a : Nat) (bs : List Byte) : (s.memWrite a bs).xmdlen = s.xmdlen := rfl
@[simp] theorem State.memWrite_retired (s : State) (a : Nat) (bs : List Byte) : (s.memWrite a bs).retired = s.retired := rfl
@[simp] theorem State.memWrite_imem (s : State) (a : Nat) (bs : List Byte) : (s.memWrite a bs).imem = s.imem := rfl
@[simp] theorem State.memWrite_mem (s : State) (a : Nat) (bs : List Byte) : (s.memWrite a bs).mem = s.mem.writeList a bs := rfl
@[simp] theorem State.memWrite_turns (s : State) (a : Nat) (bs : List Byte) : (s.memWrite a bs).turns = s.turns := rfl
@[simp] theorem State.memWrite_resp (s : State) (a : Nat) (bs : List Byte) : (s.memWrite a bs).resp = s.resp := rfl
@[simp] theorem State.memWrite_clock (s : State) (a : Nat) (bs : List Byte) : (s.memWrite a bs).clock = s.clock := rfl
@[simp] theorem State.memWrite_writes (s : State) (a : Nat) (bs : List Byte) : (s.memWrite a bs).writes = s.writes := rfl

/-! ### Completion and stops -/

@[simp] theorem State.retire_cfg (s : State) : (s.retire).cfg = s.cfg := rfl
@[simp] theorem State.retire_f (s : State) : (s.retire).f = s.f := rfl
@[simp] theorem State.retire_fv (s : State) : (s.retire).fv = s.fv := rfl
@[simp] theorem State.retire_m (s : State) : (s.retire).m = s.m := rfl
@[simp] theorem State.retire_mv (s : State) : (s.retire).mv = s.mv := rfl
@[simp] theorem State.retire_pc (s : State) : (s.retire).pc = s.pc + 1 := rfl
@[simp] theorem State.retire_run (s : State) : (s.retire).run = s.run := rfl
@[simp] theorem State.retire_abortReq (s : State) : (s.retire).abortReq = s.abortReq := rfl
@[simp] theorem State.retire_done (s : State) : (s.retire).done = s.done := rfl
@[simp] theorem State.retire_err (s : State) : (s.retire).err = s.err := rfl
@[simp] theorem State.retire_errcode (s : State) : (s.retire).errcode = s.errcode := rfl
@[simp] theorem State.retire_entry (s : State) : (s.retire).entry = s.entry := rfl
@[simp] theorem State.retire_errpc (s : State) : (s.retire).errpc = s.errpc := rfl
@[simp] theorem State.retire_errinsn (s : State) : (s.retire).errinsn = s.errinsn := rfl
@[simp] theorem State.retire_doneIE (s : State) : (s.retire).doneIE = s.doneIE := rfl
@[simp] theorem State.retire_errIE (s : State) : (s.retire).errIE = s.errIE := rfl
@[simp] theorem State.retire_doneIP (s : State) : (s.retire).doneIP = s.doneIP := rfl
@[simp] theorem State.retire_errIP (s : State) : (s.retire).errIP = s.errIP := rfl
@[simp] theorem State.retire_msgaddr (s : State) : (s.retire).msgaddr = s.msgaddr := rfl
@[simp] theorem State.retire_msglen (s : State) : (s.retire).msglen = s.msglen := rfl
@[simp] theorem State.retire_dstaddr (s : State) : (s.retire).dstaddr = s.dstaddr := rfl
@[simp] theorem State.retire_dstlen (s : State) : (s.retire).dstlen = s.dstlen := rfl
@[simp] theorem State.retire_xmdlen (s : State) : (s.retire).xmdlen = s.xmdlen := rfl
@[simp] theorem State.retire_retired (s : State) : (s.retire).retired = s.retired + 1 := rfl
@[simp] theorem State.retire_imem (s : State) : (s.retire).imem = s.imem := rfl
@[simp] theorem State.retire_mem (s : State) : (s.retire).mem = s.mem := rfl
@[simp] theorem State.retire_turns (s : State) : (s.retire).turns = s.turns := rfl
@[simp] theorem State.retire_resp (s : State) : (s.retire).resp = s.resp := rfl
@[simp] theorem State.retire_clock (s : State) : (s.retire).clock = s.clock + 1 := rfl
@[simp] theorem State.retire_writes (s : State) : (s.retire).writes = s.writes := rfl

@[simp] theorem State.haltStop_cfg (s : State) : (s.haltStop).cfg = s.cfg := rfl
@[simp] theorem State.haltStop_f (s : State) : (s.haltStop).f = s.f := rfl
@[simp] theorem State.haltStop_fv (s : State) : (s.haltStop).fv = s.fv := rfl
@[simp] theorem State.haltStop_m (s : State) : (s.haltStop).m = s.m := rfl
@[simp] theorem State.haltStop_mv (s : State) : (s.haltStop).mv = s.mv := rfl
@[simp] theorem State.haltStop_pc (s : State) : (s.haltStop).pc = s.pc := rfl
@[simp] theorem State.haltStop_run (s : State) : (s.haltStop).run = .idle := rfl
@[simp] theorem State.haltStop_abortReq (s : State) : (s.haltStop).abortReq = false := rfl
@[simp] theorem State.haltStop_done (s : State) : (s.haltStop).done = true := rfl
@[simp] theorem State.haltStop_err (s : State) : (s.haltStop).err = s.err := rfl
@[simp] theorem State.haltStop_errcode (s : State) : (s.haltStop).errcode = s.errcode := rfl
@[simp] theorem State.haltStop_entry (s : State) : (s.haltStop).entry = s.entry := rfl
@[simp] theorem State.haltStop_errpc (s : State) : (s.haltStop).errpc = s.errpc := rfl
@[simp] theorem State.haltStop_errinsn (s : State) : (s.haltStop).errinsn = s.errinsn := rfl
@[simp] theorem State.haltStop_doneIE (s : State) : (s.haltStop).doneIE = s.doneIE := rfl
@[simp] theorem State.haltStop_errIE (s : State) : (s.haltStop).errIE = s.errIE := rfl
@[simp] theorem State.haltStop_doneIP (s : State) : (s.haltStop).doneIP = true := rfl
@[simp] theorem State.haltStop_errIP (s : State) : (s.haltStop).errIP = s.errIP := rfl
@[simp] theorem State.haltStop_msgaddr (s : State) : (s.haltStop).msgaddr = s.msgaddr := rfl
@[simp] theorem State.haltStop_msglen (s : State) : (s.haltStop).msglen = s.msglen := rfl
@[simp] theorem State.haltStop_dstaddr (s : State) : (s.haltStop).dstaddr = s.dstaddr := rfl
@[simp] theorem State.haltStop_dstlen (s : State) : (s.haltStop).dstlen = s.dstlen := rfl
@[simp] theorem State.haltStop_xmdlen (s : State) : (s.haltStop).xmdlen = s.xmdlen := rfl
@[simp] theorem State.haltStop_retired (s : State) : (s.haltStop).retired = s.retired + 1 := rfl
@[simp] theorem State.haltStop_imem (s : State) : (s.haltStop).imem = s.imem := rfl
@[simp] theorem State.haltStop_mem (s : State) : (s.haltStop).mem = s.mem := rfl
@[simp] theorem State.haltStop_turns (s : State) : (s.haltStop).turns = s.turns := rfl
@[simp] theorem State.haltStop_resp (s : State) : (s.haltStop).resp = s.resp := rfl
@[simp] theorem State.haltStop_clock (s : State) : (s.haltStop).clock = s.clock + 1 := rfl
@[simp] theorem State.haltStop_writes (s : State) : (s.haltStop).writes = s.writes := rfl

@[simp] theorem State.errorStop_cfg (s : State) (c : ErrorCode) (w : Insn) : (s.errorStop c w).cfg = s.cfg := rfl
@[simp] theorem State.errorStop_f (s : State) (c : ErrorCode) (w : Insn) : (s.errorStop c w).f = s.f := rfl
@[simp] theorem State.errorStop_fv (s : State) (c : ErrorCode) (w : Insn) : (s.errorStop c w).fv = s.fv := rfl
@[simp] theorem State.errorStop_m (s : State) (c : ErrorCode) (w : Insn) : (s.errorStop c w).m = s.m := rfl
@[simp] theorem State.errorStop_mv (s : State) (c : ErrorCode) (w : Insn) : (s.errorStop c w).mv = s.mv := rfl
@[simp] theorem State.errorStop_pc (s : State) (c : ErrorCode) (w : Insn) : (s.errorStop c w).pc = s.pc := rfl
@[simp] theorem State.errorStop_run (s : State) (c : ErrorCode) (w : Insn) : (s.errorStop c w).run = .idle := rfl
@[simp] theorem State.errorStop_abortReq (s : State) (c : ErrorCode) (w : Insn) : (s.errorStop c w).abortReq = false := rfl
@[simp] theorem State.errorStop_done (s : State) (c : ErrorCode) (w : Insn) : (s.errorStop c w).done = false := rfl
@[simp] theorem State.errorStop_err (s : State) (c : ErrorCode) (w : Insn) : (s.errorStop c w).err = true := rfl
@[simp] theorem State.errorStop_errcode (s : State) (c : ErrorCode) (w : Insn) : (s.errorStop c w).errcode = c := rfl
@[simp] theorem State.errorStop_entry (s : State) (c : ErrorCode) (w : Insn) : (s.errorStop c w).entry = s.entry := rfl
@[simp] theorem State.errorStop_errpc (s : State) (c : ErrorCode) (w : Insn) : (s.errorStop c w).errpc = s.pc := rfl
@[simp] theorem State.errorStop_errinsn (s : State) (c : ErrorCode) (w : Insn) : (s.errorStop c w).errinsn = w := rfl
@[simp] theorem State.errorStop_doneIE (s : State) (c : ErrorCode) (w : Insn) : (s.errorStop c w).doneIE = s.doneIE := rfl
@[simp] theorem State.errorStop_errIE (s : State) (c : ErrorCode) (w : Insn) : (s.errorStop c w).errIE = s.errIE := rfl
@[simp] theorem State.errorStop_doneIP (s : State) (c : ErrorCode) (w : Insn) : (s.errorStop c w).doneIP = s.doneIP := rfl
@[simp] theorem State.errorStop_errIP (s : State) (c : ErrorCode) (w : Insn) : (s.errorStop c w).errIP = true := rfl
@[simp] theorem State.errorStop_msgaddr (s : State) (c : ErrorCode) (w : Insn) : (s.errorStop c w).msgaddr = s.msgaddr := rfl
@[simp] theorem State.errorStop_msglen (s : State) (c : ErrorCode) (w : Insn) : (s.errorStop c w).msglen = s.msglen := rfl
@[simp] theorem State.errorStop_dstaddr (s : State) (c : ErrorCode) (w : Insn) : (s.errorStop c w).dstaddr = s.dstaddr := rfl
@[simp] theorem State.errorStop_dstlen (s : State) (c : ErrorCode) (w : Insn) : (s.errorStop c w).dstlen = s.dstlen := rfl
@[simp] theorem State.errorStop_xmdlen (s : State) (c : ErrorCode) (w : Insn) : (s.errorStop c w).xmdlen = s.xmdlen := rfl
@[simp] theorem State.errorStop_retired (s : State) (c : ErrorCode) (w : Insn) : (s.errorStop c w).retired = s.retired := rfl
@[simp] theorem State.errorStop_imem (s : State) (c : ErrorCode) (w : Insn) : (s.errorStop c w).imem = s.imem := rfl
@[simp] theorem State.errorStop_mem (s : State) (c : ErrorCode) (w : Insn) : (s.errorStop c w).mem = s.mem := rfl
@[simp] theorem State.errorStop_turns (s : State) (c : ErrorCode) (w : Insn) : (s.errorStop c w).turns = s.turns := rfl
@[simp] theorem State.errorStop_resp (s : State) (c : ErrorCode) (w : Insn) : (s.errorStop c w).resp = s.resp := rfl
@[simp] theorem State.errorStop_clock (s : State) (c : ErrorCode) (w : Insn) : (s.errorStop c w).clock = s.clock + 1 := rfl
@[simp] theorem State.errorStop_writes (s : State) (c : ErrorCode) (w : Insn) : (s.errorStop c w).writes = s.writes := rfl

@[simp] theorem State.start_cfg (s : State) : (s.start).cfg = s.cfg := rfl
@[simp] theorem State.start_f (s : State) : (s.start).f = s.f := rfl
@[simp] theorem State.start_fv (s : State) : (s.start).fv = s.fv := rfl
@[simp] theorem State.start_m (s : State) : (s.start).m = s.m := rfl
@[simp] theorem State.start_mv (s : State) : (s.start).mv = s.mv := rfl
@[simp] theorem State.start_pc (s : State) : (s.start).pc = s.entry.setWidth 9 := rfl
@[simp] theorem State.start_run (s : State) : (s.start).run = .run := rfl
@[simp] theorem State.start_abortReq (s : State) : (s.start).abortReq = false := rfl
@[simp] theorem State.start_done (s : State) : (s.start).done = false := rfl
@[simp] theorem State.start_err (s : State) : (s.start).err = false := rfl
@[simp] theorem State.start_errcode (s : State) : (s.start).errcode = .none := rfl
@[simp] theorem State.start_entry (s : State) : (s.start).entry = s.entry := rfl
@[simp] theorem State.start_errpc (s : State) : (s.start).errpc = s.errpc := rfl
@[simp] theorem State.start_errinsn (s : State) : (s.start).errinsn = s.errinsn := rfl
@[simp] theorem State.start_doneIE (s : State) : (s.start).doneIE = s.doneIE := rfl
@[simp] theorem State.start_errIE (s : State) : (s.start).errIE = s.errIE := rfl
@[simp] theorem State.start_doneIP (s : State) : (s.start).doneIP = s.doneIP := rfl
@[simp] theorem State.start_errIP (s : State) : (s.start).errIP = s.errIP := rfl
@[simp] theorem State.start_msgaddr (s : State) : (s.start).msgaddr = s.msgaddr := rfl
@[simp] theorem State.start_msglen (s : State) : (s.start).msglen = s.msglen := rfl
@[simp] theorem State.start_dstaddr (s : State) : (s.start).dstaddr = s.dstaddr := rfl
@[simp] theorem State.start_dstlen (s : State) : (s.start).dstlen = s.dstlen := rfl
@[simp] theorem State.start_xmdlen (s : State) : (s.start).xmdlen = s.xmdlen := rfl
@[simp] theorem State.start_retired (s : State) : (s.start).retired = 0 := rfl
@[simp] theorem State.start_imem (s : State) : (s.start).imem = s.imem := rfl
@[simp] theorem State.start_mem (s : State) : (s.start).mem = s.mem := rfl
@[simp] theorem State.start_turns (s : State) : (s.start).turns = s.turns := rfl
@[simp] theorem State.start_resp (s : State) : (s.start).resp = s.resp := rfl
@[simp] theorem State.start_clock (s : State) : (s.start).clock = s.clock := rfl
@[simp] theorem State.start_writes (s : State) : (s.start).writes = s.writes := rfl

/-! ### Resets: proved by simp only, since a plain rfl would compare memories -/

@[simp] theorem State.softReset_cfg (s : State) : (s.softReset).cfg = s.cfg := by
  simp only [State.softReset]
@[simp] theorem State.softReset_f (s : State) : (s.softReset).f = Vector.ofFn fun i => Config.freeRegister s.clock s.writes i.val % s.cfg.radix := by
  simp only [State.softReset]
@[simp] theorem State.softReset_fv (s : State) : (s.softReset).fv = Vector.replicate 32 false := by
  simp only [State.softReset]
@[simp] theorem State.softReset_m (s : State) : (s.softReset).m = Vector.ofFn fun j => Config.freeMask s.clock s.writes j.val := by
  simp only [State.softReset]
@[simp] theorem State.softReset_mv (s : State) : (s.softReset).mv = Vector.replicate 8 false := by
  simp only [State.softReset]
@[simp] theorem State.softReset_pc (s : State) : (s.softReset).pc = 0 := by
  simp only [State.softReset]
@[simp] theorem State.softReset_run (s : State) : (s.softReset).run = .idle := by
  simp only [State.softReset]
@[simp] theorem State.softReset_abortReq (s : State) : (s.softReset).abortReq = false := by
  simp only [State.softReset]
@[simp] theorem State.softReset_done (s : State) : (s.softReset).done = false := by
  simp only [State.softReset]
@[simp] theorem State.softReset_err (s : State) : (s.softReset).err = false := by
  simp only [State.softReset]
@[simp] theorem State.softReset_errcode (s : State) : (s.softReset).errcode = .none := by
  simp only [State.softReset]
@[simp] theorem State.softReset_entry (s : State) : (s.softReset).entry = 0 := by
  simp only [State.softReset]
@[simp] theorem State.softReset_errpc (s : State) : (s.softReset).errpc = 0 := by
  simp only [State.softReset]
@[simp] theorem State.softReset_errinsn (s : State) : (s.softReset).errinsn = 0 := by
  simp only [State.softReset]
@[simp] theorem State.softReset_doneIE (s : State) : (s.softReset).doneIE = false := by
  simp only [State.softReset]
@[simp] theorem State.softReset_errIE (s : State) : (s.softReset).errIE = false := by
  simp only [State.softReset]
@[simp] theorem State.softReset_doneIP (s : State) : (s.softReset).doneIP = false := by
  simp only [State.softReset]
@[simp] theorem State.softReset_errIP (s : State) : (s.softReset).errIP = false := by
  simp only [State.softReset]
@[simp] theorem State.softReset_msgaddr (s : State) : (s.softReset).msgaddr = 0 := by
  simp only [State.softReset]
@[simp] theorem State.softReset_msglen (s : State) : (s.softReset).msglen = 0 := by
  simp only [State.softReset]
@[simp] theorem State.softReset_dstaddr (s : State) : (s.softReset).dstaddr = 0 := by
  simp only [State.softReset]
@[simp] theorem State.softReset_dstlen (s : State) : (s.softReset).dstlen = 0 := by
  simp only [State.softReset]
@[simp] theorem State.softReset_xmdlen (s : State) : (s.softReset).xmdlen = 0 := by
  simp only [State.softReset]
@[simp] theorem State.softReset_retired (s : State) : (s.softReset).retired = 0 := by
  simp only [State.softReset]
@[simp] theorem State.softReset_imem (s : State) : (s.softReset).imem = s.imem := by
  simp only [State.softReset]
@[simp] theorem State.softReset_turns (s : State) : (s.softReset).turns = s.turns := by
  simp only [State.softReset]
@[simp] theorem State.softReset_resp (s : State) : (s.softReset).resp = s.resp := by
  simp only [State.softReset]
@[simp] theorem State.softReset_clock (s : State) : (s.softReset).clock = s.clock := by
  simp only [State.softReset]
@[simp] theorem State.softReset_writes (s : State) : (s.softReset).writes = s.writes := by
  simp only [State.softReset]

@[simp] theorem State.powerOn_cfg (s : State) : (s.powerOn).cfg = s.cfg := by
  simp only [State.powerOn, State.softReset]
@[simp] theorem State.powerOn_f (s : State) : (s.powerOn).f = Vector.ofFn fun i => Config.freeRegister s.clock s.writes i.val % s.cfg.radix := by
  simp only [State.powerOn, State.softReset]
@[simp] theorem State.powerOn_fv (s : State) : (s.powerOn).fv = Vector.replicate 32 false := by
  simp only [State.powerOn, State.softReset]
@[simp] theorem State.powerOn_m (s : State) : (s.powerOn).m = Vector.ofFn fun j => Config.freeMask s.clock s.writes j.val := by
  simp only [State.powerOn, State.softReset]
@[simp] theorem State.powerOn_mv (s : State) : (s.powerOn).mv = Vector.replicate 8 false := by
  simp only [State.powerOn, State.softReset]
@[simp] theorem State.powerOn_pc (s : State) : (s.powerOn).pc = 0 := by
  simp only [State.powerOn, State.softReset]
@[simp] theorem State.powerOn_run (s : State) : (s.powerOn).run = .idle := by
  simp only [State.powerOn, State.softReset]
@[simp] theorem State.powerOn_abortReq (s : State) : (s.powerOn).abortReq = false := by
  simp only [State.powerOn, State.softReset]
@[simp] theorem State.powerOn_done (s : State) : (s.powerOn).done = false := by
  simp only [State.powerOn, State.softReset]
@[simp] theorem State.powerOn_err (s : State) : (s.powerOn).err = false := by
  simp only [State.powerOn, State.softReset]
@[simp] theorem State.powerOn_errcode (s : State) : (s.powerOn).errcode = .none := by
  simp only [State.powerOn, State.softReset]
@[simp] theorem State.powerOn_entry (s : State) : (s.powerOn).entry = 0 := by
  simp only [State.powerOn, State.softReset]
@[simp] theorem State.powerOn_errpc (s : State) : (s.powerOn).errpc = 0 := by
  simp only [State.powerOn, State.softReset]
@[simp] theorem State.powerOn_errinsn (s : State) : (s.powerOn).errinsn = 0 := by
  simp only [State.powerOn, State.softReset]
@[simp] theorem State.powerOn_doneIE (s : State) : (s.powerOn).doneIE = false := by
  simp only [State.powerOn, State.softReset]
@[simp] theorem State.powerOn_errIE (s : State) : (s.powerOn).errIE = false := by
  simp only [State.powerOn, State.softReset]
@[simp] theorem State.powerOn_doneIP (s : State) : (s.powerOn).doneIP = false := by
  simp only [State.powerOn, State.softReset]
@[simp] theorem State.powerOn_errIP (s : State) : (s.powerOn).errIP = false := by
  simp only [State.powerOn, State.softReset]
@[simp] theorem State.powerOn_msgaddr (s : State) : (s.powerOn).msgaddr = 0 := by
  simp only [State.powerOn, State.softReset]
@[simp] theorem State.powerOn_msglen (s : State) : (s.powerOn).msglen = 0 := by
  simp only [State.powerOn, State.softReset]
@[simp] theorem State.powerOn_dstaddr (s : State) : (s.powerOn).dstaddr = 0 := by
  simp only [State.powerOn, State.softReset]
@[simp] theorem State.powerOn_dstlen (s : State) : (s.powerOn).dstlen = 0 := by
  simp only [State.powerOn, State.softReset]
@[simp] theorem State.powerOn_xmdlen (s : State) : (s.powerOn).xmdlen = 0 := by
  simp only [State.powerOn, State.softReset]
@[simp] theorem State.powerOn_retired (s : State) : (s.powerOn).retired = 0 := by
  simp only [State.powerOn, State.softReset]
@[simp] theorem State.powerOn_imem (s : State) : (s.powerOn).imem = Memory.tabulate (Config.freeImemWord s.clock s.writes) 0 imemSize := by
  simp only [State.powerOn, State.softReset]
@[simp] theorem State.powerOn_mem (s : State) : (s.powerOn).mem = Memory.tabulate (Config.freeMemByte s.clock s.writes) 0 memSize := by
  simp only [State.powerOn, State.softReset]
@[simp] theorem State.powerOn_turns (s : State) : (s.powerOn).turns = s.turns := by
  simp only [State.powerOn, State.softReset]
@[simp] theorem State.powerOn_resp (s : State) : (s.powerOn).resp = s.resp := by
  simp only [State.powerOn, State.softReset]
@[simp] theorem State.powerOn_clock (s : State) : (s.powerOn).clock = s.clock + 1 := by
  simp only [State.powerOn, State.softReset]
@[simp] theorem State.powerOn_writes (s : State) : (s.powerOn).writes = s.writes := by
  simp only [State.powerOn, State.softReset]

theorem State.softReset_mem_idle (s : State) (h : s.run = .idle) : s.softReset.mem = s.mem := by
  simp only [State.softReset, h]

theorem State.softReset_mem_run (s : State) (h : s.run = .run) :
    s.softReset.mem = Memory.tabulate (Config.freeMemByte s.clock s.writes) 0 memSize := by
  simp only [State.softReset, h]

/-! ### A list of registers -/

@[simp] theorem State.setFs_cfg (s : State) (i : Nat) (ws : List FWord) : (s.setFs i ws).cfg = s.cfg := by
  induction ws generalizing s i with
  | nil => rfl
  | cons w ws ih => rw [State.setFs, ih, State.setF_cfg]
@[simp] theorem State.setFs_m (s : State) (i : Nat) (ws : List FWord) : (s.setFs i ws).m = s.m := by
  induction ws generalizing s i with
  | nil => rfl
  | cons w ws ih => rw [State.setFs, ih, State.setF_m]
@[simp] theorem State.setFs_mv (s : State) (i : Nat) (ws : List FWord) : (s.setFs i ws).mv = s.mv := by
  induction ws generalizing s i with
  | nil => rfl
  | cons w ws ih => rw [State.setFs, ih, State.setF_mv]
@[simp] theorem State.setFs_pc (s : State) (i : Nat) (ws : List FWord) : (s.setFs i ws).pc = s.pc := by
  induction ws generalizing s i with
  | nil => rfl
  | cons w ws ih => rw [State.setFs, ih, State.setF_pc]
@[simp] theorem State.setFs_run (s : State) (i : Nat) (ws : List FWord) : (s.setFs i ws).run = s.run := by
  induction ws generalizing s i with
  | nil => rfl
  | cons w ws ih => rw [State.setFs, ih, State.setF_run]
@[simp] theorem State.setFs_abortReq (s : State) (i : Nat) (ws : List FWord) : (s.setFs i ws).abortReq = s.abortReq := by
  induction ws generalizing s i with
  | nil => rfl
  | cons w ws ih => rw [State.setFs, ih, State.setF_abortReq]
@[simp] theorem State.setFs_done (s : State) (i : Nat) (ws : List FWord) : (s.setFs i ws).done = s.done := by
  induction ws generalizing s i with
  | nil => rfl
  | cons w ws ih => rw [State.setFs, ih, State.setF_done]
@[simp] theorem State.setFs_err (s : State) (i : Nat) (ws : List FWord) : (s.setFs i ws).err = s.err := by
  induction ws generalizing s i with
  | nil => rfl
  | cons w ws ih => rw [State.setFs, ih, State.setF_err]
@[simp] theorem State.setFs_errcode (s : State) (i : Nat) (ws : List FWord) : (s.setFs i ws).errcode = s.errcode := by
  induction ws generalizing s i with
  | nil => rfl
  | cons w ws ih => rw [State.setFs, ih, State.setF_errcode]
@[simp] theorem State.setFs_entry (s : State) (i : Nat) (ws : List FWord) : (s.setFs i ws).entry = s.entry := by
  induction ws generalizing s i with
  | nil => rfl
  | cons w ws ih => rw [State.setFs, ih, State.setF_entry]
@[simp] theorem State.setFs_errpc (s : State) (i : Nat) (ws : List FWord) : (s.setFs i ws).errpc = s.errpc := by
  induction ws generalizing s i with
  | nil => rfl
  | cons w ws ih => rw [State.setFs, ih, State.setF_errpc]
@[simp] theorem State.setFs_errinsn (s : State) (i : Nat) (ws : List FWord) : (s.setFs i ws).errinsn = s.errinsn := by
  induction ws generalizing s i with
  | nil => rfl
  | cons w ws ih => rw [State.setFs, ih, State.setF_errinsn]
@[simp] theorem State.setFs_doneIE (s : State) (i : Nat) (ws : List FWord) : (s.setFs i ws).doneIE = s.doneIE := by
  induction ws generalizing s i with
  | nil => rfl
  | cons w ws ih => rw [State.setFs, ih, State.setF_doneIE]
@[simp] theorem State.setFs_errIE (s : State) (i : Nat) (ws : List FWord) : (s.setFs i ws).errIE = s.errIE := by
  induction ws generalizing s i with
  | nil => rfl
  | cons w ws ih => rw [State.setFs, ih, State.setF_errIE]
@[simp] theorem State.setFs_doneIP (s : State) (i : Nat) (ws : List FWord) : (s.setFs i ws).doneIP = s.doneIP := by
  induction ws generalizing s i with
  | nil => rfl
  | cons w ws ih => rw [State.setFs, ih, State.setF_doneIP]
@[simp] theorem State.setFs_errIP (s : State) (i : Nat) (ws : List FWord) : (s.setFs i ws).errIP = s.errIP := by
  induction ws generalizing s i with
  | nil => rfl
  | cons w ws ih => rw [State.setFs, ih, State.setF_errIP]
@[simp] theorem State.setFs_msgaddr (s : State) (i : Nat) (ws : List FWord) : (s.setFs i ws).msgaddr = s.msgaddr := by
  induction ws generalizing s i with
  | nil => rfl
  | cons w ws ih => rw [State.setFs, ih, State.setF_msgaddr]
@[simp] theorem State.setFs_msglen (s : State) (i : Nat) (ws : List FWord) : (s.setFs i ws).msglen = s.msglen := by
  induction ws generalizing s i with
  | nil => rfl
  | cons w ws ih => rw [State.setFs, ih, State.setF_msglen]
@[simp] theorem State.setFs_dstaddr (s : State) (i : Nat) (ws : List FWord) : (s.setFs i ws).dstaddr = s.dstaddr := by
  induction ws generalizing s i with
  | nil => rfl
  | cons w ws ih => rw [State.setFs, ih, State.setF_dstaddr]
@[simp] theorem State.setFs_dstlen (s : State) (i : Nat) (ws : List FWord) : (s.setFs i ws).dstlen = s.dstlen := by
  induction ws generalizing s i with
  | nil => rfl
  | cons w ws ih => rw [State.setFs, ih, State.setF_dstlen]
@[simp] theorem State.setFs_xmdlen (s : State) (i : Nat) (ws : List FWord) : (s.setFs i ws).xmdlen = s.xmdlen := by
  induction ws generalizing s i with
  | nil => rfl
  | cons w ws ih => rw [State.setFs, ih, State.setF_xmdlen]
@[simp] theorem State.setFs_retired (s : State) (i : Nat) (ws : List FWord) : (s.setFs i ws).retired = s.retired := by
  induction ws generalizing s i with
  | nil => rfl
  | cons w ws ih => rw [State.setFs, ih, State.setF_retired]
@[simp] theorem State.setFs_imem (s : State) (i : Nat) (ws : List FWord) : (s.setFs i ws).imem = s.imem := by
  induction ws generalizing s i with
  | nil => rfl
  | cons w ws ih => rw [State.setFs, ih, State.setF_imem]
@[simp] theorem State.setFs_mem (s : State) (i : Nat) (ws : List FWord) : (s.setFs i ws).mem = s.mem := by
  induction ws generalizing s i with
  | nil => rfl
  | cons w ws ih => rw [State.setFs, ih, State.setF_mem]
@[simp] theorem State.setFs_turns (s : State) (i : Nat) (ws : List FWord) : (s.setFs i ws).turns = s.turns := by
  induction ws generalizing s i with
  | nil => rfl
  | cons w ws ih => rw [State.setFs, ih, State.setF_turns]
@[simp] theorem State.setFs_resp (s : State) (i : Nat) (ws : List FWord) : (s.setFs i ws).resp = s.resp := by
  induction ws generalizing s i with
  | nil => rfl
  | cons w ws ih => rw [State.setFs, ih, State.setF_resp]
@[simp] theorem State.setFs_clock (s : State) (i : Nat) (ws : List FWord) : (s.setFs i ws).clock = s.clock := by
  induction ws generalizing s i with
  | nil => rfl
  | cons w ws ih => rw [State.setFs, ih, State.setF_clock]
@[simp] theorem State.setFs_writes (s : State) (i : Nat) (ws : List FWord) : (s.setFs i ws).writes = s.writes := by
  induction ws generalizing s i with
  | nil => rfl
  | cons w ws ih => rw [State.setFs, ih, State.setF_writes]

/-! ### What the accessors read -/

theorem State.word_setF (s : State) (i j : Nat) (w : FWord) :
    (s.setF i w).word j = if i = j ∧ j < 32 then w else s.word j := by
  simp only [State.word, State.setF_f, Vector.getElem?_setIfInBounds]
  by_cases h : i = j <;> by_cases h2 : j < 32 <;> simp [h, h2]

theorem State.fvalid_setF (s : State) (i j : Nat) (w : FWord) :
    (s.setF i w).fvalid j = if i = j ∧ j < 32 then true else s.fvalid j := by
  simp only [State.fvalid, State.setF_fv, Vector.getElem?_setIfInBounds]
  by_cases h : i = j <;> by_cases h2 : j < 32 <;> simp [h, h2]

@[simp] theorem State.word_setF_self (s : State) (r : FReg) (w : FWord) : (s.setF r.val w).word r.val = w := by
  rw [State.word_setF, if_pos ⟨rfl, r.isLt⟩]

@[simp] theorem State.fvalid_setF_self (s : State) (r : FReg) (w : FWord) :
    (s.setF r.val w).fvalid r.val = true := by
  rw [State.fvalid_setF, if_pos ⟨rfl, r.isLt⟩]

theorem State.word_setF_other (s : State) {i j : Nat} (w : FWord) (h : j ≠ i) :
    (s.setF i w).word j = s.word j := by
  rw [State.word_setF, if_neg fun hc => h hc.1.symm]

theorem State.fvalid_setF_other (s : State) {i j : Nat} (w : FWord) (h : j ≠ i) :
    (s.setF i w).fvalid j = s.fvalid j := by
  rw [State.fvalid_setF, if_neg fun hc => h hc.1.symm]

/-- After a list of registers is written, a register outside the list keeps its word. -/
theorem State.word_setFs_outside (s : State) {i j : Nat} {ws : List FWord} (h : j < i ∨ i + ws.length ≤ j) :
    (s.setFs i ws).word j = s.word j := by
  induction ws generalizing s i with
  | nil => rfl
  | cons w ws ih =>
    simp only [List.length_cons] at h
    rw [State.setFs, ih _ (by omega), State.word_setF_other _ _ (by omega)]

theorem State.fvalid_setFs_outside (s : State) {i j : Nat} {ws : List FWord} (h : j < i ∨ i + ws.length ≤ j) :
    (s.setFs i ws).fvalid j = s.fvalid j := by
  induction ws generalizing s i with
  | nil => rfl
  | cons w ws ih =>
    simp only [List.length_cons] at h
    rw [State.setFs, ih _ (by omega), State.fvalid_setF_other _ _ (by omega)]

/-- After a list of registers is written, register `i + k` holds element `k`. -/
theorem State.word_setFs_inside (s : State) {i k : Nat} {ws : List FWord} (hk : k < ws.length)
    (h : i + ws.length ≤ 32) : (s.setFs i ws).word (i + k) = ws[k] := by
  induction ws generalizing s i k with
  | nil => simp at hk
  | cons w ws ih =>
    simp only [List.length_cons] at hk h
    cases k with
    | zero =>
      rw [State.setFs, State.word_setFs_outside _ (by omega), State.word_setF, if_pos ⟨rfl, by omega⟩]
      rfl
    | succ k =>
      rw [State.setFs, show i + (k + 1) = i + 1 + k from by omega, ih _ (by omega) (by omega)]
      rfl

theorem State.fvalid_setFs_inside (s : State) {i k : Nat} {ws : List FWord} (hk : k < ws.length)
    (h : i + ws.length ≤ 32) : (s.setFs i ws).fvalid (i + k) = true := by
  induction ws generalizing s i k with
  | nil => simp at hk
  | cons w ws ih =>
    simp only [List.length_cons] at hk h
    cases k with
    | zero =>
      rw [State.setFs, State.fvalid_setFs_outside _ (by omega), State.fvalid_setF, if_pos ⟨rfl, by omega⟩]
    | succ k =>
      rw [State.setFs, show i + (k + 1) = i + 1 + k from by omega, ih _ (by omega) (by omega)]

/-- Any register of a state after a list write holds its old word or one of the list. -/
theorem State.word_setFs_cases (s : State) (i j : Nat) (ws : List FWord) :
    (s.setFs i ws).word j = s.word j ∨ (s.setFs i ws).word j ∈ ws := by
  induction ws generalizing s i with
  | nil => exact .inl rfl
  | cons w ws ih =>
    rcases ih (s.setF i w) (i + 1) with h | h
    · rw [State.setFs, h, State.word_setF]
      split
      · exact .inr (by simp)
      · exact .inl rfl
    · exact .inr (List.mem_cons_of_mem _ h)

/-- Writing registers makes no register invalid (10_state.md R32). -/
theorem State.fvalid_setFs_mono (s : State) (i j : Nat) (ws : List FWord) (h : s.fvalid j = true) :
    (s.setFs i ws).fvalid j = true := by
  induction ws generalizing s i with
  | nil => exact h
  | cons w ws ih =>
    refine ih (s.setF i w) (i + 1) ?_
    rw [State.fvalid_setF]
    split <;> simp [h]

theorem State.mask_setM (s : State) (j k : MReg) (b : Bool) :
    (s.setM j b).mask k = if j = k then b else s.mask k := by
  simp only [State.mask, State.setM_m, Fin.getElem_fin, Vector.getElem_set, Fin.val_inj]

theorem State.mvalid_setM (s : State) (j k : MReg) (b : Bool) :
    (s.setM j b).mvalid k = if j = k then true else s.mvalid k := by
  simp only [State.mvalid, State.setM_mv, Fin.getElem_fin, Vector.getElem_set, Fin.val_inj]

@[simp] theorem State.mask_setM_self (s : State) (j : MReg) (b : Bool) : (s.setM j b).mask j = b := by
  rw [State.mask_setM, if_pos rfl]

@[simp] theorem State.mvalid_setM_self (s : State) (j : MReg) (b : Bool) : (s.setM j b).mvalid j = true := by
  rw [State.mvalid_setM, if_pos rfl]

/-! ### Accessors that an update does not touch -/

@[simp] theorem State.word_setM (s : State) (j : MReg) (b : Bool) (i : Nat) : (s.setM j b).word i = s.word i := rfl
@[simp] theorem State.fvalid_setM (s : State) (j : MReg) (b : Bool) (i : Nat) :
    (s.setM j b).fvalid i = s.fvalid i := rfl
@[simp] theorem State.val_setM (s : State) (j : MReg) (b : Bool) (f : FieldSel) (i : Nat) :
    (s.setM j b).val f i = s.val f i := rfl
@[simp] theorem State.word_retire (s : State) (i : Nat) : s.retire.word i = s.word i := rfl
@[simp] theorem State.fvalid_retire (s : State) (i : Nat) : s.retire.fvalid i = s.fvalid i := rfl
@[simp] theorem State.val_retire (s : State) (f : FieldSel) (i : Nat) : s.retire.val f i = s.val f i := rfl
@[simp] theorem State.mask_retire (s : State) (j : MReg) : s.retire.mask j = s.mask j := rfl
@[simp] theorem State.mvalid_retire (s : State) (j : MReg) : s.retire.mvalid j = s.mvalid j := rfl
@[simp] theorem State.memRead_retire (s : State) (a n : Nat) : s.retire.memRead a n = s.memRead a n := rfl
@[simp] theorem State.word_memWrite (s : State) (a : Nat) (bs : List Byte) (i : Nat) :
    (s.memWrite a bs).word i = s.word i := rfl
@[simp] theorem State.fvalid_memWrite (s : State) (a : Nat) (bs : List Byte) (i : Nat) :
    (s.memWrite a bs).fvalid i = s.fvalid i := rfl
@[simp] theorem State.mask_memWrite (s : State) (a : Nat) (bs : List Byte) (j : MReg) :
    (s.memWrite a bs).mask j = s.mask j := rfl
@[simp] theorem State.mvalid_memWrite (s : State) (a : Nat) (bs : List Byte) (j : MReg) :
    (s.memWrite a bs).mvalid j = s.mvalid j := rfl
@[simp] theorem State.mask_setF (s : State) (i : Nat) (w : FWord) (j : MReg) : (s.setF i w).mask j = s.mask j := rfl
@[simp] theorem State.mvalid_setF (s : State) (i : Nat) (w : FWord) (j : MReg) :
    (s.setF i w).mvalid j = s.mvalid j := rfl
@[simp] theorem State.memRead_setF (s : State) (i : Nat) (w : FWord) (a n : Nat) :
    (s.setF i w).memRead a n = s.memRead a n := rfl
@[simp] theorem State.mask_setFs (s : State) (i : Nat) (ws : List FWord) (j : MReg) :
    (s.setFs i ws).mask j = s.mask j := by simp [State.mask]
@[simp] theorem State.mvalid_setFs (s : State) (i : Nat) (ws : List FWord) (j : MReg) :
    (s.setFs i ws).mvalid j = s.mvalid j := by simp [State.mvalid]

/-- A state with nothing but registers, masks and their valid bits changed is known by these four. -/
theorem State.setFs_eq (s : State) (i : Nat) (ws : List FWord) :
    s.setFs i ws = { s with f := (s.setFs i ws).f, fv := (s.setFs i ws).fv } := by
  induction ws generalizing s i with
  | nil => rfl
  | cons w ws ih => rw [State.setFs, ih]; rfl

end Sys2Proof.Machine
end

