-- ==== Sys2Proof/Laws/Run.lean ====
section
/-! SUPPORT. The frame every command runs in, once for all of them: which check fails first, that a command with no
failing check completes, and what its completion leaves unchanged. -/

namespace Sys2Proof.Machine

/-! ### Checks -/

/-- No check of a command fails (60_exceptions.md R346, checks 3 to 8). -/
structure Checks.Pass (c : Checks) (s : State) : Prop where
  legal : c.legal = true
  groups : ∀ g ∈ c.groups, g.1 + g.2 ≤ 32
  ranges : ∀ r ∈ c.ranges, r.1 + r.2 ≤ 4096
  expands : ∀ n ∈ c.expands, s.dstlen.toNat ≤ 255 ∧ ellOf n ≤ 255
  valid : ∀ r ∈ c.words, s.fvalid r.1 = true
  masks : ∀ j ∈ c.masks, s.mvalid j = true
  canonical : ∀ r ∈ c.words, ∀ f ∈ r.2, s.word r.1 < s.cfg.modulus f

theorem State.canonical_iff (s : State) (i : Nat) (o : Option FieldSel) :
    s.canonical i o = true ↔ ∀ f ∈ o, s.word i < s.cfg.modulus f := by
  cases o <;> simp [State.canonical]

theorem State.hashLengthBad_iff (s : State) (n : Nat) :
    s.hashLengthBad n = false ↔ s.dstlen.toNat ≤ 255 ∧ ellOf n ≤ 255 := by
  simp [State.hashLengthBad]

theorem Checks.firstError_eq_none (c : Checks) (s : State) : c.firstError s = none ↔ c.Pass s := by
  constructor
  · intro h
    unfold Checks.firstError at h
    split_ifs at h with h1 h2 h3 h4 h5 h6
    simp only [List.any_eq_true, Option.any_eq_true, decide_eq_true_eq, Bool.or_eq_true, Bool.not_eq_eq_eq_not,
      Bool.not_true, Bool.not_eq_false, not_or, not_exists, not_and, not_lt] at h1 h2 h3 h4 h5 h6
    refine ⟨h1, h2, h3, fun n hn => ?_, h5.1, h5.2, fun r hr => ?_⟩
    · exact (State.hashLengthBad_iff s n).1 (by simpa using h4 n hn)
    · exact (State.canonical_iff s r.1 r.2).1 (h6 r hr)
  · rintro ⟨h1, h2, h3, h4, h5, h6, h7⟩
    unfold Checks.firstError
    have g2 : ¬ (c.groups.any (fun g => decide (32 < g.1 + g.2)) = true) := by
      simpa using fun a b hg => h2 (a, b) hg
    have g3 : ¬ (c.ranges.any (fun r => decide (memSize < r.1 + r.2)) = true) := by
      intro h
      obtain ⟨r, hr, hb⟩ := List.any_eq_true.1 h
      have := h3 r hr
      have hb := of_decide_eq_true hb
      unfold memSize at hb
      omega
    have g4 : ¬ (c.expands.any (fun n => s.hashLengthBad n) = true) := by
      intro h
      obtain ⟨n, hn, hb⟩ := Option.any_eq_true _ _ |>.1 h
      rw [(State.hashLengthBad_iff s n).2 (h4 n hn)] at hb
      exact Bool.noConfusion hb
    have g5 : ¬ ((c.words.any (fun r => !s.fvalid r.1) || c.masks.any (fun j => !s.mvalid j)) = true) := by
      intro h
      rcases (Bool.or_eq_true _ _).mp h with h | h <;> obtain ⟨r, hr, hb⟩ := List.any_eq_true.1 h
      · rw [h5 r hr] at hb; exact Bool.noConfusion hb
      · rw [h6 r hr] at hb; exact Bool.noConfusion hb
    have g6 : ¬ (c.words.any (fun r => !s.canonical r.1 r.2) = true) := by
      intro h
      obtain ⟨r, hr, hb⟩ := List.any_eq_true.1 h
      rw [(State.canonical_iff s r.1 r.2).2 (h7 r hr)] at hb
      exact Bool.noConfusion hb
    rw [if_neg (by simp [h1]), if_neg g2, if_neg g3, if_neg g4, if_neg g5, if_neg g6]

/-- No check reports the code 0. -/
theorem Checks.firstError_ne_none_code (c : Checks) (s : State) {e : ErrorCode} (h : c.firstError s = some e) :
    e ≠ .none := by
  unfold Checks.firstError at h
  split_ifs at h <;> (cases h; decide)

/-- A command whose checks pass completes (10_state.md R51). -/
theorem runCommand_pass {c : Checks} {effect : State → State} {s : State} (h : c.Pass s) :
    runCommand c effect s = .next (effect s).retire := by
  rw [runCommand, (Checks.firstError_eq_none c s).2 h]

/-- A command with a failing check makes an error stop (60_exceptions.md R350). -/
theorem runCommand_fail {c : Checks} {effect : State → State} {s : State} {e : ErrorCode}
    (h : c.firstError s = some e) : runCommand c effect s = .next (s.errorStop e s.fetch) := by
  rw [runCommand, h]

/-- Everything a command other than HALT can do. -/
theorem runCommand_cases (c : Checks) (effect : State → State) (s : State) :
    (∃ e, c.firstError s = some e ∧ e ≠ .none ∧ runCommand c effect s = .next (s.errorStop e s.fetch)) ∨
      (c.Pass s ∧ runCommand c effect s = .next (effect s).retire) := by
  cases h : c.firstError s with
  | some e => exact .inl ⟨e, rfl, Checks.firstError_ne_none_code c s h, runCommand_fail h⟩
  | none =>
    have hp := (Checks.firstError_eq_none c s).1 h
    exact .inr ⟨hp, runCommand_pass hp⟩

/-- The state of an error stop is the one that Safety.lean spells out. -/
theorem State.errorStop_eq_stopped (s : State) (e : ErrorCode) (w : Insn) : s.errorStop e w = s.stopped e w := rfl

/-! ### Groups of source registers -/

theorem mem_canonGroup {b n : Nat} {r : Nat × Option FieldSel} :
    r ∈ canonGroup b n ↔ ∃ k < n, r = (b + k, some .p) := by
  induction n generalizing b with
  | zero => simp [canonGroup]
  | succ n ih =>
    rw [canonGroup, List.mem_cons, ih]
    constructor
    · rintro (rfl | ⟨k, hk, rfl⟩)
      · exact ⟨0, by omega, rfl⟩
      · exact ⟨k + 1, by omega, by rw [show b + 1 + k = b + (k + 1) from by omega]⟩
    · rintro ⟨k, hk, rfl⟩
      cases k with
      | zero => exact .inl rfl
      | succ k => exact .inr ⟨k, by omega, by rw [show b + (k + 1) = b + 1 + k from by omega]⟩

theorem State.ReadsGroup.valid {s : State} {b n : Nat} (h : s.ReadsGroup b n) :
    ∀ r ∈ canonGroup b n, s.fvalid r.1 = true := by
  intro r hr
  obtain ⟨k, hk, rfl⟩ := mem_canonGroup.1 hr
  exact (h.2 k hk).1

theorem State.ReadsGroup.canonical {s : State} {b n : Nat} (h : s.ReadsGroup b n) :
    ∀ r ∈ canonGroup b n, ∀ f ∈ r.2, s.word r.1 < s.cfg.modulus f := by
  intro r hr f hf
  obtain ⟨k, hk, rfl⟩ := mem_canonGroup.1 hr
  cases hf
  exact (h.2 k hk).2

/-! ### What a completion leaves unchanged -/

/-- Writing field registers and completing. -/
theorem State.completes_setFs (s : State) {b : Nat} {ws : List FWord} (h : b + ws.length ≤ 32) :
    s.Completes (s.setFs b ws).retire b ws.length [] where
  others := by rw [State.setFs_eq]; rfl
  words i hi := ⟨State.word_setFs_outside s hi, State.fvalid_setFs_outside s hi⟩
  written k hk := State.fvalid_setFs_inside s hk h
  masks j _ := by simp
  writtenMasks j hj := absurd hj (by simp)
  bytes a := by simp

/-- Writing field registers and one mask, and completing. -/
theorem State.completes_setFs_setM (s : State) {b : Nat} {ws : List FWord} (md : MReg) (v : Bool)
    (h : b + ws.length ≤ 32) : s.Completes ((s.setFs b ws).setM md v).retire b ws.length [md] where
  others := by rw [State.setFs_eq]; rfl
  words i hi := ⟨State.word_setFs_outside s hi, State.fvalid_setFs_outside s hi⟩
  written k hk := State.fvalid_setFs_inside s hk h
  masks j hj := by
    have hne : ¬ md = j := fun hc => hj (by simp [hc])
    constructor
    · rw [State.mask_retire, State.mask_setM, if_neg hne, State.mask_setFs]
    · rw [State.mvalid_retire, State.mvalid_setM, if_neg hne, State.mvalid_setFs]
  writtenMasks j hj := by
    rw [List.mem_singleton] at hj
    subst hj
    simp
  bytes a := by simp

/-- Writing one field register and completing. -/
theorem State.completes_setF (s : State) (r : FReg) (w : FWord) :
    s.Completes (s.setF r.val w).retire r.val 1 [] :=
  State.completes_setFs (ws := [w]) s (by have := r.isLt; simp only [List.length_singleton]; omega)

/-- Writing one field register and one mask, and completing. -/
theorem State.completes_setF_setM (s : State) (r : FReg) (w : FWord) (md : MReg) (v : Bool) :
    s.Completes ((s.setF r.val w).setM md v).retire r.val 1 [md] :=
  State.completes_setFs_setM (ws := [w]) s md v (by have := r.isLt; simp only [List.length_singleton]; omega)

/-- Writing one mask and completing. -/
theorem State.completes_setM (s : State) (md : MReg) (v : Bool) :
    s.Completes (s.setM md v).retire 0 0 [md] :=
  State.completes_setFs_setM (ws := []) s md v (by simp)

/-- Storing a byte string and completing. -/
theorem State.completesStore_memWrite (s : State) (a : Nat) (bs : List Byte) :
    s.CompletesStore (s.memWrite a bs).retire a bs.length where
  others := rfl
  bytes b hb := by
    rw [State.retire_mem, State.memWrite_mem]
    exact Memory.read_writeList_outside _ _ hb

end Sys2Proof.Machine
end

