-- ==== Sys2Proof/Laws/Exec.lean ====
section
/-! SUPPORT. Everything a command other than HALT can do, said once: it stops at its first failing check, as the
tables of Safety.lean order them, or it completes having written exactly its destination registers, its destination
mask and the bytes it stores to. -/

namespace Sys2Proof.Machine

/-! ### The checks of a command are the tables of Safety.lean -/

theorem State.operandError_eq {i : Instr} {c : Checks} {s : State}
    (hl : c.legal = (i.wellFormed && i.present s.cfg)) (hg : c.groups = i.groups) (hr : c.ranges = s.rangesOf i)
    (he : c.expands = s.expandsOf i) (hw : c.words = i.sources) (hm : c.masks = i.sourceMasks) :
    s.operandError i = c.firstError s := by
  have hb : ∀ n : Nat, s.hashLengthBad n = true ↔ 255 < s.dstlen.toNat ∨ 255 * 64 < n := by
    intro n
    rw [State.hashLengthBad, Bool.or_eq_true, decide_eq_true_iff, decide_eq_true_iff, ellOf]
    omega
  have hc : ∀ r : Nat × Option FieldSel,
      s.canonical r.1 r.2 = false ↔ ∃ f ∈ r.2, s.cfg.modulus f ≤ s.word r.1 := by
    rintro ⟨r, _ | f⟩ <;> simp [State.canonical]
  unfold Checks.firstError State.operandError
  rw [hl, hg, hr, he, hw, hm]
  simp only [List.any_eq_true, Option.any_eq_true, decide_eq_true_eq, Bool.or_eq_true, Bool.not_eq_true',
    Bool.and_eq_false_iff, hb, hc, Option.mem_def]
  rfl

/-! ### What an effect writes -/

/-- Write a mask, if there is one. -/
def State.setMaskOpt (s : State) (o : Option MReg) (b : Bool) : State :=
  match o with
  | none => s
  | some j => s.setM j b

/-- `t` is `s` with words, a bit and bytes written to the places that the tables of Safety.lean give the command, and
nothing else. -/
structure State.Wrote (s : State) (i : Instr) (ws : List FWord) (b : Bool) (bs : List Byte) (t : State) : Prop where
  eq : t = ((s.setFs i.dest.1 ws).setMaskOpt i.destMask b).memWrite (s.storeOf i).1 bs
  count : ws.length = i.dest.2
  stored : bs.length ≤ (s.storeOf i).2
  small : s.cfg.sized = true → (∀ r, s.word r < s.cfg.radix) → ∀ w ∈ ws, w < s.cfg.radix

theorem State.wrote_none {s : State} {i : Instr} (hd : i.dest = (0, 0)) (hm : i.destMask = none) :
    ∃ ws b bs, s.Wrote i ws b bs s :=
  ⟨[], false, [], by rw [hd, hm]; rfl, by rw [hd]; rfl, by simp, by simp⟩

theorem State.wrote_mask {s : State} {i : Instr} {j : MReg} (v : Bool) (hd : i.dest = (0, 0))
    (hm : i.destMask = some j) : ∃ ws b bs, s.Wrote i ws b bs (s.setM j v) :=
  ⟨[], v, [], by rw [hd, hm]; rfl, by rw [hd]; rfl, by simp, by simp⟩

theorem State.wrote_words {s : State} {i : Instr} {r : Nat} {ws : List FWord} (hd : i.dest = (r, ws.length))
    (hm : i.destMask = none)
    (hw : s.cfg.sized = true → (∀ r, s.word r < s.cfg.radix) → ∀ w ∈ ws, w < s.cfg.radix) :
    ∃ ws' b bs, s.Wrote i ws' b bs (s.setFs r ws) :=
  ⟨ws, false, [], by rw [hd, hm]; rfl, by rw [hd], by simp, hw⟩

theorem State.wrote_words_mask {s : State} {i : Instr} {r : Nat} {ws : List FWord} {j : MReg} (v : Bool)
    (hd : i.dest = (r, ws.length)) (hm : i.destMask = some j)
    (hw : s.cfg.sized = true → (∀ r, s.word r < s.cfg.radix) → ∀ w ∈ ws, w < s.cfg.radix) :
    ∃ ws' b bs, s.Wrote i ws' b bs ((s.setFs r ws).setM j v) :=
  ⟨ws, v, [], by rw [hd, hm]; rfl, by rw [hd], by simp, hw⟩

theorem State.wrote_bytes {s : State} {i : Instr} {a n : Nat} {bs : List Byte} (hd : i.dest = (0, 0))
    (hm : i.destMask = none) (hs : s.storeOf i = (a, n)) (hn : bs.length ≤ n) :
    ∃ ws b bs', s.Wrote i ws b bs' (s.memWrite a bs) :=
  ⟨[], false, bs, by rw [hd, hm, hs]; rfl, by rw [hd]; rfl, by rw [hs]; exact hn, by simp⟩

/-- Values are written as canonical words. -/
theorem State.wrote_vals {s : State} {i : Instr} {f : FieldSel} {r : Nat} {vs : List Nat}
    (hd : i.dest = (r, vs.length)) (hm : i.destMask = none) : ∃ ws b bs, s.Wrote i ws b bs (s.putVals f r vs) := by
  refine State.wrote_words (by simpa using hd) hm fun h _ w hw => ?_
  obtain ⟨v, -, rfl⟩ := List.mem_map.1 hw
  exact mont_lt_radix h f v

theorem State.wrote_vals_mask {s : State} {i : Instr} {f : FieldSel} {r : Nat} {vs : List Nat} {j : MReg} (v : Bool)
    (hd : i.dest = (r, vs.length)) (hm : i.destMask = some j) :
    ∃ ws b bs, s.Wrote i ws b bs ((s.putVals f r vs).setM j v) := by
  refine State.wrote_words_mask v (by simpa using hd) hm fun h _ w hw => ?_
  obtain ⟨v, -, rfl⟩ := List.mem_map.1 hw
  exact mont_lt_radix h f v

theorem State.wrote_val {s : State} {i : Instr} {f : FieldSel} {r v : Nat} (hd : i.dest = (r, 1))
    (hm : i.destMask = none) : ∃ ws b bs, s.Wrote i ws b bs (s.putVal f r v) :=
  State.wrote_vals (vs := [v]) hd hm

theorem State.wrote_val_mask {s : State} {i : Instr} {f : FieldSel} {r v : Nat} {j : MReg} (b : Bool)
    (hd : i.dest = (r, 1)) (hm : i.destMask = some j) :
    ∃ ws b' bs, s.Wrote i ws b' bs ((s.putVal f r v).setM j b) :=
  State.wrote_vals_mask (vs := [v]) b hd hm

theorem State.wrote_word {s : State} {i : Instr} {r w : Nat} (hd : i.dest = (r, 1)) (hm : i.destMask = none)
    (hw : s.cfg.sized = true → (∀ r, s.word r < s.cfg.radix) → w < s.cfg.radix) :
    ∃ ws b bs, s.Wrote i ws b bs (s.setF r w) :=
  State.wrote_words (ws := [w]) hd hm (by simpa using hw)

theorem mod_modulus_lt_radix {c : Config} (h : c.sized = true) (f : FieldSel) (n : Nat) :
    n % c.modulus f < c.radix :=
  (Nat.mod_lt _ (modulus_pos h f)).trans (modulus_bounds h f).2.2

theorem imm_lt_radix {c : Config} (h : c.sized = true) (imm : BitVec 16) : imm.toNat < c.radix := by
  have hn := (nl_bounds h).1
  have hp : 2 ^ 16 ≤ c.radix := Nat.pow_le_pow_right (by omega) (by simp only [Config.width]; omega)
  have := imm.isLt
  omega

theorem os2ip_lt_radix (c : Config) (mem : Memory 8) (a : Nat) : os2ip (mem.readList a c.wordBytes) < c.radix := by
  rw [radix_eq]
  simpa using os2ip_lt (mem.readList a c.wordBytes)

theorem length_wordsFrom (s : State) (r n : Nat) : (s.wordsFrom r n).length = n := by
  induction n generalizing r with
  | zero => rfl
  | succ n ih => simp [State.wordsFrom, ih]

theorem mem_wordsFrom {s : State} {r n w : Nat} (h : w ∈ s.wordsFrom r n) : ∃ k, w = s.word k := by
  induction n generalizing r with
  | zero => simp [State.wordsFrom] at h
  | succ n ih =>
    rw [State.wordsFrom, List.mem_cons] at h
    rcases h with h | h
    · exact ⟨r, h⟩
    · exact ih h

theorem length_hashToField (c : Config) (f : FieldSel) (msg dst : List Byte) (count : Nat) :
    (hashToField c f msg dst count).length = count := by
  have h : ∀ m l k bytes, (fieldChunks m l k bytes).length = k := by
    intro m l k
    induction k with
    | zero => intro _; rfl
    | succ k ih => intro bytes; rw [fieldChunks, List.length_cons, ih]
  exact h _ _ _ _

theorem length_expandMessageXmd_le (hash : List Byte → List Byte) (msg dst : List Byte) (n : Nat) :
    (expandMessageXmd hash msg dst n).length ≤ n := by
  rw [expandMessageXmd]
  exact List.length_take_le _ _

/-! ### One command -/

/-- A command is its checks, those of the tables of Safety.lean, and an effect that writes what those tables say. -/
theorem exec_runCommand (i : Instr) (h : i ≠ .halt) (s : State) :
    ∃ c effect, exec i s = runCommand c effect s ∧ s.operandError i = c.firstError s ∧
      ∃ ws b bs, s.Wrote i ws b bs (effect s) := by
  cases i
  case halt => exact absurd rfl h
  all_goals
    simp only [exec, execNop, execMset, execFadd, execFsub, execFneg, execFmul, execFsqr, execFinv, execFsqrt,
      execFsel, execFisz, execFeq, execFsgn0, execFmov, execMontmul, execMontred, execFldi, execRawi, execRawr2,
      execFld, execFst, execFldw, execFldu64, execRawld, execRawst, execMclr, execMand, execMor, execMxor,
      execMnot, execPwadd, execPwdbl, execPwneg, execPwisid, execPweq, execPwtoaff, execPwsetaff, execPwsmul,
      execPwclr, execPwmap, execPwfrac, execPwh2c, execPwe2c, execPwsel, execPeadd, execPedbl, execPeneg,
      execPeisid, execPeeq, execPetoaff, execPesetaff, execPesmul, execPeclr, execPesel, execH2f, execXmd,
      maskCommand, unaryCommand, binaryCommand, loadReduced, pwUnaryCommand, peUnaryCommand]
    refine ⟨_, _, rfl, State.operandError_eq ?_ ?_ ?_ ?_ ?_ ?_, ?_⟩
    iterate 6 (first | rfl | simp [Instr.wellFormed, Instr.present])
  case nop => exact State.wrote_none rfl rfl
  case mset | mclr | mand | mor | mxor | mnot | fisz | feq | fsgn0 | pwisid | pweq | peisid | peeq =>
    exact State.wrote_mask _ rfl rfl
  case fadd | fsub | fneg | fmul | fsqr | fldi | fldw | fldu64 => exact State.wrote_val rfl rfl
  case pwadd | pwdbl | pwneg | pwsmul | pwclr | pwmap | pwfrac | pwh2c | pwe2c | peadd | pedbl | peneg | pesmul | peclr =>
    exact State.wrote_vals rfl rfl
  case h2f => exact State.wrote_vals (by rw [length_hashToField]; rfl) rfl
  case finv | fsqrt | fld => split <;> exact State.wrote_val_mask _ rfl rfl
  case pwtoaff | pwsetaff | petoaff | pesetaff => split <;> exact State.wrote_vals_mask _ rfl rfl
  case montmul | montred | rawr2 => exact State.wrote_word rfl rfl (fun h _ => mod_modulus_lt_radix h _ _)
  case rawi => exact State.wrote_word rfl rfl (fun h _ => imm_lt_radix h _)
  case rawld => exact State.wrote_word rfl rfl (fun _ _ => os2ip_lt_radix _ _ _)
  case fmov => exact State.wrote_word rfl rfl (fun _ h => h _)
  case fsel => exact State.wrote_word rfl rfl (fun _ h => by split <;> exact h _)
  case fst | rawst => exact State.wrote_bytes rfl rfl rfl (length_i2osp _ _).le
  case xmd => exact State.wrote_bytes rfl rfl rfl (length_expandMessageXmd_le _ _ _ _)
  case pwsel | pesel =>
    refine State.wrote_words (by rw [length_wordsFrom]; rfl) rfl (fun _ h w hw => ?_)
    obtain ⟨k, rfl⟩ := mem_wordsFrom hw
    exact h k

/-- Everything a command other than HALT can do: the stop of its first failing check, or the completion of its
effect. -/
theorem exec_cases (i : Instr) (h : i ≠ .halt) (s : State) :
    (∃ e, s.operandError i = some e ∧ e ≠ .none ∧ exec i s = .next (s.stopped e s.fetch)) ∨
      (s.operandError i = none ∧
        ∃ ws b bs t, s.Wrote i ws b bs t ∧ exec i s = .next t.retire) := by
  obtain ⟨c, effect, he, ho, ws, b, bs, hw⟩ := exec_runCommand i h s
  rcases runCommand_cases c effect s with ⟨e, hf, hne, hr⟩ | ⟨hp, hr⟩
  · exact .inl ⟨e, ho.trans hf, hne, he.trans hr⟩
  · exact .inr ⟨ho.trans ((Checks.firstError_eq_none c s).2 hp), ws, b, bs, _, hw, he.trans hr⟩

end Sys2Proof.Machine
end

