-- ==== Sys2Proof/Laws/PerInstr.lean ====
section
/-! SUPPORT. One statement per constructor of Instr: the opcode field of a command's word is the opcode of its row. -/

namespace Sys2Proof.Laws.Opcode

/-- The word of a command carries the opcode of its row of the opcode map (30_encoding.md R111, R118). -/
def Statement (i : Instr) : Prop := bitsOf (encode i) 26 6 = i.opcode

theorem fbit_lt (f : FieldSel) : fbit f < 2 := by cases f <;> decide

theorem opcode_wordR {op f rd rs1 rs2 md ms mt : Nat} (ho : op < 64) (hf : f < 2) (h1 : rd < 32) (h2 : rs1 < 32)
    (h3 : rs2 < 32) (h4 : md < 8) (h5 : ms < 8) (h6 : mt < 8) :
    bitsOf (wordR op f rd rs1 rs2 md ms mt) 26 6 = op := by
  simp only [bitsOf, wordR, BitVec.toNat_ofNat]
  omega

theorem opcode_wordI {op f rd imm : Nat} (ho : op < 64) (hf : f < 2) (h1 : rd < 32) (h2 : imm < 2 ^ 16) :
    bitsOf (wordI op f rd imm) 26 6 = op := by
  simp only [bitsOf, wordI, BitVec.toNat_ofNat]
  omega

theorem opcode_wordM {op f rd md addr : Nat} (ho : op < 64) (hf : f < 2) (h1 : rd < 32) (h2 : md < 8)
    (h3 : addr < 2 ^ 12) : bitsOf (wordM op f rd md addr) 26 6 = op := by
  simp only [bitsOf, wordM, BitVec.toNat_ofNat]
  omega

theorem halt : Statement .halt :=
  opcode_wordR (by decide) (by decide) (by decide) (by decide) (by decide) (by decide) (by decide) (by decide)

theorem nop : Statement .nop :=
  opcode_wordR (by decide) (by decide) (by decide) (by decide) (by decide) (by decide) (by decide) (by decide)

theorem mset (md : MReg) : Statement (.mset md) :=
  opcode_wordR (by decide) (by decide) (by decide) (by decide) (by decide) md.isLt (by decide) (by decide)

theorem fadd (f : FieldSel) (rd : FReg) (rs1 : FReg) (rs2 : FReg) : Statement (.fadd f rd rs1 rs2) :=
  opcode_wordR (by decide) (fbit_lt f) rd.isLt rs1.isLt rs2.isLt (by decide) (by decide) (by decide)

theorem fsub (f : FieldSel) (rd : FReg) (rs1 : FReg) (rs2 : FReg) : Statement (.fsub f rd rs1 rs2) :=
  opcode_wordR (by decide) (fbit_lt f) rd.isLt rs1.isLt rs2.isLt (by decide) (by decide) (by decide)

theorem fneg (f : FieldSel) (rd : FReg) (rs1 : FReg) : Statement (.fneg f rd rs1) :=
  opcode_wordR (by decide) (fbit_lt f) rd.isLt rs1.isLt (by decide) (by decide) (by decide) (by decide)

theorem fmul (f : FieldSel) (rd : FReg) (rs1 : FReg) (rs2 : FReg) : Statement (.fmul f rd rs1 rs2) :=
  opcode_wordR (by decide) (fbit_lt f) rd.isLt rs1.isLt rs2.isLt (by decide) (by decide) (by decide)

theorem fsqr (f : FieldSel) (rd : FReg) (rs1 : FReg) : Statement (.fsqr f rd rs1) :=
  opcode_wordR (by decide) (fbit_lt f) rd.isLt rs1.isLt (by decide) (by decide) (by decide) (by decide)

theorem finv (f : FieldSel) (rd : FReg) (md : MReg) (rs1 : FReg) : Statement (.finv f rd md rs1) :=
  opcode_wordR (by decide) (fbit_lt f) rd.isLt rs1.isLt (by decide) md.isLt (by decide) (by decide)

theorem fsqrt (f : FieldSel) (rd : FReg) (md : MReg) (rs1 : FReg) : Statement (.fsqrt f rd md rs1) :=
  opcode_wordR (by decide) (fbit_lt f) rd.isLt rs1.isLt (by decide) md.isLt (by decide) (by decide)

theorem fsel (f : FieldSel) (rd : FReg) (rs1 : FReg) (rs2 : FReg) (ms : MReg) : Statement (.fsel f rd rs1 rs2 ms) :=
  opcode_wordR (by decide) (fbit_lt f) rd.isLt rs1.isLt rs2.isLt (by decide) ms.isLt (by decide)

theorem fisz (f : FieldSel) (md : MReg) (rs1 : FReg) : Statement (.fisz f md rs1) :=
  opcode_wordR (by decide) (fbit_lt f) (by decide) rs1.isLt (by decide) md.isLt (by decide) (by decide)

theorem feq (f : FieldSel) (md : MReg) (rs1 : FReg) (rs2 : FReg) : Statement (.feq f md rs1 rs2) :=
  opcode_wordR (by decide) (fbit_lt f) (by decide) rs1.isLt rs2.isLt md.isLt (by decide) (by decide)

theorem fsgn0 (f : FieldSel) (md : MReg) (rs1 : FReg) : Statement (.fsgn0 f md rs1) :=
  opcode_wordR (by decide) (fbit_lt f) (by decide) rs1.isLt (by decide) md.isLt (by decide) (by decide)

theorem fmov (rd : FReg) (rs1 : FReg) : Statement (.fmov rd rs1) :=
  opcode_wordR (by decide) (by decide) rd.isLt rs1.isLt (by decide) (by decide) (by decide) (by decide)

theorem montmul (f : FieldSel) (rd : FReg) (rs1 : FReg) (rs2 : FReg) : Statement (.montmul f rd rs1 rs2) :=
  opcode_wordR (by decide) (fbit_lt f) rd.isLt rs1.isLt rs2.isLt (by decide) (by decide) (by decide)

theorem montred (f : FieldSel) (rd : FReg) (rs1 : FReg) (rs2 : FReg) : Statement (.montred f rd rs1 rs2) :=
  opcode_wordR (by decide) (fbit_lt f) rd.isLt rs1.isLt rs2.isLt (by decide) (by decide) (by decide)

theorem fldi (f : FieldSel) (rd : FReg) (imm : BitVec 16) : Statement (.fldi f rd imm) :=
  opcode_wordI (by decide) (fbit_lt f) rd.isLt imm.isLt

theorem rawi (rd : FReg) (imm : BitVec 16) : Statement (.rawi rd imm) :=
  opcode_wordI (by decide) (by decide) rd.isLt imm.isLt

theorem rawr2 (f : FieldSel) (rd : FReg) : Statement (.rawr2 f rd) :=
  opcode_wordR (by decide) (fbit_lt f) rd.isLt (by decide) (by decide) (by decide) (by decide) (by decide)

theorem fld (f : FieldSel) (rd : FReg) (md : MReg) (addr : BitVec 12) : Statement (.fld f rd md addr) :=
  opcode_wordM (by decide) (fbit_lt f) rd.isLt md.isLt addr.isLt

theorem fst (f : FieldSel) (rd : FReg) (addr : BitVec 12) : Statement (.fst f rd addr) :=
  opcode_wordM (by decide) (fbit_lt f) rd.isLt (by decide) addr.isLt

theorem fldw (f : FieldSel) (rd : FReg) (addr : BitVec 12) : Statement (.fldw f rd addr) :=
  opcode_wordM (by decide) (fbit_lt f) rd.isLt (by decide) addr.isLt

theorem fldu64 (f : FieldSel) (rd : FReg) (addr : BitVec 12) : Statement (.fldu64 f rd addr) :=
  opcode_wordM (by decide) (fbit_lt f) rd.isLt (by decide) addr.isLt

theorem rawld (rd : FReg) (addr : BitVec 12) : Statement (.rawld rd addr) :=
  opcode_wordM (by decide) (by decide) rd.isLt (by decide) addr.isLt

theorem rawst (rd : FReg) (addr : BitVec 12) : Statement (.rawst rd addr) :=
  opcode_wordM (by decide) (by decide) rd.isLt (by decide) addr.isLt

theorem mclr (md : MReg) : Statement (.mclr md) :=
  opcode_wordR (by decide) (by decide) (by decide) (by decide) (by decide) md.isLt (by decide) (by decide)

theorem mand (md : MReg) (ms : MReg) (mt : MReg) : Statement (.mand md ms mt) :=
  opcode_wordR (by decide) (by decide) (by decide) (by decide) (by decide) md.isLt ms.isLt mt.isLt

theorem mor (md : MReg) (ms : MReg) (mt : MReg) : Statement (.mor md ms mt) :=
  opcode_wordR (by decide) (by decide) (by decide) (by decide) (by decide) md.isLt ms.isLt mt.isLt

theorem mxor (md : MReg) (ms : MReg) (mt : MReg) : Statement (.mxor md ms mt) :=
  opcode_wordR (by decide) (by decide) (by decide) (by decide) (by decide) md.isLt ms.isLt mt.isLt

theorem mnot (md : MReg) (ms : MReg) : Statement (.mnot md ms) :=
  opcode_wordR (by decide) (by decide) (by decide) (by decide) (by decide) md.isLt ms.isLt (by decide)

theorem pwadd (rd : FReg) (rs1 : FReg) (rs2 : FReg) : Statement (.pwadd rd rs1 rs2) :=
  opcode_wordR (by decide) (by decide) rd.isLt rs1.isLt rs2.isLt (by decide) (by decide) (by decide)

theorem pwdbl (rd : FReg) (rs1 : FReg) : Statement (.pwdbl rd rs1) :=
  opcode_wordR (by decide) (by decide) rd.isLt rs1.isLt (by decide) (by decide) (by decide) (by decide)

theorem pwneg (rd : FReg) (rs1 : FReg) : Statement (.pwneg rd rs1) :=
  opcode_wordR (by decide) (by decide) rd.isLt rs1.isLt (by decide) (by decide) (by decide) (by decide)

theorem pwisid (md : MReg) (rs1 : FReg) : Statement (.pwisid md rs1) :=
  opcode_wordR (by decide) (by decide) (by decide) rs1.isLt (by decide) md.isLt (by decide) (by decide)

theorem pweq (md : MReg) (rs1 : FReg) (rs2 : FReg) : Statement (.pweq md rs1 rs2) :=
  opcode_wordR (by decide) (by decide) (by decide) rs1.isLt rs2.isLt md.isLt (by decide) (by decide)

theorem pwtoaff (rd : FReg) (md : MReg) (rs1 : FReg) : Statement (.pwtoaff rd md rs1) :=
  opcode_wordR (by decide) (by decide) rd.isLt rs1.isLt (by decide) md.isLt (by decide) (by decide)

theorem pwsetaff (rd : FReg) (md : MReg) (rs1 : FReg) : Statement (.pwsetaff rd md rs1) :=
  opcode_wordR (by decide) (by decide) rd.isLt rs1.isLt (by decide) md.isLt (by decide) (by decide)

theorem pwsmul (f : FieldSel) (rd : FReg) (rs1 : FReg) (rs2 : FReg) : Statement (.pwsmul f rd rs1 rs2) :=
  opcode_wordR (by decide) (fbit_lt f) rd.isLt rs1.isLt rs2.isLt (by decide) (by decide) (by decide)

theorem pwclr (rd : FReg) (rs1 : FReg) : Statement (.pwclr rd rs1) :=
  opcode_wordR (by decide) (by decide) rd.isLt rs1.isLt (by decide) (by decide) (by decide) (by decide)

theorem pwmap (rd : FReg) (rs1 : FReg) : Statement (.pwmap rd rs1) :=
  opcode_wordR (by decide) (by decide) rd.isLt rs1.isLt (by decide) (by decide) (by decide) (by decide)

theorem pwfrac (rd : FReg) (rs1 : FReg) : Statement (.pwfrac rd rs1) :=
  opcode_wordR (by decide) (by decide) rd.isLt rs1.isLt (by decide) (by decide) (by decide) (by decide)

theorem pwh2c (rd : FReg) : Statement (.pwh2c rd) :=
  opcode_wordR (by decide) (by decide) rd.isLt (by decide) (by decide) (by decide) (by decide) (by decide)

theorem pwe2c (rd : FReg) : Statement (.pwe2c rd) :=
  opcode_wordR (by decide) (by decide) rd.isLt (by decide) (by decide) (by decide) (by decide) (by decide)

theorem pwsel (rd : FReg) (rs1 : FReg) (rs2 : FReg) (ms : MReg) : Statement (.pwsel rd rs1 rs2 ms) :=
  opcode_wordR (by decide) (by decide) rd.isLt rs1.isLt rs2.isLt (by decide) ms.isLt (by decide)

theorem peadd (rd : FReg) (rs1 : FReg) (rs2 : FReg) : Statement (.peadd rd rs1 rs2) :=
  opcode_wordR (by decide) (by decide) rd.isLt rs1.isLt rs2.isLt (by decide) (by decide) (by decide)

theorem pedbl (rd : FReg) (rs1 : FReg) : Statement (.pedbl rd rs1) :=
  opcode_wordR (by decide) (by decide) rd.isLt rs1.isLt (by decide) (by decide) (by decide) (by decide)

theorem peneg (rd : FReg) (rs1 : FReg) : Statement (.peneg rd rs1) :=
  opcode_wordR (by decide) (by decide) rd.isLt rs1.isLt (by decide) (by decide) (by decide) (by decide)

theorem peisid (md : MReg) (rs1 : FReg) : Statement (.peisid md rs1) :=
  opcode_wordR (by decide) (by decide) (by decide) rs1.isLt (by decide) md.isLt (by decide) (by decide)

theorem peeq (md : MReg) (rs1 : FReg) (rs2 : FReg) : Statement (.peeq md rs1 rs2) :=
  opcode_wordR (by decide) (by decide) (by decide) rs1.isLt rs2.isLt md.isLt (by decide) (by decide)

theorem petoaff (rd : FReg) (md : MReg) (rs1 : FReg) : Statement (.petoaff rd md rs1) :=
  opcode_wordR (by decide) (by decide) rd.isLt rs1.isLt (by decide) md.isLt (by decide) (by decide)

theorem pesetaff (rd : FReg) (md : MReg) (rs1 : FReg) : Statement (.pesetaff rd md rs1) :=
  opcode_wordR (by decide) (by decide) rd.isLt rs1.isLt (by decide) md.isLt (by decide) (by decide)

theorem pesmul (f : FieldSel) (rd : FReg) (rs1 : FReg) (rs2 : FReg) : Statement (.pesmul f rd rs1 rs2) :=
  opcode_wordR (by decide) (fbit_lt f) rd.isLt rs1.isLt rs2.isLt (by decide) (by decide) (by decide)

theorem peclr (rd : FReg) (rs1 : FReg) : Statement (.peclr rd rs1) :=
  opcode_wordR (by decide) (by decide) rd.isLt rs1.isLt (by decide) (by decide) (by decide) (by decide)

theorem pesel (rd : FReg) (rs1 : FReg) (rs2 : FReg) (ms : MReg) : Statement (.pesel rd rs1 rs2 ms) :=
  opcode_wordR (by decide) (by decide) rd.isLt rs1.isLt rs2.isLt (by decide) ms.isLt (by decide)

theorem h2f (f : FieldSel) (rd : FReg) (count : BitVec 16) : Statement (.h2f f rd count) :=
  opcode_wordI (by decide) (fbit_lt f) rd.isLt count.isLt

theorem xmd (addr : BitVec 12) : Statement (.xmd addr) :=
  opcode_wordM (by decide) (by decide) (by decide) (by decide) addr.isLt

end Sys2Proof.Laws.Opcode
end

