-- ==== Sys2Proof/Laws/Points.lean ====
section
/-! SUPPORT. The step lists of the point formulas as polynomials over `ZMod P`, and the bit loops of the scalar
commands as folds. -/

namespace Sys2Proof.Machine

section Weierstrass

variable (c : Config) (p q : PointW) (h : 0 < c.p)
include h

theorem pwAdd_lt : (pwAdd c p q).x < c.p ∧ (pwAdd c p q).y < c.p ∧ (pwAdd c p q).z < c.p :=
  ⟨Nat.mod_lt _ h, Nat.mod_lt _ h, Nat.mod_lt _ h⟩

theorem pwDbl_lt : (pwDbl c p).x < c.p ∧ (pwDbl c p).y < c.p ∧ (pwDbl c p).z < c.p :=
  ⟨Nat.mod_lt _ h, Nat.mod_lt _ h, Nat.mod_lt _ h⟩

theorem cast_pwAdd_x : ((pwAdd c p q).x : ZMod c.p) =
    (p.x * q.y + q.x * p.y) * (p.y * q.y - c.cwA * (p.x * q.z + q.x * p.z) - 3 * c.cwB * p.z * q.z)
      - (p.y * q.z + q.y * p.z) *
        (c.cwA * p.x * q.x + 3 * c.cwB * (p.x * q.z + q.x * p.z) - c.cwA ^ 2 * p.z * q.z) := by
  simp only [pwAdd, cast_addMod, cast_subMod _ _ _ h, cast_mulMod, ZMod.natCast_mod, Nat.cast_mul, Nat.cast_ofNat]
  ring

theorem cast_pwAdd_y : ((pwAdd c p q).y : ZMod c.p) =
    (3 * p.x * q.x + c.cwA * p.z * q.z) *
        (c.cwA * p.x * q.x + 3 * c.cwB * (p.x * q.z + q.x * p.z) - c.cwA ^ 2 * p.z * q.z)
      + (p.y * q.y + c.cwA * (p.x * q.z + q.x * p.z) + 3 * c.cwB * p.z * q.z)
        * (p.y * q.y - c.cwA * (p.x * q.z + q.x * p.z) - 3 * c.cwB * p.z * q.z) := by
  simp only [pwAdd, cast_addMod, cast_subMod _ _ _ h, cast_mulMod, ZMod.natCast_mod, Nat.cast_mul, Nat.cast_ofNat]
  ring

theorem cast_pwAdd_z : ((pwAdd c p q).z : ZMod c.p) =
    (p.y * q.z + q.y * p.z) * (p.y * q.y + c.cwA * (p.x * q.z + q.x * p.z) + 3 * c.cwB * p.z * q.z)
      + (p.x * q.y + q.x * p.y) * (3 * p.x * q.x + c.cwA * p.z * q.z) := by
  simp only [pwAdd, cast_addMod, cast_subMod _ _ _ h, cast_mulMod, ZMod.natCast_mod, Nat.cast_mul, Nat.cast_ofNat]
  ring

theorem cast_pwDbl_x : ((pwDbl c p).x : ZMod c.p) =
    2 * p.x * p.y * (p.y ^ 2 - 2 * c.cwA * p.x * p.z - 3 * c.cwB * p.z ^ 2)
      - 2 * p.y * p.z * (c.cwA * p.x ^ 2 + 6 * c.cwB * p.x * p.z - c.cwA ^ 2 * p.z ^ 2) := by
  simp only [pwDbl, cast_addMod, cast_subMod _ _ _ h, cast_mulMod, ZMod.natCast_mod, Nat.cast_mul, Nat.cast_ofNat]
  ring

theorem cast_pwDbl_y : ((pwDbl c p).y : ZMod c.p) =
    (p.y ^ 2 + 2 * c.cwA * p.x * p.z + 3 * c.cwB * p.z ^ 2) *
        (p.y ^ 2 - 2 * c.cwA * p.x * p.z - 3 * c.cwB * p.z ^ 2)
      + (3 * p.x ^ 2 + c.cwA * p.z ^ 2) *
        (c.cwA * p.x ^ 2 + 6 * c.cwB * p.x * p.z - c.cwA ^ 2 * p.z ^ 2) := by
  simp only [pwDbl, cast_addMod, cast_subMod _ _ _ h, cast_mulMod, ZMod.natCast_mod, Nat.cast_mul, Nat.cast_ofNat]
  ring

omit h in
theorem cast_pwDbl_z : ((pwDbl c p).z : ZMod c.p) = 8 * p.y ^ 3 * p.z := by
  simp only [pwDbl, cast_addMod, cast_mulMod]
  ring

end Weierstrass

section Edwards

variable (c : Config) (p q : PointE) (h : 0 < c.p)
include h

theorem peAdd_lt : (peAdd c p q).x < c.p ∧ (peAdd c p q).y < c.p ∧ (peAdd c p q).z < c.p ∧ (peAdd c p q).t < c.p :=
  ⟨Nat.mod_lt _ h, Nat.mod_lt _ h, Nat.mod_lt _ h, Nat.mod_lt _ h⟩

theorem peDbl_lt : (peDbl c p).x < c.p ∧ (peDbl c p).y < c.p ∧ (peDbl c p).z < c.p ∧ (peDbl c p).t < c.p :=
  ⟨Nat.mod_lt _ h, Nat.mod_lt _ h, Nat.mod_lt _ h, Nat.mod_lt _ h⟩

theorem cast_peAdd_x : ((peAdd c p q).x : ZMod c.p) =
    (p.x * q.y + p.y * q.x) * (p.z * q.z - c.ceD * p.t * q.t) := by
  simp only [peAdd, cast_addMod, cast_subMod _ _ _ h, cast_mulMod]
  ring

theorem cast_peAdd_y : ((peAdd c p q).y : ZMod c.p) =
    (p.z * q.z + c.ceD * p.t * q.t) * (p.y * q.y - c.ceA * p.x * q.x) := by
  simp only [peAdd, cast_addMod, cast_subMod _ _ _ h, cast_mulMod]
  ring

theorem cast_peAdd_z : ((peAdd c p q).z : ZMod c.p) =
    (p.z * q.z - c.ceD * p.t * q.t) * (p.z * q.z + c.ceD * p.t * q.t) := by
  simp only [peAdd, cast_addMod, cast_subMod _ _ _ h, cast_mulMod]
  ring

theorem cast_peAdd_t : ((peAdd c p q).t : ZMod c.p) =
    (p.x * q.y + p.y * q.x) * (p.y * q.y - c.ceA * p.x * q.x) := by
  simp only [peAdd, cast_addMod, cast_subMod _ _ _ h, cast_mulMod]
  ring

theorem cast_peDbl_x : ((peDbl c p).x : ZMod c.p) =
    2 * p.x * p.y * (c.ceA * p.x ^ 2 + p.y ^ 2 - 2 * p.z ^ 2) := by
  simp only [peDbl, cast_addMod, cast_subMod _ _ _ h, cast_mulMod, Nat.cast_ofNat]
  ring

theorem cast_peDbl_y : ((peDbl c p).y : ZMod c.p) =
    (c.ceA * p.x ^ 2 + p.y ^ 2) * (c.ceA * p.x ^ 2 - p.y ^ 2) := by
  simp only [peDbl, cast_addMod, cast_subMod _ _ _ h, cast_mulMod]
  ring

theorem cast_peDbl_z : ((peDbl c p).z : ZMod c.p) =
    (c.ceA * p.x ^ 2 + p.y ^ 2 - 2 * p.z ^ 2) * (c.ceA * p.x ^ 2 + p.y ^ 2) := by
  simp only [peDbl, cast_addMod, cast_subMod _ _ _ h, cast_mulMod, Nat.cast_ofNat]
  ring

theorem cast_peDbl_t : ((peDbl c p).t : ZMod c.p) =
    2 * p.x * p.y * (c.ceA * p.x ^ 2 - p.y ^ 2) := by
  simp only [peDbl, cast_addMod, cast_subMod _ _ _ h, cast_mulMod]
  ring

end Edwards

section Loops

variable {α : Type} (add : α → α → α) (dbl : α → α) (pt : α)

theorem ladder_eq_foldl (k n : Nat) (r : α) : ladder add dbl pt k n r =
    (List.range n).reverse.foldl (fun r i => if k.testBit i then add (dbl r) pt else dbl r) r := by
  induction n generalizing r with
  | zero => rfl
  | succ n ih => rw [ladder, ih, List.range_succ, List.reverse_append]; rfl

theorem doubleAndAdd_eq_foldl (k n : Nat) (r : α) : doubleAndAdd add dbl pt k n r =
    (List.range n).reverse.foldl (fun r i => if k.testBit i then add (dbl r) pt else dbl r) r := by
  induction n generalizing r with
  | zero => rfl
  | succ n ih => rw [doubleAndAdd, ih, List.range_succ, List.reverse_append]; rfl

end Loops

end Sys2Proof.Machine
end

