-- ==== Sys2Proof/Laws/Roots.lean ====
section
/-! SUPPORT. The square test and the square root of Machine/Field.lean modulo an odd prime. -/

namespace Sys2Proof.Machine

theorem twoPart_spec (k n : Nat) (hn : 0 < n) (hk : n < 2 ^ k) :
    ∃ t, t % 2 = 1 ∧ n = t * 2 ^ twoPart k n := by
  induction k generalizing n with
  | zero => simp at hk; omega
  | succ k ih =>
    rw [twoPart]
    split
    · rename_i h
      exact ⟨n, h, by simp⟩
    · obtain ⟨t, ht, he⟩ := ih (n / 2) (by omega) (by omega)
      refine ⟨t, ht, ?_⟩
      rw [pow_succ, ← mul_assoc, ← he]
      omega

theorem rootLoop_zero (j g b : Nat) : rootLoop m j g 0 b = 0 := by
  induction j generalizing g b with
  | zero => rfl
  | succ j ih => rw [rootLoop, ih, zero_mul, Nat.zero_mod, ih, ite_self]

theorem sqrtMod_lt {m : Nat} (h2 : 2 < m) (a : Nat) : sqrtMod m a < m := by
  have hm : 0 < m := by omega
  have : ∀ j g r b, r < m → rootLoop m j g r b < m := by
    intro j
    induction j with
    | zero => intro g r b h; exact h
    | succ j ih =>
      intro g r b h
      rw [rootLoop]
      split
      · exact ih _ _ _ h
      · exact ih _ _ _ (Nat.mod_lt _ hm)
  exact this _ _ _ _ (powMod_lt m a _ hm)

section Prime

variable {m : Nat} [hp : Fact m.Prime]

theorem powMod_eq_iff (h2 : 2 < m) (a e : Nat) {c : Nat} (hc : c < m) :
    powMod m a e = c ↔ (a : ZMod m) ^ e = c := by
  have hm : 0 < m := by omega
  rw [← cast_powMod]
  exact ⟨fun h => by rw [h], eq_of_cast_eq (powMod_lt m a e hm) hc⟩

theorem nonSquareFrom_spec (h2 : 2 < m) (k z : Nat) (h : ∃ w, z ≤ w ∧ w < z + k ∧ (w : ZMod m) ^ ((m - 1) / 2) = -1) :
    ((nonSquareFrom m k z : Nat) : ZMod m) ^ ((m - 1) / 2) = -1 := by
  have hneg : ((m - 1 : Nat) : ZMod m) = -1 := by
    rw [Nat.cast_sub (by omega)]
    simp
  induction k generalizing z with
  | zero => obtain ⟨w, h1, h3, -⟩ := h; omega
  | succ k ih =>
    rw [nonSquareFrom]
    split
    · rename_i hz
      rw [powMod_eq_iff h2 _ _ (by omega), hneg] at hz
      exact hz
    · rename_i hz
      rw [powMod_eq_iff h2 _ _ (by omega), hneg] at hz
      obtain ⟨w, h1, h3, hw⟩ := h
      refine ih _ ⟨w, ?_, by omega, hw⟩
      rcases Nat.lt_or_ge z w with h | h
      · exact h
      · exact absurd hw (by rwa [show w = z from by omega])

theorem exists_nonSquare (h2 : 2 < m) : ∃ w : Nat, 2 ≤ w ∧ w < 2 + m ∧ (w : ZMod m) ^ ((m - 1) / 2) = -1 := by
  have hodd : m % 2 = 1 := by
    rcases hp.out.eq_two_or_odd with h | h <;> omega
  obtain ⟨a, ha⟩ := FiniteField.exists_nonsquare (F := ZMod m) (by rw [ZMod.ringChar_zmod_n]; omega)
  have ha0 : a ≠ 0 := by rintro rfl; exact ha ⟨0, by simp⟩
  refine ⟨a.val, ?_, ?_, ?_⟩
  · by_contra hlt
    have : a.val = 0 ∨ a.val = 1 := by omega
    rcases this with h | h
    · exact ha0 ((ZMod.val_eq_zero a).1 h)
    · refine ha ⟨1, ?_⟩
      have := ZMod.natCast_zmod_val a
      rw [h] at this
      rw [← this]; simp
  · have := ZMod.val_lt a
    omega
  · rw [ZMod.natCast_zmod_val, show (m - 1) / 2 = m / 2 from by omega]
    rcases ZMod.pow_div_two_eq_neg_one_or_one m ha0 with h | h
    · exact absurd ((ZMod.euler_criterion m ha0).2 h) ha
    · exact h

theorem rootLoop_spec (h2 : 2 < m) (a j g r b : Nat) (hr : (r : ZMod m) ^ 2 = a * b)
    (hb : (b : ZMod m) ^ 2 ^ j = 1) (hg : (g : ZMod m) ^ 2 ^ j = -1) :
    ((rootLoop m j g r b : Nat) : ZMod m) ^ 2 = a := by
  induction j generalizing g r b with
  | zero =>
    rw [rootLoop, hr]
    simp only [pow_zero, pow_one] at hb
    rw [hb, mul_one]
  | succ j ih =>
    have hg' : (((g * g % m : Nat)) : ZMod m) ^ 2 ^ j = -1 := by
      rw [ZMod.natCast_mod, Nat.cast_mul, ← pow_two, ← pow_mul, ← pow_succ', hg]
    rw [rootLoop]
    split
    · rename_i h
      rw [powMod_eq_iff h2 _ _ (by omega)] at h
      exact ih _ _ _ hr (by simpa using h) hg'
    · rename_i h
      rw [powMod_eq_iff h2 _ _ (by omega)] at h
      have hb2 : (b : ZMod m) ^ 2 ^ j * (b : ZMod m) ^ 2 ^ j = 1 := by rw [← pow_two, ← pow_mul, ← pow_succ, hb]
      have hbm : (b : ZMod m) ^ 2 ^ j = -1 := by
        rcases mul_self_eq_one_iff.1 hb2 with h' | h'
        · exact absurd (by simpa using h') h
        · exact h'
      refine ih _ _ _ ?_ ?_ hg'
      · simp only [ZMod.natCast_mod, Nat.cast_mul]
        rw [mul_pow, hr]; ring
      · rw [ZMod.natCast_mod, Nat.cast_mul, mul_pow, hbm, hg']; ring

/-- `is_square_m` says what it is named for (00_scope.md R19). -/
theorem isSquareMod_iff (h2 : 2 < m) (a : Nat) : isSquareMod m a = true ↔ IsSquare (a : ZMod m) := by
  have hodd : m % 2 = 1 := by
    rcases hp.out.eq_two_or_odd with h | h <;> omega
  rw [isSquareMod, Bool.or_eq_true, beq_iff_eq, beq_iff_eq, powMod_eq_iff h2 _ _ (by omega), Nat.cast_one,
    show (m - 1) / 2 = m / 2 from by omega, ← Nat.dvd_iff_mod_eq_zero, ← ZMod.natCast_eq_zero_iff]
  by_cases ha : (a : ZMod m) = 0
  · simp [ha]
  · rw [ZMod.euler_criterion m ha]
    simp [ha]

/-- `sqrtMod` of a square is a root (41_field.md R177). -/
theorem sqrtMod_spec (h2 : 2 < m) (a : Nat) (ha : isSquareMod m a = true) :
    ((sqrtMod m a : Nat) : ZMod m) ^ 2 = a := by
  have hodd : m % 2 = 1 := by
    rcases hp.out.eq_two_or_odd with h | h <;> omega
  rw [isSquareMod_iff h2] at ha
  obtain ⟨t, ht, he⟩ := twoPart_spec (m - 1) (m - 1) (by omega) Nat.lt_two_pow_self
  have hs : 1 ≤ twoPart (m - 1) (m - 1) := by
    by_contra h
    rw [show twoPart (m - 1) (m - 1) = 0 from by omega, pow_zero, mul_one] at he
    omega
  unfold sqrtMod
  generalize twoPart (m - 1) (m - 1) = s at he hs
  dsimp only
  have hdiv : (m - 1) / 2 ^ s = t := by rw [he]; exact Nat.mul_div_cancel _ (by positivity)
  rw [hdiv]
  obtain ⟨s, rfl⟩ : ∃ s', s = s' + 1 := ⟨s - 1, by omega⟩
  have hhalf : (m - 1) / 2 = t * 2 ^ s := by rw [he, pow_succ, ← mul_assoc]; simp
  by_cases h0 : (a : ZMod m) = 0
  · have hz : powMod m a ((t + 1) / 2) = 0 := by
      rw [powMod_eq_iff h2 _ _ (by omega), h0, zero_pow (by omega)]
      simp
    rw [hz, rootLoop_zero, h0]
    simp
  · refine rootLoop_spec h2 a _ _ _ _ ?_ ?_ ?_
    · rw [cast_powMod, cast_powMod, ← pow_mul, ← pow_succ']
      congr 1
      omega
    · rw [cast_powMod, ← pow_mul, Nat.add_sub_cancel, ← hhalf, show (m - 1) / 2 = m / 2 from by omega]
      exact (ZMod.euler_criterion m h0).1 ha
    · rw [cast_powMod, ← pow_mul, Nat.add_sub_cancel, ← hhalf]
      exact nonSquareFrom_spec h2 _ _ (exists_nonSquare h2)

end Prime
end Sys2Proof.Machine
end

