-- ==== Sys2Proof/Laws/Step.lean ====
section
/-! SUPPORT. Everything one turn of the sequencer can do, said once: an error stop at the first failing check, a
completed HALT, or the completion of another command; runs as repeated steps; and what two states that differ in
secrets only do. -/

namespace Sys2Proof.Machine

/-- What a command writes changes nothing but registers, masks and MEM. -/
theorem State.Wrote.frame {s t : State} {i : Instr} {ws : List FWord} {b : Bool} {bs : List Byte}
    (h : s.Wrote i ws b bs t) : t = { s with f := t.f, fv := t.fv, m := t.m, mv := t.mv, mem := t.mem } := by
  rw [h.eq, State.setFs_eq]
  unfold State.setMaskOpt
  split <;> rfl

/-- Every command answers a next state. -/
theorem exec_total (i : Instr) (s : State) : ∃ t, exec i s = .next t := by
  by_cases hi : i = .halt
  · subst hi
    exact ⟨_, rfl⟩
  · rcases exec_cases i hi s with ⟨e, _, _, h⟩ | ⟨_, ws, b, bs, u, _, h⟩ <;> exact ⟨_, h⟩

theorem sequencerStep_total (s : State) : ∃ t, s.sequencerStep = .next t := by
  unfold State.sequencerStep
  split
  · exact ⟨_, rfl⟩
  · split_ifs
    · exact ⟨_, rfl⟩
    · exact ⟨_, rfl⟩
    · split
      · exact ⟨_, rfl⟩
      · exact exec_total _ _

/-- Every step answers a next state: there is no stuck state and no refusal. -/
theorem step_total (s : State) : ∃ t, step s = .next t := by
  unfold step
  split
  · exact sequencerStep_total _
  · exact sequencerStep_total _
  · exact ⟨_, rfl⟩
  · exact ⟨_, rfl⟩

/-- The three things a turn of the sequencer can do in RUN. -/
theorem sequencerStep_cases {s t : State} (hr : s.run = .run) (h : s.sequencerStep = .next t) :
    (∃ e w, s.firstFailure = some (e, w) ∧ e ≠ .none ∧ t = s.stopped e w) ∨
    (s.firstFailure = none ∧ s.abortReq = false ∧ s.pc.toNat < 256 ∧ decode s.fetch = .ok .halt ∧
      t = s.haltStop) ∨
    (s.firstFailure = none ∧ s.abortReq = false ∧ s.pc.toNat < 256 ∧
      ∃ i, i ≠ .halt ∧ decode s.fetch = .ok i ∧ s.operandError i = none ∧ exec i s = .next t ∧
        ∃ ws b bs u, s.Wrote i ws b bs u ∧ t = u.retire) := by
  unfold State.sequencerStep at h
  rw [hr] at h
  dsimp only at h
  unfold State.firstFailure
  cases ha : s.abortReq
  · rw [ha] at h
    by_cases hp : 256 ≤ s.pc.toNat
    · rw [if_pos hp] at h ⊢
      cases h
      exact .inl ⟨_, _, rfl, by decide, rfl⟩
    · rw [if_neg hp] at h ⊢
      cases hd : decode s.fetch with
      | error e =>
        rw [hd] at h
        cases h
        exact .inl ⟨_, _, rfl, by decide, rfl⟩
      | ok i =>
        rw [hd] at h
        change exec i s = .next t at h
        by_cases hi : i = .halt
        · subst hi
          cases h
          exact .inr (.inl ⟨rfl, rfl, by omega, rfl, rfl⟩)
        · rcases exec_cases i hi s with ⟨e, ho, hne, h'⟩ | ⟨ho, ws, b, bs, u, hw, h'⟩
          · rw [h'] at h
            cases h
            exact .inl ⟨e, s.fetch, by dsimp only; rw [ho]; rfl, hne, rfl⟩
          · refine .inr (.inr ⟨by dsimp only; rw [ho]; rfl, rfl, by omega, i, hi, rfl, ho, h, ws, b, bs, u, hw, ?_⟩)
            rw [h'] at h
            cases h
            rfl
  · rw [ha] at h
    cases h
    exact .inl ⟨_, _, rfl, by decide, rfl⟩

/-! ### Runs -/

/-- On the sequencer's turn with nothing pending. -/
theorem step_of_no_turns {s : State} (h : s.turns = []) : step s = s.sequencerStep := by
  simp only [step, h]

/-- A run of one step more, by its first step. -/
theorem run_succ_of_step {s t : State} (k : Nat) (h : step s = .next t) :
    Host.Core.run Sys2Proof.core (k + 1) s = Host.Core.run Sys2Proof.core k t := by
  have general : ∀ (M : Host.Core) (a b : M.State), M.step a = .next b → M.run (k + 1) a = M.run k b := by
    intro M a b hab
    simp only [Host.Core.run, hab]
  exact general Sys2Proof.core s t h

/-- A run of one step more, by its last step. -/
theorem run_succ_last {s t : State} {k : Nat} (h : Host.Core.run Sys2Proof.core k s = .next t) :
    Host.Core.run Sys2Proof.core (k + 1) s = step t := by
  obtain ⟨u, hu⟩ := step_total s
  rw [run_succ_of_step k hu]
  induction k generalizing s u with
  | zero =>
    cases h
    exact hu.symm
  | succ k ih =>
    obtain ⟨v, hv⟩ := step_total u
    rw [run_succ_of_step k hu] at h
    rw [run_succ_of_step k hv]
    exact ih h v hv

/-- A step of the sequencer after which the run is still going completed a command other than HALT. -/
theorem sequencerStep_still_running {s t : State} (hr : s.run = .run) (h : s.sequencerStep = .next t)
    (ht : t.run = .run) : s.firstFailure = none ∧ (∃ i, decode s.fetch = .ok i ∧ i ≠ .halt) ∧
      t.pc = s.pc + 1 ∧ t.retired = s.retired + 1 ∧ t.imem = s.imem ∧ t.turns = s.turns := by
  rcases sequencerStep_cases hr h with ⟨e, w, _, _, rfl⟩ | ⟨_, _, _, _, rfl⟩ |
    ⟨hf, _, _, i, hi, hd, _, _, ws, b, bs, u, hw, rfl⟩
  · cases ht
  · cases ht
  · rw [hw.frame]
    exact ⟨hf, ⟨i, hd, hi⟩, rfl, rfl, rfl, rfl⟩

/-- A run that nobody interferes with stands, in RUN, at `pc` and at each of the `commandsAhead` indices after it, and
each command before the last of them completes. -/
theorem State.commandsAhead_spec (n : Nat) {s : State} (hr : s.run = .run) (ht : s.turns = []) :
    State.commandsAhead n s ≤ n ∧ ∀ j ≤ State.commandsAhead n s, ∃ t : State,
      Host.Core.run Sys2Proof.core j s = .next t ∧ t.run = .run ∧ t.pc = s.pc + BitVec.ofNat 9 j ∧
      t.retired = s.retired + BitVec.ofNat 32 j ∧ t.imem = s.imem ∧
      (j < State.commandsAhead n s → t.firstFailure = none ∧ ∃ i, decode t.fetch = .ok i ∧ i ≠ .halt) := by
  induction n generalizing s with
  | zero =>
    refine ⟨le_rfl, fun j hj => ?_⟩
    obtain rfl : j = 0 := by simpa [State.commandsAhead] using hj
    exact ⟨s, rfl, hr, by simp, by simp, rfl, fun h => absurd h (by simp [State.commandsAhead])⟩
  | succ n ih =>
    obtain ⟨u, hu⟩ := sequencerStep_total s
    cases hur : u.run with
    | idle =>
      have ha : State.commandsAhead (n + 1) s = 0 := by simp only [State.commandsAhead, hu, hur]
      rw [ha]
      refine ⟨by omega, fun j hj => ?_⟩
      obtain rfl : j = 0 := by omega
      exact ⟨s, rfl, hr, by simp, by simp, rfl, fun h => absurd h (by omega)⟩
    | run =>
      have ha : State.commandsAhead (n + 1) s = State.commandsAhead n u + 1 := by
        simp only [State.commandsAhead, hu, hur]
      obtain ⟨hf, hd, hp, hret, him, htu⟩ := sequencerStep_still_running hr hu hur
      obtain ⟨hle, hall⟩ := ih hur (htu.trans ht)
      rw [ha]
      refine ⟨by omega, fun j hj => ?_⟩
      cases j with
      | zero => exact ⟨s, rfl, hr, by simp, by simp, rfl, fun _ => ⟨hf, hd⟩⟩
      | succ j =>
        obtain ⟨t, h1, h2, h3, h4, h5, h6⟩ := hall j (by omega)
        refine ⟨t, ?_, h2, ?_, ?_, h5.trans him, fun h => h6 (by omega)⟩
        · rw [run_succ_of_step j ((step_of_no_turns ht).trans hu)]
          exact h1
        · rw [h3, hp, BitVec.add_assoc, Nat.add_comm j 1, BitVec.ofNat_add]
          rfl
        · rw [h4, hret, BitVec.add_assoc, Nat.add_comm j 1, BitVec.ofNat_add]
          rfl

/-! ### Two states that differ in secrets only -/

theorem State.SameButSecrets.exists {s t : State} (h : s.SameButSecrets t) :
    ∃ f m mem, t = { s with f := f, m := m, mem := mem } := ⟨_, _, _, h.symm⟩

/-- Valid bits after a write of registers depend on the places written and on how many they are. -/
theorem State.fv_setFs_congr {s t : State} (hfv : s.fv = t.fv) (i : Nat) {ws ws' : List FWord}
    (hl : ws.length = ws'.length) : (s.setFs i ws).fv = (t.setFs i ws').fv := by
  induction ws generalizing s t i ws' with
  | nil =>
    obtain rfl : ws' = [] := List.length_eq_zero_iff.1 hl.symm
    exact hfv
  | cons w ws ih =>
    obtain ⟨w', rest, rfl⟩ := List.exists_cons_of_length_eq_add_one hl.symm
    exact ih (by rw [State.setF_fv, State.setF_fv, hfv]) (i + 1) (by simpa using hl)

/-- The completions of one command in two states that differ in secrets only differ in secrets only. -/
theorem State.Wrote.sameButSecrets {s₁ s₂ t₁ t₂ : State} {i : Instr} {ws₁ ws₂ : List FWord} {b₁ b₂ : Bool}
    {bs₁ bs₂ : List Byte} (hs : s₁.SameButSecrets s₂) (h₁ : s₁.Wrote i ws₁ b₁ bs₁ t₁)
    (h₂ : s₂.Wrote i ws₂ b₂ bs₂ t₂) : t₁.SameButSecrets t₂ := by
  rw [h₁.eq, h₂.eq, State.setFs_eq s₁, State.setFs_eq s₂]
  have hl : ws₁.length = ws₂.length := h₁.count.trans h₂.count.symm
  have hfv : s₁.fv = s₂.fv := by rw [← hs]
  have hf := State.fv_setFs_congr hfv i.dest.1 hl
  rw [hf]
  obtain ⟨f, m, mem, rfl⟩ := hs.exists
  unfold State.setMaskOpt
  split <;> rfl

/-- All checks of a step but the one on canonical words look at nothing secret. -/
theorem State.SameButSecrets.firstFailure {s₁ s₂ : State} (hs : s₁.SameButSecrets s₂) :
    s₁.firstFailure = s₂.firstFailure ∨
      (s₁.firstFailure = some (.nonCanon, s₁.fetch) ∧ s₂.firstFailure = none) ∨
      (s₁.firstFailure = none ∧ s₂.firstFailure = some (.nonCanon, s₂.fetch)) := by
  have he : ∀ i, s₁.operandError i = s₂.operandError i ∨
      (s₁.operandError i = some .nonCanon ∧ s₂.operandError i = none) ∨
      (s₁.operandError i = none ∧ s₂.operandError i = some .nonCanon) := by
    intro i
    have hr : s₁.rangesOf i = s₂.rangesOf i := by rw [← hs]; cases i <;> rfl
    have hx : s₁.expandsOf i = s₂.expandsOf i := by rw [← hs]; cases i <;> rfl
    have hc : s₁.cfg = s₂.cfg := by rw [← hs]
    have hd : s₁.dstlen = s₂.dstlen := by rw [← hs]
    have hv : s₁.fvalid = s₂.fvalid := by rw [← hs]; rfl
    have hm : s₁.mvalid = s₂.mvalid := by rw [← hs]; rfl
    unfold State.operandError
    rw [hr, hx, hc, hd, hv, hm]
    split_ifs <;> simp
  have hf : s₁.fetch = s₂.fetch := by rw [← hs]; rfl
  have ha : s₁.abortReq = s₂.abortReq := by rw [← hs]
  have hp : s₁.pc = s₂.pc := by rw [← hs]
  unfold State.firstFailure
  rw [ha, hp, hf]
  split_ifs
  · simp
  · simp
  · cases decode s₂.fetch with
    | error => simp
    | ok i =>
      rcases he i with h | ⟨h, h'⟩ | ⟨h, h'⟩
      · left; dsimp only; rw [h]
      · right; left; dsimp only; rw [h, h']; exact ⟨rfl, rfl⟩
      · right; right; dsimp only; rw [h, h']; exact ⟨rfl, rfl⟩

/-- Two states that differ in secrets only and whose checks agree step to states that differ in secrets only. -/
theorem State.SameButSecrets.sequencerStep {s₁ s₂ t₁ t₂ : State} (hs : s₁.SameButSecrets s₂)
    (hf : s₁.firstFailure = s₂.firstFailure) (h₁ : s₁.sequencerStep = .next t₁)
    (h₂ : s₂.sequencerStep = .next t₂) : t₁.SameButSecrets t₂ := by
  have hr : s₂.run = s₁.run := by rw [← hs]
  cases hrun : s₁.run with
  | idle =>
    rw [State.sequencerStep, hrun] at h₁
    rw [State.sequencerStep, hr, hrun] at h₂
    cases h₁
    cases h₂
    exact hs
  | run =>
    have hfe : s₁.fetch = s₂.fetch := by rw [← hs]; rfl
    rcases sequencerStep_cases hrun h₁ with ⟨e, w, hc, _, rfl⟩ | ⟨hc, _, _, hd, rfl⟩ |
        ⟨hc, _, _, i, hi, hd, _, _, ws, b, bs, u, hw, rfl⟩ <;>
      rcases sequencerStep_cases (hr.trans hrun) h₂ with ⟨e', w', hc', _, rfl⟩ | ⟨hc', _, _, hd', rfl⟩ |
        ⟨hc', _, _, i', hi', hd', _, _, ws', b', bs', u', hw', rfl⟩ <;>
      rw [hf, hc'] at hc <;> cases hc
    · rw [← hs]; rfl
    · rw [← hs]; rfl
    · rw [hfe, hd'] at hd
      cases hd
      exact absurd rfl hi'
    · rw [hfe, hd'] at hd
      cases hd
      exact absurd rfl hi
    · rw [hfe, hd'] at hd
      cases hd
      rw [← State.Wrote.sameButSecrets hs hw hw']
      rfl

end Sys2Proof.Machine
end

