-- ==== Sys2Proof/Tests/Slice0.lean ====
section
/-! SUPPORT. The tests. The expected results are the spec's: the examples of its rules and the vectors of
95_test_vectors.md. Each is about one step, of the word the spec gives, on a small state. The witnesses that the
statements' hypotheses can be met stand in the second half. -/

namespace Sys2Proof.Tests

open Sys2Proof.Machine

set_option Elab.async false

/-! ### Well-formedness -/

/-- 30_encoding.md R121: a count of 0 or 33 is refused, by the check, the decoder and the machine. -/
theorem test_count_refused :
    (Instr.h2f .p 4 0).wellFormed = false ∧ (Instr.h2f .p 4 33).wellFormed = false ∧
    (Instr.h2f .p 4 1).wellFormed = true ∧ (Instr.h2f .q 31 32).wellFormed = true ∧
    decodeTableWord 32 0xF0400000 = none ∧ decodeTableWord 32 0xF0400021 = none ∧
    decodeTableWord 32 0xF0400020 = some (.h2f .p 4 32) := by
  decide

/-! ### Decoding -/

/-- 30_encoding.md R119, R120, 95_test_vectors.md §2.1: words that are no command. -/
theorem test_decode_illegal :
    decode 0x00000000#32 = .error .reservedOpcode ∧ decode 0xB8000000#32 = .error .reservedOpcode ∧
    decode 0x06000000#32 = .error .reservedBits ∧ decode 0x08100000#32 = .error .reservedBits ∧
    decode 0x81E00C01#32 = .error .reservedBits := by
  decide

/-- Words of the examples of the rules and of 95_test_vectors.md. -/
theorem test_decode_control :
    decode 0x04000000#32 = .ok .halt ∧
    decode 0x08000000#32 = .ok .nop ∧
    decode 0x0C000000#32 = .ok (.mset 0) ∧
    decode 0x6C000380#32 = .ok (.mclr 7) ∧
    decode 0x70000194#32 = .ok (.mand 3 1 2) ∧
    decode 0x74000194#32 = .ok (.mor 3 1 2) ∧
    decode 0x78000194#32 = .ok (.mxor 3 1 2) ∧
    decode 0x7C000240#32 = .ok (.mnot 4 4) := by
  decide

/-- Words of the examples of the rules and of 95_test_vectors.md. -/
theorem test_decode_field :
    decode 0x10308800#32 = .ok (.fadd .p 3 1 2) ∧
    decode 0x14308800#32 = .ok (.fsub .p 3 1 2) ∧
    decode 0x18208000#32 = .ok (.fneg .p 2 1) ∧
    decode 0x1C418800#32 = .ok (.fmul .p 4 3 2) ∧
    decode 0x20208000#32 = .ok (.fsqr .p 2 1) ∧
    decode 0x24508100#32 = .ok (.finv .p 5 2 1) ∧
    decode 0x28208000#32 = .ok (.fsqrt .p 2 0 1) ∧
    decode 0x2E219050#32 = .ok (.fsel .q 2 3 4 5) ∧
    decode 0x30008000#32 = .ok (.fisz .p 0 1) ∧
    decode 0x34008800#32 = .ok (.feq .p 0 1 2) ∧
    decode 0x38008000#32 = .ok (.fsgn0 .p 0 1) ∧
    decode 0x3C908000#32 = .ok (.fmov 9 1) ∧
    decode 0x4A700001#32 = .ok (.fldi .q 7 1) := by
  decide

/-- Words of the examples of the rules and of 95_test_vectors.md. -/
theorem test_decode_montgomery :
    decode 0x40308800#32 = .ok (.montmul .p 3 1 2) ∧
    decode 0x44308800#32 = .ok (.montred .p 3 1 2) ∧
    decode 0x4C401234#32 = .ok (.rawi 4 0x1234) ∧
    decode 0x50000000#32 = .ok (.rawr2 .p 0) := by
  decide

/-- Words of the examples of the rules and of 95_test_vectors.md. -/
theorem test_decode_load_store :
    decode 0x54201101#32 = .ok (.fld .p 2 1 0x101) ∧
    decode 0x5A700FFF#32 = .ok (.fst .q 7 0xFFF) ∧
    decode 0x5E300200#32 = .ok (.fldw .q 3 0x200) ∧
    decode 0x60400300#32 = .ok (.fldu64 .p 4 0x300) ∧
    decode 0x64500400#32 = .ok (.rawld 5 0x400) ∧
    decode 0x68500408#32 = .ok (.rawst 5 0x408) := by
  decide

/-- Words of the examples of the rules and of 95_test_vectors.md. -/
theorem test_decode_weierstrass :
    decode 0x80600C00#32 = .ok (.pwadd 6 0 3) ∧
    decode 0x84300000#32 = .ok (.pwdbl 3 0) ∧
    decode 0x88300000#32 = .ok (.pwneg 3 0) ∧
    decode 0x8C018000#32 = .ok (.pwisid 0 3) ∧
    decode 0x90000C80#32 = .ok (.pweq 1 0 3) ∧
    decode 0x94618100#32 = .ok (.pwtoaff 6 2 3) ∧
    decode 0x98300080#32 = .ok (.pwsetaff 3 1 0) ∧
    decode 0xB4600C10#32 = .ok (.pwsel 6 0 3 1) := by
  decide

/-- Words of the examples of the rules and of 95_test_vectors.md. -/
theorem test_decode_edwards :
    decode 0xC0801000#32 = .ok (.peadd 8 0 4) ∧
    decode 0xC4400000#32 = .ok (.pedbl 4 0) ∧
    decode 0xC8400000#32 = .ok (.peneg 4 0) ∧
    decode 0xCC020000#32 = .ok (.peisid 0 4) ∧
    decode 0xD0022080#32 = .ok (.peeq 1 4 8) ∧
    decode 0xD4820100#32 = .ok (.petoaff 8 2 4) ∧
    decode 0xD8400080#32 = .ok (.pesetaff 4 1 0) ∧
    decode 0xE4801010#32 = .ok (.pesel 8 0 4 1) := by
  decide

/-- Words of the examples of the rules and of 95_test_vectors.md. -/
theorem test_decode_scalar :
    decode 0x9E302400#32 = .ok (.pwsmul .q 3 0 9) ∧
    decode 0xDE402400#32 = .ok (.pesmul .q 4 0 9) ∧
    decode 0xA0300000#32 = .ok (.pwclr 3 0) ∧
    decode 0xE0400000#32 = .ok (.peclr 4 0) := by
  decide

/-- Words of the examples of the rules and of 95_test_vectors.md. -/
theorem test_decode_hash :
    decode 0xF4000800#32 = .ok (.xmd 0x800) ∧
    decode 0xF0A00002#32 = .ok (.h2f .p 10 2) ∧
    decode 0xA4820000#32 = .ok (.pwmap 8 4) ∧
    decode 0xA8C40000#32 = .ok (.pwfrac 12 8) ∧
    decode 0xAD000000#32 = .ok (.pwh2c 16) ∧
    decode 0xB1400000#32 = .ok (.pwe2c 20) := by
  decide

/-! ### One step -/

/-- TOY109 right after reset. -/
def toy : State := { State.reset with cfg := Config.toy109 }

/-- `s` with the words of these values, under P. -/
def withP (s : State) (l : List (Nat × Nat)) : State := l.foldl (fun s x => s.putVal .p x.1 x.2) s

/-- `s` with the words of these values, under Q. -/
def withQ (s : State) (l : List (Nat × Nat)) : State := l.foldl (fun s x => s.putVal .q x.1 x.2) s

/-- `s` with these words. -/
def withW (s : State) (l : List (Nat × Nat)) : State := l.foldl (fun s x => s.setF x.1 x.2) s

/-- `s` with these masks. -/
def withM (s : State) (l : List (MReg × Bool)) : State := l.foldl (fun s x => s.setM x.1 x.2) s

/-- `s` with these bytes from address `a` on. -/
def withB (s : State) (a : Nat) (l : List Nat) : State := s.memWrite a (l.map (BitVec.ofNat 8))

/-- The state after one step of the machine that runs the word `w`. -/
def stepWord (s : State) (w : Nat) : State :=
  match step (s.withFetchWord 32 w) with
  | .next t => t
  | .fault _ => s
  | .refused _ => s

/-- The values of some registers, under P. -/
def vals (s : State) (l : List Nat) : List Nat := l.map (s.val .p)

/-- G_T of 95_test_vectors.md at base 0. -/
def stateG : State := withP toy [(0, 0), (1, 2), (2, 1)]

/-- H_T of 95_test_vectors.md at base 0. -/
def stateH : State := withP toy [(0, 3), (1, 50), (2, 1), (3, 41)]

/-- The tag TOY-DST and the message abc of 95_test_vectors.md. -/
def stateAbc : State :=
  { withB (withB toy 0 [0x54, 0x4f, 0x59, 0x2d, 0x44, 0x53, 0x54]) 0x10 [0x61, 0x62, 0x63] with
    dstaddr := 0, dstlen := 7, msgaddr := 0x10, msglen := 3 }

/-! 40_control.md, 95_test_vectors.md §2.1. -/

theorem test_halt : (stepWord toy 0x04000000).statusWord = 2 ∧ (stepWord toy 0x04000000).irqstWord = 1 ∧
    (stepWord toy 0x04000000).retired = 1 ∧ (stepWord toy 0x04000000).pc = 0 := by decide

theorem test_nop : (stepWord toy 0x08000000).pc = 1 ∧ (stepWord toy 0x08000000).run = .run := by decide

theorem test_mset_mclr : (stepWord toy 0x0C000000).masksWord = 0x101 ∧
    (stepWord (withM toy [(7, true)]) 0x6C000380).masksWord = 0x8000 := by decide

theorem test_mand : (stepWord (withM toy [(1, true), (2, false)]) 0x70000194).mask 3 = false ∧
    (stepWord (withM toy [(1, true), (2, true)]) 0x70000194).mask 3 = true := by decide

theorem test_mor : (stepWord (withM toy [(1, true), (2, false)]) 0x74000194).mask 3 = true := by decide

theorem test_mxor : (stepWord (withM toy [(1, true), (2, true)]) 0x78000194).mask 3 = false ∧
    (stepWord (withM toy [(1, false), (2, true)]) 0x78000194).mask 3 = true := by decide

theorem test_mnot : (stepWord (withM toy [(0, true)]) 0x7C000000).mask 0 = false := by decide

/-! 41_field.md, 95_test_vectors.md §2.2. -/

theorem test_fadd : vals (stepWord (withP toy [(1, 60)]) 0x10108400) [1] = [11] ∧
    (stepWord (withW toy [(1, 120), (2, 1)]) 0x12308800).val .q 3 = 124 := by decide +kernel

theorem test_fsub : vals (stepWord (withP toy [(1, 0), (2, 1)]) 0x14308800) [3] = [108] := by decide +kernel

theorem test_fneg : vals (stepWord (withP toy [(1, 1)]) 0x18208000) [2] = [108] ∧
    (stepWord (withP toy [(1, 0)]) 0x18208000).word 2 = 0 := by decide +kernel

theorem test_fmul : vals (stepWord (withP toy [(1, 12), (2, 35)]) 0x1C308800) [3] = [93] := by decide +kernel

theorem test_fsqr : vals (stepWord (withP toy [(1, 108)]) 0x20208000) [2] = [1] := by decide +kernel

theorem test_finv : (stepWord (withQ toy [(1, 2)]) 0x26208000).val .q 2 = 64 ∧
    (stepWord (withQ toy [(1, 2)]) 0x26208000).mask 0 = true ∧
    (stepWord (withP toy [(1, 0)]) 0x24208000).masksWord = 0x100 := by decide +kernel

theorem test_fsqrt_flag : (stepWord (withP toy [(1, 108)]) 0x28208000).mask 0 = true ∧
    (stepWord (withP toy [(1, 0)]) 0x28208000).mask 0 = true ∧
    (stepWord (withP toy [(1, 2)]) 0x28208000).masksWord = 0x100 := by decide +kernel

/-- The root of 108 is 33 or 76, whichever the draw. -/
theorem test_fsqrt_root (s : State) (h : s.cfg = Config.toy109) :
    s.drawnRoot .p 108 = 33 ∨ s.drawnRoot .p 108 = 76 := by
  unfold State.drawnRoot
  rw [h]
  have h1 : sqrtMod (Config.toy109.modulus .p) 108 = 33 ∨ sqrtMod (Config.toy109.modulus .p) 108 = 76 := by
    decide +kernel
  rcases h1 with h1 | h1 <;> simp only [h1] <;> split <;> decide +kernel

theorem test_fsel : vals (stepWord (withM (withP toy [(1, 5), (2, 6)]) [(0, true)]) 0x2C308800) [3] = [5] := by
  decide +kernel

theorem test_fisz : (stepWord (withP toy [(1, 1)]) 0x30008000).masksWord = 0x100 ∧
    (stepWord (withP toy [(1, 0)]) 0x30008000).masksWord = 0x101 := by decide +kernel

theorem test_feq : (stepWord (withP toy [(1, 7), (2, 7)]) 0x34008800).masksWord = 0x101 := by decide +kernel

theorem test_fsgn0 : (stepWord (withP toy [(1, 108)]) 0x38008000).masksWord = 0x100 ∧
    (stepWord (withP toy [(1, 1)]) 0x38008000).masksWord = 0x101 := by decide +kernel

theorem test_fmov : (stepWord (withW toy [(1, 200)]) 0x3C208000).word 2 = 200 := by decide +kernel

theorem test_fldi : vals (stepWord toy 0x4810FFFF) [1] = [26] ∧ (stepWord toy 0x4A10FFFF).val .q 1 = 3 := by
  decide +kernel

/-! 42_montgomery.md, 95_test_vectors.md §2.3. -/

theorem test_montmul :
    (stepWord (withW toy [(1, 0xffffffffffffffff), (2, 0xffffffffffffffff)]) 0x40308800).word 3 = 102 ∧
    (stepWord (withW toy [(1, 5), (2, 1)]) 0x42308800).word 3 = 66 := by decide +kernel

theorem test_montred : (stepWord (withW toy [(1, 0), (2, 29)]) 0x44308800).word 3 = 12 := by decide +kernel

theorem test_rawi : (stepWord toy 0x4C10FFFF).word 1 = 65535 := by decide +kernel

theorem test_rawr2 : (stepWord toy 0x52100000).word 1 = 4 ∧ (stepWord State.reset 0x50000000).word 0 =
    0x096d41af7b9cb7147797a99bc3c95d18d7d30dbd8b0de0e78c78ecb30000000f := by decide +kernel

/-! 43_loadstore.md, 95_test_vectors.md §2.4. -/

theorem test_fld : vals (stepWord (withB toy 0xfff [0x6c]) 0x54100FFF) [1] = [108] ∧
    (stepWord (withB toy 0xfff [0x6c]) 0x54100FFF).mask 0 = true ∧
    (stepWord (withB toy 0xfff [0xff]) 0x54100FFF).masksWord = 0x100 := by decide +kernel

theorem test_fst : (stepWord (withQ toy [(1, 126)]) 0x5A100000).mem = [(0, 0x7E)] ∧
    (stepWord (withW toy [(1, 200)]) 0x58100000).errcode = .nonCanon := by decide +kernel

theorem test_fldw : vals (stepWord (withB toy 0xfef (List.replicate 17 255)) 0x5C100FEF) [1] = [65] ∧
    (stepWord toy 0x5C100FF0).errcode = .memRange := by decide +kernel

/-- The example of 43_loadstore.md R219. -/
theorem test_fldu64 : vals (stepWord (withB toy 0x300 [1, 2, 3, 4, 5, 6, 7, 8]) 0x60400300) [4] = [41] ∧
    (stepWord toy 0x60100FF9).errcode = .memRange := by decide +kernel

theorem test_rawld : (stepWord (withB toy 0 (List.replicate 8 255)) 0x64100000).word 1 = 0xffffffffffffffff := by
  decide +kernel

theorem test_rawst : (stepWord (withW toy [(1, 200)]) 0x68100FF8).mem = [(0xfff, 0xC8)] ∧
    (stepWord toy 0x68100FF9).errcode = .memRange := by decide +kernel

/-! 44_weierstrass.md, 95_test_vectors.md §2.5. -/

theorem test_pwadd : vals (stepWord (withP stateG [(3, 0), (4, 1), (5, 0)]) 0x80600C00) [6, 7, 8] = [0, 4, 2] ∧
    vals (stepWord stateG 0x80000000) [0, 1, 2] = [16, 82, 64] := by decide +kernel

theorem test_pwdbl : vals (stepWord stateG 0x84300000) [3, 4, 5] = [16, 82, 64] := by decide +kernel

theorem test_pwneg : vals (stepWord stateG 0x88300000) [3, 4, 5] = [0, 107, 1] := by decide +kernel

theorem test_pwisid : (stepWord stateG 0x8C000000).masksWord = 0x100 ∧
    (stepWord (withP toy [(0, 0), (1, 1), (2, 0)]) 0x8C000000).masksWord = 0x101 := by decide +kernel

theorem test_pweq :
    (stepWord (withP toy [(0, 0), (1, 1), (2, 0), (3, 0), (4, 5), (5, 0)]) 0x90000C00).masksWord = 0x101 ∧
    (stepWord (withP stateG [(3, 0), (4, 107), (5, 1)]) 0x90000C00).masksWord = 0x100 := by decide +kernel

theorem test_pwtoaff : vals (stepWord (withP toy [(3, 16), (4, 82), (5, 64)]) 0x94618100) [6, 7] = [82, 66] ∧
    (stepWord (withP toy [(0, 0), (1, 1), (2, 0)]) 0x94600000).masksWord = 0x100 := by decide +kernel

theorem test_pwsetaff : vals (stepWord stateG 0x98300080) [3, 4, 5] = [0, 2, 1] ∧
    (stepWord (withP toy [(0, 0), (1, 0)]) 0x98600000).masksWord = 0x100 := by decide +kernel

theorem test_pwsel :
    vals (stepWord (withM (withP stateG [(3, 0), (4, 1), (5, 0)]) [(0, false)]) 0xB4600C00) [6, 7, 8] = [0, 1, 0] := by
  decide +kernel

/-! 45_edwards.md, 95_test_vectors.md §2.6. -/

theorem test_peadd : vals (stepWord stateH 0xC0400000) [4, 5, 6, 7] = [59, 77, 39, 55] ∧
    vals (stepWord (withP stateH [(4, 106), (5, 50), (6, 1), (7, 68)]) 0xC0801000) [8, 9, 10, 11] =
      [0, 39, 39, 0] := by decide +kernel

theorem test_pedbl : vals (stepWord stateH 0xC4400000) [4, 5, 6, 7] = [50, 32, 70, 54] := by decide +kernel

theorem test_peneg : vals (stepWord stateH 0xC8400000) [4, 5, 6, 7] = [106, 50, 1, 68] := by decide +kernel

theorem test_peisid : (stepWord (withP toy [(0, 0), (1, 1), (2, 1), (3, 0)]) 0xCC000000).masksWord = 0x101 ∧
    (stepWord (withP toy [(0, 0), (1, 108), (2, 1), (3, 0)]) 0xCC000000).masksWord = 0x100 := by decide +kernel

theorem test_peeq :
    (stepWord (withP toy [(4, 59), (5, 77), (6, 39), (7, 55), (8, 50), (9, 32), (10, 70), (11, 54)])
      0xD0022080).masksWord = 0x202 ∧
    (stepWord (withP stateH [(4, 106), (5, 50), (6, 1), (7, 68)]) 0xD0001000).masksWord = 0x100 := by decide +kernel

theorem test_petoaff : vals (stepWord (withP toy [(4, 59), (5, 77), (6, 39), (7, 55)]) 0xD4820100) [8, 9] = [63, 97] ∧
    (stepWord (withP toy [(0, 0), (1, 1), (2, 0), (3, 1)]) 0xD4800000).masksWord = 0x100 := by decide +kernel

theorem test_pesetaff : vals (stepWord stateH 0xD8400080) [4, 5, 6, 7] = [3, 50, 1, 41] ∧
    (stepWord (withP toy [(0, 1), (1, 1)]) 0xD8800000).masksWord = 0x100 := by decide +kernel

theorem test_pesel :
    vals (stepWord (withM (withP stateH [(4, 0), (5, 1), (6, 1), (7, 0)]) [(1, false)]) 0xE4801010)
      [8, 9, 10, 11] = [0, 1, 1, 0] := by decide +kernel

/-- 30_encoding.md R127 gives the text of the first four words, R125 the form of an illegal one. -/
theorem test_disassemble : disassemble 0x24508100 = "finv.p f5, m2, f1" ∧
    disassemble 0x2E219050 = "fsel.q f2, f3, f4, m5" ∧ disassemble 0x54100100 = "fld.p f1, m0, 256" ∧
    disassemble 0x04000000 = "halt" ∧ disassemble 0x04000001 = ".word 0x04000001" := by decide +kernel

/-- 30_encoding.md R125: `.org` sets the index of the next command, `.word` places a word verbatim. -/
theorem test_assemble : assembleFrom 0 [.command .nop, .org 16, .pseudo (.fone .q 7), .word 0] =
    [(0, 0x08000000), (16, 0x4A700001), (17, 0)] := by decide +kernel

/-- 30_encoding.md R122: PALLAS has no Edwards commands. -/
theorem test_peadd_absent : (stepWord State.reset 0xC0801000).errcode = .illegal := by decide +kernel

/-! 46_scalar_cofactor.md, 95_test_vectors.md §2.7. -/

theorem test_pwsmul : vals (stepWord (withQ stateG [(9, 126)]) 0x9E302400) [3, 4, 5] = [0, 3, 53] ∧
    vals (stepWord (withP stateG [(9, 108)]) 0x9C302400) [3, 4, 5] = [36, 57, 104] := by decide +kernel

theorem test_pesmul : vals (stepWord (withQ stateH [(9, 5)]) 0xDE402400) [4, 5, 6, 7] = [12, 67, 57, 60] := by
  decide +kernel

theorem test_pwclr : vals (stepWord stateG 0xA0300000) [3, 4, 5] = [0, 2, 1] := by decide +kernel

theorem test_peclr : vals (stepWord stateH 0xE0400000) [4, 5, 6, 7] = [19, 32, 22, 97] := by decide +kernel

/-! 47_hash.md, 95_test_vectors.md §2.8. -/

theorem test_pwmap : vals (stepWord (withP toy [(4, 0)]) 0xA4820000) [8, 9, 10, 11] = [1, 1, 94, 1] ∧
    vals (stepWord (withP toy [(4, 108)]) 0xA4820000) [8, 9, 10, 11] = [34, 1, 38, 1] := by decide +kernel

theorem test_pwfrac :
    vals (stepWord (withP toy [(8, 5), (9, 2), (10, 7), (11, 3)]) 0xA8C40000) [12, 13, 14] = [15, 14, 6] ∧
    vals (stepWord (withP toy [(8, 5), (9, 0), (10, 7), (11, 3)]) 0xA8C40000) [12, 13, 14] = [0, 1, 0] := by
  decide +kernel

theorem test_xmd : os2ip ((stepWord { stateAbc with dstlen := 0, xmdlen := 16 } 0xF4000800).memRead 0x800 16) =
    0xa3675229ec60fc169156380be9fb5609 := by decide +kernel

theorem test_h2f : vals (stepWord stateAbc 0xF0400002) [4, 5] = [46, 97] := by decide +kernel

theorem test_pwh2c : vals (stepWord stateAbc 0xAD000000) [16, 17, 18] = [56, 105, 15] := by decide +kernel

theorem test_pwe2c : vals (stepWord stateAbc 0xB1400000) [20, 21, 22] = [86, 76, 1] := by decide +kernel

/-! 60_exceptions.md, 95_test_vectors.md §2.9: the order of the checks. -/

theorem test_check_order : (stepWord toy 0x81E00C01).errcode = .illegal ∧ (stepWord toy 0x81E00C00).errcode = .badReg ∧
    (stepWord { toy with dstlen := 256, msgaddr := 0xFFF, msglen := 2 } 0xF4000800).errcode = .memRange ∧
    (stepWord { toy with dstlen := 300 } 0xF0400002).errcode = .h2fLen ∧
    (stepWord (withW toy [(1, 200)]) 0x10308800).errcode = .uninit ∧
    (stepWord (withW toy [(1, 109), (2, 66)]) 0x10308800).errcode = .nonCanon := by decide +kernel

/-! ### Witnesses: states and operands that meet the hypotheses of the statements

`full` is TOY109 with every field register valid and canonical under both moduli and every mask valid: G_T, the
Weierstrass identity and the negative of G_T at bases 0, 3 and 6, H_T, its negative and the Edwards identity at bases
10, 14 and 18, an affine pair of each curve at 22 and 24, the values 12 and 35 at 26 and 27, and G_T again at 29. -/

/-- The values of `full`, under P. -/
def fullVals : List Nat :=
  [0, 2, 1, 0, 1, 0, 0, 107, 1, 5, 3, 50, 1, 41, 106, 50, 1, 68, 0, 1, 1, 0, 0, 2, 3, 50, 12, 35, 0, 0, 2, 1]

/-- Every register and mask valid. -/
def full : State := { toy with
  f := #v[0, 23, 66, 0, 66, 0, 0, 86, 66, 3, 89, 30, 66, 90, 20, 30, 66, 19, 0, 66, 66, 0, 0, 23, 89, 30, 29, 21, 0, 0,
    23, 66]
  fv := Vector.replicate 32 true
  m := #v[true, false, true, false, true, false, true, false]
  mv := Vector.replicate 8 true }

/-- `full` in RUN at index `i`, with the word `w` there. -/
def running (i : BitVec 8) (w : Insn) : State :=
  { full with run := .run, entry := i, pc := i.setWidth 9, imem := Memory.entry i.toNat w [] }

theorem wit_full_values : vals full (List.range 32) = fullVals := by decide +kernel

theorem wit_full_reads (f : FieldSel) : ∀ r < 32, full.Reads f r := by
  cases f <;> (unfold State.Reads; decide +kernel)

theorem wit_full_masks : ∀ j, full.mvalid j = true := by decide +kernel

/-- Groups of 2, 3 and 4 at their last base. -/
theorem wit_full_groups : full.ReadsGroup 30 2 ∧ full.ReadsGroup 29 3 ∧ full.ReadsGroup 28 4 ∧ full.ReadsGroup 0 3 ∧
    full.ReadsGroup 3 3 ∧ full.ReadsGroup 6 3 ∧ full.ReadsGroup 10 4 ∧ full.ReadsGroup 14 4 ∧ full.ReadsGroup 18 4 := by
  refine ⟨?_, ?_, ?_, ?_, ?_, ?_, ?_, ?_, ?_⟩ <;>
    exact ⟨by decide, fun k hk => wit_full_reads .p _ (by omega)⟩

/-! The configurations. -/

theorem wit_sized : Config.toy109.sized = true ∧ Config.pallas.sized = true := by decide +kernel

theorem wit_prime_fields : Config.toy109.PrimeFields := ⟨wit_sized.1, by norm_num [Config.toy109], by norm_num [Config.toy109]⟩

theorem wit_features : Config.toy109.h2cEn = true ∧ Config.toy109.edwEn = true ∧ Config.toy109.isoEn = false ∧
    Config.toy109.cwH = 1 ∧ Config.toy109.ceH ≠ 1 ∧ Config.pallas.isoEn = true ∧ Config.pallas.edwEn = false := by decide

theorem wit_curve_ok : Config.toy109.CurveOk := by
  refine ⟨by decide, fun x => ?_⟩
  have h : ∀ y < 109, (y ^ 3 + 2 * y + 4) % 109 ≠ 0 := by decide +kernel
  have := h (x % 109) (Nat.mod_lt _ (by decide))
  simpa [Config.toy109, Nat.add_mod, Nat.pow_mod, Nat.mul_mod] using this

theorem wit_edwards_ok : Config.toy109.EdwardsOk := by
  refine ⟨by decide, by decide, by decide, ⟨33, by decide⟩, fun x => ?_⟩
  have h : ∀ y < 109, (y * y) % 109 ≠ 2 := by decide +kernel
  have := h (x % 109) (Nat.mod_lt _ (by decide))
  simpa [Config.toy109, Nat.mul_mod] using this

theorem wit_sswu_criteria (c : Config) (hp : c.p = 109) (ha : c.sswuA = 2) (hb : c.sswuB = 4) (hz : c.sswuZ = 2) :
    c.SswuOk := by
  constructor <;> rw [hp] <;> simp only [ha, hb, hz]
  · decide
  · intro x
    have h : ∀ y < 109, (y * y) % 109 ≠ 2 := by decide +kernel
    have := h (x % 109) (Nat.mod_lt _ (by decide))
    simpa [Nat.mul_mod] using this
  · decide
  · intro x
    have h : ∀ y < 109, (y ^ 3 + 2 * y + 4) % 109 ≠ 2 := by decide +kernel
    have := h (x % 109) (Nat.mod_lt _ (by decide))
    simpa [Nat.add_mod, Nat.pow_mod, Nat.mul_mod] using this
  · intro x hx
    have h : ∀ y < 109, y * 4 % 109 = 4 → ∃ r < 109, r * r % 109 = (y ^ 3 + 2 * y + 4) % 109 := by decide +kernel
    obtain ⟨r, -, hr⟩ := h (x % 109) (Nat.mod_lt _ (by decide)) (by simpa [Nat.mul_mod] using hx)
    exact ⟨r, by simpa [Nat.add_mod, Nat.pow_mod, Nat.mul_mod] using hr⟩

theorem wit_sswu_ok : Config.toy109.SswuOk := wit_sswu_criteria _ rfl rfl rfl rfl

/-- TOY109 with an isogeny. -/
def toyIso : Config :=
  { Config.toy109 with isoEn := true, isoA := 2, isoB := 4, iso := .given [0, 1] [3] [1, 1, 1] [5, 7] }

theorem wit_iso : toyIso.isoEn = true ∧ toyIso.h2cEn = true ∧ toyIso.SswuOk ∧ toyIso.PrimeFields :=
  ⟨rfl, rfl, wit_sswu_criteria _ rfl rfl rfl rfl, ⟨by decide +kernel, wit_prime_fields.2, wit_prime_fields.3⟩⟩

/-! The states. -/

theorem wit_inv_full : full.Inv := by
  have h : ∀ r < 32, full.word r < full.cfg.radix := by decide +kernel
  refine ⟨wit_sized.1, rfl, rfl, fun r => ?_, by decide, by decide, by decide, by decide, by decide, by decide, by decide⟩
  by_cases hr : r < 32
  · exact h r hr
  · rw [State.word, Vector.getElem?_eq_none (by omega)]
    decide

theorem wit_inv_running (i : BitVec 8) (w : Insn) : (running i w).Inv := by
  have h := wit_inv_full
  have hi := i.isLt
  refine ⟨h.sized, h.mem, ?_, h.words, ?_, h.errpc, h.status, h.errcode, fun _ => ⟨rfl, rfl⟩, fun _ => ?_,
    fun h => nomatch h⟩
  · simp only [running, Memory.entry]
    split_ifs with h0
    · rfl
    · simp [Memory.wf, Memory.wfFrom, h0, imemSize, show i.toNat < 256 from hi]
  · simp only [running, BitVec.toNat_setWidth]
    omega
  · simp only [running, BitVec.toNat_setWidth]
    have : full.retired.toNat = 0 := rfl
    omega

/-- After the last command of a program that starts at index 255. -/
def pastTheEnd : State := { running 255 0 with pc := 256, retired := 1 }

theorem wit_inv_pastTheEnd : pastTheEnd.Inv := by
  have h := wit_inv_running 255 0
  exact ⟨h.sized, h.mem, h.imem, h.words, by decide, h.errpc, h.status, h.errcode, h.running, fun _ => rfl, h.abort⟩

/-- 10_state.md R47, 60_exceptions.md R350: of NOP, NOP, a PWADD whose group runs past f31, NOP, HALT the run comes to
stand at the third; with an abort requested, or a HALT at `pc`, at none after `pc`. -/
theorem test_commandsAhead :
    (let s := { running 0 0 with imem := [(0, 0x08000000), (1, 0x08000000), (2, 0x81E00C00), (3, 0x08000000),
      (4, 0x04000000)] }
    State.commandsAhead 255 s = 2 ∧ State.commandsAhead 255 { s with abortReq := true } = 0 ∧
      State.commandsAhead 251 { s with pc := 4 } = 0 ∧ State.commandsAhead 252 { s with pc := 3 } = 1) := by
  decide +kernel

/-! One witness per statement. -/

theorem wit_DecodeEncodeRoundTrip : (Instr.h2f .q 31 1).wellFormed = true ∧ (Instr.h2f .p 0 32).wellFormed = true ∧
    (Instr.xmd 0xFFF).wellFormed = true := by decide

theorem wit_DecodedWordsAreEncodings : decode 0xF3F00020#32 = .ok (.h2f .q 31 32) := by decide

/-- The row of H2F, met by words with the counts 0, 1, 32 and 33. -/
theorem wit_DecoderFollowsTheOpcodeMap : ∃ r ∈ opcodeRows, r.mnemonic = "H2F" ∧
    0xF0400000#32 &&& r.mask = r.matchWord ∧ 0xF0400001#32 &&& r.mask = r.matchWord ∧
    0xF0400020#32 &&& r.mask = r.matchWord ∧ 0xF0400021#32 &&& r.mask = r.matchWord ∧
    bitsOf 0xF0400000#32 0 16 = 0 ∧ bitsOf 0xF0400001#32 0 16 = 1 ∧ bitsOf 0xF0400020#32 0 16 = 32 ∧
    bitsOf 0xF0400021#32 0 16 = 33 :=
  ⟨⟨"H2F", 0x3C, 0xF0000000#32, 0xFC0F0000#32⟩, by simp [opcodeRows, opcodeRows4], rfl, rfl, rfl, rfl, rfl,
    by decide, by decide, by decide, by decide⟩

theorem wit_StepExecutesTheDecodedCommand :
    ∀ s ∈ [running 255 0x04000000, { running 255 0x04000000 with turns := [.engine, .rst] }],
      s.run = .run ∧ s.abortReq = false ∧ s.pc.toNat < 256 ∧ decode (s.imem.read s.pc.toNat) = .ok .halt := by decide

/-- The sequencer's turn in IDLE, with no turn pending and with one of its own. -/
theorem wit_StepExecutesTheDecodedCommand_idle :
    full.run = .idle ∧ full.turns = [] ∧ ({ full with turns := [.engine, .rst] } : State).run = .idle ∧
      ({ full with turns := [.engine, .rst] } : State).turns = [.engine, .rst] := ⟨rfl, rfl, rfl, rfl⟩

theorem wit_PlacedWordIsTheNextCommand : decode (BitVec.ofNat 32 0x10308800) = .ok (.fadd .p 3 1 2) := by decide

/-- Index 255, with a well-formed command, a word that matches no row, a count of 33, and commands of features that a
configuration lacks. -/
theorem wit_MalformedWordStopsWithIllegal :
    ∀ s ∈ [running 255 0x08000000, running 255 0xB8000000, running 255 0xF0400021,
        { running 255 0xC0801000 with cfg := Config.pallas },
        { running 255 0xAD000000 with cfg := { Config.toy109 with h2cEn := false } }],
      s.turns = [] ∧ s.run = .run ∧ s.abortReq = false ∧ s.pc.toNat < 256 := by decide

theorem wit_StopsBeforeTheFetch : pastTheEnd.turns = [] ∧ pastTheEnd.run = .run ∧ pastTheEnd.abortReq = false ∧
    pastTheEnd.pc.toNat = 256 ∧ ({ pastTheEnd with abortReq := true } : State).abortReq = true ∧
    (running 255 0x08000000).pc.toNat = 255 ∧
    ∃ t, step (running 255 0x08000000) = .next t ∧ t.run = .run :=
  ⟨rfl, rfl, rfl, rfl, rfl, rfl, _, rfl, rfl⟩

/-- One state for each check that can fail first, and one where none does. -/
theorem wit_FirstFailingCheckIsReported :
    ({ pastTheEnd with abortReq := true } : State).firstFailure = some (.abort, 0) ∧
    pastTheEnd.firstFailure = some (.pcRange, 0) ∧
    (running 255 0xB8000000).firstFailure = some (.illegal, 0xB8000000) ∧
    (running 255 0x81E00C00).firstFailure = some (.badReg, 0x81E00C00) ∧
    (running 255 0x60100FF9).firstFailure = some (.memRange, 0x60100FF9) ∧
    ({ running 255 0xF0400002 with dstlen := 256 } : State).firstFailure = some (.h2fLen, 0xF0400002) ∧
    ({ running 255 0x10308800 with fv := Vector.replicate 32 false } : State).firstFailure =
      some (.uninit, 0x10308800) ∧
    ((running 255 0x10308800).setF 1 109).firstFailure = some (.nonCanon, 0x10308800) ∧
    (running 255 0x10308800).firstFailure = none := by decide +kernel

theorem wit_ErrorStopRecord : (running 255 0x81E00C00).turns = [] ∧ (running 255 0x81E00C00).run = .run ∧
    (running 255 0x81E00C00).firstFailure = some (.badReg, 0x81E00C00) := by decide +kernel

/-- A group at its last base, a store to the last byte, a store of no byte, 32 elements. -/
theorem wit_CommandWritesOnlyItsDestinations :
    ∀ i ∈ [Instr.pwadd 29 29 0, .fst .p 31 0xFFF, .xmd 0xFFF, .h2f .q 0 32, .finv .p 31 7 26, .mand 7 0 7],
      i ≠ .halt ∧ full.operandError i = none := by decide +kernel

theorem wit_HaltIsTheOnlyNormalEnd :
    (running 255 0x04000000).Inv ∧ (running 255 0x04000000).turns = [] ∧ (running 255 0x04000000).run = .run ∧
    (∃ t, step (running 255 0x04000000) = .next t ∧ t.run = .idle) ∧
    pastTheEnd.Inv ∧ ∃ t, step pastTheEnd = .next t ∧ t.run = .idle :=
  ⟨wit_inv_running _ _, rfl, rfl, ⟨_, rfl, rfl⟩, wit_inv_pastTheEnd, _, rfl, rfl⟩

theorem wit_ConfigurationNeverChanges : ∃ t, step { full with turns := [.rst] } = .next t := step_total _

/-- An `rst` turn, a soft reset, and a bus write that is neither. -/
theorem wit_OnlyResetsClearValidBits : (∃ t, step { full with turns := [.rst] } = .next t) ∧
    (∃ t, step { full with turns := [.bus ⟨0x008, 4, .write 0x7⟩] } = .next t) ∧ (0x7 : BitVec 32).getLsbD 2 = true ∧
    (∃ t, step { full with turns := [.bus ⟨0x008, 4, .write 0x3⟩] } = .next t) ∧ (0x3 : BitVec 32).getLsbD 2 = false ∧
    full.fvalid 31 = true ∧ full.mvalid 7 = true :=
  ⟨step_total _, step_total _, by decide, step_total _, by decide, by decide, by decide⟩

theorem wit_StepKeepsTheInvariant : full.Inv ∧ pastTheEnd.Inv ∧ (∃ t, step full = .next t) ∧
    ∃ t, step pastTheEnd = .next t := ⟨wit_inv_full, wit_inv_pastTheEnd, step_total _, step_total _⟩

/-- A run about to begin at index 0 and one past the end, where no later step than the next can end it. -/
theorem wit_RunEndsInBoundedSteps : (running 0 0x04000000).Inv ∧ (running 0 0x04000000).turns = [] ∧
    (running 0 0x04000000).run = .run ∧ pastTheEnd.Inv ∧ pastTheEnd.turns = [] ∧ pastTheEnd.run = .run ∧
    pastTheEnd.abortReq = false ∧ 257 - pastTheEnd.pc.toNat = 1 :=
  ⟨wit_inv_running _ _, rfl, rfl, wit_inv_pastTheEnd, rfl, rfl, rfl, rfl⟩

/-- The same command on other words, masks and bytes; and a pair of which one holds a word that is not canonical. -/
theorem wit_SecretsDoNotSteerARun :
    let s₁ := running 255 0x10308800
    let s₂ : State := { s₁ with
      f := Vector.replicate 32 7, m := Vector.replicate 8 true, mem := [(4095, 1)] }
    let s₃ : State := { s₁ with f := Vector.replicate 32 200 }
    s₁.turns = [] ∧ s₁.SameButSecrets s₂ ∧ s₁.SameButSecrets s₃ ∧ s₁.run = .run ∧ s₁.firstFailure = none ∧
      s₂.firstFailure = none ∧ s₃.firstFailure = some (.nonCanon, s₃.fetch) ∧ s₁.word 1 ≠ s₂.word 1 :=
  ⟨rfl, rfl, rfl, rfl, by decide +kernel, by decide +kernel, by decide +kernel, by decide⟩

theorem wit_MaskCommandResults : full.mvalid 0 = true ∧ full.mvalid 7 = true := ⟨wit_full_masks _, wit_full_masks _⟩

theorem wit_FieldSumsAndNegation : full.cfg.sized = true ∧ full.Reads .p 26 ∧ full.Reads .p 31 ∧ full.Reads .q 0 ∧
    full.Reads .q 31 :=
  ⟨wit_sized.1, wit_full_reads _ _ (by decide), wit_full_reads _ _ (by decide), wit_full_reads _ _ (by decide),
    wit_full_reads _ _ (by decide)⟩

theorem wit_FieldProducts : full.cfg.sized = true ∧ full.Reads .q 26 ∧ full.Reads .q 31 :=
  ⟨wit_sized.1, wit_full_reads _ _ (by decide), wit_full_reads _ _ (by decide)⟩

/-- A value and 0. -/
theorem wit_InverseOrFlag : full.cfg.PrimeFields ∧ full.Reads .p 26 ∧ full.val .p 26 ≠ 0 ∧ full.Reads .p 0 ∧
    full.val .p 0 = 0 :=
  ⟨wit_prime_fields, wit_full_reads _ _ (by decide), by decide +kernel, wit_full_reads _ _ (by decide),
    by decide +kernel⟩

/-- A square, 1, and a non-square, 2. -/
theorem wit_SquareRootOrFlag : full.cfg.PrimeFields ∧ full.Reads .p 31 ∧ full.val .p 31 = 1 ∧ full.Reads .p 30 ∧
    full.val .p 30 = 2 :=
  ⟨wit_prime_fields, wit_full_reads _ _ (by decide), by decide +kernel, wit_full_reads _ _ (by decide),
    by decide +kernel⟩

theorem wit_SelectsCopyWords : full.fvalid 31 = true ∧ full.Reads .q 0 ∧ full.Reads .q 31 ∧ full.mvalid 7 = true ∧
    29 + 3 ≤ 32 ∧ full.ReadsGroup 29 3 ∧ full.ReadsGroup 0 3 ∧ full.cfg.edwEn = true ∧ 28 + 4 ≤ 32 ∧
    full.ReadsGroup 28 4 ∧ full.ReadsGroup 10 4 :=
  ⟨by decide, wit_full_reads _ _ (by decide), wit_full_reads _ _ (by decide), wit_full_masks _, by decide,
    wit_full_groups.2.1, wit_full_groups.2.2.2.1, rfl, by decide, wit_full_groups.2.2.1, wit_full_groups.2.2.2.2.2.2.1⟩

theorem wit_FieldTests : full.cfg.sized = true ∧ full.Reads .p 0 ∧ full.Reads .p 31 :=
  ⟨wit_sized.1, wit_full_reads _ _ (by decide), wit_full_reads _ _ (by decide)⟩

theorem wit_ConstantLoads : full.cfg.sized = true := wit_sized.1

theorem wit_FieldAxioms : full.cfg.PrimeFields ∧ full.Reads .p 26 ∧ full.Reads .p 27 ∧ full.Reads .p 31 ∧
    full.val .p 26 ≠ 0 ∧ (∀ d ∈ [(0 : FReg), 1], ∀ a ∈ [(26 : FReg), 27, 31], d ≠ a) ∧ (1 : FReg) ≠ 0 :=
  ⟨wit_prime_fields, wit_full_reads _ _ (by decide), wit_full_reads _ _ (by decide), wit_full_reads _ _ (by decide),
    by decide +kernel, by decide, by decide⟩

/-- Words that are not canonical. -/
theorem wit_MontgomeryResidues : (full.setF 31 200).cfg.sized = true ∧ (full.setF 31 200).fvalid 31 = true ∧
    (full.setF 31 200).fvalid 0 = true := ⟨wit_sized.1, by decide, by decide⟩

/-- For tomont, frommont and the copies, with sources and destinations up to f31. -/
theorem wit_PseudoInstructionEffects :
    (let s := withW full [(26, 105), (27, 0), (30, 200)]
    s.cfg.sized = true ∧ s.fvalid 30 = true ∧ s.fvalid 26 = true ∧
      s.word 26 = 2 ^ (64 * s.cfg.nl) * 2 ^ (64 * s.cfg.nl) % s.cfg.modulus .p ∧ s.fvalid 27 = true ∧
      s.word 27 = 0 ∧ s.mvalid 0 = true) ∧
    full.mvalid 0 = true ∧ 29 + 3 ≤ 32 ∧ full.ReadsGroup 29 3 ∧ full.cfg.edwEn = true ∧ 28 + 4 ≤ 32 ∧
    full.ReadsGroup 28 4 :=
  ⟨by decide +kernel, wit_full_masks _, by decide, wit_full_groups.2.1, rfl, by decide, wit_full_groups.2.2.1⟩

theorem wit_MontgomeryConversions :
    (let s := withW full [(26, 105), (27, 0), (28, 1), (30, 200)]
    s.cfg.sized = true ∧ s.fvalid 30 = true ∧ (s.fvalid 31 = true ∧ s.word 31 < s.cfg.modulus .p) ∧
      s.fvalid 26 = true ∧ s.fvalid 27 = true ∧ s.fvalid 28 = true ∧
      s.word 26 = s.cfg.radix * s.cfg.radix % s.cfg.modulus .p ∧ s.word 27 = 0 ∧ s.word 28 = 1 ∧
      (25 : FReg) ≠ 26) ∧ State.reset.cfg = Config.pallas := by decide +kernel

/-- The last byte of MEM, holding 108, the largest value, and 109, the smallest that is none. -/
theorem wit_CanonicalLoad : full.cfg.sized = true ∧ 0xFFF + full.cfg.elemBytes .p = 4096 ∧
    (withB full 0xFFF [108]).mem.read 0xFFF = 108 ∧ 108 < full.cfg.modulus .p ∧
    (withB full 0xFFF [109]).mem.read 0xFFF = 109 ∧ full.cfg.modulus .p ≤ 109 := by decide +kernel

theorem wit_ReducingAndRawLoads : full.cfg.sized = true ∧ 0xFEF + full.cfg.wideBytes .q = 4096 ∧ 0xFF8 + 8 = 4096 ∧
    0xFF8 + 8 * full.cfg.nl = 4096 := by decide +kernel

theorem wit_StoresAreBigEndian : full.cfg.sized = true ∧ Memory.wf memSize full.mem = true ∧
    0xFFF + full.cfg.elemBytes .p = 4096 ∧ full.Reads .p 31 ∧ 0xFF8 + 8 * full.cfg.nl = 4096 ∧
    full.fvalid 31 = true :=
  ⟨wit_sized.1, rfl, by decide +kernel, wit_full_reads _ _ (by decide), by decide, by decide⟩

theorem wit_StoreLoadRoundTrips : full.Inv ∧ 0xFFF + full.cfg.elemBytes .p ≤ 4096 ∧ full.Reads .p 31 ∧
    os2ip (full.memRead 0xFFF (full.cfg.elemBytes .p)) < full.cfg.modulus .p ∧ 0xFF8 + 8 * full.cfg.nl ≤ 4096 ∧
    full.fvalid 31 = true :=
  ⟨wit_inv_full, by decide +kernel, wit_full_reads _ _ (by decide), by decide +kernel, by decide, by decide⟩

theorem wit_WeierstrassPolynomials : full.cfg.sized = true ∧ 29 + 3 ≤ 32 ∧ full.ReadsGroup 29 3 ∧
    full.ReadsGroup 0 3 := ⟨wit_sized.1, by decide, wit_full_groups.2.1, wit_full_groups.2.2.2.1⟩

/-- Groups with Z = 0 and Z ≠ 0. -/
theorem wit_WeierstrassNegationAndTests : full.cfg.sized = true ∧ 29 + 3 ≤ 32 ∧ full.ReadsGroup 29 3 ∧
    full.ReadsGroup 3 3 ∧ (full.pw 3).z = 0 ∧ (full.pw 29).z ≠ 0 :=
  ⟨wit_sized.1, by decide, wit_full_groups.2.1, wit_full_groups.2.2.2.2.1, by decide +kernel, by decide +kernel⟩

theorem wit_AffineConversions : full.cfg.PrimeFields ∧ 30 + 2 ≤ 32 ∧ full.ReadsGroup 29 3 ∧ (full.pw 29).z ≠ 0 ∧
    full.ReadsGroup 3 3 ∧ (full.pw 3).z = 0 ∧ full.cfg.edwEn = true ∧ full.ReadsGroup 10 4 ∧ (full.pe 10).z ≠ 0 ∧
    full.ReadsGroup 26 4 ∧ (full.pe 26).z = 0 :=
  ⟨wit_prime_fields, by decide, wit_full_groups.2.1, by decide +kernel, wit_full_groups.2.2.2.2.1, by decide +kernel,
    rfl, wit_full_groups.2.2.2.2.2.2.1, by decide +kernel, ⟨by decide, fun _ _ => wit_full_reads .p _ (by omega)⟩,
    by decide +kernel⟩

/-- A pair on each curve and one off both. -/
theorem wit_PointsFromAffinePairs : full.cfg.sized = true ∧ full.ReadsGroup 22 2 ∧
    pwOnCurveFlag full.cfg (full.val .p 22) (full.val .p 23) = true ∧ full.ReadsGroup 24 2 ∧
    peOnCurveFlag full.cfg (full.val .p 24) (full.val .p 25) = true ∧ full.ReadsGroup 30 2 ∧
    pwOnCurveFlag full.cfg (full.val .p 30) (full.val .p 31) = false ∧
    peOnCurveFlag full.cfg (full.val .p 30) (full.val .p 31) = false ∧ 29 + 3 ≤ 32 ∧ full.cfg.edwEn = true ∧
    28 + 4 ≤ 32 :=
  ⟨wit_sized.1, ⟨by decide, fun _ _ => wit_full_reads .p _ (by omega)⟩, by decide +kernel,
    ⟨by decide, fun _ _ => wit_full_reads .p _ (by omega)⟩, by decide +kernel, wit_full_groups.1, by decide +kernel,
    by decide +kernel, by decide, rfl, by decide⟩

/-- G_T with the identity, and with its negative; and G_T is on the curve. -/
theorem wit_WeierstrassGroupLaws : full.cfg.sized = true ∧ 29 + 3 ≤ 32 ∧ full.ReadsGroup 0 3 ∧ full.ReadsGroup 3 3 ∧
    full.pw 3 = ⟨0, 1, 0⟩ ∧ full.ReadsGroup 6 3 ∧
    full.pw 6 = ⟨(full.pw 0).x, (full.cfg.p - (full.pw 0).y) % full.cfg.p, (full.pw 0).z⟩ ∧
    OnW full.cfg (full.pw 0) :=
  ⟨wit_sized.1, by decide, wit_full_groups.2.2.2.1, wit_full_groups.2.2.2.2.1, by decide +kernel,
    wit_full_groups.2.2.2.2.2.1, by decide +kernel, by unfold OnW; decide +kernel⟩

/-- G_T with itself, with its negative, and with its double, the affine point (82, 66). -/
theorem wit_PwaddIsTheGroupLaw : full.cfg.PrimeFields ∧ full.cfg.CurveOk ∧ 29 + 3 ≤ 32 ∧ full.ReadsGroup 0 3 ∧
    full.ReadsGroup 29 3 ∧ full.ReadsGroup 6 3 ∧
    (∀ b ∈ [0, 6, 29], ((full.pw b).y ^ 2 * (full.pw b).z) % 109 =
      ((full.pw b).x ^ 3 + 2 * (full.pw b).x * (full.pw b).z ^ 2 + 4 * (full.pw b).z ^ 3) % 109 ∧ (full.pw b).z ≠ 0) ∧
    (let s := withP full [(3, 82), (4, 66), (5, 1)]
    s.cfg = full.cfg ∧ (∀ k < 3, s.fvalid (3 + k) = true ∧ s.word (3 + k) < s.cfg.modulus .p) ∧
      OnW s.cfg (s.pw 3) ∧ (s.pw 3).x ≠ (s.pw 0).x) :=
  ⟨wit_prime_fields, wit_curve_ok, by decide, wit_full_groups.2.2.2.1, wit_full_groups.2.1,
    wit_full_groups.2.2.2.2.2.1, by decide +kernel, by unfold OnW; decide +kernel⟩

theorem wit_EdwardsPolynomials : full.cfg.sized = true ∧ full.cfg.edwEn = true ∧ 28 + 4 ≤ 32 ∧ full.ReadsGroup 28 4 ∧
    full.ReadsGroup 10 4 :=
  ⟨wit_sized.1, rfl, by decide, wit_full_groups.2.2.1, wit_full_groups.2.2.2.2.2.2.1⟩

/-- The identity and H_T. -/
theorem wit_EdwardsNegationAndTests : full.cfg.sized = true ∧ full.cfg.edwEn = true ∧ 28 + 4 ≤ 32 ∧
    full.ReadsGroup 18 4 ∧ full.pe 18 = ⟨0, 1, 1, 0⟩ ∧ full.ReadsGroup 10 4 :=
  ⟨wit_sized.1, rfl, by decide, wit_full_groups.2.2.2.2.2.2.2.2, by decide +kernel, wit_full_groups.2.2.2.2.2.2.1⟩

/-- H_T with its negative, and with the identity. -/
theorem wit_EdwardsAdditionIsComplete : full.cfg.PrimeFields ∧ full.cfg.edwEn = true ∧ full.cfg.EdwardsOk ∧
    28 + 4 ≤ 32 ∧ full.ReadsGroup 10 4 ∧ full.ReadsGroup 14 4 ∧ full.ReadsGroup 18 4 ∧ OnE full.cfg (full.pe 10) ∧
    OnE full.cfg (full.pe 14) ∧ OnE full.cfg (full.pe 18) :=
  ⟨wit_prime_fields, rfl, wit_edwards_ok, by decide, wit_full_groups.2.2.2.2.2.2.1, wit_full_groups.2.2.2.2.2.2.2.1,
    wit_full_groups.2.2.2.2.2.2.2.2, by unfold OnE; decide +kernel, by unfold OnE; decide +kernel,
    by unfold OnE; decide +kernel⟩

/-- The scalars 0 and 12, under each modulus. -/
theorem wit_ScalarMultiplicationLadder : full.cfg.sized = true ∧ full.Reads .q 26 ∧ full.Reads .q 0 ∧
    full.val .q 0 = 0 ∧ full.Reads .p 26 ∧ 29 + 3 ≤ 32 ∧ full.ReadsGroup 29 3 ∧ full.cfg.edwEn = true ∧ 28 + 4 ≤ 32 ∧
    full.ReadsGroup 10 4 :=
  ⟨wit_sized.1, wit_full_reads _ _ (by decide), wit_full_reads _ _ (by decide), by decide +kernel,
    wit_full_reads _ _ (by decide), by decide, wit_full_groups.2.1, rfl, by decide, wit_full_groups.2.2.2.2.2.2.1⟩

/-- The multipliers 1 and others, on each curve: TOY109 has 1 and 32. -/
theorem wit_CofactorClearing : full.cfg.sized = true ∧ 29 + 3 ≤ 32 ∧ full.ReadsGroup 29 3 ∧ full.cfg.cwH = 1 ∧
    full.cfg.edwEn = true ∧ 28 + 4 ≤ 32 ∧ full.ReadsGroup 10 4 ∧ full.cfg.ceH ≠ 1 ∧
    (let s : State := { full with cfg := { Config.toy109 with cwH := 2, ceH := 1 } }
    s.cfg.sized = true ∧ s.cfg.cwH ≠ 1 ∧ s.cfg.ceH = 1 ∧ s.ReadsGroup 29 3 ∧ s.ReadsGroup 10 4) :=
  ⟨wit_sized.1, by decide, wit_full_groups.2.1, rfl, rfl, by decide, wit_full_groups.2.2.2.2.2.2.1, by decide,
    by decide +kernel, by decide, rfl, wit_full_groups.2.1, wit_full_groups.2.2.2.2.2.2.1⟩

/-- The digests of 47_hash.md R307 for some hash. -/
def digests (hash : List Byte → List Byte) (msg dst : List Byte) (n : Nat) : Nat → List Byte
  | 0 => hash (List.replicate 128 0#8 ++ msg ++ [BitVec.ofNat 8 (n / 256), BitVec.ofNat 8 n] ++ [0#8]
      ++ (dst ++ [BitVec.ofNat 8 dst.length]))
  | 1 => hash (hash (List.replicate 128 0#8 ++ msg ++ [BitVec.ofNat 8 (n / 256), BitVec.ofNat 8 n] ++ [0#8]
      ++ (dst ++ [BitVec.ofNat 8 dst.length])) ++ [1#8] ++ (dst ++ [BitVec.ofNat 8 dst.length]))
  | i + 2 => hash (List.zipWith (fun x y => x ^^^ y) (hash (List.replicate 128 0#8 ++ msg
      ++ [BitVec.ofNat 8 (n / 256), BitVec.ofNat 8 n] ++ [0#8] ++ (dst ++ [BitVec.ofNat 8 dst.length])))
      (digests hash msg dst n (i + 1)) ++ [BitVec.ofNat 8 (i + 2)] ++ (dst ++ [BitVec.ofNat 8 dst.length]))

/-- The digests exist, for every hash, and for n = 129 there are three of them. -/
theorem wit_ExpanderDigestChain (hash : List Byte → List Byte) (msg dst : List Byte) :
    let b := digests hash msg dst 129
    b 0 = hash (List.replicate 128 0#8 ++ msg ++ [BitVec.ofNat 8 (129 / 256), BitVec.ofNat 8 129] ++ [0#8]
      ++ (dst ++ [BitVec.ofNat 8 dst.length])) ∧
    b 1 = hash (b 0 ++ [1#8] ++ (dst ++ [BitVec.ofNat 8 dst.length])) ∧
    (∀ i, 2 ≤ i → i ≤ (129 + 63) / 64 → b i = hash (List.zipWith (fun x y => x ^^^ y) (b 0) (b (i - 1))
      ++ [BitVec.ofNat 8 i] ++ (dst ++ [BitVec.ofNat 8 dst.length]))) ∧ (129 + 63) / 64 = 3 := by
  refine ⟨rfl, rfl, fun i h _ => ?_, rfl⟩
  obtain ⟨k, rfl⟩ : ∃ k, i = k + 2 := ⟨i - 2, by omega⟩
  rfl

/-- A tag of 255 bytes and a message that end with MEM; an output that does; 32 elements, and 1 at the last register. -/
theorem wit_HashingCommands :
    (let s : State := { stateAbc with dstaddr := 0xF01, dstlen := 255, msgaddr := 0xFFF, msglen := 1, xmdlen := 16 }
    s.cfg.sized = true ∧
      (s.msgaddr.toNat + s.msglen.toNat = 4096 ∧ s.dstaddr.toNat + s.dstlen.toNat = 4096 ∧ s.dstlen.toNat = 255) ∧
      0xFF0 + s.xmdlen.toNat = 4096 ∧ Memory.wf memSize s.mem = true) ∧ 0 + 32 ≤ 32 ∧ 31 + 1 ≤ 32 := by
  decide +kernel

/-- Without an isogeny and with one; u = 0, where w is 0, and u = 1. -/
theorem wit_SswuMapping : full.cfg.PrimeFields ∧ full.cfg.h2cEn = true ∧ full.cfg.SswuOk ∧ full.cfg.isoEn = false ∧
    28 + 4 ≤ 32 ∧ full.Reads .p 0 ∧ full.val .p 0 = 0 ∧ full.Reads .p 31 ∧ full.val .p 31 = 1 ∧
    (let s : State := { full with cfg := toyIso }
    s.cfg.PrimeFields ∧ s.cfg.h2cEn = true ∧ s.cfg.SswuOk ∧ s.cfg.isoEn = true ∧ s.Reads .p 31) :=
  ⟨wit_prime_fields, rfl, wit_sswu_ok, rfl, by decide, wit_full_reads _ _ (by decide), by decide +kernel,
    wit_full_reads _ _ (by decide), by decide +kernel, wit_iso.2.2.2, rfl, wit_iso.2.2.1, rfl,
    wit_full_reads .p 31 (by decide)⟩

/-- A fraction with nonzero denominators and one with a zero denominator. -/
theorem wit_FractionToPoint : full.cfg.sized = true ∧ 29 + 3 ≤ 32 ∧ full.ReadsGroup 10 4 ∧
    (full.fraction 10).xd * (full.fraction 10).yd % full.cfg.p ≠ 0 ∧ full.ReadsGroup 28 4 ∧
    (full.fraction 28).xd * (full.fraction 28).yd % full.cfg.p = 0 :=
  ⟨wit_sized.1, by decide, wit_full_groups.2.2.2.2.2.2.1, by decide +kernel, wit_full_groups.2.2.1, by decide +kernel⟩

theorem wit_HashToCurveIsItsSequence : stateAbc.cfg.sized = true ∧ stateAbc.cfg.h2cEn = true ∧ 29 + 3 ≤ 32 ∧
    stateAbc.HashInputsOk := ⟨wit_sized.1, rfl, by decide, by decide, by decide, by decide⟩

theorem wit_CtrlStartsAndAborts :
    (0x3 : BitVec 32).getLsbD 2 = false ∧ (0x2 : BitVec 32).getLsbD 2 = false ∧
    (let s : State := { full with turns := [.bus ⟨0x008, 4, .write 0x3⟩] }
    s.run = .idle ∧ (0x3 : BitVec 32).getLsbD 0 = true) ∧ (0x2 : BitVec 32).getLsbD 0 = false ∧
    ({ running 0 0 with turns := [.bus ⟨0x008, 4, .write 0x2⟩] } : State).run = .run := by decide

theorem wit_ResetsLeaveTheirValues :
    ({ full with turns := [.bus ⟨0x008, 4, .write 0x4⟩, .rst] } : State).turns =
      .bus ⟨0x008, 4, .write 0x4⟩ :: [.rst] ∧ (0x4 : BitVec 32).getLsbD 2 = true ∧ full.run = .idle ∧
    ({ running 0 0 with turns := [.rst] } : State).turns = .rst :: [] := by decide

theorem wit_InterruptOutputAndClearing :
    ({ full with turns := [.bus ⟨0x024, 4, .write 0x3⟩] } : State).turns = .bus ⟨0x024, 4, .write 0x3⟩ :: [] ∧
    ({ full with turns := [.bus ⟨0x020, 4, .write 0x2⟩] } : State).turns = .bus ⟨0x020, 4, .write 0x2⟩ :: [] := by
  decide

theorem wit_HostReadsHaveNoEffect :
    ({ running 0 0 with turns := [.bus ⟨0x1FFC, 4, .read⟩, .bus ⟨0x1FFC, 4, .read⟩] } : State).turns =
      .bus ⟨0x1FFC, 4, .read⟩ :: .bus ⟨0x1FFC, 4, .read⟩ :: [] := by decide

/-- Accesses at the edges of each range. -/
theorem wit_RefusedAccessesChangeNothing :
    ∀ off ∈ [(0x044 : BitVec 13), 0x048, 0x3FC, 0x400, 0x7FC, 0x800, 0xFFC, 0x1000, 0x1FFF],
      ∀ op ∈ [BusOp.read, .write 5],
        ({ running 0 0 with turns := [.bus ⟨off, 4, op⟩] } : State).turns = .bus ⟨off, 4, op⟩ :: [] :=
  fun _ _ _ _ => rfl

theorem wit_HostLanesAndWords : full.run = .idle ∧ Memory.wf memSize full.mem = true ∧
    Memory.wf imemSize full.imem = true ∧ 0x1000 ≤ (0x1FFC : BitVec 13).toNat ∧ (0x1FFC : BitVec 13).toNat % 4 = 0 ∧
    (0x1FFE : BitVec 13).toNat % 2 = 0 ∧ 0x1000 ≤ (0x1FFF : BitVec 13).toNat ∧ 0x400 ≤ (0x7FC : BitVec 13).toNat ∧
    (0x7FC : BitVec 13).toNat < 0x800 ∧ (0x7FC : BitVec 13).toNat % 4 = 0 ∧
    ({ full with turns := [.bus ⟨0x1FFC, 4, .write 1⟩] } : State).turns = .bus ⟨0x1FFC, 4, .write 1⟩ :: [] ∧
    ({ full with turns := [.bus ⟨0x1FFC, 4, .read⟩] } : State).turns = .bus ⟨0x1FFC, 4, .read⟩ :: [] := by decide

theorem wit_IdleCsrWritesStoreTheirField : ∀ o ∈ [(0x010 : BitVec 13), 0x028, 0x02C, 0x030, 0x034, 0x038],
    ({ full with turns := [.bus ⟨o, 4, .write 0xFFFFFFFF⟩] } : State).turns = .bus ⟨o, 4, .write 0xFFFFFFFF⟩ :: [] ∧
    ({ full with turns := [.bus ⟨o, 4, .write 0xFFFFFFFF⟩] } : State).run = .idle := fun _ _ => ⟨rfl, rfl⟩

theorem wit_ReadOnlyCsrViews : full.cfg.sized = true ∧ full.run = .idle := ⟨wit_sized.1, rfl⟩

/-- `pc` at 254 with a command that completes there, at 255 with a word that is no command, and past the end. -/
theorem wit_PcReadDuringARun :
    ∀ s ∈ [running 254 0x08000000, running 255 0, pastTheEnd], s.run = .run ∧ s.pc.toNat ≤ 256 := by decide

theorem wit_PcReadDuringARun_failing : (running 255 0).firstFailure ≠ none ∧ pastTheEnd.firstFailure ≠ none := by
  decide +kernel

end Sys2Proof.Tests
end

section
/-! PROOFS. The configuration is fixed (00_scope.md R9): every operation on the state keeps the field `cfg`, one
lemma per operation, and so every turn does. -/

namespace Sys2Proof.Machine

/-! ### The sequencer -/

theorem State.Wrote.cfg_eq {s t : State} {i : Instr} {ws : List FWord} {b : Bool} {bs : List Byte}
    (h : s.Wrote i ws b bs t) : t.cfg = s.cfg := by
  rw [h.frame]

/-- A turn of the sequencer in IDLE changes nothing (log entry 24). -/
theorem sequencerStep_of_idle {s : State} (h : s.run = .idle) : s.sequencerStep = .next s := by
  simp only [State.sequencerStep, h]

theorem sequencerStep_cfg {s t : State} (h : s.sequencerStep = .next t) : t.cfg = s.cfg := by
  cases hr : s.run with
  | idle =>
    rw [sequencerStep_of_idle hr] at h
    cases h
    rfl
  | run =>
    rcases sequencerStep_cases hr h with ⟨e, w, _, _, rfl⟩ | ⟨_, _, _, _, rfl⟩ |
      ⟨_, _, _, i, _, _, _, _, ws, b, bs, u, hw, rfl⟩
    · exact State.errorStop_cfg s e w
    · exact State.haltStop_cfg s
    · exact (State.retire_cfg u).trans hw.cfg_eq

/-! ### The host's bus -/

@[simp] theorem State.ctrlWrite_cfg (s : State) (d : BitVec 32) : (s.ctrlWrite d).cfg = s.cfg := by
  unfold State.ctrlWrite
  split
  · exact State.softReset_cfg s
  · cases s.run with
    | idle =>
      dsimp only
      split
      · exact State.start_cfg s
      · rfl
    | run =>
      dsimp only
      split <;> rfl

@[simp] theorem State.idleCsrWrite_cfg (s : State) (off : Nat) (d : BitVec 32) :
    (s.idleCsrWrite off d).cfg = s.cfg := by
  unfold State.idleCsrWrite
  split <;> rfl

@[simp] theorem State.csrWrite_cfg (s : State) (off : Nat) (d : BitVec 32) : (s.csrWrite off d).cfg = s.cfg := by
  unfold State.csrWrite
  split
  · exact State.ctrlWrite_cfg s d
  · rfl
  · rfl
  · split
    · exact State.idleCsrWrite_cfg s off d
    · rfl

@[simp] theorem State.busWriteEffect_cfg (s : State) (off size : Nat) (d : BitVec 32) :
    (s.busWriteEffect off size d).cfg = s.cfg := by
  unfold State.busWriteEffect
  split
  · rfl
  · split
    · exact State.csrWrite_cfg s off d
    · split <;> rfl
    · split
      · exact State.memWrite_cfg s _ _
      · rfl
    · rfl

@[simp] theorem State.busAccess_cfg (s : State) (a : BusAccess) : (s.busAccess a).cfg = s.cfg := by
  unfold State.busAccess
  split
  · rfl
  · exact State.busWriteEffect_cfg s _ _ _

/-! ### Every turn -/

/-- Everything a step can do, by whose turn it is (log entry 8). -/
theorem step_cases {s t : State} (h : step s = .next t) :
    (s.turns = [] ∧ s.sequencerStep = .next t) ∨
    (∃ rest, s.turns = .engine :: rest ∧ State.sequencerStep { s with turns := rest } = .next t) ∨
    (∃ a rest, s.turns = .bus a :: rest ∧ t = State.busAccess { s with turns := rest } a) ∨
    (∃ rest, s.turns = .rst :: rest ∧ t = State.powerOn { s with turns := rest }) := by
  unfold step at h
  split at h
  case h_1 ht => exact .inl ⟨ht, h⟩
  case h_2 rest ht => exact .inr (.inl ⟨rest, ht, h⟩)
  case h_3 a rest ht => exact .inr (.inr (.inl ⟨a, rest, ht, (Host.Outcome.next.inj h).symm⟩))
  case h_4 rest ht => exact .inr (.inr (.inr ⟨rest, ht, (Host.Outcome.next.inj h).symm⟩))

theorem step_cfg {s t : State} (h : step s = .next t) : t.cfg = s.cfg := by
  rcases step_cases h with ⟨_, hs⟩ | ⟨rest, _, hs⟩ | ⟨a, rest, _, rfl⟩ | ⟨rest, _, rfl⟩
  · exact sequencerStep_cfg hs
  · exact sequencerStep_cfg (s := { s with turns := rest }) hs
  · exact State.busAccess_cfg _ a
  · exact State.powerOn_cfg _

/-- Settles O13, by whose turn it is (`step_cases`): the sequencer, the host's bus and the reset input each keep `cfg`. -/
theorem configurationNeverChanges : Obligations.ConfigurationNeverChanges := fun _ _ => step_cfg

end Sys2Proof.Machine
end

section
/-! PROOFS. What the effect of a command writes, accessor by accessor, and the frame of every command (10_state.md R51):
the rules that follow from `State.Wrote` and from the checks that passed. -/

namespace Sys2Proof.Machine

/-! ### An optional mask -/

@[simp] theorem State.word_setMaskOpt (s : State) (o : Option MReg) (b : Bool) (r : Nat) :
    (s.setMaskOpt o b).word r = s.word r := by
  cases o <;> rfl

@[simp] theorem State.fvalid_setMaskOpt (s : State) (o : Option MReg) (b : Bool) (r : Nat) :
    (s.setMaskOpt o b).fvalid r = s.fvalid r := by
  cases o <;> rfl

@[simp] theorem State.setMaskOpt_mem (s : State) (o : Option MReg) (b : Bool) : (s.setMaskOpt o b).mem = s.mem := by
  cases o <;> rfl

theorem State.mask_setMaskOpt_other (s : State) {o : Option MReg} (b : Bool) {j : MReg} (h : o ≠ some j) :
    (s.setMaskOpt o b).mask j = s.mask j := by
  cases o with
  | none => rfl
  | some k => exact (State.mask_setM s k j b).trans (if_neg fun hk => h (congrArg some hk))

theorem State.mvalid_setMaskOpt (s : State) (o : Option MReg) (b : Bool) (j : MReg) :
    (s.setMaskOpt o b).mvalid j = if o = some j then true else s.mvalid j := by
  cases o with
  | none => rfl
  | some k =>
    simp only [Option.some_inj]
    exact State.mvalid_setM s k j b

/-! ### What a command wrote -/

section
variable {s t : State} {i : Instr} {ws : List FWord} {b : Bool} {bs : List Byte}

theorem State.Wrote.word (h : s.Wrote i ws b bs t) (r : Nat) : t.word r = (s.setFs i.dest.1 ws).word r := by
  rw [h.eq, State.word_memWrite, State.word_setMaskOpt]

theorem State.Wrote.fvalid (h : s.Wrote i ws b bs t) (r : Nat) : t.fvalid r = (s.setFs i.dest.1 ws).fvalid r := by
  rw [h.eq, State.fvalid_memWrite, State.fvalid_setMaskOpt]

theorem State.Wrote.mask_other (h : s.Wrote i ws b bs t) {j : MReg} (hj : i.destMask ≠ some j) :
    t.mask j = s.mask j := by
  rw [h.eq, State.mask_memWrite, State.mask_setMaskOpt_other _ _ hj, State.mask_setFs]

theorem State.Wrote.mvalid (h : s.Wrote i ws b bs t) (j : MReg) :
    t.mvalid j = if i.destMask = some j then true else s.mvalid j := by
  rw [h.eq, State.mvalid_memWrite, State.mvalid_setMaskOpt, State.mvalid_setFs]

theorem State.Wrote.mem (h : s.Wrote i ws b bs t) : t.mem = s.mem.writeList (s.storeOf i).1 bs := by
  rw [h.eq, State.memWrite_mem, State.setMaskOpt_mem, State.setFs_mem]

theorem State.Wrote.fvalid_mono (h : s.Wrote i ws b bs t) {r : Nat} (hr : s.fvalid r = true) :
    t.fvalid r = true := by
  rw [h.fvalid]
  exact State.fvalid_setFs_mono s _ _ ws hr

theorem State.Wrote.mvalid_mono (h : s.Wrote i ws b bs t) {j : MReg} (hj : s.mvalid j = true) :
    t.mvalid j = true := by
  rw [h.mvalid, hj, ite_self]

theorem State.Wrote.word_lt (h : s.Wrote i ws b bs t) (hc : s.cfg.sized = true) (hw : ∀ r, s.word r < s.cfg.radix)
    (r : Nat) : t.word r < s.cfg.radix := by
  rw [h.word]
  rcases State.word_setFs_cases s i.dest.1 r ws with ho | hn
  · exact ho ▸ hw r
  · exact h.small hc hw _ hn

end

/-! ### What the checks that passed give -/

theorem State.operandError_eq_none {s : State} {i : Instr} (h : s.operandError i = none) :
    (∀ g ∈ i.groups, g.1 + g.2 ≤ 32) ∧ ∀ r ∈ s.rangesOf i, r.1 + r.2 ≤ 4096 := by
  unfold State.operandError at h
  split_ifs at h with _ hg hr
  push Not at hg hr
  exact ⟨hg, hr⟩

/-- The destination is one register at most or a group that is checked (30_encoding.md R117). -/
theorem dest_cases (i : Instr) : i.dest.1 + i.dest.2 ≤ 32 ∨ i.dest ∈ i.groups := by
  cases i <;> simp only [Instr.dest, Instr.groups, List.mem_cons, true_or, or_true] <;> omega

/-- A range that is stored to is a range that is checked (60_exceptions.md R347). -/
theorem State.storeOf_cases (s : State) (i : Instr) : s.storeOf i = (0, 0) ∨ s.storeOf i ∈ s.rangesOf i := by
  cases i <;> simp [State.storeOf, State.rangesOf]

theorem dest_fits {s : State} {i : Instr} (h : s.operandError i = none) : i.dest.1 + i.dest.2 ≤ 32 :=
  (dest_cases i).elim id ((State.operandError_eq_none h).1 _)

theorem State.storeOf_fits {s : State} {i : Instr} (h : s.operandError i = none) :
    (s.storeOf i).1 + (s.storeOf i).2 ≤ 4096 := by
  rcases s.storeOf_cases i with h0 | hr
  · rw [h0]; omega
  · exact (State.operandError_eq_none h).2 _ hr

/-! ### The frame of a command -/

/-- Settles O11: `exec_cases` says what the effect writes, and the accessors of `State.Wrote` read it off. -/
theorem commandWritesOnlyItsDestinations : Obligations.CommandWritesOnlyItsDestinations := by
  intro i s hi ho
  obtain ⟨e, he, -, -⟩ | ⟨-, ws, b, bs, u, hw, hx⟩ := exec_cases i hi s
  · exact absurd (ho.symm.trans he) (by simp)
  refine ⟨u.retire, hx, ?_, fun r hr => ?_, fun k hk => ?_, fun j hj => ?_, fun j hj => ?_, fun a ha => ?_⟩
  · rw [hw.frame]; rfl
  · rw [← hw.count] at hr
    rw [State.word_retire, State.fvalid_retire, hw.word, hw.fvalid]
    exact ⟨State.word_setFs_outside s hr, State.fvalid_setFs_outside s hr⟩
  · rw [State.fvalid_retire, hw.fvalid]
    exact State.fvalid_setFs_inside s (hw.count ▸ hk) (hw.count ▸ dest_fits ho)
  · rw [State.mask_retire, State.mvalid_retire, hw.mask_other hj, hw.mvalid, if_neg hj]
    exact ⟨rfl, rfl⟩
  · rw [State.mvalid_retire, hw.mvalid, if_pos hj]
  · rw [State.retire_mem, hw.mem]
    have hl := hw.stored
    exact Memory.read_writeList_outside _ _ (by omega)

end Sys2Proof.Machine
end

section
/-! PROOFS. The invariant of the machine: it holds after reset, and every operation that a turn is made of keeps it, one
lemma per operation. -/

namespace Sys2Proof.Machine

/-! ### After reset -/

theorem pallas_sized : Config.pallas.sized = true := by decide +kernel

theorem radix_pos (c : Config) : 0 < c.radix := Nat.two_pow_pos _

theorem State.reset_word (i : Nat) : State.reset.word i = 0 := by
  simp only [State.word, State.reset, Vector.getElem?_replicate]
  split <;> rfl

/-- Settles O15: the reset state meets every clause, with all registers 0 and both memories empty. -/
theorem invariantAfterReset : Obligations.InvariantAfterReset where
  sized := pallas_sized
  mem := reset_mem_wf
  imem := reset_imem_wf
  words i := (State.reset_word i).symm ▸ radix_pos _
  pc := Nat.zero_le _
  errpc := Nat.zero_le _
  status h := Bool.noConfusion h.1
  errcode := iff_of_false Bool.noConfusion (fun h => h rfl)
  running h := RunState.noConfusion h
  counted h := RunState.noConfusion h
  abort h := Bool.noConfusion h

/-! ### The sequencer -/

/-- The invariant says nothing about the model's own fields but `cfg`. -/
theorem State.Inv.own {s : State} (h : s.Inv) (ts : List Turn) (a : BusResponse) (c w : Nat) :
    State.Inv { s with turns := ts, resp := a, clock := c, writes := w } :=
  ⟨h.sized, h.mem, h.imem, h.words, h.pc, h.errpc, h.status, h.errcode, h.running, h.counted, h.abort⟩

theorem State.Inv.withTurns {s : State} (h : s.Inv) (ts : List Turn) : State.Inv { s with turns := ts } :=
  h.own ts s.resp s.clock s.writes

/-- `pc` counts on from an index inside IMEM without wrapping around. -/
theorem pc_succ_toNat {pc : BitVec 9} (h : pc.toNat < 256) : (pc + 1).toNat = pc.toNat + 1 :=
  BitVec.toNat_add_of_lt (y := 1) (show pc.toNat + 1 < 2 ^ 9 by omega)

/-- RETIRED does not wrap around within a run (10_state.md R53). -/
theorem retired_succ_toNat {r : BitVec 32} (h : r.toNat ≤ 256) : (r + 1).toNat = r.toNat + 1 :=
  BitVec.toNat_add_of_lt (y := 1) (show r.toNat + 1 < 2 ^ 32 by omega)

/-- In RUN the count of commands has not wrapped around (10_state.md R53). -/
theorem State.Inv.retired_le {s : State} (h : s.Inv) (hr : s.run = .run) : s.retired.toNat ≤ s.pc.toNat := by
  have hc := h.counted hr
  omega

theorem State.Inv.stopped {s : State} (h : s.Inv) {e : ErrorCode} (he : e ≠ .none) (w : Insn) :
    (s.stopped e w).Inv where
  sized := h.sized
  mem := h.mem
  imem := h.imem
  words := h.words
  pc := h.pc
  errpc := h.pc
  status hs := Bool.noConfusion hs.1
  errcode := iff_of_true rfl he
  running hr := RunState.noConfusion hr
  counted hr := RunState.noConfusion hr
  abort ha := Bool.noConfusion ha

theorem State.Inv.haltStop {s : State} (h : s.Inv) (hr : s.run = .run) : s.haltStop.Inv where
  sized := h.sized
  mem := h.mem
  imem := h.imem
  words := h.words
  pc := h.pc
  errpc := h.errpc
  status hs := Bool.noConfusion ((h.running hr).2.symm.trans hs.2)
  errcode := h.errcode
  running hr := RunState.noConfusion hr
  counted hr := RunState.noConfusion hr
  abort ha := Bool.noConfusion ha

/-- A command that completes writes words of W bits and bytes inside MEM, and moves `pc` and RETIRED on together. -/
theorem State.Inv.retire_wrote {s u : State} (h : s.Inv) (hr : s.run = .run) (hp : s.pc.toNat < 256) {i : Instr}
    (ho : s.operandError i = none) {ws : List FWord} {b : Bool} {bs : List Byte} (hw : s.Wrote i ws b bs u) :
    u.retire.Inv := by
  have hword := hw.word_lt h.sized h.words
  have hmem : Memory.wf memSize u.mem = true := by
    have hs := hw.stored
    have hf := State.storeOf_fits ho
    rw [hw.mem]
    exact Memory.wf_writeList h.mem (by rw [memSize]; omega)
  have hpc := pc_succ_toNat hp
  have hret := retired_succ_toNat ((h.retired_le hr).trans h.pc)
  obtain ⟨f, fv, m, mv, mem, rfl⟩ :
      ∃ f fv m mv mem, u = { s with f := f, fv := fv, m := m, mv := mv, mem := mem } :=
    ⟨_, _, _, _, _, hw.frame⟩
  exact {
    sized := h.sized
    mem := hmem
    imem := h.imem
    words := hword
    pc := hpc.trans_le hp
    errpc := h.errpc
    status := h.status
    errcode := h.errcode
    running := h.running
    counted := fun _ => by
      have hc := h.counted hr
      change (s.pc + 1).toNat = s.entry.toNat + (s.retired + 1).toNat
      omega
    abort := h.abort }

theorem State.Inv.sequencerStep {s t : State} (h : s.Inv) (ht : s.sequencerStep = .next t) : t.Inv := by
  cases hr : s.run with
  | idle =>
    rw [sequencerStep_of_idle hr] at ht
    cases ht
    exact h
  | run =>
    rcases sequencerStep_cases hr ht with ⟨e, w, _, he, rfl⟩ | ⟨_, _, _, _, rfl⟩ |
      ⟨_, _, hp, i, _, _, ho, _, ws, b, bs, u, hw, rfl⟩
    · exact h.stopped he w
    · exact h.haltStop hr
    · exact h.retire_wrote hr hp ho hw

/-! ### The resets -/

theorem State.word_lt_of_ofFn {s : State} {g : Nat → Nat} (c : Config)
    (h : s.f = Vector.ofFn fun i => g i.val % c.radix) (i : Nat) : s.word i < c.radix := by
  rw [State.word, h, Vector.getElem?_ofFn]
  split
  · exact Nat.mod_lt _ (radix_pos c)
  · exact radix_pos c

theorem State.Inv.softReset {s : State} (h : s.Inv) : s.softReset.Inv where
  sized := by rw [State.softReset_cfg]; exact h.sized
  mem := by
    cases hr : s.run with
    | idle => rw [State.softReset_mem_idle s hr]; exact h.mem
    | run => rw [State.softReset_mem_run s hr]; exact Memory.wf_tabulate _ _ _ le_rfl
  imem := by rw [State.softReset_imem]; exact h.imem
  words := by rw [State.softReset_cfg]; exact State.word_lt_of_ofFn s.cfg (State.softReset_f s)
  pc := by simp
  errpc := by simp
  status := by simp
  errcode := by simp
  running := by simp
  counted := by simp
  abort := by simp

theorem State.Inv.powerOn {s : State} (h : s.Inv) : s.powerOn.Inv where
  sized := by rw [State.powerOn_cfg]; exact h.sized
  mem := by rw [State.powerOn_mem]; exact Memory.wf_tabulate _ _ _ le_rfl
  imem := by rw [State.powerOn_imem]; exact Memory.wf_tabulate _ _ _ le_rfl
  words := by rw [State.powerOn_cfg]; exact State.word_lt_of_ofFn s.cfg (State.powerOn_f s)
  pc := by simp
  errpc := by simp
  status := by simp
  errcode := by simp
  running := by simp
  counted := by simp
  abort := by simp

/-! ### The host's writes -/

/-- START begins at ENTRY with nothing counted (10_state.md R50). -/
theorem State.Inv.start {s : State} (h : s.Inv) : s.start.Inv := by
  have hpc : (s.entry.setWidth 9).toNat = s.entry.toNat := BitVec.toNat_setWidth_of_le (by decide)
  have hentry := s.entry.isLt
  exact {
    sized := h.sized
    mem := h.mem
    imem := h.imem
    words := h.words
    pc := by rw [State.start_pc]; omega
    errpc := h.errpc
    status := fun hs => Bool.noConfusion hs.1
    errcode := iff_of_false Bool.noConfusion (fun hn => hn rfl)
    running := fun _ => ⟨rfl, rfl⟩
    counted := fun _ => hpc
    abort := fun ha => Bool.noConfusion ha }

theorem State.Inv.requestAbort {s : State} (h : s.Inv) (hr : s.run = .run) : State.Inv { s with abortReq := true } :=
  ⟨h.sized, h.mem, h.imem, h.words, h.pc, h.errpc, h.status, h.errcode, h.running, h.counted, fun _ => hr⟩

theorem State.Inv.ctrlWrite {s : State} (h : s.Inv) (d : BitVec 32) : (s.ctrlWrite d).Inv := by
  unfold State.ctrlWrite
  split
  · exact h.softReset
  · split
    case h_1 =>
      split
      · exact h.start
      · exact h
    case h_2 hr =>
      split
      · exact h.requestAbort hr
      · exact h

/-- A write of a read-write CSR in IDLE: the registers it reaches are in no clause that IDLE leaves. -/
theorem State.Inv.idleCsrWrite {s : State} (h : s.Inv) (hr : s.run = .idle) (off : Nat) (d : BitVec 32) :
    (s.idleCsrWrite off d).Inv := by
  unfold State.idleCsrWrite
  split
  case h_1 =>
    exact ⟨h.sized, h.mem, h.imem, h.words, h.pc, h.errpc, h.status, h.errcode, h.running,
      fun hc => RunState.noConfusion (hr.symm.trans hc), h.abort⟩
  case h_7 => exact h
  all_goals
    exact ⟨h.sized, h.mem, h.imem, h.words, h.pc, h.errpc, h.status, h.errcode, h.running, h.counted, h.abort⟩

theorem State.Inv.csrWrite {s : State} (h : s.Inv) (off : Nat) (d : BitVec 32) : (s.csrWrite off d).Inv := by
  unfold State.csrWrite
  split
  case h_1 => exact h.ctrlWrite d
  case h_2 | h_3 =>
    exact ⟨h.sized, h.mem, h.imem, h.words, h.pc, h.errpc, h.status, h.errcode, h.running, h.counted, h.abort⟩
  case h_4 =>
    cases hr : s.run with
    | idle => exact h.idleCsrWrite hr off d
    | run => exact h

/-- An offset in the IMEM range is that of one of its 256 words (20_memory.md R75). -/
theorem imem_index_lt {off : Nat} (h : windowRange off = .imem) : (off - 0x400) / 4 < imemSize := by
  unfold windowRange at h
  split_ifs at h
  rw [imemSize]
  omega

/-- An access of MEM that gets no bus error ends inside MEM (20_memory.md R75, R79). -/
theorem mem_access_fits {off size : Nat} (ho : off < 0x2000) (h : windowRange off = .mem)
    (he : busError off size = false) : off - 0x1000 + size ≤ memSize := by
  simp only [busError, h, Bool.not_eq_false', Bool.and_eq_true, Bool.or_eq_true, decide_eq_true_eq] at he
  unfold windowRange at h
  split_ifs at h
  rw [memSize]
  obtain ⟨(rfl | rfl) | rfl, hm⟩ := he <;> omega

theorem State.Inv.withImem {s : State} (h : s.Inv) {m : Memory 32} (hm : m.wf imemSize = true) :
    State.Inv { s with imem := m } :=
  ⟨h.sized, h.mem, hm, h.words, h.pc, h.errpc, h.status, h.errcode, h.running, h.counted, h.abort⟩

theorem State.Inv.memWrite {s : State} (h : s.Inv) {a : Nat} {bs : List Byte} (ha : a + bs.length ≤ memSize) :
    (s.memWrite a bs).Inv :=
  ⟨h.sized, Memory.wf_writeList h.mem ha, h.imem, h.words, h.pc, h.errpc, h.status, h.errcode, h.running, h.counted,
    h.abort⟩

theorem State.Inv.busWriteEffect {s : State} (h : s.Inv) {off : Nat} (ho : off < 0x2000) (size : Nat)
    (d : BitVec 32) : (s.busWriteEffect off size d).Inv := by
  unfold State.busWriteEffect
  split
  case isTrue => exact h
  case isFalse he =>
    split
    case h_1 => exact h.csrWrite off d
    case h_2 hw =>
      split
      · exact h.withImem (Memory.wf_write (imem_index_lt hw) h.imem)
      · exact h
    case h_3 hw =>
      split
      · exact h.memWrite (by simpa using mem_access_fits ho hw (Bool.not_eq_true _ ▸ he))
      · exact h
    case h_4 => exact h

theorem State.Inv.busAccess {s : State} (h : s.Inv) (a : BusAccess) : (s.busAccess a).Inv := by
  obtain ⟨off, size, op⟩ := a
  cases op with
  | read => exact h.own s.turns (s.busRead off.toNat size) s.clock s.writes
  | write d =>
    have ht := h.busWriteEffect off.isLt size d
    exact ht.own _ _ _ _

/-- Settles O16, by whose turn it is: the sequencer, the host's bus and the reset input each keep the invariant. -/
theorem stepKeepsTheInvariant : Obligations.StepKeepsTheInvariant := by
  intro s t h ht
  rcases step_cases ht with ⟨_, hs⟩ | ⟨rest, _, hs⟩ | ⟨a, rest, _, rfl⟩ | ⟨rest, _, rfl⟩
  · exact h.sequencerStep hs
  · exact (h.withTurns rest).sequencerStep hs
  · exact (h.withTurns rest).busAccess a
  · exact (h.withTurns rest).powerOn

end Sys2Proof.Machine
end

section
/-! PROOFS. Runs that the host leaves alone (10_state.md R51 to R53): what a step of the sequencer executes, how a run ends
and when, and where the host can see it stand. -/

namespace Sys2Proof.Machine

/-! ### One step -/

theorem sequencerStep_of_decode {s : State} {i : Instr} (hr : s.run = .run) (ha : s.abortReq = false)
    (hp : s.pc.toNat < 256) (hd : decode s.fetch = .ok i) : s.sequencerStep = exec i s := by
  have hp' : ¬256 ≤ s.pc.toNat := by omega
  simp only [State.sequencerStep, hr, ha, hp', hd, Bool.false_eq_true, if_false]

/-! A turn acts on the state with that turn taken off (log entry 8). -/

theorem step_of_engine_turn {s : State} {rest : List Turn} (h : s.turns = .engine :: rest) :
    step s = State.sequencerStep { s with turns := rest } := by
  simp only [step, h]

theorem step_of_bus_turn {s : State} {a : BusAccess} {rest : List Turn} (h : s.turns = .bus a :: rest) :
    step s = .next (State.busAccess { s with turns := rest } a) := by
  simp only [step, h]

theorem step_of_rst_turn {s : State} {rest : List Turn} (h : s.turns = .rst :: rest) :
    step s = .next (State.powerOn { s with turns := rest }) := by
  simp only [step, h]

/-- Settles O5: the abort check and the `pc` check pass, so the step is that of the decoded command. -/
theorem stepExecutesTheDecodedCommand : Obligations.StepExecutesTheDecodedCommand := by
  refine fun s rest => ⟨fun i hr ha hp hd => ⟨fun ht => ?_, fun ht => ?_⟩, fun hr => ⟨fun ht => ?_, fun ht => ?_⟩⟩
  · rw [step_of_no_turns ht, sequencerStep_of_decode hr ha hp hd]
  · rw [step_of_engine_turn ht]
    exact sequencerStep_of_decode (s := { s with turns := rest }) hr ha hp hd
  · rw [step_of_no_turns ht, sequencerStep_of_idle hr]
  · rw [step_of_engine_turn ht]
    exact sequencerStep_of_idle (s := { s with turns := rest }) hr

theorem decode_zero : decode 0 = .error .reservedOpcode := by decide

theorem State.withFetchWord_pc_lt (s : State) (nbits w : Nat) : (s.withFetchWord nbits w).pc.toNat < 256 := by
  by_cases h : s.pc.toNat < imemSize
  · simp only [State.withFetchWord, if_pos h]
    exact h
  · simp only [State.withFetchWord, if_neg h]
    decide

/-- The word 0 is no command, so a word that is one is read back in any IMEM, canonical or not. -/
theorem State.withFetchWord_fetch (s : State) {w : Nat} {i : Instr} (h : decode (BitVec.ofNat 32 w) = .ok i) :
    (s.withFetchWord 32 w).fetch = BitVec.ofNat 32 w := by
  have hw : BitVec.ofNat 32 (w % 2 ^ 32) = BitVec.ofNat 32 w := by
    apply BitVec.eq_of_toNat_eq
    simp
  have h0 : BitVec.ofNat 32 w ≠ Memory.unlisted := by
    intro hz
    rw [hz] at h
    exact absurd (decode_zero.symm.trans h) (by simp)
  rw [← hw] at h0
  exact (Memory.read_write_same_of_ne h0).trans hw

/-- Settles O6: the placed state is in RUN with no abort, its `pc` is inside IMEM and the word stands there. -/
theorem placedWordIsTheNextCommand : Obligations.PlacedWordIsTheNextCommand := by
  intro s w i hd
  rw [step_of_no_turns rfl]
  refine sequencerStep_of_decode rfl rfl (s.withFetchWord_pc_lt 32 w) ?_
  rwa [s.withFetchWord_fetch hd]

/-! ### The end of a run -/

/-- A step that ends a run is a completed HALT or the stop of a failing check. -/
theorem sequencerStep_ends {s t : State} (hr : s.run = .run) (h : s.sequencerStep = .next t) (ht : t.run = .idle) :
    (s.abortReq = false ∧ s.pc.toNat < 256 ∧ decode s.fetch = .ok .halt ∧ t = s.haltStop) ∨
    (∃ e w, s.firstFailure = some (e, w) ∧ e ≠ .none ∧ t = s.stopped e w) := by
  rcases sequencerStep_cases hr h with hstop | ⟨_, ha, hp, hd, rfl⟩ | ⟨_, _, _, i, _, _, _, _, ws, b, bs, u, hw, rfl⟩
  · exact .inr hstop
  · exact .inl ⟨ha, hp, hd, rfl⟩
  · rw [hw.frame] at ht
    exact RunState.noConfusion (hr.symm.trans ht)

theorem exec_halt (s : State) : exec .halt s = .next s.haltStop := rfl

theorem exec_nop (s : State) : exec .nop s = .next s.retire := rfl

/-- Settles O12: HALT and NOP by their completions, and the two ends of a run by `sequencerStep_ends`. -/
theorem haltIsTheOnlyNormalEnd : Obligations.HaltIsTheOnlyNormalEnd := by
  refine ⟨exec_halt, exec_nop, fun s t hinv hturns hr hstep ht => ?_⟩
  rw [step_of_no_turns hturns] at hstep
  rcases sequencerStep_ends hr hstep ht with ⟨ha, _, hd, rfl⟩ | ⟨e, w, _, he, rfl⟩
  · exact .inl ⟨rfl, (hinv.running hr).2, ha, hd, exec_halt s⟩
  · exact .inr ⟨rfl, rfl, he⟩

theorem State.firstFailure_pcRange {s : State} (ha : s.abortReq = false) (hp : 256 ≤ s.pc.toNat) :
    s.firstFailure = some (.pcRange, 0) := by
  simp only [State.firstFailure, ha, hp, Bool.false_eq_true, if_false, if_true]

/-- The end of a run from `s` after `k` steps, as 10_state.md R53 has it: the last step leaves `t`, and before it the run
stands at one index after the other. -/
structure State.EndsAfter (s : State) (k : Nat) (t : State) : Prop where
  run : Host.Core.run Sys2Proof.core k s = .next t
  idle : t.run = .idle
  status : t.done = true ∨ t.err = true
  retired : t.retired.toNat ≤ 256
  latest : s.abortReq = false → k = 257 - s.pc.toNat → t.errcode = .pcRange ∧ t.errpc.toNat = 256
  before : ∀ j < k, ∃ u : State, Host.Core.run Sys2Proof.core j s = .next u ∧ u.run = .run ∧
    u.pc.toNat = s.pc.toNat + j

/-- The last step of a run. It is the latest possible one only where `pc` is past IMEM. -/
theorem State.endsAfter_one {s t : State} (h : s.Inv) (hturns : s.turns = []) (hr : s.run = .run)
    (hstep : s.sequencerStep = .next t) (ht : t.run = .idle) : s.EndsAfter 1 t := by
  have hret := h.retired_le hr
  have hpc := h.pc
  have hrun : Host.Core.run Sys2Proof.core 1 s = .next t := run_succ_of_step 0 ((step_of_no_turns hturns).trans hstep)
  have hbefore : ∀ j < 1, ∃ u : State, Host.Core.run Sys2Proof.core j s = .next u ∧ u.run = .run ∧
      u.pc.toNat = s.pc.toNat + j := by
    intro j hj
    obtain rfl : j = 0 := by omega
    exact ⟨s, rfl, hr, rfl⟩
  rcases sequencerStep_ends hr hstep ht with ⟨_, hp, _, rfl⟩ | ⟨e, w, hf, _, rfl⟩
  · refine ⟨hrun, rfl, .inl rfl, ?_, fun _ hk => by omega, hbefore⟩
    rw [State.haltStop_retired, retired_succ_toNat (hret.trans hpc)]
    omega
  · refine ⟨hrun, rfl, .inr rfl, hret.trans hpc, fun ha hk => ?_, hbefore⟩
    have hp : s.pc.toNat = 256 := by omega
    rw [State.firstFailure_pcRange ha hp.ge] at hf
    cases hf
    exact ⟨rfl, hp⟩

/-- A run that still goes on after a step at `pc` ends one step later than the rest of it does. -/
theorem State.EndsAfter.succ {s u t : State} {k : Nat} (hr : s.run = .run) (hstep : step s = .next u)
    (hpc : u.pc.toNat = s.pc.toNat + 1) (habort : u.abortReq = false) (h : u.EndsAfter k t) :
    s.EndsAfter (k + 1) t where
  run := (run_succ_of_step k hstep).trans h.run
  idle := h.idle
  status := h.status
  retired := h.retired
  latest _ hk := h.latest habort (by omega)
  before j hj := by
    cases j with
    | zero => exact ⟨s, rfl, hr, rfl⟩
    | succ j =>
      obtain ⟨v, hv, hvr, hvp⟩ := h.before j (by omega)
      exact ⟨v, (run_succ_of_step j hstep).trans hv, hvr, by omega⟩

/-- A run goes on only from an index inside IMEM, to the next one, and only with no abort requested. -/
theorem sequencerStep_goes_on {s u : State} (hr : s.run = .run) (hstep : s.sequencerStep = .next u)
    (hu : u.run = .run) : s.pc.toNat < 256 ∧ u.pc.toNat = s.pc.toNat + 1 ∧ u.abortReq = false ∧ u.turns = s.turns := by
  rcases sequencerStep_cases hr hstep with ⟨e, w, _, _, rfl⟩ | ⟨_, _, _, _, rfl⟩ |
    ⟨_, ha, hp, i, _, _, _, _, ws, b, bs, v, hw, rfl⟩
  · cases hu
  · cases hu
  · rw [hw.frame]
    exact ⟨hp, pc_succ_toNat hp, ha, rfl⟩

/-- By induction over the indices that are left: a run at `pc` ends within `257 − pc` steps. -/
theorem State.exists_endsAfter (n : Nat) {s : State} (h : s.Inv) (hturns : s.turns = []) (hr : s.run = .run)
    (hn : s.pc.toNat + n = 256) : ∃ k t, 1 ≤ k ∧ k ≤ n + 1 ∧ s.EndsAfter k t := by
  induction n generalizing s with
  | zero =>
    obtain ⟨t, hstep⟩ := sequencerStep_total s
    cases ht : t.run with
    | idle => exact ⟨1, t, le_rfl, le_rfl, State.endsAfter_one h hturns hr hstep ht⟩
    | run =>
      have := (sequencerStep_goes_on hr hstep ht).1
      omega
  | succ n ih =>
    obtain ⟨u, hstep⟩ := sequencerStep_total s
    cases hu : u.run with
    | idle => exact ⟨1, u, le_rfl, by omega, State.endsAfter_one h hturns hr hstep hu⟩
    | run =>
      obtain ⟨_, hpc, ha, htu⟩ := sequencerStep_goes_on hr hstep hu
      obtain ⟨k, t, _, hk, hend⟩ := ih (h.sequencerStep hstep) (htu.trans hturns) hu (by omega)
      exact ⟨k + 1, t, by omega, by omega, hend.succ hr ((step_of_no_turns hturns).trans hstep) hpc ha⟩

/-- Settles O17, by induction over the indices from `pc` to 256 (`State.exists_endsAfter`). -/
theorem runEndsInBoundedSteps : Obligations.RunEndsInBoundedSteps := by
  intro s h hturns hr
  have hpc := h.pc
  obtain ⟨k, t, hk, hle, hend⟩ := State.exists_endsAfter (256 - s.pc.toNat) h hturns hr (by omega)
  exact ⟨k, t, hk, by omega, hend.run, hend.idle, hend.status, hend.retired, hend.latest, hend.before⟩

/-! ### What a read of PC shows of a run -/

theorem State.leftAlone_firstFailure (s : State) : s.leftAlone.firstFailure = s.firstFailure := rfl

/-- In RUN, PC reads `pc` and some number of commands that complete when the run is left alone (10_state.md R47). -/
theorem State.pcWord_run {s : State} (hr : s.run = .run) (hp : s.pc.toNat ≤ 256) :
    ∃ k ≤ State.commandsAhead (255 - s.pc.toNat) s.leftAlone, s.pcWord.toNat = s.pc.toNat + k := by
  have hle := (State.commandsAhead_spec (255 - s.pc.toNat) (s := s.leftAlone) hr rfl).1
  have hlt := Nat.mod_lt (Config.freePc s.clock s.writes)
    (show 0 < State.commandsAhead (255 - s.pc.toNat) s.leftAlone + 1 from Nat.succ_pos _)
  refine ⟨_, Nat.le_of_lt_succ hlt, ?_⟩
  simp only [State.pcWord, hr, BitVec.toNat_ofNat]
  exact Nat.mod_eq_of_lt (by omega)

/-- Settles O59: the run left alone comes to stand at each index up to the one read (`State.commandsAhead_spec`). -/
theorem pcReadDuringARun : Obligations.PcReadDuringARun := by
  intro s r hr hp hread
  obtain ⟨k, hk, hpc⟩ := State.pcWord_run hr hp
  obtain ⟨hle, hall⟩ := State.commandsAhead_spec (255 - s.pc.toNat) (s := s.leftAlone) hr rfl
  obtain rfl : r = s.pc.toNat + k := hread.symm.trans hpc
  have hstand : ∀ j ≤ k, (s.pc + BitVec.ofNat 9 j).toNat = s.pc.toNat + j := by
    intro j hj
    simp only [BitVec.toNat_add, BitVec.toNat_ofNat]
    omega
  refine ⟨by omega, by omega, by omega, fun j hj hjr => ?_, ?_, fun hf => ?_⟩
  · obtain ⟨t, _, _, htp, _, hti, hnext⟩ := hall (j - s.pc.toNat) (by omega)
    obtain ⟨_, i, hd, hi⟩ := hnext (by omega)
    refine ⟨i, ?_, hi⟩
    have hfetch : t.fetch = s.imem.read j := by
      have hpj : t.pc.toNat = j := by
        rw [htp]
        exact (hstand _ (by omega)).trans (by omega)
      rw [State.fetch, hti, hpj]
      rfl
    rwa [← hfetch]
  · obtain ⟨t, hrun, htr, htp, htret, _, _⟩ := hall k hk
    rw [Nat.add_sub_cancel_left]
    exact ⟨t, hrun, htr, htp ▸ hstand k le_rfl, htret⟩
  · by_contra hne
    obtain ⟨t, hrun, _, _, _, _, hnext⟩ := hall 0 (Nat.zero_le _)
    cases hrun
    exact hf (s.leftAlone_firstFailure.symm.trans (hnext (by omega)).1)

end Sys2Proof.Machine
end

section
/-! PROOFS. The valid bits (10_state.md R32, R33): the resets clear all of them, and every other turn keeps those that
are set. -/

namespace Sys2Proof.Machine

/-! ### The resets -/

theorem State.fvalid_of_replicate {s : State} (h : s.fv = Vector.replicate 32 false) (r : Nat) :
    s.fvalid r = false := by
  rw [State.fvalid, h, Vector.getElem?_replicate]
  split <;> rfl

theorem State.mvalid_of_replicate {s : State} (h : s.mv = Vector.replicate 8 false) (j : MReg) :
    s.mvalid j = false := by
  rw [State.mvalid, h, Fin.getElem_fin, Vector.getElem_replicate]

/-! ### The sequencer -/

theorem sequencerStep_valid_mono {s t : State} (h : s.sequencerStep = .next t) :
    (∀ r, s.fvalid r = true → t.fvalid r = true) ∧ ∀ j, s.mvalid j = true → t.mvalid j = true := by
  cases hr : s.run with
  | idle =>
    rw [sequencerStep_of_idle hr] at h
    cases h
    exact ⟨fun _ => id, fun _ => id⟩
  | run =>
    rcases sequencerStep_cases hr h with ⟨e, w, _, _, rfl⟩ | ⟨_, _, _, _, rfl⟩ |
      ⟨_, _, _, i, _, _, _, _, ws, b, bs, u, hw, rfl⟩
    · exact ⟨fun _ => id, fun _ => id⟩
    · exact ⟨fun _ => id, fun _ => id⟩
    · exact ⟨fun _ => hw.fvalid_mono, fun _ => hw.mvalid_mono⟩

/-! ### The host's bus -/

theorem State.ctrlWrite_valid (s : State) {d : BitVec 32} (hd : d.getLsbD 2 = false) :
    (s.ctrlWrite d).fv = s.fv ∧ (s.ctrlWrite d).mv = s.mv := by
  rw [State.ctrlWrite, hd, if_neg Bool.false_ne_true]
  split <;> split <;> exact ⟨rfl, rfl⟩

theorem State.idleCsrWrite_valid (s : State) (off : Nat) (d : BitVec 32) :
    (s.idleCsrWrite off d).fv = s.fv ∧ (s.idleCsrWrite off d).mv = s.mv := by
  unfold State.idleCsrWrite
  split <;> exact ⟨rfl, rfl⟩

theorem State.csrWrite_valid (s : State) {off : Nat} {d : BitVec 32} (hd : off = 0x008 → d.getLsbD 2 = false) :
    (s.csrWrite off d).fv = s.fv ∧ (s.csrWrite off d).mv = s.mv := by
  unfold State.csrWrite
  split
  · exact s.ctrlWrite_valid (hd rfl)
  · exact ⟨rfl, rfl⟩
  · exact ⟨rfl, rfl⟩
  · split
    · exact s.idleCsrWrite_valid off d
    · exact ⟨rfl, rfl⟩

/-- A host write clears no valid bit unless it is a write of 1 to CTRL.SRST, which is 32 bits wide (10_state.md R39). -/
theorem State.busWriteEffect_valid (s : State) {off size : Nat} {d : BitVec 32}
    (hd : off = 0x008 → size = 4 → d.getLsbD 2 = false) :
    (s.busWriteEffect off size d).fv = s.fv ∧ (s.busWriteEffect off size d).mv = s.mv := by
  unfold State.busWriteEffect
  split
  case isTrue => exact ⟨rfl, rfl⟩
  case isFalse he =>
    split
    case h_1 hw =>
      have hsize : size = 4 := by
        simp only [busError, hw, Bool.not_eq_true', Bool.not_eq_false, Bool.and_eq_true, decide_eq_true_eq] at he
        exact he.1
      exact s.csrWrite_valid fun ho => hd ho hsize
    case h_2 => split <;> exact ⟨rfl, rfl⟩
    case h_3 => split <;> exact ⟨rfl, rfl⟩
    case h_4 => exact ⟨rfl, rfl⟩

/-- A write of 1 to CTRL.SRST clears every valid bit, in either run state (10_state.md R45). -/
theorem State.busAccess_srst (s : State) {d : BitVec 32} (hd : d.getLsbD 2 = true) :
    (s.busAccess ⟨0x008, 4, .write d⟩).fv = Vector.replicate 32 false ∧
    (s.busAccess ⟨0x008, 4, .write d⟩).mv = Vector.replicate 8 false := by
  have hc : s.csrWrite 0x008 d = s.softReset := by rw [State.csrWrite, State.ctrlWrite, hd, if_pos rfl]
  rw [State.busAccess_csr s _ d rfl (by decide)]
  change (s.csrWrite 0x008 d).fv = _ ∧ (s.csrWrite 0x008 d).mv = _
  rw [hc]
  exact ⟨State.softReset_fv s, State.softReset_mv s⟩

theorem State.busAccess_valid (s : State) (a : BusAccess)
    (hd : ∀ d, a = ⟨0x008, 4, .write d⟩ → d.getLsbD 2 = false) :
    (s.busAccess a).fv = s.fv ∧ (s.busAccess a).mv = s.mv := by
  obtain ⟨off, size, op⟩ := a
  cases op with
  | read => exact ⟨rfl, rfl⟩
  | write d =>
    refine s.busWriteEffect_valid fun ho hs => hd d ?_
    obtain rfl : off = 0x008 := BitVec.eq_of_toNat_eq ho
    obtain rfl : size = 4 := hs
    rfl

/-! ### Every turn -/

/-- The turns that reset the engine: `rst`, and a write of 1 to CTRL.SRST. -/
theorem step_reset_clears_valid {s t : State} (h : step s = .next t)
    (hreset : (∃ rest, s.turns = .rst :: rest) ∨
      ∃ rest d, s.turns = .bus ⟨0x008, 4, .write d⟩ :: rest ∧ d.getLsbD 2 = true) :
    t.fv = Vector.replicate 32 false ∧ t.mv = Vector.replicate 8 false := by
  rcases hreset with ⟨rest, ht⟩ | ⟨rest, d, ht, hd⟩
  · rw [step_of_rst_turn ht] at h
    cases h
    exact ⟨State.powerOn_fv _, State.powerOn_mv _⟩
  · rw [step_of_bus_turn ht] at h
    cases h
    exact State.busAccess_srst _ hd

theorem step_other_keeps_valid {s t : State} (h : step s = .next t) (hrst : ∀ rest, s.turns ≠ .rst :: rest)
    (hsrst : ∀ rest d, s.turns = .bus ⟨0x008, 4, .write d⟩ :: rest → d.getLsbD 2 = false) :
    (∀ r, s.fvalid r = true → t.fvalid r = true) ∧ ∀ j, s.mvalid j = true → t.mvalid j = true := by
  rcases step_cases h with ⟨_, hs⟩ | ⟨rest, _, hs⟩ | ⟨a, rest, ht, rfl⟩ | ⟨rest, ht, rfl⟩
  · exact sequencerStep_valid_mono hs
  · exact sequencerStep_valid_mono (s := { s with turns := rest }) hs
  · obtain ⟨hf, hm⟩ := State.busAccess_valid { s with turns := rest } a
      fun d ha => hsrst rest d (ha ▸ ht)
    simp only [State.fvalid, State.mvalid, hf, hm]
    exact ⟨fun _ => id, fun _ => id⟩
  · exact absurd ht (hrst rest)

/-- Settles O14: the two resets leave both vectors of valid bits 0, and every other turn only sets bits of them. -/
theorem onlyResetsClearValidBits : Obligations.OnlyResetsClearValidBits := by
  refine fun s t h => ⟨fun hreset => ?_, step_other_keeps_valid h⟩
  obtain ⟨hf, hm⟩ := step_reset_clears_valid h hreset
  exact ⟨State.fvalid_of_replicate hf, State.mvalid_of_replicate hm⟩

end Sys2Proof.Machine
end

section
/-! PROOFS. The control and status registers (10_state.md R39 to R56): what a write of CTRL and of the registers of R44 and
R49 does, and what the host reads. -/

namespace Sys2Proof.Machine

/-! ### CTRL (10_state.md R45, R50) -/

theorem State.busAccess_ctrl (s : State) (d : BitVec 32) : s.busAccess ⟨0x008, 4, .write d⟩ =
    { s.ctrlWrite d with resp := ⟨0, false⟩, writes := (s.ctrlWrite d).writes + 1 } :=
  State.busAccess_csr s 0x008 d rfl (by decide)

section
variable {s : State} {d : BitVec 32} (hd : d.getLsbD 2 = false)
include hd

theorem State.ctrlWrite_start (hr : s.run = .idle) (h0 : d.getLsbD 0 = true) : s.ctrlWrite d = s.start := by
  simp only [State.ctrlWrite, hd, hr, h0, Bool.false_eq_true, if_false, if_true]

theorem State.ctrlWrite_idle (hr : s.run = .idle) (h0 : d.getLsbD 0 = false) : s.ctrlWrite d = s := by
  simp only [State.ctrlWrite, hd, hr, h0, Bool.false_eq_true, if_false]

theorem State.ctrlWrite_run (hr : s.run = .run) :
    s.ctrlWrite d = { s with abortReq := s.abortReq || d.getLsbD 1 } := by
  rw [State.ctrlWrite, hd, if_neg Bool.false_ne_true]
  split
  case h_1 hi => exact absurd (hr.symm.trans hi) (by decide)
  case h_2 =>
    split
    case isTrue h1 => rw [h1, Bool.or_true]
    case isFalse h1 => rw [Bool.eq_false_of_not_eq_true h1, Bool.or_false]

end

/-- Settles O51: without SRST a write of CTRL is `start` in IDLE with bit 0, and the abort latch in RUN. -/
theorem ctrlStartsAndAborts : Obligations.CtrlStartsAndAborts := by
  refine fun s rest d ht hd => ⟨fun hr h0 => ?_, fun hr h0 => ?_, fun hr => ?_, rfl⟩ <;>
    rw [step_of_bus_turn ht, State.busAccess_ctrl]
  · rw [State.ctrlWrite_start (s := { s with turns := rest }) hd hr h0, BitVec.ofNat_toNat]
    rfl
  · rw [State.ctrlWrite_idle (s := { s with turns := rest }) hd hr h0]
  · rw [State.ctrlWrite_run (s := { s with turns := rest }) hd hr]

/-! ### The read-write registers of R44 and R49 -/

theorem State.csrWrite_idle {s : State} (hr : s.run = .idle) {off : Nat} (h : off ∉ [0x008, 0x020, 0x024])
    (d : BitVec 32) : s.csrWrite off d = s.idleCsrWrite off d := by
  unfold State.csrWrite
  split
  case h_4 => simp only [hr]
  all_goals exact absurd (by decide) h

/-- The field each offset stores to; every other field is as it was. -/
theorem State.idleCsrWrite_eq (s : State) (off : Nat) (d : BitVec 32) : s.idleCsrWrite off d = { s with
    entry := if off = 0x010 then d.setWidth 8 else s.entry
    msgaddr := if off = 0x028 then d.setWidth 12 else s.msgaddr
    msglen := if off = 0x02C then d.setWidth 13 else s.msglen
    dstaddr := if off = 0x030 then d.setWidth 12 else s.dstaddr
    dstlen := if off = 0x034 then d.setWidth 9 else s.dstlen
    xmdlen := if off = 0x038 then d.setWidth 16 else s.xmdlen } := by
  unfold State.idleCsrWrite
  split
  case h_7 h1 h2 h3 h4 h5 h6 => rw [if_neg h1, if_neg h2, if_neg h3, if_neg h4, if_neg h5, if_neg h6]
  all_goals rfl

/-- The state that a write of an idle register leaves, over the state before. -/
theorem State.busAccess_idleCsr {s : State} (hr : s.run = .idle) (rest : List Turn) {off : BitVec 13} (d : BitVec 32)
    (hal : off.toNat % 4 = 0) (hlt : off.toNat < 0x48) (hoff : off.toNat ∉ [0x008, 0x020, 0x024]) :
    State.busAccess { s with turns := rest } ⟨off, 4, .write d⟩ =
      { s.idleCsrWrite off.toNat d with turns := rest, resp := ⟨0, false⟩, writes := s.writes + 1 } := by
  rw [State.busAccess_csr _ off d hal hlt, State.csrWrite_idle (s := { s with turns := rest }) hr hoff,
    State.idleCsrWrite_eq, State.idleCsrWrite_eq]

/-- In IDLE a read of a register other than the one written finds what it found before, whatever the model's own fields. -/
theorem State.csrRead_idleCsrWrite_other {s : State} (hr : s.run = .idle) {off o : Nat} (h : o ≠ off) (d : BitVec 32)
    (ts : List Turn) (a : BusResponse) (w : Nat) :
    State.csrRead { s.idleCsrWrite off d with turns := ts, resp := a, writes := w } o = s.csrRead o := by
  rw [State.idleCsrWrite_eq]
  unfold State.csrRead
  split
  case h_4 | h_10 | h_11 | h_12 | h_13 | h_14 => rw [if_neg h.symm]
  case h_5 => simp only [State.pcWord, hr]
  all_goals rfl

/-- In IDLE a host read depends on both memories and on the register read alone. -/
theorem State.busRead_congr_idle {s t : State} (hs : s.run = .idle) (ht : t.run = .idle) (hm : s.mem = t.mem)
    (hi : s.imem = t.imem) {o : Nat} (hc : s.csrRead o = t.csrRead o) (n : Nat) : s.busRead o n = t.busRead o n := by
  simp only [State.busRead, hc, hi, State.laneValue_idle hs ht hm]

/-- An aligned word read of a CSR. -/
theorem State.busRead_csr (s : State) {o : Nat} (hal : o % 4 = 0) (hlt : o < 0x48) :
    s.busRead o 4 = ⟨s.csrRead o, false⟩ := by
  simp [State.busRead, busError, windowRange, hal, hlt]

/-- A field of `k` bits reads back as the low `k` bits of what was written (10_state.md R39). -/
theorem setWidth_setWidth_eq_and (d : BitVec 32) {k : Nat} (hk : k ≤ 32) :
    (d.setWidth k).setWidth 32 = d &&& BitVec.ofNat 32 (2 ^ k - 1) := by
  have hpow : 2 ^ k ≤ 2 ^ 32 := Nat.pow_le_pow_right (by omega) hk
  have hpos : 0 < 2 ^ k := Nat.two_pow_pos k
  apply BitVec.eq_of_toNat_eq
  rw [BitVec.toNat_setWidth, BitVec.toNat_setWidth, BitVec.toNat_and, BitVec.toNat_ofNat,
    Nat.mod_eq_of_lt (a := 2 ^ k - 1) (by omega), Nat.and_two_pow_sub_one_eq_mod]
  exact Nat.mod_eq_of_lt ((Nat.mod_lt _ hpos).trans_le hpow)

/-- The registers of R44 and R49 with the bits their fields define. -/
def idleCsrs : List (BitVec 13 × BitVec 32) :=
  [(0x010, 0xFF), (0x028, 0xFFF), (0x02C, 0x1FFF), (0x030, 0xFFF), (0x034, 0x1FF), (0x038, 0xFFFF)]

theorem idleCsrs_offset : ∀ r ∈ idleCsrs,
    r.1.toNat % 4 = 0 ∧ r.1.toNat < 0x48 ∧ r.1.toNat ∉ [0x008, 0x020, 0x024] := by
  simp [idleCsrs]

theorem State.csrRead_idleCsrWrite_same (s : State) (d : BitVec 32) (ts : List Turn) (a : BusResponse) (w : Nat) :
    ∀ r ∈ idleCsrs, State.csrRead { s.idleCsrWrite r.1.toNat d with turns := ts, resp := a, writes := w } r.1.toNat =
      d &&& r.2 := by
  simp only [idleCsrs, List.forall_mem_cons, List.not_mem_nil, false_implies, implies_true, and_true]
  exact ⟨setWidth_setWidth_eq_and d (k := 8) (by omega), setWidth_setWidth_eq_and d (k := 12) (by omega),
    setWidth_setWidth_eq_and d (k := 13) (by omega), setWidth_setWidth_eq_and d (k := 12) (by omega),
    setWidth_setWidth_eq_and d (k := 9) (by omega), setWidth_setWidth_eq_and d (k := 16) (by omega)⟩

/-- Settles O57: the write is `idleCsrWrite`, which the register's own offset reads back and no other location sees. -/
theorem idleCsrWritesStoreTheirField : Obligations.IdleCsrWritesStoreTheirField := by
  intro s rest off d mask hr hmem ht
  obtain ⟨hal, hlt, hoff⟩ := idleCsrs_offset _ hmem
  refine ⟨_, (step_of_bus_turn ht).trans (congrArg _ (State.busAccess_idleCsr hr rest d hal hlt hoff)), rfl, ?_,
    fun o n ho => ?_, ?_⟩
  · rw [State.busRead_csr _ hal hlt]
    exact congrArg (BusResponse.mk · false) (State.csrRead_idleCsrWrite_same s d rest _ _ _ hmem)
  · refine State.busRead_congr_idle ?_ hr ?_ ?_ (State.csrRead_idleCsrWrite_other hr ho d _ _ _) n
    all_goals rw [State.idleCsrWrite_eq]
    exact hr
  · rw [State.idleCsrWrite_eq]
    exact ⟨rfl, rfl, rfl, rfl, hr⟩

/-! ### What the read-only registers read (10_state.md R41 to R47, R54 to R56) -/

theorem bit_eq_toNat (b : Bool) : bit b = b.toNat := by cases b <;> rfl

theorem ErrorCode.number_le (e : ErrorCode) : e.number ≤ 8 := by cases e <;> decide

theorem State.cfgWord_toNat {s : State} (h : s.cfg.sized = true) : s.cfgWord.toNat =
    s.cfg.nl + 16 * s.cfg.h2cEn.toNat + 32 * s.cfg.isoEn.toNat + 64 * s.cfg.edwEn.toNat := by
  have hn := (nl_bounds h).2
  have h1 := Bool.toNat_le s.cfg.h2cEn
  have h2 := Bool.toNat_le s.cfg.isoEn
  have h3 := Bool.toNat_le s.cfg.edwEn
  simp only [State.cfgWord, bit_eq_toNat, BitVec.toNat_ofNat]
  omega

theorem State.statusWord_toNat (s : State) : s.statusWord.toNat =
    (if s.run = .run then 1 else 0) + 2 * s.done.toNat + 4 * s.err.toNat + 256 * s.errcode.number := by
  have h1 := Bool.toNat_le s.done
  have h2 := Bool.toNat_le s.err
  have h3 := s.errcode.number_le
  have h0 : bit (decide (s.run = .run)) = if s.run = .run then 1 else 0 := by simp only [bit, decide_eq_true_eq]
  rw [State.statusWord, BitVec.toNat_ofNat, h0, bit_eq_toNat, bit_eq_toNat]
  split <;> omega

theorem State.pcWord_idle {s : State} (h : s.run = .idle) : s.pcWord = s.pc.setWidth 32 := by
  simp only [State.pcWord, h]

theorem State.masksWord_getLsbD (s : State) (j : Nat) : s.masksWord.getLsbD j =
    (decide (j < 32) && (List.zipWith (fun b v => b && v) s.m.toList s.mv.toList ++ s.mv.toList).getD j false) := by
  rw [State.masksWord, BitVec.getLsbD_ofNat, testBit_bitsValue]

theorem State.masksWord_value (s : State) (j : MReg) : s.masksWord.getLsbD j = (s.mvalid j && s.mask j) := by
  have hj := j.isLt
  rw [State.masksWord_getLsbD, List.getD_append _ _ _ _ (by simp), List.getD_eq_getElem _ _ (by simp),
    decide_eq_true (by omega), Bool.true_and, List.getElem_zipWith, Bool.and_comm]
  rfl

theorem State.masksWord_valid (s : State) (j : MReg) : s.masksWord.getLsbD (8 + j) = s.mvalid j := by
  have hj := j.isLt
  rw [State.masksWord_getLsbD, List.getD_append_right _ _ _ _ (by simp), List.getD_eq_getElem _ _ (by simp),
    decide_eq_true (by omega), Bool.true_and]
  simp [State.mvalid]

theorem State.masksWord_above (s : State) {j : Nat} (hj : 16 ≤ j) : s.masksWord.getLsbD j = false := by
  rw [State.masksWord_getLsbD, List.getD_eq_default _ _ (by simpa using hj), Bool.and_false]

theorem State.fvalidWord_getLsbD (s : State) {i : Nat} (hi : i < 32) : s.fvalidWord.getLsbD i = s.fvalid i := by
  rw [State.fvalidWord, BitVec.getLsbD_ofNat, testBit_bitsValue, decide_eq_true hi, Bool.true_and,
    List.getD_eq_getElem?_getD, Vector.getElem?_toList, State.fvalid]

/-- Settles O58: each register reads its word, and the lemmas above say what the words are. -/
theorem readOnlyCsrViews : Obligations.ReadOnlyCsrViews := by
  intro s hc
  refine ⟨rfl, State.cfgWord_toNat hc, s.statusWord_toNat, fun hr => ?_, ?_, rfl,
    fun j => ⟨s.masksWord_value j, s.masksWord_valid j⟩, fun j => s.masksWord_above, fun i => s.fvalidWord_getLsbD, rfl⟩
  · exact (congrArg BitVec.toNat (State.pcWord_idle hr)).trans (BitVec.toNat_setWidth_of_le (by decide))
  · exact BitVec.toNat_setWidth_of_le (by decide)

/-- Settles O60: the fields stand in the definition of the reset state; CFG is 4 limbs, H2C_EN and ISO_EN. -/
theorem resetStateValues : Obligations.ResetStateValues :=
  ⟨rfl, State.fvalid_of_replicate rfl, State.mvalid_of_replicate rfl, rfl, rfl, rfl, rfl, rfl, rfl, rfl, rfl, rfl, rfl,
    rfl, rfl, rfl, rfl, rfl, rfl, rfl⟩

end Sys2Proof.Machine
end

section
/-! PROOFS. The host's bus window (20_memory.md R72, R75 to R81): which accesses get a bus error, that a read changes
nothing and a refused access is without effect, and what an access of MEM or IMEM moves. -/

namespace Sys2Proof.Machine

/-! ### Reads have no effect (20_memory.md R81) -/

/-- A read of PC included: the engine left alone has no turns and no answer. -/
theorem State.csrRead_own (s : State) (ts : List Turn) (a : BusResponse) (o : Nat) :
    State.csrRead { s with turns := ts, resp := a } o = s.csrRead o := rfl

/-- The answer to a read depends on neither the turns to come nor the answer before it. -/
theorem State.busRead_own (s : State) (ts : List Turn) (a : BusResponse) (o n : Nat) :
    State.busRead { s with turns := ts, resp := a } o n = s.busRead o n := by
  have hlanes : ∀ b, State.laneValue { s with turns := ts, resp := a } b n = s.laneValue b n :=
    fun b => State.laneValue_congr (s := { s with turns := ts, resp := a }) (t := s) rfl rfl rfl rfl b n
  simp only [State.busRead, State.csrRead_own, hlanes]

theorem step_of_read_turn {s : State} {off : BitVec 13} {size : Nat} {rest : List Turn}
    (h : s.turns = .bus ⟨off, size, .read⟩ :: rest) :
    step s = .next { s with turns := rest, resp := s.busRead off.toNat size } := by
  rw [step_of_bus_turn h, State.busAccess_read, State.busRead_own s rest s.resp]

/-- Settles O54: each read only takes its turn and sets `resp`, which `busRead` does not look at. -/
theorem hostReadsHaveNoEffect : Obligations.HostReadsHaveNoEffect := by
  intro s rest off size ht
  refine ⟨_, _, step_of_read_turn ht, rfl, step_of_read_turn rfl, ?_⟩
  exact State.busRead_own s _ _ _ _

/-! ### Bus errors and ranges (20_memory.md R75, R79) -/

theorem windowRange_csr {off : Nat} : windowRange off = .csr ↔ off < 0x48 := by
  unfold windowRange
  split_ifs <;> simp only [true_iff, false_iff] <;> omega

theorem windowRange_imem {off : Nat} : windowRange off = .imem ↔ 0x400 ≤ off ∧ off < 0x800 := by
  unfold windowRange
  split_ifs <;> simp only [true_iff, false_iff] <;> omega

theorem windowRange_mem {off : Nat} : windowRange off = .mem ↔ 0x1000 ≤ off := by
  unfold windowRange
  split_ifs <;> simp only [true_iff, false_iff] <;> omega

theorem windowRange_reserved {off : Nat} :
    windowRange off = .reserved ↔ 0x48 ≤ off ∧ off < 0x400 ∨ 0x800 ≤ off ∧ off < 0x1000 := by
  unfold windowRange
  split_ifs <;> simp only [true_iff, false_iff] <;> omega

/-- The CSRs and IMEM take aligned words. -/
theorem busError_of_word_range {off size : Nat} (h : windowRange off = .csr ∨ windowRange off = .imem) :
    busError off size = false ↔ size = 4 ∧ off % 4 = 0 := by
  obtain h | h := h <;> simp only [busError, h, Bool.not_eq_false', Bool.and_eq_true, decide_eq_true_eq]

/-- MEM takes aligned bytes, half words and words. -/
theorem busError_of_mem {off size : Nat} (h : windowRange off = .mem) :
    busError off size = false ↔ size = 1 ∨ size = 2 ∧ off % 2 = 0 ∨ size = 4 ∧ off % 4 = 0 := by
  simp only [busError, h, Bool.not_eq_false', Bool.and_eq_true, Bool.or_eq_true, decide_eq_true_eq]
  constructor
  · rintro ⟨(rfl | rfl) | rfl, hm⟩ <;> omega
  · rintro (rfl | ⟨rfl, hm⟩ | ⟨rfl, hm⟩) <;> omega

theorem busError_of_reserved {off : Nat} (size : Nat) (h : windowRange off = .reserved) :
    busError off size = false := by
  simp only [busError, h]

/-- The accesses that get a bus error, range by range. -/
theorem busError_iff {off size : Nat} : busError off size = true ↔
    (off < 0x48 ∨ 0x400 ≤ off ∧ off < 0x800) ∧ ¬(size = 4 ∧ off % 4 = 0) ∨
    0x1000 ≤ off ∧ ¬(size = 1 ∨ size = 2 ∧ off % 2 = 0 ∨ size = 4 ∧ off % 4 = 0) := by
  rw [← windowRange_csr, ← windowRange_imem, ← windowRange_mem, ← Bool.not_eq_false]
  cases h : windowRange off with
  | csr => simp [busError_of_word_range (.inl h)]
  | imem => simp [busError_of_word_range (.inr h)]
  | mem => simp [busError_of_mem h]
  | reserved => simp [busError_of_reserved size h]

/-! ### Refused accesses (20_memory.md R79, R80, 10_state.md R39) -/

theorem State.busRead_error (s : State) (o n : Nat) : (s.busRead o n).error = busError o n := by
  unfold State.busRead
  split
  case isTrue h => exact h.symm
  case isFalse h =>
    rw [Bool.eq_false_of_not_eq_true h]
    split <;> rfl

theorem State.busRead_data_of_refused (s : State) {o n : Nat}
    (h : busError o n = true ∨ windowRange o = .reserved) : (s.busRead o n).data = 0 := by
  unfold State.busRead
  split
  case isTrue => rfl
  case isFalse he => simp only [h.resolve_left he]

/-- The read-only registers (10_state.md R39). -/
def readOnlyCsrs : List Nat := [0x000, 0x004, 0x00C, 0x014, 0x018, 0x01C, 0x03C, 0x040, 0x044]

theorem State.csrWrite_run {s : State} (hr : s.run = .run) {off : Nat} (h : off ∉ [0x008, 0x020, 0x024])
    (d : BitVec 32) : s.csrWrite off d = s := by
  unfold State.csrWrite
  split
  case h_4 => simp only [hr]
  all_goals exact absurd (by decide) h

theorem State.csrWrite_readOnly (s : State) {off : Nat} (h : off ∈ readOnlyCsrs) (d : BitVec 32) :
    s.csrWrite off d = s := by
  have hoff : ∀ o ∈ readOnlyCsrs, o ∉ [0x008, 0x020, 0x024] ∧ o ∉ idleCsrs.map (·.1.toNat) := by decide
  obtain ⟨hctrl, hidle⟩ := hoff off h
  cases hr : s.run with
  | run => exact State.csrWrite_run hr hctrl d
  | idle =>
    rw [State.csrWrite_idle hr hctrl]
    unfold State.idleCsrWrite
    split
    case h_7 => rfl
    all_goals exact absurd (by decide) hidle

theorem readOnlyCsrs_range : ∀ o ∈ readOnlyCsrs, windowRange o = .csr := by decide

/-- The writes that the engine ignores, with a bus error or without one. -/
theorem State.busWriteEffect_of_refused (s : State) {off size : Nat} (d : BitVec 32)
    (h : busError off size = true ∨ windowRange off = .reserved ∨ off ∈ readOnlyCsrs ∨
      s.run = .run ∧ off ∉ [0x008, 0x020, 0x024]) : s.busWriteEffect off size d = s := by
  unfold State.busWriteEffect
  split
  case isTrue => rfl
  case isFalse he =>
    replace h := h.resolve_left he
    split
    case h_1 hw =>
      obtain h | h | ⟨hr, h⟩ := h
      · exact absurd (hw.symm.trans h) (by decide)
      · exact s.csrWrite_readOnly h d
      · exact State.csrWrite_run hr h d
    case h_2 hw | h_3 hw =>
      obtain h | h | ⟨hr, h⟩ := h
      · exact absurd (hw.symm.trans h) (by decide)
      · exact absurd (hw.symm.trans (readOnlyCsrs_range off h)) (by decide)
      · simp only [hr]
    case h_4 => rfl

theorem State.busAccess_error (s : State) (a : BusAccess) :
    (s.busAccess a).resp.error = busError a.offset.toNat a.size := by
  obtain ⟨off, size, op⟩ := a
  cases op with
  | read => exact s.busRead_error off.toNat size
  | write d => rfl

/-- A write is its effect, the answer and the count of writes. -/
theorem State.busAccess_write {s t : State} {off : BitVec 13} {size : Nat} {d : BitVec 32}
    (h : s.busWriteEffect off.toNat size d = t) : s.busAccess ⟨off, size, .write d⟩ =
      { t with resp := ⟨0, busError off.toNat size⟩, writes := t.writes + 1 } := by
  rw [← h]
  rfl

/-- Settles O55: `busError_iff` says which accesses err, and the refused ones read 0 and have no effect. -/
theorem refusedAccessesChangeNothing : Obligations.RefusedAccessesChangeNothing := by
  intro s rest off size op ht
  refine ⟨_, step_of_bus_turn ht, ?_, ?_, ?_⟩ <;> rw [State.busAccess_error]
  · exact busError_iff
  · rintro rfl h
    exact State.busRead_data_of_refused _ (h.imp_right windowRange_reserved.mpr)
  · rintro d rfl h
    exact State.busAccess_write (State.busWriteEffect_of_refused { s with turns := rest } d
      (h.imp_right fun h => (or_assoc.mpr h).imp_left windowRange_reserved.mpr))

/-! ### What an access of MEM or IMEM moves (20_memory.md R72, R78) -/

theorem pow_256_eq (k : Nat) : 256 ^ k = 2 ^ (8 * k) := pow_mul 2 8 k |>.symm

/-- Digit `k` to the base 256 is the byte on data bits `8k` to `8k + 7`. -/
theorem ofNat_div_pow_eq_extractLsb' (v k : Nat) (hk : k < 4) :
    BitVec.ofNat 8 (v / 256 ^ k) = (BitVec.ofNat 32 v).extractLsb' (8 * k) 8 := by
  apply BitVec.eq_of_getLsbD_eq
  intro i hi
  have hbit : 8 * k + i < 32 := by omega
  rw [pow_256_eq, BitVec.getLsbD_ofNat, BitVec.getLsbD_extractLsb', BitVec.getLsbD_ofNat, Nat.testBit_div_two_pow,
    decide_eq_true hbit, Bool.true_and, Nat.add_comm]

/-- A lane of a host write holds its byte of the data. -/
theorem laneBytes_eq_extractLsb' {n k : Nat} {d : BitVec 32} (hn : n ≤ 4) (h : k < (laneBytes n d.toNat).length) :
    (laneBytes n d.toNat)[k] = d.extractLsb' (8 * k) 8 := by
  rw [length_laneBytes] at h
  rw [getElem_laneBytes, ofNat_div_pow_eq_extractLsb' _ _ (by omega), BitVec.ofNat_toNat, BitVec.setWidth_eq]

/-- A lane of a host read holds its byte of MEM. -/
theorem State.laneValue_extractLsb' (s : State) (a : Nat) {n k : Nat} (hn : n ≤ 4) (hk : k < n) :
    (BitVec.ofNat 32 (s.laneValue a n)).extractLsb' (8 * k) 8 = s.hostMemByte (a + k) := by
  rw [← ofNat_div_pow_eq_extractLsb' _ _ (by omega)]
  apply BitVec.eq_of_toNat_eq
  rw [BitVec.toNat_ofNat]
  exact s.laneValue_digit a n k hk

/-- The data bits above the lanes of a host read are 0. -/
theorem State.laneValue_getLsbD_above (s : State) (a : Nat) {n j : Nat} (hj : 8 * n ≤ j) :
    (BitVec.ofNat 32 (s.laneValue a n)).getLsbD j = false := by
  have hlt : s.laneValue a n < 2 ^ j := calc
    s.laneValue a n < 256 ^ n := s.laneValue_lt a n
    _ = 2 ^ (8 * n) := pow_256_eq n
    _ ≤ 2 ^ j := Nat.pow_le_pow_right (by omega) hj
  rw [BitVec.getLsbD_ofNat, Nat.testBit_lt_two_pow hlt, Bool.and_false]

theorem State.hostMemByte_idle {s : State} (hr : s.run = .idle) (a : Nat) : s.hostMemByte a = s.mem.read a := by
  simp only [State.hostMemByte, hr]

section
variable {s : State} {off size : Nat} (he : busError off size = false)
include he

theorem State.busRead_mem (hw : windowRange off = .mem) :
    s.busRead off size = ⟨BitVec.ofNat 32 (s.laneValue (off - 0x1000) size), false⟩ := by
  simp only [State.busRead, he, hw, Bool.false_eq_true, if_false]

theorem State.busRead_imem (hw : windowRange off = .imem) :
    s.busRead off size = ⟨s.imem.read ((off - 0x400) / 4), false⟩ := by
  simp only [State.busRead, he, hw, Bool.false_eq_true, if_false]

variable (hr : s.run = .idle) (d : BitVec 32)
include hr

theorem State.busWriteEffect_mem (hw : windowRange off = .mem) :
    s.busWriteEffect off size d = { s with mem := s.mem.writeList (off - 0x1000) (laneBytes size d.toNat) } := by
  simp only [State.busWriteEffect, he, hw, hr, Bool.false_eq_true, if_false, State.memWrite]

theorem State.busWriteEffect_imem (hw : windowRange off = .imem) :
    s.busWriteEffect off size d = { s with imem := s.imem.write ((off - 0x400) / 4) d } := by
  simp only [State.busWriteEffect, he, hw, hr, Bool.false_eq_true, if_false]

end

section
variable {s : State} {rest : List Turn} {off : BitVec 13} {size : Nat} {d : BitVec 32} (hr : s.run = .idle)
  (he : busError off.toNat size = false) (ht : s.turns = .bus ⟨off, size, .write d⟩ :: rest)
include hr he ht

theorem step_of_mem_write_turn (hw : windowRange off.toNat = .mem) :
    step s = .next { s with
      turns := rest, resp := ⟨0, false⟩, writes := s.writes + 1
      mem := s.mem.writeList (off.toNat - 0x1000) (laneBytes size d.toNat) } := by
  rw [step_of_bus_turn ht, State.busAccess_write (State.busWriteEffect_mem he
    (s := { s with turns := rest }) hr d hw), he]

theorem step_of_imem_write_turn (hw : windowRange off.toNat = .imem) :
    step s = .next { s with
      turns := rest, resp := ⟨0, false⟩, writes := s.writes + 1
      imem := s.imem.write ((off.toNat - 0x400) / 4) d } := by
  rw [step_of_bus_turn ht, State.busAccess_write (State.busWriteEffect_imem he
    (s := { s with turns := rest }) hr d hw), he]

end

/-- Settles O56: a write of MEM stores the list `laneBytes`, a read gives the number `laneValue`, and each lane of
the two is its byte of the data; an IMEM access is one `Memory.write` or `Memory.read`. -/
theorem hostLanesAndWords : Obligations.HostLanesAndWords := by
  intro s rest off size d hr hmem himem
  refine ⟨fun hlo hsize => ?_, fun hlo hhi hal => ?_⟩
  · have hw : windowRange off.toNat = .mem := windowRange_mem.mpr hlo
    have he : busError off.toNat size = false := (busError_of_mem hw).mpr hsize
    have hfit : off.toNat - 0x1000 + size ≤ memSize := mem_access_fits off.isLt hw he
    have hn : size ≤ 4 := by omega
    refine ⟨fun ht => ?_, fun ht => ?_⟩
    · refine ⟨_, step_of_mem_write_turn hr he ht hw, rfl, fun k hk => ?_, fun b hb => ?_⟩
      · rw [← length_laneBytes size d.toNat] at hfit hk
        exact (Memory.read_writeList_inside hmem hfit hk).trans (laneBytes_eq_extractLsb' hn hk)
      · exact Memory.read_writeList_outside _ _ (by rwa [length_laneBytes])
    · refine ⟨_, step_of_read_turn ht, ?_⟩
      rw [State.busRead_mem he hw]
      refine ⟨rfl, fun k hk => ?_, fun j => s.laneValue_getLsbD_above _⟩
      rw [State.laneValue_extractLsb' s _ hn hk, State.hostMemByte_idle hr]
  · have hw : windowRange off.toNat = .imem := windowRange_imem.mpr ⟨hlo, hhi⟩
    have he : busError off.toNat 4 = false := (busError_of_word_range (.inr hw)).mpr ⟨rfl, hal⟩
    refine ⟨fun ht => ?_, fun ht => ?_⟩
    · exact ⟨_, step_of_imem_write_turn hr he ht hw, rfl, Memory.read_write_same himem,
        fun i => Memory.read_write_other _ d⟩
    · exact ⟨_, step_of_read_turn ht, State.busRead_imem he hw⟩

end Sys2Proof.Machine
end

section
/-! PROOFS. The encoding (30_encoding.md): a word of each format is known by its fields, the encoder's word decodes to
the command, and the decoder accepts exactly the words that match a row of the opcode map. -/

namespace Sys2Proof

/-! ### The fields of a word -/

theorem fbit_inj {f g : FieldSel} : f = g ↔ fbit f = fbit g := by cases f <;> cases g <;> decide

theorem fbit_le_one (f : FieldSel) : fbit f ≤ 1 := Nat.le_of_lt_succ (Laws.Opcode.fbit_lt f)

@[simp] theorem fbit_fselOf (w : Insn) : fbit (fselOf w) = bitsOf w 25 1 := by
  have h : bitsOf w 25 1 < 2 := Nat.mod_lt _ (by decide)
  unfold fselOf
  split
  · simp only [fbit]; omega
  · simp only [fbit]; omega

@[simp] theorem val_rdOf (w : Insn) : (rdOf w).val = bitsOf w 20 5 := Nat.mod_mod _ _
@[simp] theorem val_rs1Of (w : Insn) : (rs1Of w).val = bitsOf w 15 5 := Nat.mod_mod _ _
@[simp] theorem val_rs2Of (w : Insn) : (rs2Of w).val = bitsOf w 10 5 := Nat.mod_mod _ _
@[simp] theorem val_mdOf (w : Insn) : (mdOf w).val = bitsOf w 7 3 := Nat.mod_mod _ _
@[simp] theorem val_msOf (w : Insn) : (msOf w).val = bitsOf w 4 3 := Nat.mod_mod _ _
@[simp] theorem val_mtOf (w : Insn) : (mtOf w).val = bitsOf w 1 3 := Nat.mod_mod _ _
@[simp] theorem val_mdMOf (w : Insn) : (mdMOf w).val = bitsOf w 12 3 := Nat.mod_mod _ _
@[simp] theorem toNat_immOf (w : Insn) : (immOf w).toNat = bitsOf w 0 16 := Nat.mod_mod _ _
@[simp] theorem toNat_addrOf (w : Insn) : (addrOf w).toNat = bitsOf w 0 12 := Nat.mod_mod _ _

/-- Two neighbouring fields are 0 when the field that spans them is. -/
theorem bitsOf_eq_zero_add (w : Insn) (lo a b : Nat) :
    bitsOf w lo (a + b) = 0 ↔ bitsOf w lo a = 0 ∧ bitsOf w (lo + a) b = 0 := by
  have h : bitsOf w lo (a + b) = bitsOf w lo a + 2 ^ a * bitsOf w (lo + a) b := by
    rw [bitsOf, bitsOf, bitsOf, pow_add, Nat.mod_mul, Nat.div_div_eq_div_mul, ← pow_add]
  rw [h]
  simp

/-- The fields that `decode` requires to be 0, cut where the named fields of R113 to R115 begin. -/
theorem zeroFields_iff (w : Insn) :
    (bitsOf w 0 4 = 0 ↔ bitsOf w 0 1 = 0 ∧ bitsOf w 1 3 = 0) ∧
    (bitsOf w 0 7 = 0 ↔ bitsOf w 0 4 = 0 ∧ bitsOf w 4 3 = 0) ∧
    (bitsOf w 0 10 = 0 ↔ bitsOf w 0 7 = 0 ∧ bitsOf w 7 3 = 0) ∧
    (bitsOf w 0 15 = 0 ↔ bitsOf w 0 10 = 0 ∧ bitsOf w 10 5 = 0) ∧
    (bitsOf w 0 20 = 0 ↔ bitsOf w 0 15 = 0 ∧ bitsOf w 15 5 = 0) ∧
    (bitsOf w 0 26 = 0 ↔ bitsOf w 0 20 = 0 ∧ bitsOf w 20 6 = 0) ∧
    (bitsOf w 10 16 = 0 ↔ bitsOf w 10 10 = 0 ∧ bitsOf w 20 6 = 0) ∧
    (bitsOf w 10 10 = 0 ↔ bitsOf w 10 5 = 0 ∧ bitsOf w 15 5 = 0) ∧
    (bitsOf w 20 6 = 0 ↔ bitsOf w 20 5 = 0 ∧ bitsOf w 25 1 = 0) ∧
    (bitsOf w 12 8 = 0 ↔ bitsOf w 12 3 = 0 ∧ bitsOf w 15 5 = 0) ∧
    (bitsOf w 12 14 = 0 ↔ bitsOf w 12 8 = 0 ∧ bitsOf w 20 6 = 0) := by
  have h := bitsOf_eq_zero_add w
  exact ⟨h 0 1 3, h 0 4 3, h 0 7 3, h 0 10 5, h 0 15 5, h 0 20 6, h 10 10 6, h 10 5 5, h 20 5 1, h 12 3 5, h 12 8 6⟩

/-! ### A word of each format is known by its fields -/

theorem toNat_mod_add (w : Insn) (lo len : Nat) :
    w.toNat % 2 ^ (lo + len) = w.toNat % 2 ^ lo + 2 ^ lo * bitsOf w lo len := by
  rw [pow_add, Nat.mod_mul, bitsOf]

/-- A word is the sum of the fields of format R. -/
theorem toNat_eq_fieldsR (w : Insn) : w.toNat = bitsOf w 0 1 + 2 ^ 1 * bitsOf w 1 3 + 2 ^ 4 * bitsOf w 4 3 +
    2 ^ 7 * bitsOf w 7 3 + 2 ^ 10 * bitsOf w 10 5 + 2 ^ 15 * bitsOf w 15 5 + 2 ^ 20 * bitsOf w 20 5 +
    2 ^ 25 * bitsOf w 25 1 + 2 ^ 26 * bitsOf w 26 6 := by
  have h := toNat_mod_add w
  have hw : w.toNat % 2 ^ (26 + 6) = w.toNat := Nat.mod_eq_of_lt w.isLt
  rw [← hw, h 26 6, h 25 1, h 20 5, h 15 5, h 10 5, h 7 3, h 4 3, h 1 3, h 0 1, pow_zero, Nat.mod_one, Nat.zero_add,
    Nat.one_mul]

theorem wordR_eq_iff {w : Insn} {op f rd rs1 rs2 md ms mt : Nat} (hop : op < 64) (hf : f ≤ 1) (hrd : rd < 32)
    (h1 : rs1 < 32) (h2 : rs2 < 32) (hmd : md < 8) (hms : ms < 8) (hmt : mt < 8) :
    wordR op f rd rs1 rs2 md ms mt = w ↔ bitsOf w 26 6 = op ∧ bitsOf w 25 1 = f ∧ bitsOf w 20 5 = rd ∧
      bitsOf w 15 5 = rs1 ∧ bitsOf w 10 5 = rs2 ∧ bitsOf w 7 3 = md ∧ bitsOf w 4 3 = ms ∧ bitsOf w 1 3 = mt ∧
      bitsOf w 0 1 = 0 := by
  constructor
  · rintro rfl
    simp only [bitsOf, wordR, BitVec.toNat_ofNat]
    and_intros <;> omega
  · rintro ⟨rfl, rfl, rfl, rfl, rfl, rfl, rfl, rfl, h⟩
    have hw := toNat_eq_fieldsR w
    rw [wordR, ← BitVec.toNat_inj, BitVec.toNat_ofNat]
    omega

theorem wordI_eq_iff {w : Insn} {op f rd : Nat} {imm : BitVec 16} (hop : op < 64) (hf : f ≤ 1) (hrd : rd < 32) :
    wordI op f rd imm.toNat = w ↔ bitsOf w 26 6 = op ∧ bitsOf w 25 1 = f ∧ bitsOf w 20 5 = rd ∧
      bitsOf w 16 4 = 0 ∧ bitsOf w 0 16 = imm.toNat := by
  have hw := w.isLt
  simp only [← BitVec.toNat_inj, bitsOf, wordI, BitVec.toNat_ofNat]
  omega

theorem wordM_eq_iff {w : Insn} {op f rd md : Nat} {addr : BitVec 12} (hop : op < 64) (hf : f ≤ 1) (hrd : rd < 32)
    (hmd : md < 8) :
    wordM op f rd md addr.toNat = w ↔ bitsOf w 26 6 = op ∧ bitsOf w 25 1 = f ∧ bitsOf w 20 5 = rd ∧
      bitsOf w 15 5 = 0 ∧ bitsOf w 12 3 = md ∧ bitsOf w 0 12 = addr.toNat := by
  have hw := w.isLt
  simp only [← BitVec.toNat_inj, bitsOf, wordM, BitVec.toNat_ofNat]
  omega

/-! ### What a row of the decoder answers -/

theorem accept_eq_ok_iff {w : Insn} {zs : List (Nat × Nat)} {i j : Instr} :
    accept w zs i = .ok j ↔ i = j ∧ ∀ z ∈ zs, bitsOf w z.1 z.2 = 0 := by
  unfold accept
  split <;> simp_all

theorem acceptCount_of_zero {w : Insn} {zs : List (Nat × Nat)} {i : Instr} (h : ∀ z ∈ zs, bitsOf w z.1 z.2 = 0) :
    acceptCount w zs i = if i.wellFormed then .ok i else .error .badCount := by
  rw [acceptCount, accept_eq_ok_iff.mpr ⟨rfl, h⟩]

theorem acceptCount_eq_ok_iff {w : Insn} {zs : List (Nat × Nat)} {i j : Instr} :
    acceptCount w zs i = .ok j ↔ (i = j ∧ ∀ z ∈ zs, bitsOf w z.1 z.2 = 0) ∧ j.wellFormed = true := by
  rw [← accept_eq_ok_iff, acceptCount]
  split <;> grind

/-- Only the row of H2F has the added condition of R121. -/
theorem acceptCount_eq_accept {w : Insn} {zs : List (Nat × Nat)} {i : Instr} (h : i.wellFormed = true) :
    acceptCount w zs i = accept w zs i := by
  unfold acceptCount
  split
  next j hj =>
    obtain ⟨rfl, -⟩ := accept_eq_ok_iff.mp hj
    rw [if_pos h, hj]
  next e he => exact he.symm

/-! ### From the command to the word and back -/

/-- In each row the fields of the encoder's word are the operands, and the fields that the decoder wants 0 are 0. -/
theorem decode_of_encode {w : Insn} {i : Instr} (h : encode i = w) (hi : i.wellFormed = true) : decode w = .ok i := by
  cases i
  case h2f f rd count =>
    simp only [encode, wordI_eq_iff, fbit_le_one, Fin.is_lt, Nat.reduceLT] at h
    rw [decode, h.1]
    show acceptCount _ _ _ = _
    simp [acceptCount_eq_ok_iff, fbit_inj, Fin.ext_iff, ← BitVec.toNat_inj, h, hi]
  all_goals
    simp only [encode, wordR_eq_iff, wordI_eq_iff, wordM_eq_iff, fbit_le_one, Fin.is_lt, Nat.reduceLT,
      Nat.zero_le] at h
    rw [decode, h.1]
    show accept _ _ _ = _
    simp [accept_eq_ok_iff, fbit_inj, Fin.ext_iff, ← BitVec.toNat_inj, zeroFields_iff, h]

/-- Settles O1, by `decode_of_encode`. -/
theorem decodeEncodeRoundTrip : Obligations.DecodeEncodeRoundTrip :=
  fun _ hi => decode_of_encode rfl hi

/-! ### Masks -/

/-- The mask that covers one field (lowest bit, length). -/
def fieldMask (lo len : Nat) : Insn := BitVec.ofNat 32 (2 ^ len - 1) <<< lo

/-- The mask that covers every field of a list. -/
def fieldsMask (zs : List (Nat × Nat)) : Insn := zs.foldr (fun z m => fieldMask z.1 z.2 ||| m) 0

theorem testBit_bitsOf (w : Insn) (lo len k : Nat) :
    (bitsOf w lo len).testBit k = (decide (k < len) && w.getLsbD (lo + k)) := by
  rw [bitsOf, Nat.testBit_mod_two_pow, Nat.testBit_div_two_pow, BitVec.testBit_toNat, Nat.add_comm]

theorem getLsbD_fieldMask {lo len j : Nat} (hj : j < 32) :
    (fieldMask lo len).getLsbD j = decide (lo ≤ j ∧ j < lo + len) := by
  rw [fieldMask, BitVec.getLsbD_shiftLeft, BitVec.getLsbD_ofNat, Nat.testBit_two_pow_sub_one]
  grind

/-- Two words agree under the mask of a field when they agree on the field. -/
theorem and_fieldMask_eq_iff {w v : Insn} {lo len : Nat} :
    w &&& fieldMask lo len = v &&& fieldMask lo len ↔ bitsOf w lo len = bitsOf v lo len := by
  constructor <;> intro h
  · refine Nat.eq_of_testBit_eq fun k => ?_
    rw [testBit_bitsOf, testBit_bitsOf]
    by_cases hlt : lo + k < 32
    · have hk := congrArg (BitVec.getLsbD · (lo + k)) h
      simp only [BitVec.getLsbD_and, getLsbD_fieldMask hlt] at hk
      grind
    · rw [BitVec.getLsbD_of_ge _ _ (by omega), BitVec.getLsbD_of_ge _ _ (by omega)]
  · refine BitVec.eq_of_getLsbD_eq fun j hj => ?_
    have hk := congrArg (Nat.testBit · (j - lo)) h
    simp only [testBit_bitsOf] at hk
    rw [BitVec.getLsbD_and, BitVec.getLsbD_and, getLsbD_fieldMask hj]
    grind

theorem and_or_eq_iff {w v a b : Insn} :
    w &&& (a ||| b) = v &&& (a ||| b) ↔ w &&& a = v &&& a ∧ w &&& b = v &&& b := by
  simp only [BitVec.eq_of_getLsbD_eq_iff, BitVec.getLsbD_and, BitVec.getLsbD_or]
  grind

theorem and_fieldsMask_eq_iff {w v : Insn} {zs : List (Nat × Nat)} :
    w &&& fieldsMask zs = v &&& fieldsMask zs ↔ ∀ z ∈ zs, bitsOf w z.1 z.2 = bitsOf v z.1 z.2 := by
  induction zs with
  | nil => simp [fieldsMask]
  | cons z zs ih =>
    rw [List.forall_mem_cons, ← ih, ← and_fieldMask_eq_iff]
    exact and_or_eq_iff

/-! ### The rows of the opcode map -/

/-- The row of the opcode map that the opcode of a word names, if there is one (R118, R119). -/
def rowOf (w : Insn) : Option OpcodeRow := opcodeRows.find? fun r => bitsOf w 26 6 == r.opcode

theorem rowOf_eq {w : Insn} {op : Nat} (h : bitsOf w 26 6 = op) :
    rowOf w = opcodeRows.find? fun r => op == r.opcode := by
  rw [rowOf, h]

theorem matchWord_and_mask : ∀ r ∈ opcodeRows, r.matchWord &&& r.mask = r.matchWord := by decide

theorem bitsOf_matchWord_opcode : ∀ r ∈ opcodeRows, bitsOf r.matchWord 26 6 = r.opcode := by decide

theorem mask_and_opcode : ∀ r ∈ opcodeRows, r.mask &&& fieldMask 26 6 = fieldMask 26 6 := by decide

/-- No two rows have one opcode. -/
theorem find?_opcode : ∀ r ∈ opcodeRows, (opcodeRows.find? fun q => r.opcode == q.opcode) = some r := by
  decide +kernel

/-- A word that matches a row has the opcode of the row. -/
theorem rowOf_of_matches {w : Insn} {r : OpcodeRow} (hr : r ∈ opcodeRows) (h : w &&& r.mask = r.matchWord) :
    rowOf w = some r := by
  have hop : bitsOf w 26 6 = r.opcode := by
    rw [← bitsOf_matchWord_opcode r hr, ← and_fieldMask_eq_iff, ← h, BitVec.and_assoc, mask_and_opcode r hr]
  rw [rowOf_eq hop, find?_opcode r hr]

/-- The decoder reads `w` as the row `r`: it wants the fields `zs` to be 0 and then takes the command to be `i`. -/
structure ReadsRow (w : Insn) (r : OpcodeRow) (zs : List (Nat × Nat)) (i : Instr) : Prop where
  row : rowOf w = some r
  mnemonic : i.mnemonic = r.mnemonic
  mask : r.mask = fieldsMask ((26, 6) :: zs)
  fixed : ∀ z ∈ zs, bitsOf r.matchWord z.1 z.2 = 0
  word : (∀ z ∈ zs, bitsOf w z.1 z.2 = 0) → encode i = w

section
variable {w : Insn} {r : OpcodeRow} {zs : List (Nat × Nat)} {i : Instr}

theorem ReadsRow.mem (h : ReadsRow w r zs i) : r ∈ opcodeRows := List.mem_of_find?_eq_some h.row

theorem ReadsRow.opcode (h : ReadsRow w r zs i) : bitsOf w 26 6 = r.opcode := beq_iff_eq.mp (List.find?_some h.row :)

/-- The `mask` and `match` of a row ask for its opcode and for 0 in the fields that the decoder wants 0. -/
theorem ReadsRow.matches_iff (h : ReadsRow w r zs i) :
    w &&& r.mask = r.matchWord ↔ ∀ z ∈ zs, bitsOf w z.1 z.2 = 0 := by
  conv_lhs => rw [← matchWord_and_mask r h.mem, h.mask, and_fieldsMask_eq_iff, List.forall_mem_cons]
  simp only [h.opcode, bitsOf_matchWord_opcode r h.mem, true_and]
  exact forall₂_congr fun z hz => by rw [h.fixed z hz]

end

/-- All the decoder can do: the opcode is reserved, or the word is read as the row of its opcode. -/
theorem decode_cases (w : Insn) : (rowOf w = none ∧ decode w = .error .reservedOpcode) ∨
    ∃ r zs i, ReadsRow w r zs i ∧ decode w = acceptCount w zs i := by
  unfold decode
  split
  case h_58 =>
    refine .inl ⟨?_, rfl⟩
    simp only [rowOf, List.find?_eq_none, opcodeRows, opcodeRows1, opcodeRows2, opcodeRows3, opcodeRows4,
      List.forall_mem_append, List.forall_mem_cons, beq_iff_eq, List.not_mem_nil, false_imp_iff, implies_true, and_true]
    and_intros <;> assumption
  case h_56 h =>
    refine .inr ⟨_, _, _, ⟨(rowOf_eq h).trans rfl, rfl, by decide, by decide, fun hz => ?_⟩, rfl⟩
    simp only [encode, wordI_eq_iff, fbit_le_one, Fin.is_lt, Nat.reduceLT]
    simpa [h] using hz
  all_goals
    next h =>
    refine .inr ⟨_, _, _, ⟨(rowOf_eq h).trans rfl, rfl, by decide, by decide, fun hz => ?_⟩,
      (acceptCount_eq_accept rfl).symm⟩
    simp only [encode, wordR_eq_iff, wordI_eq_iff, wordM_eq_iff, fbit_le_one, Fin.is_lt, Nat.reduceLT, Nat.zero_le]
    simp only [List.forall_mem_cons, zeroFields_iff] at hz
    simp [h, hz]

/-- A word that decodes has passed its row's checks. -/
theorem readsRow_of_decode {w : Insn} {i : Instr} (hd : decode w = .ok i) :
    ∃ r zs, ReadsRow w r zs i ∧ (∀ z ∈ zs, bitsOf w z.1 z.2 = 0) ∧ i.wellFormed = true := by
  rcases decode_cases w with ⟨-, he⟩ | ⟨r, zs, j, hr, he⟩
  · simp [he] at hd
  · rw [he] at hd
    obtain ⟨⟨rfl, hz⟩, hwf⟩ := acceptCount_eq_ok_iff.mp hd
    exact ⟨r, zs, hr, hz, hwf⟩

/-- Settles O2: a word that its row accepts is the encoder's word of the command that was read (`ReadsRow.word`). -/
theorem decodedWordsAreEncodings : Obligations.DecodedWordsAreEncodings := by
  intro w i hd
  obtain ⟨r, zs, hr, hz, hwf⟩ := readsRow_of_decode hd
  exact ⟨hwf, hr.word hz⟩

/-! ### The decoder and the opcode map -/

/-- The one condition of R121, read off the word of the command. -/
theorem wellFormed_iff (i : Instr) : i.wellFormed = true ↔
    (i.mnemonic = "H2F" → 1 ≤ bitsOf (encode i) 0 16 ∧ bitsOf (encode i) 0 16 ≤ 32) := by
  cases i
  case h2f f rd count =>
    have hw : wordI 0x3C (fbit f) rd.val count.toNat = encode (.h2f f rd count) := rfl
    obtain ⟨-, -, -, -, hc⟩ := (wordI_eq_iff (by decide) (fbit_le_one f) rd.isLt).mp hw
    simp [Instr.wellFormed, Instr.mnemonic, hc]
  all_goals exact iff_of_true rfl fun h => absurd h (by simp [Instr.mnemonic])

/-- A word that matches a row is read as a command of that row, and only its count can be wrong. -/
theorem decode_of_matches {w : Insn} {r : OpcodeRow} (hr : r ∈ opcodeRows) (h : w &&& r.mask = r.matchWord) :
    ∃ i, i.mnemonic = r.mnemonic ∧ encode i = w ∧
      decode w = if i.wellFormed then .ok i else .error .badCount := by
  have hrow := rowOf_of_matches hr h
  rcases decode_cases w with ⟨hn, -⟩ | ⟨q, zs, i, hq, he⟩
  · simp [hrow] at hn
  · obtain rfl : r = q := Option.some.inj (hrow.symm.trans hq.row)
    have hz := hq.matches_iff.mp h
    exact ⟨i, hq.mnemonic, hq.word hz, he.trans (acceptCount_of_zero hz)⟩

/-- Settles O3: an accepted word matches its row (`ReadsRow.matches_iff`), and a word that matches a row is accepted
or has a wrong count (`decode_of_matches`). -/
theorem decoderFollowsTheOpcodeMap : Obligations.DecoderFollowsTheOpcodeMap := by
  intro w
  refine ⟨fun i hd => ?_, fun r hr h hcount => ?_, fun r hr h hm hcount => ?_⟩
  · obtain ⟨r, zs, hq, hz, hwf⟩ := readsRow_of_decode hd
    have hcount := (wellFormed_iff i).mp hwf
    rw [hq.word hz, hq.mnemonic] at hcount
    exact ⟨r, hq.mem, hq.mnemonic.symm, hq.opcode.symm, hq.matches_iff.mpr hz, hcount⟩
  · obtain ⟨i, hm, rfl, he⟩ := decode_of_matches hr h
    exact ⟨i, he.trans (if_pos ((wellFormed_iff i).mpr (hm ▸ hcount))), hm⟩
  · obtain ⟨i, hi, rfl, he⟩ := decode_of_matches hr h
    exact he.trans (if_neg fun hwf => hcount ((wellFormed_iff i).mp hwf (hi.trans hm)))

/-- Settles O4: the decoder evaluates on the eighteen words of R127. -/
theorem workedEncodingsDecode : Obligations.WorkedEncodingsDecode := by
  unfold Obligations.WorkedEncodingsDecode
  decide

end Sys2Proof
end

section
/-! PROOFS. The pseudo-instructions (30_encoding.md R126): what the commands they expand to do, one equation per
command, and the copy of a register group. -/

namespace Sys2Proof.Machine

/-! ### The commands of the expansions, with their checks passing -/

theorem exec_fldi (f : FieldSel) (rd : FReg) (imm : BitVec 16) (s : State) :
    exec (.fldi f rd imm) s = .next (s.putVal f rd (imm.toNat % s.cfg.modulus f)).retire := by
  rw [exec, execFldi]
  exact runCommand_pass (by constructor <;> simp)

theorem exec_montmul {s : State} (f : FieldSel) (rd : FReg) {rs1 rs2 : FReg} (h1 : s.fvalid rs1 = true)
    (h2 : s.fvalid rs2 = true) :
    exec (.montmul f rd rs1 rs2) s = .next (s.setF rd (s.cfg.val f (s.word rs1 * s.word rs2))).retire := by
  rw [exec, execMontmul]
  exact runCommand_pass (by constructor <;> simp [anyWord, h1, h2])

theorem exec_montred {s : State} (f : FieldSel) (rd : FReg) {rs1 rs2 : FReg} (h1 : s.fvalid rs1 = true)
    (h2 : s.fvalid rs2 = true) :
    exec (.montred f rd rs1 rs2) s =
      .next (s.setF rd (s.cfg.val f (s.word rs1 * s.cfg.radix + s.word rs2))).retire := by
  rw [exec, execMontred]
  exact runCommand_pass (by constructor <;> simp [anyWord, h1, h2])

theorem exec_mor {s : State} (md : MReg) {ms mt : MReg} (h1 : s.mvalid ms = true) (h2 : s.mvalid mt = true) :
    exec (.mor md ms mt) s = .next (s.setM md (s.mask ms || s.mask mt)).retire := by
  rw [exec, execMor, maskCommand]
  exact runCommand_pass (by constructor <;> simp [h1, h2])

/-- The checks of the two group selects, PWSEL with `n = 3` and PESEL with `n = 4`. -/
theorem Checks.pass_groupSelect {s : State} {legal : Bool} {rd rs1 rs2 : FReg} {ms : MReg} {n : Nat}
    (hl : legal = true) (hd : rd.val + n ≤ 32) (h1 : s.ReadsGroup rs1 n) (h2 : s.ReadsGroup rs2 n)
    (hm : s.mvalid ms = true) :
    Checks.Pass { legal := legal, groups := [group rd n, group rs1 n, group rs2 n],
                  words := canonGroup rs1 n ++ canonGroup rs2 n, masks := [ms] } s where
  legal := hl
  groups := by simp [group, hd, h1.1, h2.1]
  ranges := by simp
  expands := by simp
  valid := List.forall_mem_append.2 ⟨h1.valid, h2.valid⟩
  masks := by simp [hm]
  canonical := List.forall_mem_append.2 ⟨h1.canonical, h2.canonical⟩

theorem exec_pwsel {s : State} {rd rs1 rs2 : FReg} {ms : MReg} (hd : rd.val + 3 ≤ 32) (h1 : s.ReadsGroup rs1 3)
    (h2 : s.ReadsGroup rs2 3) (hm : s.mvalid ms = true) : exec (.pwsel rd rs1 rs2 ms) s =
      .next (s.setFs rd (s.wordsFrom (if s.mask ms then rs1 else rs2).val 3)).retire := by
  rw [exec, execPwsel]
  exact runCommand_pass (Checks.pass_groupSelect rfl hd h1 h2 hm)

theorem exec_pesel {s : State} {rd rs1 rs2 : FReg} {ms : MReg} (he : s.cfg.edwEn = true) (hd : rd.val + 4 ≤ 32)
    (h1 : s.ReadsGroup rs1 4) (h2 : s.ReadsGroup rs2 4) (hm : s.mvalid ms = true) : exec (.pesel rd rs1 rs2 ms) s =
      .next (s.setFs rd (s.wordsFrom (if s.mask ms then rs1 else rs2).val 4)).retire := by
  rw [exec, execPesel]
  exact runCommand_pass (Checks.pass_groupSelect he hd h1 h2 hm)

/-! ### Copying a register group -/

theorem getElem_wordsFrom (s : State) (r n k : Nat) (h : k < (s.wordsFrom r n).length) :
    (s.wordsFrom r n)[k] = s.word (r + k) := by
  induction n generalizing r k with
  | zero => simp [State.wordsFrom] at h
  | succ n ih =>
    cases k with
    | zero => rfl
    | succ k =>
      simp only [State.wordsFrom, List.getElem_cons_succ, ih]
      rw [Nat.add_right_comm, Nat.add_assoc]

theorem State.copy_completes (s : State) (r : Nat) {b n : Nat} (h : b + n ≤ 32) :
    s.Completes (s.setFs b (s.wordsFrom r n)).retire b n [] ∧
      ∀ k < n, (s.setFs b (s.wordsFrom r n)).retire.word (b + k) = s.word (r + k) := by
  have hl := length_wordsFrom s r n
  refine ⟨?_, fun k hk => ?_⟩
  · have hc := s.completes_setFs (b := b) (ws := s.wordsFrom r n) (by rwa [hl])
    rwa [hl] at hc
  · rw [State.word_retire, State.word_setFs_inside s (by rwa [hl]) (by rwa [hl]), getElem_wordsFrom]

/-! ### Montgomery words -/

theorem val_mod_modulus (c : Config) (f : FieldSel) (w : Nat) : c.val f (w % c.modulus f) = c.val f w :=
  Nat.mod_mul_mod _ _ _

theorem mont_mod_modulus (c : Config) (f : FieldSel) (v : Nat) : c.mont f (v % c.modulus f) = c.mont f v :=
  Nat.mod_mul_mod _ _ _

/-- A Montgomery product with `R² mod m` is the Montgomery word (42_montgomery.md R206). -/
theorem val_mul_radix_sq {c : Config} (h : c.sized = true) (f : FieldSel) (w : Nat) :
    c.val f (w * (c.radix * c.radix % c.modulus f)) = c.mont f w :=
  calc c.val f (w * (c.radix * c.radix % c.modulus f))
      = c.val f (c.mont f (w * c.radix)) := by
        rw [Config.mont, ← val_mod_modulus, Nat.mul_mod_mod, mul_assoc]
    _ = c.mont f w := val_mont h f _

/-- Settles O30: each expansion is one command whose checks pass, and the equations above give the state it leaves. -/
theorem pseudoInstructionEffects : Obligations.PseudoInstructionEffects := by
  intro f rd rs1 r2 z md ms s hs
  refine ⟨⟨rfl, rfl, rfl, rfl, rfl, rfl, rfl⟩, ?fzero, ?fone, fun h1 h2 hR => ?tomont, fun h1 hz h0 => ?frommont,
    fun hm => ?mmov, fun hd h1 hm => ?pwcopy, fun he hd h1 hm => ?pecopy⟩
  case fzero =>
    exact ⟨_, exec_fldi .., s.completes_setF .., by simp [State.putVal, Config.mont]⟩
  case fone =>
    have h1 : 1 % s.cfg.modulus f = 1 := Nat.mod_eq_of_lt (by have := modulus_bounds hs f; omega)
    have hw : (s.putVal f rd (1 % s.cfg.modulus f)).retire.word rd = s.cfg.mont f 1 := by
      rw [h1]; exact s.word_setF_self ..
    refine ⟨_, exec_fldi .., s.completes_setF .., hw, ?_⟩
    exact (congrArg (s.cfg.val f) hw).trans ((val_mont hs f 1).trans h1)
  case tomont =>
    have hw : s.cfg.val f (s.word rs1 * s.word r2) = s.cfg.mont f (s.word rs1 % s.cfg.modulus f) := by
      rw [hR, mont_mod_modulus]; exact val_mul_radix_sq hs f _
    refine ⟨_, exec_montmul f rd h1 h2, s.completes_setF .., ?_, ?_⟩
    · rw [State.word_retire, State.word_setF_self, hw]
    · rw [State.val_retire, State.val, State.word_setF_self, State.setF_cfg, hw, val_mont hs, Nat.mod_mod]
  case frommont =>
    exact ⟨_, exec_montred f rd hz h1, s.completes_setF .., by simp [h0, State.val]⟩
  case mmov =>
    exact ⟨_, exec_mor md hm hm, s.completes_setM .., by simp⟩
  case pwcopy =>
    have he := exec_pwsel hd h1 h1 hm
    rw [ite_self] at he
    exact ⟨_, he, s.copy_completes rs1 hd⟩
  case pecopy =>
    have he := exec_pesel he hd h1 h1 hm
    rw [ite_self] at he
    exact ⟨_, he, s.copy_completes rs1 hd⟩

end Sys2Proof.Machine
end

section
/-! PROOFS. The mask commands (40_control.md R153 to R158): one equation per command for the state it leaves when its
checks pass. MOR has its equation, `exec_mor`, among the pseudo-instructions. -/

namespace Sys2Proof.Machine

theorem exec_mset (md : MReg) (s : State) : exec (.mset md) s = .next (s.setM md true).retire := by
  rw [exec, execMset]
  exact runCommand_pass (by constructor <;> simp)

theorem exec_mclr (md : MReg) (s : State) : exec (.mclr md) s = .next (s.setM md false).retire := by
  rw [exec, execMclr]
  exact runCommand_pass (by constructor <;> simp)

theorem exec_mnot {s : State} (md : MReg) {ms : MReg} (h : s.mvalid ms = true) :
    exec (.mnot md ms) s = .next (s.setM md (!s.mask ms)).retire := by
  rw [exec, execMnot]
  exact runCommand_pass (by constructor <;> simp [h])

theorem maskCommand_pass {s : State} (op : Bool → Bool → Bool) (md : MReg) {ms mt : MReg} (h1 : s.mvalid ms = true)
    (h2 : s.mvalid mt = true) :
    maskCommand op md ms mt s = .next (s.setM md (op (s.mask ms) (s.mask mt))).retire := by
  rw [maskCommand]
  exact runCommand_pass (by constructor <;> simp [h1, h2])

theorem exec_mand {s : State} (md : MReg) {ms mt : MReg} (h1 : s.mvalid ms = true) (h2 : s.mvalid mt = true) :
    exec (.mand md ms mt) s = .next (s.setM md (s.mask ms && s.mask mt)).retire :=
  maskCommand_pass and md h1 h2

theorem exec_mxor {s : State} (md : MReg) {ms mt : MReg} (h1 : s.mvalid ms = true) (h2 : s.mvalid mt = true) :
    exec (.mxor md ms mt) s = .next (s.setM md (s.mask ms ^^ s.mask mt)).retire :=
  maskCommand_pass xor md h1 h2

/-- Settles O19: each mask command leaves the state of one mask write, which has the frame of `State.completes_setM`,
and the mask it writes is the Boolean operation of its sources. -/
theorem maskCommandResults : Obligations.MaskCommandResults := by
  intro md ms mt s
  refine ⟨?mset, ?mclr, fun h1 => ?mnot, fun h1 h2 => ⟨?mand, ?mor, ?mxor⟩⟩
  case mset => exact ⟨_, exec_mset md s, s.completes_setM .., s.mask_setM_self ..⟩
  case mclr => exact ⟨_, exec_mclr md s, s.completes_setM .., s.mask_setM_self ..⟩
  case mnot => exact ⟨_, exec_mnot md h1, s.completes_setM .., s.mask_setM_self ..⟩
  case mand => exact ⟨_, exec_mand md h1 h2, s.completes_setM .., by simp⟩
  case mor => exact ⟨_, exec_mor md h1 h2, s.completes_setM .., by simp⟩
  case mxor => exact ⟨_, exec_mxor md h1 h2, s.completes_setM .., by simp⟩

end Sys2Proof.Machine
end

section
/-! PROOFS. The field element commands (41_field.md R171 to R183) and the constant loads (42_montgomery.md R203, R204):
one equation per command for the state it leaves when its checks pass, and what a field operation on values does to the
words. FLDI, MONTMUL and the group selects have their equations among the pseudo-instructions. -/

namespace Sys2Proof.Machine

/-! ### The checks of canonical sources -/

section
variable {s : State} {f : FieldSel} {rs1 rs2 : FReg}

theorem Checks.pass_canon (h1 : s.Reads f rs1) : Checks.Pass { words := [canon f rs1] } s := by
  constructor <;> simp [canon, h1.1, h1.2]

theorem Checks.pass_canon_canon {ms : List MReg} (h1 : s.Reads f rs1) (h2 : s.Reads f rs2)
    (hm : ∀ j ∈ ms, s.mvalid j = true) : Checks.Pass { words := [canon f rs1, canon f rs2], masks := ms } s := by
  constructor <;> simp [canon, h1.1, h1.2, h2.1, h2.2]
  exact hm

/-! ### The commands, with their checks passing -/

theorem unaryCommand_pass (op : Nat → Nat → Nat) (rd : FReg) (h1 : s.Reads f rs1) :
    unaryCommand op f rd rs1 s = .next (s.putVal f rd (op (s.cfg.modulus f) (s.val f rs1))).retire :=
  runCommand_pass (Checks.pass_canon h1)

theorem binaryCommand_pass (op : Nat → Nat → Nat → Nat) (rd : FReg) (h1 : s.Reads f rs1) (h2 : s.Reads f rs2) :
    binaryCommand op f rd rs1 rs2 s =
      .next (s.putVal f rd (op (s.cfg.modulus f) (s.val f rs1) (s.val f rs2))).retire :=
  runCommand_pass (Checks.pass_canon_canon h1 h2 (by simp))

theorem exec_fneg (rd : FReg) (h1 : s.Reads f rs1) :
    exec (.fneg f rd rs1) s = .next (s.putVal f rd (negMod (s.cfg.modulus f) (s.val f rs1))).retire :=
  unaryCommand_pass negMod rd h1

theorem exec_fadd (rd : FReg) (h1 : s.Reads f rs1) (h2 : s.Reads f rs2) :
    exec (.fadd f rd rs1 rs2) s =
      .next (s.putVal f rd (addMod (s.cfg.modulus f) (s.val f rs1) (s.val f rs2))).retire :=
  binaryCommand_pass addMod rd h1 h2

theorem exec_fsub (rd : FReg) (h1 : s.Reads f rs1) (h2 : s.Reads f rs2) :
    exec (.fsub f rd rs1 rs2) s =
      .next (s.putVal f rd (subMod (s.cfg.modulus f) (s.val f rs1) (s.val f rs2))).retire :=
  binaryCommand_pass subMod rd h1 h2

theorem exec_fmul (rd : FReg) (h1 : s.Reads f rs1) (h2 : s.Reads f rs2) :
    exec (.fmul f rd rs1 rs2) s =
      .next (s.putVal f rd (mulMod (s.cfg.modulus f) (s.val f rs1) (s.val f rs2))).retire :=
  binaryCommand_pass mulMod rd h1 h2

/-- FSQR of a register is FMUL of it with itself (41_field.md R175). -/
theorem exec_fsqr (rd : FReg) (h1 : s.Reads f rs1) : exec (.fsqr f rd rs1) s = exec (.fmul f rd rs1 rs1) s :=
  (unaryCommand_pass (fun m a => mulMod m a a) rd h1).trans (exec_fmul rd h1 h1).symm

theorem exec_fsel (rd : FReg) {ms : MReg} (h1 : s.Reads f rs1) (h2 : s.Reads f rs2) (hm : s.mvalid ms = true) :
    exec (.fsel f rd rs1 rs2 ms) s =
      .next (s.setF rd (if s.mask ms then s.word rs1 else s.word rs2)).retire := by
  rw [exec, execFsel]
  exact runCommand_pass (Checks.pass_canon_canon h1 h2 (by simp [hm]))

theorem exec_fmov (rd : FReg) (h1 : s.fvalid rs1 = true) :
    exec (.fmov rd rs1) s = .next (s.setF rd (s.word rs1)).retire := by
  rw [exec, execFmov]
  exact runCommand_pass (by constructor <;> simp [anyWord, h1])

theorem exec_fisz (md : MReg) (h1 : s.Reads f rs1) :
    exec (.fisz f md rs1) s = .next (s.setM md (isZeroFlag (s.val f rs1))).retire := by
  rw [exec, execFisz]
  exact runCommand_pass (Checks.pass_canon h1)

theorem exec_fsgn0 (md : MReg) (h1 : s.Reads f rs1) :
    exec (.fsgn0 f md rs1) s = .next (s.setM md (signFlag (s.val f rs1))).retire := by
  rw [exec, execFsgn0]
  exact runCommand_pass (Checks.pass_canon h1)

theorem exec_feq (md : MReg) (h1 : s.Reads f rs1) (h2 : s.Reads f rs2) :
    exec (.feq f md rs1 rs2) s = .next (s.setM md (equalFlag (s.val f rs1) (s.val f rs2))).retire := by
  rw [exec, execFeq]
  exact runCommand_pass (Checks.pass_canon_canon h1 h2 (by simp))

end

theorem exec_rawi (rd : FReg) (imm : BitVec 16) (s : State) :
    exec (.rawi rd imm) s = .next (s.setF rd imm.toNat).retire := by
  rw [exec, execRawi]
  exact runCommand_pass (by constructor <;> simp)

theorem exec_rawr2 (f : FieldSel) (rd : FReg) (s : State) :
    exec (.rawr2 f rd) s = .next (s.setF rd (s.cfg.radix * s.cfg.radix % s.cfg.modulus f)).retire := by
  rw [exec, execRawr2]
  exact runCommand_pass (by constructor <;> simp)

/-! ### Writing a value -/

@[simp] theorem State.word_putVal_self (s : State) (f : FieldSel) (r : FReg) (v : Nat) :
    (s.putVal f r.val v).word r.val = s.cfg.mont f v :=
  s.word_setF_self r _

/-- A value is written as a canonical word (00_scope.md R18). -/
theorem State.word_putVal_lt {s : State} (h : s.cfg.sized = true) (f : FieldSel) (r : FReg) (v : Nat) :
    (s.putVal f r.val v).word r.val < s.cfg.modulus f := by
  rw [State.word_putVal_self]
  exact mont_lt h f v

theorem State.val_putVal_self {s : State} (h : s.cfg.sized = true) (f : FieldSel) (r : FReg) (v : Nat) :
    (s.putVal f r.val v).val f r.val = v % s.cfg.modulus f := by
  rw [State.val, State.word_putVal_self]
  exact val_mont h f v

/-! ### Values and words -/

theorem subMod_eq {m b : Nat} (a : Nat) (h : b < m) : subMod m a b = (a + m - b) % m := by
  rw [subMod, Nat.mod_eq_of_lt h, Nat.add_sub_assoc h.le]

theorem negMod_eq {m a : Nat} (h : a < m) : negMod m a = (m - a) % m := by
  rw [negMod, Nat.mod_eq_of_lt h]

section
variable {c : Config} (h : c.sized = true) (f : FieldSel) (w w' : Nat)
include h

/-- The word of a sum of values is the sum of the words (41_field.md R171). -/
theorem mont_addMod_val :
    c.mont f (addMod (c.modulus f) (c.val f w) (c.val f w')) = addMod (c.modulus f) w w' := by
  refine eq_of_cast_eq (mont_lt h f _) (addMod_lt _ _ _ (modulus_pos h f)) ?_
  rw [cast_mont, cast_addMod, cast_addMod, add_mul, cast_val_mul_radix h, cast_val_mul_radix h]

theorem mont_subMod_val :
    c.mont f (subMod (c.modulus f) (c.val f w) (c.val f w')) = subMod (c.modulus f) w w' := by
  have hm := modulus_pos h f
  refine eq_of_cast_eq (mont_lt h f _) (subMod_lt _ _ _ hm) ?_
  rw [cast_mont, cast_subMod _ _ _ hm, cast_subMod _ _ _ hm, sub_mul, cast_val_mul_radix h, cast_val_mul_radix h]

theorem mont_negMod_val : c.mont f (negMod (c.modulus f) (c.val f w)) = negMod (c.modulus f) w := by
  have hm := modulus_pos h f
  refine eq_of_cast_eq (mont_lt h f _) (negMod_lt _ _ hm) ?_
  rw [cast_mont, cast_negMod _ _ hm, cast_negMod _ _ hm, neg_mul, cast_val_mul_radix h]

/-- The word of a product of values is the Montgomery product of the words (42_montgomery.md R205): the product of the
words is the word of that word. -/
theorem mont_mulMod_val :
    c.mont f (mulMod (c.modulus f) (c.val f w) (c.val f w')) = c.val f (w * w') := by
  have hww : w * w' % c.modulus f = c.mont f (c.mont f (c.val f w * c.val f w')) := by
    refine eq_of_cast_eq (Nat.mod_lt _ (modulus_pos h f)) (mont_lt h f _) ?_
    rw [ZMod.natCast_mod, Nat.cast_mul, ← cast_val_mul_radix h f w, ← cast_val_mul_radix h f w', cast_mont,
      cast_mont]
    push_cast
    ring
  rw [← val_mod_modulus c f (w * w'), hww, val_mont h, Nat.mod_eq_of_lt (mont_lt h f _), mulMod, mont_mod_modulus]

theorem val_eq_zero_iff (hw : w < c.modulus f) : c.val f w = 0 ↔ w = 0 := by
  have h0 : c.val f 0 = 0 := by rw [Config.val, Nat.zero_mul, Nat.zero_mod]
  exact ⟨fun hv => word_eq_of_val_eq h f hw (modulus_pos h f) (hv.trans h0.symm), fun hz => hz ▸ h0⟩

end

/-! ### The obligations -/

/-- Settles O20: each command writes the value of its operation, whose word is the same operation on the words. -/
theorem fieldSumsAndNegation : Obligations.FieldSumsAndNegation := by
  intro f rd rs1 rs2 s hs h1
  have hv (r : FReg) : s.val f r < s.cfg.modulus f := val_lt hs f _
  refine ⟨?fneg, fun h2 => ⟨?fadd, ?fsub⟩⟩
  case fneg =>
    refine ⟨_, exec_fneg rd h1, s.completes_setF .., ?_, ?_⟩
    · rw [State.word_retire, State.word_putVal_self, ← negMod_eq h1.2]
      exact mont_negMod_val hs f _
    · rw [State.val_retire, State.val_putVal_self hs, negMod_eq (hv rs1), Nat.mod_mod]
  case fadd =>
    refine ⟨_, exec_fadd rd h1 h2, s.completes_setF .., ?_, ?_⟩
    · rw [State.word_retire, State.word_putVal_self]
      exact mont_addMod_val hs f _ _
    · rw [State.val_retire, State.val_putVal_self hs, addMod, Nat.mod_mod]
  case fsub =>
    refine ⟨_, exec_fsub rd h1 h2, s.completes_setF .., ?_, ?_⟩
    · rw [State.word_retire, State.word_putVal_self, ← subMod_eq _ h2.2]
      exact mont_subMod_val hs f _ _
    · rw [State.val_retire, State.val_putVal_self hs, subMod_eq _ (hv rs2), Nat.mod_mod]

/-- FMUL of canonical words is MONTMUL of them (42_montgomery.md R205). -/
theorem exec_fmul_eq_montmul {s : State} {f : FieldSel} {rs1 rs2 : FReg} (rd : FReg) (hs : s.cfg.sized = true)
    (h1 : s.Reads f rs1) (h2 : s.Reads f rs2) : exec (.fmul f rd rs1 rs2) s = exec (.montmul f rd rs1 rs2) s := by
  rw [exec_fmul rd h1 h2, exec_montmul f rd h1.1 h2.1, State.putVal, State.val, State.val, mont_mulMod_val hs]

/-- Settles O21: FMUL writes the product of the values, and the other two commands leave the state it leaves. -/
theorem fieldProducts : Obligations.FieldProducts := by
  intro f rd rs1 rs2 s hs h1 h2
  have hval (v w : Nat) : (s.putVal f rd (mulMod (s.cfg.modulus f) v w)).retire.val f rd = v * w % s.cfg.modulus f := by
    rw [State.val_retire, State.val_putVal_self hs, mulMod, Nat.mod_mod]
  constructor
  · have he := exec_fmul rd h1 h2
    exact ⟨_, he, (exec_fmul_eq_montmul rd hs h1 h2).symm.trans he, s.completes_setF ..,
      State.word_putVal_lt hs .., hval ..⟩
  · have he := exec_fmul rd h1 h1
    exact ⟨_, (exec_fsqr rd h1).trans he, he, s.completes_setF .., hval ..⟩

/-- A word of the group that a select copies is the word that the mask selects. -/
theorem State.word_select (s : State) (b : Bool) (rs1 rs2 : FReg) (k : Nat) :
    s.word ((if b then rs1 else rs2).val + k) = if b then s.word (rs1 + k) else s.word (rs2 + k) := by
  cases b <;> rfl

/-- Settles O24: a single word is written as it was read, and a group by `State.copy_completes`, which reads every word
before the first is written. -/
theorem selectsCopyWords : Obligations.SelectsCopyWords := by
  intro f rd rs1 rs2 ms s
  refine ⟨fun h1 => ?fmov, fun h1 h2 hm => ?fsel, fun hd h1 h2 hm => ?pwsel, fun he hd h1 h2 hm => ?pesel⟩
  case fmov => exact ⟨_, exec_fmov rd h1, s.completes_setF .., s.word_setF_self ..⟩
  case fsel => exact ⟨_, exec_fsel rd h1 h2 hm, s.completes_setF .., s.word_setF_self ..⟩
  case pwsel =>
    obtain ⟨hc, hw⟩ := s.copy_completes (if s.mask ms then rs1 else rs2).val hd
    exact ⟨_, exec_pwsel hd h1 h2 hm, hc, fun k hk => (hw k hk).trans (s.word_select ..)⟩
  case pesel =>
    obtain ⟨hc, hw⟩ := s.copy_completes (if s.mask ms then rs1 else rs2).val hd
    exact ⟨_, exec_pesel he hd h1 h2 hm, hc, fun k hk => (hw k hk).trans (s.word_select ..)⟩

/-- Settles O25: each test writes its flag of the values, and a canonical word is known by its value. -/
theorem fieldTests : Obligations.FieldTests := by
  intro f md rs1 rs2 s hs h1
  refine ⟨?fisz, ?fsgn0, fun h2 => ?feq⟩
  case fisz =>
    have hm : (s.setM md (isZeroFlag (s.val f rs1))).retire.mask md = true ↔ s.val f rs1 = 0 := by
      rw [State.mask_retire, State.mask_setM_self, isZeroFlag, decide_eq_true_iff]
    exact ⟨_, exec_fisz md h1, s.completes_setM .., hm, hm.trans (val_eq_zero_iff hs f _ h1.2)⟩
  case fsgn0 =>
    refine ⟨_, exec_fsgn0 md h1, s.completes_setM .., ?_⟩
    rw [State.mask_retire, State.mask_setM_self, signFlag, decide_eq_true_iff, sgn0]
  case feq =>
    have hm : (s.setM md (equalFlag (s.val f rs1) (s.val f rs2))).retire.mask md = true ↔
        s.val f rs1 = s.val f rs2 := by
      rw [State.mask_retire, State.mask_setM_self, equalFlag, decide_eq_true_iff]
    exact ⟨_, exec_feq md h1 h2, s.completes_setM .., hm,
      hm.trans ⟨word_eq_of_val_eq hs f h1.2 h2.2, congrArg (s.cfg.val f)⟩⟩

/-- Settles O26: none of the three commands has a check that can fail, and the word each writes is its constant. -/
theorem constantLoads : Obligations.ConstantLoads := by
  intro f rd imm s hs
  refine ⟨?fldi, ?rawi, ?rawr2⟩
  case fldi =>
    refine ⟨_, exec_fldi .., s.completes_setF .., ?_, ?_⟩
    · rw [State.word_retire, State.word_putVal_self]
      exact mont_mod_modulus s.cfg f _
    · rw [State.val_retire, State.val_putVal_self hs, Nat.mod_mod]
  case rawi => exact ⟨_, exec_rawi .., s.completes_setF .., s.word_setF_self ..⟩
  case rawr2 => exact ⟨_, exec_rawr2 .., s.completes_setF .., s.word_setF_self ..⟩

end Sys2Proof.Machine
end

section
/-! PROOFS. FINV and FSQRT (41_field.md R176, R177): the inverse and the root where there is one, and the flag where
there is none. -/

namespace Sys2Proof.Machine

theorem modulus_prime {c : Config} (h : c.PrimeFields) (f : FieldSel) : Nat.Prime (c.modulus f) := by
  cases f
  · exact h.primeP
  · exact h.primeQ

/-! ### The commands, with their checks passing -/

section
variable {s : State} {f : FieldSel} {rs1 : FReg} (rd : FReg) (md : MReg) (h1 : s.Reads f rs1)
include h1

theorem exec_finv_of_ne_zero (h0 : s.val f rs1 ≠ 0) : exec (.finv f rd md rs1) s =
    .next ((s.putVal f rd (invMod (s.cfg.modulus f) (s.val f rs1))).setM md true).retire := by
  rw [exec, execFinv, runCommand_pass (Checks.pass_canon h1)]
  exact congrArg (fun u => Host.Outcome.next (State.retire u)) (if_pos h0)

theorem exec_finv_of_zero (h0 : s.val f rs1 = 0) : exec (.finv f rd md rs1) s =
    .next ((s.putVal f rd (s.draw f 0)).setM md false).retire := by
  rw [exec, execFinv, runCommand_pass (Checks.pass_canon h1)]
  exact congrArg (fun u => Host.Outcome.next (State.retire u)) (if_neg (not_not_intro h0))

theorem exec_fsqrt_of_square (hq : isSquareMod (s.cfg.modulus f) (s.val f rs1) = true) : exec (.fsqrt f rd md rs1) s =
    .next ((s.putVal f rd (s.drawnRoot f (s.val f rs1))).setM md true).retire := by
  rw [exec, execFsqrt, runCommand_pass (Checks.pass_canon h1)]
  exact congrArg (fun u => Host.Outcome.next (State.retire u)) (if_pos hq)

theorem exec_fsqrt_of_nonsquare (hq : ¬ isSquareMod (s.cfg.modulus f) (s.val f rs1) = true) :
    exec (.fsqrt f rd md rs1) s = .next ((s.putVal f rd (s.draw f 0)).setM md false).retire := by
  rw [exec, execFsqrt, runCommand_pass (Checks.pass_canon h1)]
  exact congrArg (fun u => Host.Outcome.next (State.retire u)) (if_neg hq)

end

/-! ### The inverse -/

theorem cast_eq_zero_iff {m a : Nat} (ha : a < m) : (a : ZMod m) = 0 ↔ a = 0 :=
  ⟨fun h => eq_of_cast_eq ha (by omega) (h.trans Nat.cast_zero.symm), fun h => h ▸ Nat.cast_zero⟩

theorem mul_invMod {m a : Nat} (hm : Nat.Prime m) (h2 : 2 < m) (ha : a < m) (h0 : a ≠ 0) :
    a * invMod m a % m = 1 := by
  have : Fact m.Prime := ⟨hm⟩
  refine eq_of_cast_eq (Nat.mod_lt _ (by omega)) (by omega) ?_
  rw [ZMod.natCast_mod, Nat.cast_mul, cast_invMod m a hm h2, mul_inv_cancel₀ (mt (cast_eq_zero_iff ha).1 h0),
    Nat.cast_one]

/-- Settles O22, by whether the value is 0. -/
theorem inverseOrFlag : Obligations.InverseOrFlag := by
  intro f rd md rs1 s hp h1
  have hb := modulus_bounds hp.sized f
  by_cases h0 : s.val f rs1 = 0
  · exact ⟨_, exec_finv_of_zero rd md h1 h0, s.completes_setF_setM .., State.word_putVal_lt hp.sized ..,
      fun hn => absurd h0 hn, fun _ => State.mask_setM_self ..⟩
  · refine ⟨_, exec_finv_of_ne_zero rd md h1 h0, s.completes_setF_setM .., State.word_putVal_lt hp.sized ..,
      fun _ => ⟨State.mask_setM_self .., ?_⟩, fun hz => absurd hz h0⟩
    rw [State.val_retire, State.val_setM, State.val_putVal_self hp.sized, Nat.mul_mod_mod]
    exact mul_invMod (modulus_prime hp f) (by omega) (val_lt hp.sized f _) h0

/-! ### The root -/

theorem isSquare_cast_iff {m a : Nat} (ha : a < m) : IsSquare (a : ZMod m) ↔ ∃ r : Nat, r * r % m = a := by
  have : NeZero m := ⟨by omega⟩
  constructor
  · rintro ⟨x, hx⟩
    refine ⟨x.val, eq_of_cast_eq (Nat.mod_lt _ (by omega)) ha ?_⟩
    rw [ZMod.natCast_mod, Nat.cast_mul, ZMod.natCast_zmod_val, hx]
  · rintro ⟨r, rfl⟩
    exact ⟨r, by rw [ZMod.natCast_mod, Nat.cast_mul]⟩

/-- Whichever root the draw takes, it squares to the value. -/
theorem State.drawnRoot_mul_self {s : State} (hp : s.cfg.PrimeFields) {f : FieldSel} {a : Nat}
    (ha : a < s.cfg.modulus f) (hq : isSquareMod (s.cfg.modulus f) a = true) :
    s.drawnRoot f a * s.drawnRoot f a % s.cfg.modulus f = a := by
  have : Fact (s.cfg.modulus f).Prime := ⟨modulus_prime hp f⟩
  have hb := modulus_bounds hp.sized f
  have hr := sqrtMod_spec (by omega) a hq
  refine eq_of_cast_eq (Nat.mod_lt _ (by omega)) ha ?_
  rw [ZMod.natCast_mod, Nat.cast_mul, ← pow_two, State.drawnRoot]
  split
  · exact hr
  · rw [cast_negMod _ _ (by omega), neg_sq, hr]

/-- Settles O23, by whether the value is a square. -/
theorem squareRootOrFlag : Obligations.SquareRootOrFlag := by
  intro f rd md rs1 s hp h1
  have : Fact (s.cfg.modulus f).Prime := ⟨modulus_prime hp f⟩
  have hb := modulus_bounds hp.sized f
  have hv : s.val f rs1 < s.cfg.modulus f := val_lt hp.sized f _
  have hiff := (isSquareMod_iff (by omega) (s.val f rs1)).trans (isSquare_cast_iff hv)
  by_cases hq : isSquareMod (s.cfg.modulus f) (s.val f rs1) = true
  · refine ⟨_, exec_fsqrt_of_square rd md h1 hq, s.completes_setF_setM .., State.word_putVal_lt hp.sized ..,
      iff_of_true (State.mask_setM_self ..) (hiff.1 hq), fun _ => ?_⟩
    rw [State.val_retire, State.val_setM, State.val_putVal_self hp.sized, Nat.mul_mod_mod, Nat.mod_mul_mod]
    exact State.drawnRoot_mul_self hp hv hq
  · have hm : ¬ ((s.putVal f rd (s.draw f 0)).setM md false).retire.mask md = true := by simp
    exact ⟨_, exec_fsqrt_of_nonsquare rd md h1 hq, s.completes_setF_setM .., State.word_putVal_lt hp.sized ..,
      iff_of_false hm (mt hiff.2 hq), fun ht => absurd ht hm⟩

end Sys2Proof.Machine
end

section
/-! PROOFS. The field axioms (41_field.md R185). A register holds an element of `ZMod m`; each command puts the sum, the
product and so on of the elements it reads and keeps the others; and two registers that hold one element hold one word.
So a sequence of commands is read as a term of the field, and an axiom is an identity between two terms. -/

namespace Sys2Proof.Machine

/-- Under the configuration `c`, register `r` can be read and its value is the element `x`. -/
structure State.Holds (s : State) (c : Config) (f : FieldSel) (r : FReg) (x : ZMod (c.modulus f)) : Prop where
  cfg : s.cfg = c
  reads : s.Reads f r
  elem : (s.val f r : ZMod (c.modulus f)) = x

/-- From `s` to `t` the element `x` was put in register `d`, and every other register still holds what it held. -/
structure State.Puts (s t : State) (c : Config) (f : FieldSel) (d : FReg) (x : ZMod (c.modulus f)) : Prop where
  holds : t.Holds c f d x
  keeps {r : FReg} {y : ZMod (c.modulus f)} (hr : d ≠ r) (h : s.Holds c f r y) : t.Holds c f r y

theorem State.after_eq {s t : State} {i : Instr} (h : exec i s = .next t) : s.after i = t := by
  rw [State.after, h]

theorem State.Reads.holds {s : State} {f : FieldSel} {r : FReg} (h : s.Reads f r) :
    s.Holds s.cfg f r (s.val f r : ZMod (s.cfg.modulus f)) :=
  ⟨rfl, h, rfl⟩

/-- A command that completed and wrote one value put its class. -/
theorem State.Completes.puts {s t : State} {d : FReg} {ms : List MReg} {f : FieldSel} {v : Nat}
    (hs : s.cfg.sized = true) (ht : s.Completes t d 1 ms) (hw : t.word d = s.cfg.mont f v) :
    s.Puts t s.cfg f d v := by
  have hcfg : t.cfg = s.cfg := by rw [ht.others]
  refine ⟨⟨hcfg, ⟨ht.written 0 Nat.one_pos, ?_⟩, ?_⟩, fun {r y} hr h => ?_⟩
  · rw [hw, hcfg]
    exact mont_lt hs f v
  · rw [State.val, hcfg, hw, val_mont hs, ZMod.natCast_mod]
  · obtain ⟨-, ⟨hv, hc⟩, hy⟩ := h
    have hne : r.val ≠ d.val := fun hrd => hr (Fin.val_inj.1 hrd.symm)
    obtain ⟨hword, hvalid⟩ := ht.words r (by omega)
    refine ⟨hcfg, ⟨hvalid.trans hv, ?_⟩, ?_⟩
    · rwa [hword, hcfg]
    · rwa [State.val, hword, hcfg]

section
variable {s t : State} {c : Config} (hc : c.sized = true) {f : FieldSel} {a b : FReg} {x y : ZMod (c.modulus f)}
include hc

/-- Two registers that hold one element hold one word, also in two states. -/
theorem State.Holds.word_eq (ha : s.Holds c f a x) (hb : t.Holds c f b y) (hxy : x = y) : s.word a = t.word b := by
  obtain ⟨rfl, ⟨-, h1⟩, rfl⟩ := ha
  obtain ⟨hcfg, ⟨-, h2⟩, rfl⟩ := hb
  rw [State.val, State.val, hcfg] at hxy
  rw [hcfg] at h2
  exact word_eq_of_val_eq hc f h1 h2 (eq_of_cast_eq (val_lt hc f _) (val_lt hc f _) hxy)

theorem State.Holds.word_eq_zero (ha : s.Holds c f a x) (hx : x = 0) : s.word a = 0 := by
  obtain ⟨rfl, ⟨-, h1⟩, rfl⟩ := ha
  exact (val_eq_zero_iff hc f _ h1).1 ((cast_eq_zero_iff (val_lt hc f _)).1 hx)

/-! ### The commands on elements -/

theorem State.puts_fldi (hs : s.cfg = c) (d : FReg) (imm : BitVec 16) :
    s.Puts (s.after (.fldi f d imm)) c f d imm.toNat := by
  subst hs
  rw [State.after_eq (exec_fldi ..), ← ZMod.natCast_mod]
  exact (s.completes_setF ..).puts hc (s.word_putVal_self ..)

theorem State.Holds.fneg (ha : s.Holds c f a x) (d : FReg) : s.Puts (s.after (.fneg f d a)) c f d (-x) := by
  obtain ⟨rfl, h1, rfl⟩ := ha
  rw [State.after_eq (exec_fneg d h1), ← cast_negMod _ _ (modulus_pos hc f)]
  exact (s.completes_setF ..).puts hc (s.word_putVal_self ..)

theorem State.Holds.fadd (ha : s.Holds c f a x) (hb : s.Holds c f b y) (d : FReg) :
    s.Puts (s.after (.fadd f d a b)) c f d (x + y) := by
  obtain ⟨rfl, h1, rfl⟩ := ha
  obtain ⟨-, h2, rfl⟩ := hb
  rw [State.after_eq (exec_fadd d h1 h2), ← cast_addMod]
  exact (s.completes_setF ..).puts hc (s.word_putVal_self ..)

theorem State.Holds.fsub (ha : s.Holds c f a x) (hb : s.Holds c f b y) (d : FReg) :
    s.Puts (s.after (.fsub f d a b)) c f d (x - y) := by
  obtain ⟨rfl, h1, rfl⟩ := ha
  obtain ⟨-, h2, rfl⟩ := hb
  rw [State.after_eq (exec_fsub d h1 h2), ← cast_subMod _ _ _ (modulus_pos hc f)]
  exact (s.completes_setF ..).puts hc (s.word_putVal_self ..)

theorem State.Holds.fmul (ha : s.Holds c f a x) (hb : s.Holds c f b y) (d : FReg) :
    s.Puts (s.after (.fmul f d a b)) c f d (x * y) := by
  obtain ⟨rfl, h1, rfl⟩ := ha
  obtain ⟨-, h2, rfl⟩ := hb
  rw [State.after_eq (exec_fmul d h1 h2), ← cast_mulMod]
  exact (s.completes_setF ..).puts hc (s.word_putVal_self ..)

end

/-- FINV of a nonzero element puts its inverse, with mask 1. -/
theorem State.Holds.finv {s : State} {c : Config} (hp : c.PrimeFields) {f : FieldSel} {a : FReg}
    {x : ZMod (c.modulus f)} (ha : s.Holds c f a x) (hx : x ≠ 0) (d : FReg) (md : MReg) :
    (s.after (.finv f d md a)).mask md = true ∧ s.Puts (s.after (.finv f d md a)) c f d x⁻¹ := by
  obtain ⟨rfl, h1, rfl⟩ := ha
  have hb := modulus_bounds hp.sized f
  have h0 : s.val f a ≠ 0 := mt (cast_eq_zero_iff (val_lt hp.sized f _)).2 hx
  rw [State.after_eq (exec_finv_of_ne_zero d md h1 h0), ← cast_invMod _ _ (modulus_prime hp f) (by omega)]
  exact ⟨State.mask_setM_self .., (s.completes_setF_setM ..).puts hp.sized (s.word_putVal_self ..)⟩

/-- Settles O27: the elements that the two sequences leave are the two sides of the axiom in `ZMod m`. -/
theorem fieldAxioms : Obligations.FieldAxioms := by
  intro f a b c d e md s hp ra rb rc hda hdb hdc hea heb hec hed
  have hs := hp.sized
  have ha := ra.holds
  have hb := rb.holds
  have hc := rc.holds
  refine ⟨?addComm, ?addAssoc, ?addZero, ?addNeg, ?mulComm, ?mulAssoc, ?mulAdd, ?mulOne, fun h0 => ?mulInv, ?sub,
    ?sqr⟩
  case addComm => exact (ha.fadd hs hb d).holds.word_eq hs (hb.fadd hs ha d).holds (add_comm ..)
  case addAssoc =>
    have ab := ha.fadd hs hb d
    have bc := hb.fadd hs hc d
    have left := ab.holds.fadd hs (ab.keeps hdc hc) d
    have right := (bc.keeps hda ha).fadd hs bc.holds d
    exact left.holds.word_eq hs right.holds (add_assoc ..)
  case addZero =>
    have zero := s.puts_fldi hs (f := f) rfl d 0
    exact ((zero.keeps hda ha).fadd hs zero.holds d).holds.word_eq hs ha (by simp)
  case addNeg =>
    have neg := ha.fneg hs d
    exact ((neg.keeps hda ha).fadd hs neg.holds d).holds.word_eq_zero hs (add_neg_cancel _)
  case mulComm => exact (ha.fmul hs hb d).holds.word_eq hs (hb.fmul hs ha d).holds (mul_comm ..)
  case mulAssoc =>
    have ab := ha.fmul hs hb d
    have bc := hb.fmul hs hc d
    have left := ab.holds.fmul hs (ab.keeps hdc hc) d
    have right := (bc.keeps hda ha).fmul hs bc.holds d
    exact left.holds.word_eq hs right.holds (mul_assoc ..)
  case mulAdd =>
    have bc := hb.fadd hs hc d
    have left := (bc.keeps hda ha).fmul hs bc.holds d
    have ab := ha.fmul hs hb d
    have ac := (ab.keeps hda ha).fmul hs (ab.keeps hdc hc) e
    have right := (ac.keeps hed ab.holds).fadd hs ac.holds d
    exact left.holds.word_eq hs right.holds (mul_add ..)
  case mulOne =>
    have one := s.puts_fldi hs (f := f) rfl d 1
    exact ((one.keeps hda ha).fmul hs one.holds d).holds.word_eq hs ha (by simp)
  case mulInv =>
    have : Fact (s.cfg.modulus f).Prime := ⟨modulus_prime hp f⟩
    have hx := mt (cast_eq_zero_iff (val_lt hs f (s.word a))).1 h0
    obtain ⟨hm, inv⟩ := ha.finv hp hx d md
    have left := (inv.keeps hda ha).fmul hs inv.holds d
    have one := s.puts_fldi hs (f := f) rfl d 1
    exact ⟨hm, left.holds.word_eq hs one.holds ((mul_inv_cancel₀ hx).trans (by simp))⟩
  case sub =>
    have neg := hb.fneg hs d
    have right := (neg.keeps hda ha).fadd hs neg.holds d
    exact (ha.fsub hs hb d).holds.word_eq hs right.holds (sub_eq_add_neg ..)
  case sqr => rw [State.after, exec_fsqr d ra, State.after]

end Sys2Proof.Machine
end

section
/-! PROOFS. The raw Montgomery words (42_montgomery.md R200 to R206): the exact residues that MONTMUL and MONTRED leave,
the conversions a program builds from them, and the PALLAS constants. The commands have their equations among the
pseudo-instructions and the constant loads. -/

namespace Sys2Proof.Machine

/-- The value of a word, times `R`, is the word modulo m (00_scope.md R18). -/
theorem val_mul_radix_mod {c : Config} (h : c.sized = true) (f : FieldSel) (w : Nat) :
    c.val f w * c.radix % c.modulus f = w % c.modulus f := by
  refine (ZMod.natCast_eq_natCast_iff' _ _ _).1 ?_
  rw [Nat.cast_mul, cast_val_mul_radix h]

/-- Settles O28: each command writes the value of the product, or of the double-width value, which times `R` is that
number modulo m. -/
theorem montgomeryResidues : Obligations.MontgomeryResidues := by
  intro f rd rs1 rs2 s hs h1 h2
  have residue (w : Nat) : (s.setF rd (s.cfg.val f w)).retire.word rd < s.cfg.modulus f ∧
      (s.setF rd (s.cfg.val f w)).retire.word rd * s.cfg.radix % s.cfg.modulus f = w % s.cfg.modulus f := by
    rw [State.word_retire, State.word_setF_self]
    exact ⟨val_lt hs f w, val_mul_radix_mod hs f w⟩
  exact ⟨⟨_, exec_montmul f rd h1 h2, s.completes_setF .., residue _⟩,
    ⟨_, exec_montred f rd h1 h2, s.completes_setF .., residue _⟩⟩

/-! ### The conversions -/

section
variable {s : State} (f : FieldSel) (rd : FReg) {v b z o : FReg}

/-- MONTMUL by `R² mod m` brings a word into Montgomery form. -/
theorem exec_montmul_radix_sq (hs : s.cfg.sized = true) (hv : s.fvalid v = true) (hb : s.fvalid b = true)
    (hR : s.word b = s.cfg.radix * s.cfg.radix % s.cfg.modulus f) :
    exec (.montmul f rd v b) s = .next (s.putVal f rd (s.word v)).retire := by
  rw [exec_montmul f rd hv hb, hR, val_mul_radix_sq hs, State.putVal]

/-- MONTRED with 0 above takes a word out of Montgomery form. -/
theorem exec_montred_zero (hz : s.fvalid z = true) (hv : s.fvalid v = true) (h0 : s.word z = 0) :
    exec (.montred f rd z v) s = .next (s.setF rd (s.val f v)).retire := by
  rw [exec_montred f rd hz hv, h0, Nat.zero_mul, Nat.zero_add, State.val]

/-- MONTMUL by the word 1 takes a word out of Montgomery form. -/
theorem exec_montmul_one (hv : s.fvalid v = true) (ho : s.fvalid o = true) (h1 : s.word o = 1) :
    exec (.montmul f rd v o) s = .next (s.setF rd (s.val f v)).retire := by
  rw [exec_montmul f rd hv ho, h1, Nat.mul_one, State.val]

/-- Out of Montgomery form and back in, a canonical word comes back. -/
theorem exec_montred_montmul (hs : s.cfg.sized = true) (hz : s.fvalid z = true) (hv : s.Reads f v)
    (hb : s.fvalid b = true) (h0 : s.word z = 0) (hR : s.word b = s.cfg.radix * s.cfg.radix % s.cfg.modulus f)
    (hne : rd ≠ b) :
    ∃ t u, exec (.montred f rd z v) s = .next t ∧ exec (.montmul f rd rd b) t = .next u ∧ u.word rd = s.word v := by
  have hbd : b.val ≠ rd.val := fun h => hne (Fin.val_inj.1 h.symm)
  have hrd (w : FWord) : (s.setF rd w).retire.fvalid rd = true := s.fvalid_setF_self rd w
  have hb' (w : FWord) : (s.setF rd w).retire.fvalid b = true := (s.fvalid_setF_other w hbd).trans hb
  have hR' (w : FWord) : (s.setF rd w).retire.word b = s.cfg.radix * s.cfg.radix % s.cfg.modulus f :=
    (s.word_setF_other w hbd).trans hR
  refine ⟨_, _, exec_montred_zero f rd hz hv.1 h0, exec_montmul_radix_sq f rd hs (hrd _) (hb' _) (hR' _), ?_⟩
  rw [State.word_retire, State.word_putVal_self, State.word_retire, State.word_setF_self]
  exact mont_val hs f hv.2

end

/-! ### The PALLAS constants -/

theorem pallas_mont_one :
    Config.pallas.mont .p 1 = 0x3fffffffffffffffffffffffffffffff992c350be41914ad34786d38fffffffd ∧
    Config.pallas.mont .q 1 = 0x3fffffffffffffffffffffffffffffff992c350be34205675b2b3e9cfffffffd := by
  decide +kernel

theorem pallas_radix_sq :
    Config.pallas.radix * Config.pallas.radix % Config.pallas.modulus .p =
      0x096d41af7b9cb7147797a99bc3c95d18d7d30dbd8b0de0e78c78ecb30000000f ∧
    Config.pallas.radix * Config.pallas.radix % Config.pallas.modulus .q =
      0x096d41af7ccfdaa97fae231004ccf59067bb433d891a16e3fc9678ff0000000f := by
  decide +kernel

/-- Settles O29: each identity is one of the conversions above, and the PALLAS constants are `mont(1)` and `R² mod m`
under its two moduli. -/
theorem montgomeryConversions : Obligations.MontgomeryConversions := by
  refine ⟨fun f rd v x b z o s hs hv hx hb hz ho hR h0 h1 hne => ⟨?intoForm, ?byMontred, ?byOne, ?roundTrip, ?one⟩,
    fun rd s hc => ?pallas⟩
  case intoForm =>
    rw [mont_mod_modulus]
    exact ⟨_, exec_montmul_radix_sq f rd hs hv hb hR, s.word_putVal_self ..⟩
  case byMontred => exact ⟨_, exec_montred_zero f rd hz hx.1 h0, s.word_setF_self ..⟩
  case byOne => exact ⟨_, exec_montmul_one f rd hx.1 ho h1, s.word_setF_self ..⟩
  case roundTrip => exact exec_montred_montmul f rd hs hz hx hb h0 hR hne
  case one =>
    have hw := (s.word_putVal_self f rd _).trans (mont_mod_modulus s.cfg f 1)
    exact ⟨_, exec_fldi .., hw, hw.trans (congrArg (· % s.cfg.modulus f) (Nat.one_mul _))⟩
  case pallas =>
    have one (f : FieldSel) : ∃ t, exec (.fldi f rd 1) s = .next t ∧ t.word rd = Config.pallas.mont f 1 :=
      hc ▸ ⟨_, exec_fldi .., (s.word_putVal_self ..).trans (mont_mod_modulus ..)⟩
    have radixSq (f : FieldSel) : ∃ t, exec (.rawr2 f rd) s = .next t ∧
        t.word rd = Config.pallas.radix * Config.pallas.radix % Config.pallas.modulus f :=
      hc ▸ ⟨_, exec_rawr2 f rd s, s.word_setF_self ..⟩
    obtain ⟨oneP, oneQ⟩ := pallas_mont_one
    obtain ⟨sqP, sqQ⟩ := pallas_radix_sq
    exact ⟨oneP ▸ one .p, sqP ▸ radixSq .p, oneQ ▸ one .q, sqQ ▸ radixSq .q⟩

end Sys2Proof.Machine
end

section
/-! PROOFS. The loads and stores (43_loadstore.md R215 to R222): one equation per command for the state it leaves when
its checks pass, the integer that the bytes of MEM spell and the bytes that spell an integer, and the round trips. -/

namespace Sys2Proof.Machine

/-! ### The commands, with their checks passing -/

section
variable {s : State} {f : FieldSel} {addr : BitVec 12}

theorem Checks.pass_range {n : Nat} (h : addr.toNat + n ≤ 4096) : Checks.Pass { ranges := [range addr n] } s := by
  constructor <;> simp [range, h]

theorem Checks.pass_range_word {n : Nat} {r : FReg} {o : Option FieldSel} (h : addr.toNat + n ≤ 4096)
    (hv : s.fvalid r = true) (hc : ∀ g ∈ o, s.word r < s.cfg.modulus g) :
    Checks.Pass { ranges := [range addr n], words := [(r.val, o)] } s := by
  constructor <;> simp [range, h, hv]
  exact hc

theorem exec_fld_of_lt (rd : FReg) (md : MReg) (h : addr.toNat + s.cfg.elemBytes f ≤ 4096)
    (hx : os2ip (s.memRead addr.toNat (s.cfg.elemBytes f)) < s.cfg.modulus f) : exec (.fld f rd md addr) s =
    .next ((s.putVal f rd (os2ip (s.memRead addr.toNat (s.cfg.elemBytes f)))).setM md true).retire := by
  rw [exec, execFld, runCommand_pass (Checks.pass_range h)]
  exact congrArg (fun u => Host.Outcome.next (State.retire u)) (if_pos hx)

theorem exec_fld_of_not_lt (rd : FReg) (md : MReg) (h : addr.toNat + s.cfg.elemBytes f ≤ 4096)
    (hx : ¬os2ip (s.memRead addr.toNat (s.cfg.elemBytes f)) < s.cfg.modulus f) : exec (.fld f rd md addr) s =
    .next ((s.putVal f rd (s.draw f 0)).setM md false).retire := by
  rw [exec, execFld, runCommand_pass (Checks.pass_range h)]
  exact congrArg (fun u => Host.Outcome.next (State.retire u)) (if_neg hx)

/-- FLDW with `n = L_m` and FLDU64 with `n = 8`. -/
theorem loadReduced_pass {n : Nat} (f : FieldSel) (rd : FReg) (h : addr.toNat + n ≤ 4096) :
    loadReduced n f rd addr s =
      .next (s.putVal f rd (os2ip (s.memRead addr.toNat n) % s.cfg.modulus f)).retire :=
  runCommand_pass (Checks.pass_range h)

theorem exec_rawld (rd : FReg) (h : addr.toNat + s.cfg.wordBytes ≤ 4096) :
    exec (.rawld rd addr) s = .next (s.setF rd (os2ip (s.memRead addr.toNat s.cfg.wordBytes))).retire := by
  rw [exec, execRawld]
  exact runCommand_pass (Checks.pass_range h)

theorem exec_fst {r : FReg} (h : addr.toNat + s.cfg.elemBytes f ≤ 4096) (hr : s.Reads f r) :
    exec (.fst f r addr) s = .next (s.memWrite addr.toNat (i2osp (s.val f r) (s.cfg.elemBytes f))).retire := by
  rw [exec, execFst]
  exact runCommand_pass (Checks.pass_range_word h hr.1 (by simp [hr.2]))

theorem exec_rawst {r : FReg} (h : addr.toNat + s.cfg.wordBytes ≤ 4096) (hr : s.fvalid r = true) :
    exec (.rawst r addr) s = .next (s.memWrite addr.toNat (i2osp (s.word r) s.cfg.wordBytes)).retire := by
  rw [exec, execRawst]
  exact runCommand_pass (Checks.pass_range_word h hr (by simp))

end

/-! ### Integers and the bytes of MEM (00_scope.md R20) -/

/-- The integer a load reads, as the sum of the bytes, the first the most significant. -/
theorem os2ip_memRead (s : State) (a n : Nat) :
    os2ip (s.memRead a n) = ∑ k ∈ Finset.range n, (s.mem.read (a + k)).toNat * 256 ^ (n - 1 - k) := by
  rw [State.memRead, os2ip_eq_sum, Memory.length_readList]
  refine Finset.sum_congr rfl fun k hk => ?_
  rw [List.getD_eq_getElem _ _ (by simpa using hk), Memory.getElem_readList]

section
variable {s : State} {a n x : Nat} (hm : Memory.wf memSize s.mem = true) (ha : a + n ≤ memSize)
include hm ha

/-- Byte `k` of a stored integer is its digit `n − 1 − k`. -/
theorem State.read_memWrite_i2osp {k : Nat} (hk : k < n) :
    ((s.memWrite a (i2osp x n)).mem.read (a + k)).toNat = x / 256 ^ (n - 1 - k) % 256 := by
  rw [State.memWrite_mem, Memory.read_writeList_inside hm (by simpa using ha) (by simpa using hk),
    getElem_i2osp, BitVec.toNat_ofNat]

/-- An integer that fits is loaded as it was stored. -/
theorem State.os2ip_memRead_memWrite (hx : x < 256 ^ n) : os2ip ((s.memWrite a (i2osp x n)).memRead a n) = x := by
  have hread := Memory.readList_writeList (vs := i2osp x n) hm (by simpa using ha)
  rw [length_i2osp] at hread
  rw [State.memRead, State.memWrite_mem, hread, os2ip_i2osp x n hx]

/-- Storing back the integer that was loaded leaves MEM as it was. -/
theorem State.writeList_i2osp_os2ip : s.mem.writeList a (i2osp (os2ip (s.memRead a n)) n) = s.mem := by
  have hback : i2osp (os2ip (s.memRead a n)) n = s.memRead a n := by
    simpa [State.memRead] using i2osp_os2ip (s.memRead a n)
  have hlen : (s.memRead a n).length = n := Memory.length_readList ..
  have hfits : a + (s.memRead a n).length ≤ memSize := by rwa [hlen]
  rw [hback]
  refine Memory.ext (Memory.wf_writeList hm hfits) hm fun b => ?_
  by_cases hb : b < a ∨ a + (s.memRead a n).length ≤ b
  · exact Memory.read_writeList_outside _ _ hb
  · obtain ⟨k, rfl⟩ : ∃ k, b = a + k := ⟨b - a, by omega⟩
    rw [Memory.read_writeList_inside hm hfits (by omega)]
    exact Memory.getElem_readList ..

end

/-! ### The obligations -/

/-- Settles O31, by whether the integer read is below the modulus. -/
theorem canonicalLoad : Obligations.CanonicalLoad := by
  intro f rd md addr s hs h
  simp only [← os2ip_memRead]
  by_cases hx : os2ip (s.memRead addr.toNat (s.cfg.elemBytes f)) < s.cfg.modulus f
  · refine ⟨_, exec_fld_of_lt rd md h hx, s.completes_setF_setM .., State.word_putVal_lt hs .., ?_⟩
    rintro _ rfl
    refine ⟨fun _ => ⟨State.mask_setM_self .., ?_⟩, fun hle => absurd hx (Nat.not_lt.2 hle)⟩
    rw [State.val_retire, State.val_setM, State.val_putVal_self hs, Nat.mod_eq_of_lt hx]
  · refine ⟨_, exec_fld_of_not_lt rd md h hx, s.completes_setF_setM .., State.word_putVal_lt hs .., ?_⟩
    rintro _ rfl
    exact ⟨fun hlt => absurd hlt hx, fun _ => State.mask_setM_self ..⟩

/-- Settles O32: FLDW and FLDU64 are one command at two sizes, and RAWLD writes the integer as it is read. -/
theorem reducingAndRawLoads : Obligations.ReducingAndRawLoads := by
  intro f rd addr s hs
  simp only [← os2ip_memRead, ← wordBytes_eq]
  have reduced (n : Nat) (h : addr.toNat + n ≤ 4096) :
      ∃ t, loadReduced n f rd addr s = .next t ∧ s.Completes t rd 1 [] ∧ t.word rd < s.cfg.modulus f ∧
        t.val f rd = os2ip (s.memRead addr.toNat n) % s.cfg.modulus f := by
    refine ⟨_, loadReduced_pass f rd h, s.completes_setF .., State.word_putVal_lt hs .., ?_⟩
    rw [State.val_retire, State.val_putVal_self hs, Nat.mod_mod]
  exact ⟨reduced _, reduced _, fun h => ⟨_, exec_rawld rd h, s.completes_setF .., s.word_setF_self ..⟩⟩

/-- Settles O33: both commands store an integer, and have the frame and the bytes of that store. -/
theorem storesAreBigEndian : Obligations.StoresAreBigEndian := by
  intro f rd addr s _ hm
  simp only [← wordBytes_eq]
  have stored (x n : Nat) (h : addr.toNat + n ≤ 4096) :
      s.CompletesStore (s.memWrite addr.toNat (i2osp x n)).retire addr.toNat n ∧
        ∀ k < n, ((s.memWrite addr.toNat (i2osp x n)).retire.mem.read (addr.toNat + k)).toNat =
          x / 256 ^ (n - 1 - k) % 256 := by
    refine ⟨?_, fun k hk => State.read_memWrite_i2osp hm h hk⟩
    simpa using s.completesStore_memWrite addr.toNat (i2osp x n)
  exact ⟨fun h hr => ⟨_, exec_fst h hr, stored _ _ h⟩, fun h hr => ⟨_, exec_rawst h hr, stored _ _ h⟩⟩

/-- A stored value fits in its bytes, so FLD reads it back and writes its canonical word. -/
theorem fld_after_fst {s : State} {f : FieldSel} {rs : FReg} {addr : BitVec 12} (rd : FReg) (md : MReg)
    (hs : s.cfg.sized = true) (hm : Memory.wf memSize s.mem = true) (h : addr.toNat + s.cfg.elemBytes f ≤ 4096)
    (hr : s.Reads f rs) :
    ∃ t u, exec (.fst f rs addr) s = .next t ∧ exec (.fld f rd md addr) t = .next u ∧
      u.word rd = s.word rs ∧ u.mask md = true := by
  have hv : s.val f rs < s.cfg.modulus f := val_lt hs f _
  have hback := State.os2ip_memRead_memWrite hm h (hv.trans (modulus_lt_pow_elemBytes s.cfg f))
  refine ⟨_, _, exec_fst h hr, exec_fld_of_lt rd md h (hback.trans_lt hv), ?_, State.mask_setM_self ..⟩
  calc _ = s.cfg.mont f _ := State.word_putVal_self ..
    _ = s.cfg.mont f (s.val f rs) := congrArg (s.cfg.mont f) hback
    _ = s.word rs := mont_val hs f hr.2

/-- A loaded value is the integer of its bytes, so FST writes these bytes again. -/
theorem fst_after_fld {s : State} {f : FieldSel} {addr : BitVec 12} (rd : FReg) (md : MReg)
    (hs : s.cfg.sized = true) (hm : Memory.wf memSize s.mem = true) (h : addr.toNat + s.cfg.elemBytes f ≤ 4096)
    (hx : os2ip (s.memRead addr.toNat (s.cfg.elemBytes f)) < s.cfg.modulus f) :
    ∃ t u, exec (.fld f rd md addr) s = .next t ∧ exec (.fst f rd addr) t = .next u ∧ u.mem = s.mem := by
  have hreads (v : Nat) : State.Reads ((s.putVal f rd v).setM md true).retire f rd :=
    ⟨s.fvalid_setF_self rd (s.cfg.mont f v), State.word_putVal_lt hs ..⟩
  refine ⟨_, _, exec_fld_of_lt rd md h hx, exec_fst h (hreads _), ?_⟩
  rw [State.retire_mem, State.memWrite_mem, State.val_retire, State.val_setM, State.val_putVal_self hs,
    Nat.mod_eq_of_lt hx]
  exact State.writeList_i2osp_os2ip hm h

theorem rawld_after_rawst {s : State} {rs : FReg} {addr : BitVec 12} (rd : FReg)
    (hm : Memory.wf memSize s.mem = true) (h : addr.toNat + s.cfg.wordBytes ≤ 4096) (hr : s.fvalid rs = true)
    (hw : s.word rs < s.cfg.radix) :
    ∃ t u, exec (.rawst rs addr) s = .next t ∧ exec (.rawld rd addr) t = .next u ∧ u.word rd = s.word rs :=
  ⟨_, _, exec_rawst h hr, exec_rawld rd h,
    (State.word_setF_self ..).trans (State.os2ip_memRead_memWrite hm h (hw.trans_eq (radix_eq s.cfg)))⟩

/-- Settles O34: the three round trips, under the parts of the invariant that each needs. -/
theorem storeLoadRoundTrips : Obligations.StoreLoadRoundTrips := by
  intro f rs rd md addr s hi
  rw [← wordBytes_eq]
  exact ⟨fld_after_fst rd md hi.sized hi.mem, fst_after_fld rd md hi.sized hi.mem,
    fun h hr => rawld_after_rawst rd hi.mem h hr (hi.words rs)⟩

end Sys2Proof.Machine
end

section
/-! PROOFS. Register groups as points (44_weierstrass.md R235): the checks of a command of one or two source groups,
what a list of values written to consecutive registers reads as, and the triples of canonical values. -/

namespace Sys2Proof.Machine

/-! ### The checks of source groups -/

section
variable {s : State} {legal : Bool} {groups : List (Nat × Nat)} {rs1 rs2 : FReg} {n : Nat}

theorem Checks.pass_group (hl : legal = true) (hg : ∀ g ∈ groups, g.1 + g.2 ≤ 32) (h1 : s.ReadsGroup rs1 n) :
    Checks.Pass { legal := legal, groups := groups, words := canonGroup rs1 n } s where
  legal := hl
  groups := hg
  ranges := by simp
  expands := by simp
  valid := h1.valid
  masks := by simp
  canonical := h1.canonical

theorem Checks.pass_group_group (hl : legal = true) (hg : ∀ g ∈ groups, g.1 + g.2 ≤ 32) (h1 : s.ReadsGroup rs1 n)
    (h2 : s.ReadsGroup rs2 n) :
    Checks.Pass { legal := legal, groups := groups, words := canonGroup rs1 n ++ canonGroup rs2 n } s where
  legal := hl
  groups := hg
  ranges := by simp
  expands := by simp
  valid := List.forall_mem_append.2 ⟨h1.valid, h2.valid⟩
  masks := by simp
  canonical := List.forall_mem_append.2 ⟨h1.canonical, h2.canonical⟩

end

/-! ### Writing a list of values -/

section
variable (s : State) (f : FieldSel) {b : Nat} {vs : List Nat} (h : b + vs.length ≤ 32)
include h

theorem State.word_putVals {k : Nat} (hk : k < vs.length) : (s.putVals f b vs).word (b + k) = s.cfg.mont f vs[k] := by
  rw [State.putVals, State.word_setFs_inside s (by simpa using hk) (by simpa using h), List.getElem_map]

theorem State.word_putVals_lt (hs : s.cfg.sized = true) :
    ∀ k < vs.length, (s.putVals f b vs).word (b + k) < s.cfg.modulus f := by
  intro k hk
  rw [State.word_putVals s f h hk]
  exact mont_lt hs f _

theorem State.val_putVals (hs : s.cfg.sized = true) {k : Nat} (hk : k < vs.length) :
    (s.putVals f b vs).val f (b + k) = vs[k] % s.cfg.modulus f := by
  rw [State.val, State.word_putVals s f h hk, State.putVals, State.setFs_cfg, val_mont hs]

theorem State.completes_putVals : s.Completes (s.putVals f b vs).retire b vs.length [] := by
  simpa [State.putVals] using s.completes_setFs (ws := vs.map (s.cfg.mont f)) (by simpa using h)

theorem State.completes_putVals_setM (md : MReg) (v : Bool) :
    s.Completes ((s.putVals f b vs).setM md v).retire b vs.length [md] := by
  simpa [State.putVals] using s.completes_setFs_setM (ws := vs.map (s.cfg.mont f)) md v (by simpa using h)

end

/-! ### Points in registers -/

@[simp] theorem State.pw_retire (s : State) (r : Nat) : s.retire.pw r = s.pw r := rfl

section
variable {s : State} (hs : s.cfg.sized = true)
include hs

theorem State.pw_lt (r : Nat) : (s.pw r).x < s.cfg.p ∧ (s.pw r).y < s.cfg.p ∧ (s.pw r).z < s.cfg.p :=
  ⟨val_lt hs .p _, val_lt hs .p _, val_lt hs .p _⟩

theorem State.pe_lt (r : Nat) :
    (s.pe r).x < s.cfg.p ∧ (s.pe r).y < s.cfg.p ∧ (s.pe r).z < s.cfg.p ∧ (s.pe r).t < s.cfg.p :=
  ⟨val_lt hs .p _, val_lt hs .p _, val_lt hs .p _, val_lt hs .p _⟩

/-- A triple of canonical values is read as it was written. -/
theorem State.pw_putW {b : Nat} (hb : b + 3 ≤ 32) {p : PointW} (hp : p.x < s.cfg.p ∧ p.y < s.cfg.p ∧ p.z < s.cfg.p) :
    (s.putW b p).pw b = p := by
  obtain ⟨hx, hy, hz⟩ := hp
  have hread {k : Nat} (hk : k < 3) := s.val_putVals .p (b := b) (vs := [p.x, p.y, p.z]) hb hs hk
  have hX : (s.putW b p).val .p b = p.x := (hread (k := 0) (by omega)).trans (Nat.mod_eq_of_lt hx)
  have hY : (s.putW b p).val .p (b + 1) = p.y := (hread (k := 1) (by omega)).trans (Nat.mod_eq_of_lt hy)
  have hZ : (s.putW b p).val .p (b + 2) = p.z := (hread (k := 2) (by omega)).trans (Nat.mod_eq_of_lt hz)
  rw [State.pw, hX, hY, hZ]

/-- What a command did that wrote one triple of canonical values and completed. -/
theorem State.completes_putW {o : Host.Outcome State Fault Refusal} {b : Nat} (hb : b + 3 ≤ 32) {p : PointW}
    (hp : p.x < s.cfg.p ∧ p.y < s.cfg.p ∧ p.z < s.cfg.p) (ho : o = .next (s.putW b p).retire) :
    ∃ t, o = .next t ∧ s.Completes t b 3 [] ∧ (∀ k < 3, t.word (b + k) < s.cfg.p) ∧ t.pw b = p := by
  refine ⟨_, ho, s.completes_putVals .p (vs := [p.x, p.y, p.z]) hb, fun k hk => ?_, ?_⟩
  · rw [State.word_retire]
    exact s.word_putVals_lt .p (vs := [p.x, p.y, p.z]) hb hs k hk
  · rw [State.pw_retire, State.pw_putW hs hb hp]

end

end Sys2Proof.Machine
end

section
/-! PROOFS. The Weierstrass addition, doubling, negation and tests (44_weierstrass.md R236 to R242): one equation per
command for the state it leaves when its checks pass. -/

namespace Sys2Proof.Machine

/-! ### The commands, with their checks passing -/

section
variable {s : State} {rd rs1 rs2 : FReg}

theorem exec_pwadd (hd : rd.val + 3 ≤ 32) (h1 : s.ReadsGroup rs1 3) (h2 : s.ReadsGroup rs2 3) :
    exec (.pwadd rd rs1 rs2) s = .next (s.putW rd (pwAdd s.cfg (s.pw rs1) (s.pw rs2))).retire := by
  rw [exec, execPwadd]
  exact runCommand_pass (Checks.pass_group_group rfl (by simp [group, hd, h1.1, h2.1]) h1 h2)

theorem pwUnaryCommand_pass (op : Config → PointW → PointW) (hd : rd.val + 3 ≤ 32) (h1 : s.ReadsGroup rs1 3) :
    pwUnaryCommand op rd rs1 s = .next (s.putW rd (op s.cfg (s.pw rs1))).retire :=
  runCommand_pass (Checks.pass_group rfl (by simp [group, hd, h1.1]) h1)

theorem exec_pwdbl (hd : rd.val + 3 ≤ 32) (h1 : s.ReadsGroup rs1 3) :
    exec (.pwdbl rd rs1) s = .next (s.putW rd (pwDbl s.cfg (s.pw rs1))).retire :=
  pwUnaryCommand_pass pwDbl hd h1

theorem exec_pwneg (hd : rd.val + 3 ≤ 32) (h1 : s.ReadsGroup rs1 3) :
    exec (.pwneg rd rs1) s = .next (s.putW rd (pwNeg s.cfg (s.pw rs1))).retire :=
  pwUnaryCommand_pass pwNeg hd h1

theorem exec_pwisid (md : MReg) (h1 : s.ReadsGroup rs1 3) :
    exec (.pwisid md rs1) s = .next (s.setM md (pwIdentityFlag (s.pw rs1))).retire := by
  rw [exec, execPwisid]
  exact runCommand_pass (Checks.pass_group rfl (by simp [group, h1.1]) h1)

theorem exec_pweq (md : MReg) (h1 : s.ReadsGroup rs1 3) (h2 : s.ReadsGroup rs2 3) :
    exec (.pweq md rs1 rs2) s = .next (s.setM md (pwEqualFlag s.cfg.p (s.pw rs1) (s.pw rs2))).retire := by
  rw [exec, execPweq]
  exact runCommand_pass (Checks.pass_group_group rfl (by simp [group, h1.1, h2.1]) h1 h2)

end

/-! ### The addition and the doubling -/

/-- Settles O35: the command writes the triple of the step list, whose coordinates are the polynomials of
`cast_pwAdd_x` and its companions. -/
theorem weierstrassPolynomials : Obligations.WeierstrassPolynomials := by
  rintro rd rs1 rs2 s hs hd h1 _ _ _ _ _ rfl rfl rfl rfl rfl
  have hp : 0 < s.cfg.p := modulus_pos hs .p
  refine ⟨?pwdbl, ?pwadd⟩
  case pwdbl =>
    obtain ⟨t, he, hc, hw, hpw⟩ := State.completes_putW hs hd (pwDbl_lt _ _ hp) (exec_pwdbl hd h1)
    refine ⟨t, he, hc, hw, ?_⟩
    rw [hpw]
    exact ⟨cast_pwDbl_x _ _ hp, cast_pwDbl_y _ _ hp, cast_pwDbl_z _ _⟩
  case pwadd =>
    rintro h2 _ _ _ rfl rfl rfl
    obtain ⟨t, he, hc, hw, hpw⟩ := State.completes_putW hs hd (pwAdd_lt _ _ _ hp) (exec_pwadd hd h1 h2)
    refine ⟨t, he, hc, hw, ?_⟩
    rw [hpw]
    exact ⟨cast_pwAdd_x _ _ _ hp, cast_pwAdd_y _ _ _ hp, cast_pwAdd_z _ _ _ hp⟩

/-! ### Negation and the tests -/

theorem pwNeg_lt {c : Config} {p : PointW} (hp : p.x < c.p ∧ p.y < c.p ∧ p.z < c.p) :
    (pwNeg c p).x < c.p ∧ (pwNeg c p).y < c.p ∧ (pwNeg c p).z < c.p :=
  ⟨hp.1, negMod_lt _ _ (by omega), hp.2.2⟩

theorem negMod_negMod {m a : Nat} (ha : a < m) : negMod m (negMod m a) = a := by
  have hm : 0 < m := by omega
  refine eq_of_cast_eq (negMod_lt _ _ hm) ha ?_
  rw [cast_negMod _ _ hm, cast_negMod _ _ hm, neg_neg]

theorem pwNeg_pwNeg {c : Config} {p : PointW} (hy : p.y < c.p) : pwNeg c (pwNeg c p) = p := by
  rw [pwNeg, pwNeg, negMod_negMod hy]

/-- A group written with a group's own values holds that group's words (00_scope.md R18). -/
theorem State.word_putW_pw {s t : State} (ht : t.cfg = s.cfg) (hs : s.cfg.sized = true) {b r : Nat} (hb : b + 3 ≤ 32)
    (hr : s.ReadsGroup r 3) : ∀ k < 3, (t.putW b (s.pw r)).word (b + k) = s.word (r + k) := by
  intro k hk
  have hw := t.word_putVals .p (b := b) (vs := [s.val .p (r + 0), s.val .p (r + 1), s.val .p (r + 2)]) hb hk
  have hv : [s.val .p (r + 0), s.val .p (r + 1), s.val .p (r + 2)][k] = s.val .p (r + k) := by
    interval_cases k <;> rfl
  rw [hv, ht] at hw
  exact hw.trans (mont_val hs .p (hr.2 k hk).2)

theorem subMod_mod_eq_zero_iff {m : Nat} (hm : 0 < m) (a b : Nat) :
    subMod m (a % m) (b % m) = 0 ↔ a % m = b % m := by
  rw [← cast_eq_zero_iff (subMod_lt m _ _ hm), cast_subMod _ _ _ hm, sub_eq_zero, ZMod.natCast_mod, ZMod.natCast_mod]
  exact ZMod.natCast_eq_natCast_iff' a b m

theorem crossEqual_iff {m : Nat} (hm : 0 < m) (a z a' z' : Nat) :
    crossEqual m a z a' z' = true ↔ a * z' % m = a' * z % m := by
  rw [crossEqual, decide_eq_true_iff]
  exact subMod_mod_eq_zero_iff hm _ _

/-- Settles O36: negation is an involution on canonical values, and the tests are of the products of the values. -/
theorem weierstrassNegationAndTests : Obligations.WeierstrassNegationAndTests := by
  intro rd rs1 rs2 md s hs h1
  have hp : 0 < s.cfg.p := modulus_pos hs .p
  have hlt := State.pw_lt hs rs1
  refine ⟨fun hd => ?pwneg, ?pwisid, fun h2 => ?pweq⟩
  case pwneg =>
    obtain ⟨t, he, hc, hw, hpw⟩ := State.completes_putW hs hd (pwNeg_lt hlt) (exec_pwneg hd h1)
    have hcfg : t.cfg = s.cfg := by rw [hc.others]
    have hreads : t.ReadsGroup rd 3 :=
      ⟨hd, fun k hk => ⟨hc.written k hk, (hw k hk).trans_eq (congrArg Config.p hcfg.symm)⟩⟩
    refine ⟨t, _, he, hc, hw, ?_, exec_pwneg hd hreads, ?_⟩
    · rw [hpw, pwNeg, negMod_eq hlt.2.1]
    · intro k hk
      rw [State.word_retire, hpw, hcfg, pwNeg_pwNeg hlt.2.1]
      exact State.word_putW_pw hcfg hs hd h1 k hk
  case pwisid =>
    refine ⟨_, exec_pwisid md h1, s.completes_setM .., ?_⟩
    rw [State.mask_retire, State.mask_setM_self, pwIdentityFlag, decide_eq_true_iff]
  case pweq =>
    refine ⟨_, exec_pweq md h1 h2, s.completes_setM .., ?_⟩
    rw [State.mask_retire, State.mask_setM_self, pwEqualFlag, Bool.and_eq_true, crossEqual_iff hp, crossEqual_iff hp]

end Sys2Proof.Machine
end

section
/-! PROOFS. The affine conversions and the points from affine pairs on both curves (44_weierstrass.md R243, R244,
45_edwards.md R273, R274). All four write values with mask 1 where their operand allows it, and as many draws with mask
0 where it does not (60_exceptions.md R354). -/

namespace Sys2Proof.Machine

/-! ### Values with a flag, or draws -/

/-- Write the values `vs` with mask 1 where `ok` holds, and `draws` with mask 0 where it does not. -/
def State.putChecked (s : State) (b : Nat) (md : MReg) (ok : Prop) [Decidable ok] (vs draws : List Nat) : State :=
  if ok then (s.putVals .p b vs).setM md true else (s.putVals .p b draws).setM md false

section
variable {s : State} {o : Host.Outcome State Fault Refusal} {b : Nat} {md : MReg} {vs : List Nat}

/-- What a command did that wrote a list of values and a mask and completed. -/
theorem State.completes_putVals_mask {v : Bool} (hs : s.cfg.sized = true) (hb : b + vs.length ≤ 32)
    (ho : o = .next ((s.putVals .p b vs).setM md v).retire) :
    ∃ t, o = .next t ∧ s.Completes t b vs.length [md] ∧ (∀ k < vs.length, t.word (b + k) < s.cfg.p) ∧
      t.mask md = v ∧ ∀ k w, vs[k]? = some w → t.val .p (b + k) = w % s.cfg.p := by
  refine ⟨_, ho, s.completes_putVals_setM .p hb md v, fun k hk => ?_, State.mask_setM_self .., fun k w hw => ?_⟩
  · rw [State.word_retire, State.word_setM]
    exact s.word_putVals_lt .p hb hs k hk
  · obtain ⟨hk, rfl⟩ := List.getElem?_eq_some_iff.1 hw
    rw [State.val_retire, State.val_setM]
    exact s.val_putVals .p hb hs hk

theorem State.completes_putChecked {ok : Prop} [Decidable ok] {draws : List Nat} {n : Nat} (hs : s.cfg.sized = true)
    (hb : b + n ≤ 32) (hv : vs.length = n) (hd : draws.length = n)
    (ho : o = .next (s.putChecked b md ok vs draws).retire) :
    ∃ t, o = .next t ∧ s.Completes t b n [md] ∧ (∀ k < n, t.word (b + k) < s.cfg.p) ∧ (t.mask md = true ↔ ok) ∧
      (ok → ∀ k w, vs[k]? = some w → t.val .p (b + k) = w % s.cfg.p) := by
  by_cases h : ok
  · rw [State.putChecked, if_pos h] at ho
    subst hv
    obtain ⟨t, he, hc, hw, hm, hval⟩ := State.completes_putVals_mask hs hb ho
    exact ⟨t, he, hc, hw, iff_of_true hm h, fun _ => hval⟩
  · rw [State.putChecked, if_neg h] at ho
    subst hd
    obtain ⟨t, he, hc, hw, hm, -⟩ := State.completes_putVals_mask hs hb ho
    exact ⟨t, he, hc, hw, iff_of_false (by simp [hm]) h, fun hok => absurd hok h⟩

end

/-! ### The commands, with their checks passing -/

section
variable {s : State} {rd rs1 : FReg} (md : MReg)

theorem exec_pwtoaff (hd : rd.val + 2 ≤ 32) (h1 : s.ReadsGroup rs1 3) : exec (.pwtoaff rd md rs1) s =
    .next (s.putChecked rd md ((s.pw rs1).z ≠ 0)
      [mulMod s.cfg.p (s.pw rs1).x (invMod s.cfg.p (s.pw rs1).z),
        mulMod s.cfg.p (s.pw rs1).y (invMod s.cfg.p (s.pw rs1).z)]
      [s.draw .p 0, s.draw .p 1]).retire := by
  rw [exec, execPwtoaff, runCommand_pass (Checks.pass_group rfl (by simp [group, hd, h1.1]) h1), State.putChecked]

theorem exec_petoaff (hen : s.cfg.edwEn = true) (hd : rd.val + 2 ≤ 32) (h1 : s.ReadsGroup rs1 4) :
    exec (.petoaff rd md rs1) s =
    .next (s.putChecked rd md ((s.pe rs1).z ≠ 0)
      [mulMod s.cfg.p (s.pe rs1).x (invMod s.cfg.p (s.pe rs1).z),
        mulMod s.cfg.p (s.pe rs1).y (invMod s.cfg.p (s.pe rs1).z)]
      [s.draw .p 0, s.draw .p 1]).retire := by
  rw [exec, execPetoaff, runCommand_pass (Checks.pass_group hen (by simp [group, hd, h1.1]) h1), State.putChecked]

theorem exec_pwsetaff (hd : rd.val + 3 ≤ 32) (h1 : s.ReadsGroup rs1 2) : exec (.pwsetaff rd md rs1) s =
    .next (s.putChecked rd md (pwOnCurveFlag s.cfg (s.val .p rs1) (s.val .p (rs1 + 1)) = true)
      [s.val .p rs1, s.val .p (rs1 + 1), 1]
      [s.draw .p 0, s.draw .p 1, s.draw .p 2]).retire := by
  rw [exec, execPwsetaff, runCommand_pass (Checks.pass_group rfl (by simp [group, hd, h1.1]) h1), State.putChecked]
  rfl

theorem exec_pesetaff (hen : s.cfg.edwEn = true) (hd : rd.val + 4 ≤ 32) (h1 : s.ReadsGroup rs1 2) :
    exec (.pesetaff rd md rs1) s =
    .next (s.putChecked rd md (peOnCurveFlag s.cfg (s.val .p rs1) (s.val .p (rs1 + 1)) = true)
      [s.val .p rs1, s.val .p (rs1 + 1), 1, mulMod s.cfg.p (s.val .p rs1) (s.val .p (rs1 + 1))]
      [s.draw .p 0, s.draw .p 1, s.draw .p 2, s.draw .p 3]).retire := by
  rw [exec, execPesetaff, runCommand_pass (Checks.pass_group hen (by simp [group, hd, h1.1]) h1), State.putChecked]
  rfl

end

/-! ### The quotients -/

/-- A coordinate times the inverse of Z, times Z, is the coordinate. -/
theorem mulMod_invMod_mul {m x z : Nat} (hm : Nat.Prime m) (h2 : 2 < m) (hx : x < m) (hz : z < m) (h0 : z ≠ 0) :
    mulMod m x (invMod m z) * z % m = x := by
  rw [mulMod, Nat.mod_mul_mod, mul_assoc, mul_comm _ z, ← Nat.mul_mod_mod, mul_invMod hm h2 hz h0, mul_one,
    Nat.mod_eq_of_lt hx]

/-- The outcome of PWTOAFF and of PETOAFF for the coordinates `x`, `y` over `z`. -/
theorem State.completes_affine {s : State} {o : Host.Outcome State Fault Refusal} {b : Nat} {md : MReg} {x y z : Nat}
    (hp : s.cfg.PrimeFields) (hb : b + 2 ≤ 32) (hx : x < s.cfg.p) (hy : y < s.cfg.p) (hz : z < s.cfg.p)
    (ho : o = .next (s.putChecked b md (z ≠ 0)
      [mulMod s.cfg.p x (invMod s.cfg.p z), mulMod s.cfg.p y (invMod s.cfg.p z)]
      [s.draw .p 0, s.draw .p 1]).retire) :
    ∃ t, o = .next t ∧ s.Completes t b 2 [md] ∧ (∀ k < 2, t.word (b + k) < s.cfg.p) ∧
      (z ≠ 0 → t.mask md = true ∧ t.val .p b * z % s.cfg.p = x ∧ t.val .p (b + 1) * z % s.cfg.p = y) ∧
      (z = 0 → t.mask md = false) := by
  have h2 : 2 < s.cfg.p := by have := modulus_bounds hp.sized .p; simp only [Config.modulus] at this; omega
  obtain ⟨t, he, hc, hw, hm, hval⟩ := State.completes_putChecked hp.sized hb rfl rfl ho
  refine ⟨t, he, hc, hw, fun h0 => ⟨hm.2 h0, ?_, ?_⟩, fun h0 => ?_⟩
  · have hfst : t.val .p b = _ := hval h0 0 _ rfl
    rw [hfst, Nat.mod_mul_mod]
    exact mulMod_invMod_mul hp.primeP h2 hx hz h0
  · rw [hval h0 1 _ rfl, Nat.mod_mul_mod]
    exact mulMod_invMod_mul hp.primeP h2 hy hz h0
  · exact Bool.eq_false_iff.2 fun ht => hm.1 ht h0

/-- Settles O37: the two conversions have one outcome, `State.completes_affine`, for the coordinates they read. -/
theorem affineConversions : Obligations.AffineConversions := by
  intro rd rs1 md s hp hd
  refine ⟨fun h1 => ?pwtoaff, fun hen h1 => ?petoaff⟩
  case pwtoaff =>
    obtain ⟨hx, hy, hz⟩ := State.pw_lt hp.sized rs1
    exact State.completes_affine hp hd hx hy hz (exec_pwtoaff md hd h1)
  case petoaff =>
    obtain ⟨hx, hy, hz, -⟩ := State.pe_lt hp.sized rs1
    exact State.completes_affine hp hd hx hy hz (exec_petoaff md hen hd h1)

/-! ### The curve equations -/

section
variable {c : Config} (hs : c.sized = true) (x y : Nat)
include hs

theorem pwOnCurveFlag_iff : pwOnCurveFlag c x y = true ↔ y ^ 2 % c.p = (x ^ 3 + c.cwA * x + c.cwB) % c.p := by
  have hp : 0 < c.p := modulus_pos hs .p
  rw [pwOnCurveFlag, decide_eq_true_iff, ← cast_eq_zero_iff (subMod_lt _ _ _ hp), ← ZMod.natCast_eq_natCast_iff']
  simp only [cast_subMod _ _ _ hp, cast_mulMod]
  push_cast
  constructor <;> intro h <;> linear_combination h

theorem peOnCurveFlag_iff : peOnCurveFlag c x y = true ↔
    (c.ceA * x ^ 2 + y ^ 2) % c.p = (1 + c.ceD * x ^ 2 * y ^ 2) % c.p := by
  have hp : 0 < c.p := modulus_pos hs .p
  rw [peOnCurveFlag, decide_eq_true_iff, ← cast_eq_zero_iff (subMod_lt _ _ _ hp), ← ZMod.natCast_eq_natCast_iff']
  simp only [cast_subMod _ _ _ hp, cast_addMod, cast_mulMod]
  push_cast
  constructor <;> intro h <;> linear_combination h

end

/-- Settles O38: both commands write the point where their flag of the pair is 1, and the flag is the curve
equation. -/
theorem pointsFromAffinePairs : Obligations.PointsFromAffinePairs := by
  rintro rd rs1 md s x y hs h1 rfl rfl
  have hx : s.val .p rs1 % s.cfg.p = s.val .p rs1 := Nat.mod_eq_of_lt (val_lt hs .p _)
  have hy : s.val .p (rs1 + 1) % s.cfg.p = s.val .p (rs1 + 1) := Nat.mod_eq_of_lt (val_lt hs .p _)
  have hone : 1 % s.cfg.p = 1 :=
    Nat.mod_eq_of_lt (by have := modulus_bounds hs .p; simp only [Config.modulus] at this; omega)
  refine ⟨fun hd => ?pwsetaff, fun hen hd => ?pesetaff⟩
  case pwsetaff =>
    obtain ⟨t, he, hc, hw, hm, hval⟩ := State.completes_putChecked hs hd rfl rfl (exec_pwsetaff md hd h1)
    refine ⟨t, he, hc, hw, hm.trans (pwOnCurveFlag_iff hs ..), fun ht => ?_⟩
    have hread := hval (hm.1 ht)
    have hX : t.val .p rd = s.val .p rs1 := (hread 0 _ rfl).trans hx
    rw [State.pw, hX, hread 1 _ rfl, hread 2 _ rfl, hy, hone]
  case pesetaff =>
    obtain ⟨t, he, hc, hw, hm, hval⟩ := State.completes_putChecked hs hd rfl rfl (exec_pesetaff md hen hd h1)
    refine ⟨t, he, hc, hw, hm.trans (peOnCurveFlag_iff hs ..), fun ht => ?_⟩
    have hread := hval (hm.1 ht)
    have hX : t.val .p rd = s.val .p rs1 := (hread 0 _ rfl).trans hx
    rw [State.pe, hX, hread 1 _ rfl, hread 2 _ rfl, hread 3 _ rfl, hy, hone, mulMod, Nat.mod_mod]

end Sys2Proof.Machine
end

section
/-! PROOFS. The Weierstrass triples over `ZMod P` (44_weierstrass.md R236, R238, R239): the step lists as polynomials in
the coordinates, that addition commutes, its identity and inverse cases, and that the doubling of a triple on the curve
is its sum with itself. -/

namespace Sys2Proof.Machine

/-! ### Triples over a ring -/

/-- Projective coordinates over a ring. -/
@[ext] structure Coords (R : Type*) where
  x : R
  y : R
  z : R

namespace Coords

variable {R : Type*} [CommRing R] (a b : R) (p q : Coords R)

/-- The triple is on `Y²·Z = X³ + a·X·Z² + b·Z³` (00_scope.md R23). -/
def OnCurve : Prop := p.y ^ 2 * p.z = p.x ^ 3 + a * p.x * p.z ^ 2 + b * p.z ^ 3

/-- The addition of 44_weierstrass.md R236 as polynomials. -/
def add : Coords R where
  x := (p.x * q.y + q.x * p.y) * (p.y * q.y - a * (p.x * q.z + q.x * p.z) - 3 * b * p.z * q.z)
    - (p.y * q.z + q.y * p.z) * (a * p.x * q.x + 3 * b * (p.x * q.z + q.x * p.z) - a ^ 2 * p.z * q.z)
  y := (3 * p.x * q.x + a * p.z * q.z) * (a * p.x * q.x + 3 * b * (p.x * q.z + q.x * p.z) - a ^ 2 * p.z * q.z)
    + (p.y * q.y + a * (p.x * q.z + q.x * p.z) + 3 * b * p.z * q.z)
      * (p.y * q.y - a * (p.x * q.z + q.x * p.z) - 3 * b * p.z * q.z)
  z := (p.y * q.z + q.y * p.z) * (p.y * q.y + a * (p.x * q.z + q.x * p.z) + 3 * b * p.z * q.z)
    + (p.x * q.y + q.x * p.y) * (3 * p.x * q.x + a * p.z * q.z)

/-- The doubling of 44_weierstrass.md R238 as polynomials. -/
def dbl : Coords R where
  x := 2 * p.x * p.y * (p.y ^ 2 - 2 * a * p.x * p.z - 3 * b * p.z ^ 2)
    - 2 * p.y * p.z * (a * p.x ^ 2 + 6 * b * p.x * p.z - a ^ 2 * p.z ^ 2)
  y := (p.y ^ 2 + 2 * a * p.x * p.z + 3 * b * p.z ^ 2) * (p.y ^ 2 - 2 * a * p.x * p.z - 3 * b * p.z ^ 2)
    + (3 * p.x ^ 2 + a * p.z ^ 2) * (a * p.x ^ 2 + 6 * b * p.x * p.z - a ^ 2 * p.z ^ 2)
  z := 8 * p.y ^ 3 * p.z

theorem add_comm : add a b p q = add a b q p := by
  ext <;> simp only [add] <;> ring

/-- Adding a multiple of the identity `(0, 1, 0)` multiplies the triple. -/
theorem add_identity (y : R) :
    add a b p ⟨0, y, 0⟩ = ⟨p.x * (p.y * y ^ 2), p.y * (p.y * y ^ 2), p.z * (p.y * y ^ 2)⟩ := by
  ext <;> simp only [add] <;> ring

variable {p q} in
/-- X and Z of the sum of opposite triples. -/
theorem add_opposite (hx : p.x * q.y + q.x * p.y = 0) (hz : p.y * q.z + q.y * p.z = 0) :
    (add a b p q).x = 0 ∧ (add a b p q).z = 0 := by
  simp only [add, hx, hz, zero_mul, sub_self, add_zero, and_self]

variable {a b p} in
/-- The X and Y polynomials of the two agree everywhere, the Z polynomials on the curve. -/
theorem dbl_eq_add (h : OnCurve a b p) : dbl a b p = add a b p p := by
  rw [OnCurve] at h
  ext
  case x => simp only [add, dbl]; ring
  case y => simp only [add, dbl]; ring
  case z =>
    simp only [add, dbl]
    linear_combination 6 * p.y * h

end Coords

/-! ### The classes of the values mod P -/

/-- The classes mod m of the three values. -/
def Coords.ofPoint (m : Nat) (p : PointW) : Coords (ZMod m) := ⟨p.x, p.y, p.z⟩

theorem pointW_eq_of_ofPoint_eq {m : Nat} {p q : PointW} (hp : p.x < m ∧ p.y < m ∧ p.z < m)
    (hq : q.x < m ∧ q.y < m ∧ q.z < m) (h : Coords.ofPoint m p = .ofPoint m q) : p = q := by
  obtain ⟨px, py, pz⟩ := p
  obtain ⟨qx, qy, qz⟩ := q
  obtain ⟨hx, hy, hz⟩ := Coords.ext_iff.1 h
  congr
  · exact eq_of_cast_eq hp.1 hq.1 hx
  · exact eq_of_cast_eq hp.2.1 hq.2.1 hy
  · exact eq_of_cast_eq hp.2.2 hq.2.2 hz

section
variable {c : Config} (h : 0 < c.p) (p q : PointW)

theorem onW_iff : OnW c p ↔ Coords.OnCurve (c.cwA : ZMod c.p) c.cwB (.ofPoint c.p p) := by
  rw [OnW, ← ZMod.natCast_eq_natCast_iff', Coords.OnCurve, Coords.ofPoint]
  push_cast
  rfl

include h

theorem ofPoint_pwAdd : Coords.ofPoint c.p (pwAdd c p q) =
    .add c.cwA c.cwB (.ofPoint c.p p) (.ofPoint c.p q) :=
  Coords.ext (cast_pwAdd_x c p q h) (cast_pwAdd_y c p q h) (cast_pwAdd_z c p q h)

theorem ofPoint_pwDbl : Coords.ofPoint c.p (pwDbl c p) = .dbl c.cwA c.cwB (.ofPoint c.p p) :=
  Coords.ext (cast_pwDbl_x c p h) (cast_pwDbl_y c p h) (cast_pwDbl_z c p)

theorem ofPoint_pwNeg : Coords.ofPoint c.p (pwNeg c p) = ⟨p.x, -p.y, p.z⟩ :=
  Coords.ext rfl (cast_negMod _ _ h) rfl

/-! ### The group laws of the step lists -/

theorem pwAdd_comm : pwAdd c p q = pwAdd c q p := by
  refine pointW_eq_of_ofPoint_eq (pwAdd_lt c p q h) (pwAdd_lt c q p h) ?_
  rw [ofPoint_pwAdd h, ofPoint_pwAdd h, Coords.add_comm]

theorem pwAdd_identity : pwAdd c p pwIdentity = ⟨p.x * p.y % c.p, p.y * p.y % c.p, p.z * p.y % c.p⟩ := by
  refine pointW_eq_of_ofPoint_eq (pwAdd_lt c _ _ h) ⟨Nat.mod_lt _ h, Nat.mod_lt _ h, Nat.mod_lt _ h⟩ ?_
  have hid : Coords.ofPoint c.p pwIdentity = ⟨0, 1, 0⟩ := by simp [Coords.ofPoint, pwIdentity]
  rw [ofPoint_pwAdd h, hid, Coords.add_identity]
  simp [Coords.ofPoint]

theorem pwAdd_pwNeg : (pwAdd c p (pwNeg c p)).x = 0 ∧ (pwAdd c p (pwNeg c p)).z = 0 := by
  obtain ⟨hx, -, hz⟩ := pwAdd_lt c p (pwNeg c p) h
  obtain ⟨hsx, hsz⟩ := Coords.add_opposite (c.cwA : ZMod c.p) c.cwB (p := .ofPoint c.p p) (q := ⟨p.x, -p.y, p.z⟩)
    (by simp only [Coords.ofPoint]; ring) (by simp only [Coords.ofPoint]; ring)
  rw [← ofPoint_pwNeg h, ← ofPoint_pwAdd h] at hsx hsz
  exact ⟨(cast_eq_zero_iff hx).1 hsx, (cast_eq_zero_iff hz).1 hsz⟩

variable {p} in
theorem pwDbl_eq_pwAdd (hp : OnW c p) : pwDbl c p = pwAdd c p p := by
  refine pointW_eq_of_ofPoint_eq (pwDbl_lt c p h) (pwAdd_lt c p p h) ?_
  rw [ofPoint_pwDbl h, ofPoint_pwAdd h, Coords.dbl_eq_add ((onW_iff p).1 hp)]

end

/-- Settles O39: the commands write what the step lists compute, and the laws of these hold word for word. -/
theorem weierstrassGroupLaws : Obligations.WeierstrassGroupLaws := by
  intro rd a b s hs hd ha hb
  have hp : 0 < s.cfg.p := modulus_pos hs .p
  refine ⟨?pwadd, fun hon => ?pwdbl⟩
  case pwadd =>
    obtain ⟨t, he, -, -, hpw⟩ := State.completes_putW hs hd (pwAdd_lt _ _ _ hp) (exec_pwadd hd ha hb)
    refine ⟨t, he, ?_, fun hid => ?_, fun hneg => ?_⟩
    · rw [← he, exec_pwadd hd ha hb, exec_pwadd hd hb ha, pwAdd_comm hp]
    · rw [hpw, hid]
      exact pwAdd_identity hp _
    · rw [hpw, hneg, ← negMod_eq (State.pw_lt hs a).2.1]
      exact pwAdd_pwNeg hp _
  case pwdbl =>
    refine ⟨_, exec_pwdbl hd ha, ?_⟩
    rw [exec_pwadd hd ha ha, pwDbl_eq_pwAdd hp hon]

end Sys2Proof.Machine
end

section
/-! PROOFS. PWADD is the chord and tangent law (44_weierstrass.md R237, R246). A line through two points of the curve
meets it in a third, whose negative is their sum. The Z coordinate that PWADD computes for P and Q with different x (and
the Y coordinate where Q is -P) is a nonzero multiple of the y of P - Q, which is not 0 on a curve without points of
order 2. -/

namespace Sys2Proof.Machine

/-! ### Chords and tangents -/

section
variable {F : Type*} [Field F]

/-- The line of slope `l` through `(x₁, y₁)` and `(x₂, y₂)` on `y² = x³ + a·x + b`: their chord, or the tangent where
they are equal. -/
structure Secant (a b x₁ y₁ x₂ y₂ l : F) : Prop where
  onCurve : y₁ ^ 2 = x₁ ^ 3 + a * x₁ + b
  chord : l * (x₁ - x₂) = y₁ - y₂
  tangent : l * (y₁ + y₂) = x₁ ^ 2 + x₁ * x₂ + x₂ ^ 2 + a

/-- The x of the sum, from the slope. -/
def sumX (x₁ x₂ l : F) : F := l ^ 2 - x₁ - x₂

/-- The y of the sum, from the slope. -/
def sumY (x₁ y₁ x₂ l : F) : F := l * (x₁ - sumX x₁ x₂ l) - y₁

variable {a b x₁ y₁ x₂ y₂ l : F}

/-- Two points of the curve that are not opposite have a line. -/
theorem exists_secant (h₁ : y₁ ^ 2 = x₁ ^ 3 + a * x₁ + b) (h₂ : y₂ ^ 2 = x₂ ^ 3 + a * x₂ + b)
    (hne : ¬(x₁ = x₂ ∧ y₁ = -y₂)) : ∃ l, Secant a b x₁ y₁ x₂ y₂ l := by
  by_cases hx : x₁ = x₂
  · subst hx
    have hy : y₁ + y₂ ≠ 0 := fun h => hne ⟨rfl, eq_neg_of_add_eq_zero_left h⟩
    have hyy : y₁ - y₂ = 0 := mul_left_cancel₀ hy (by linear_combination h₁ - h₂)
    exact ⟨(x₁ ^ 2 + x₁ * x₁ + x₁ ^ 2 + a) / (y₁ + y₂), h₁, by rw [hyy, sub_self, mul_zero], div_mul_cancel₀ _ hy⟩
  · have hd : x₁ - x₂ ≠ 0 := sub_ne_zero.2 hx
    have hl : (y₁ - y₂) / (x₁ - x₂) * (x₁ - x₂) = y₁ - y₂ := div_mul_cancel₀ _ hd
    refine ⟨(y₁ - y₂) / (x₁ - x₂), h₁, hl, mul_left_cancel₀ hd ?_⟩
    linear_combination (y₁ + y₂) * hl + h₁ - h₂

/-- The second point and the curve are determined by the first point, the other x and the slope. -/
theorem Secant.determined (h : Secant a b x₁ y₁ x₂ y₂ l) : y₂ = y₁ - l * (x₁ - x₂) ∧
    a = l * (2 * y₁ - l * (x₁ - x₂)) - (x₁ ^ 2 + x₁ * x₂ + x₂ ^ 2) ∧
    b = y₁ ^ 2 - x₁ ^ 3 - (l * (2 * y₁ - l * (x₁ - x₂)) - (x₁ ^ 2 + x₁ * x₂ + x₂ ^ 2)) * x₁ := by
  obtain ⟨hon, hc, ht⟩ := h
  have hy : y₂ = y₁ - l * (x₁ - x₂) := by linear_combination hc
  have ha : a = l * (2 * y₁ - l * (x₁ - x₂)) - (x₁ ^ 2 + x₁ * x₂ + x₂ ^ 2) := by
    linear_combination l * hc - ht
  exact ⟨hy, ha, by rw [← ha]; linear_combination -hon⟩

theorem Secant.sum_onCurve (h : Secant a b x₁ y₁ x₂ y₂ l) :
    sumY x₁ y₁ x₂ l ^ 2 = sumX x₁ x₂ l ^ 3 + a * sumX x₁ x₂ l + b := by
  obtain ⟨rfl, rfl, rfl⟩ := h.determined
  simp only [sumX, sumY]
  ring

/-! ### The addition of two points with nonzero Z -/

/-- The triple of the affine point `(x, y)` with third coordinate `z`. -/
def Coords.affine (x y z : F) : Coords F := ⟨x * z, y * z, z⟩

/-- `r` is the sum of `p` and `q` along their chord, stated without division for `x = X/Z` and `y = Y/Z`. -/
def Coords.IsChordSum (p q r : Coords F) : Prop :=
  r.z ≠ 0 ∧
  r.x * p.z * q.z * (q.x * p.z - p.x * q.z) ^ 2 = r.z * ((q.y * p.z - p.y * q.z) ^ 2 * p.z * q.z
    - (p.x * q.z + q.x * p.z) * (q.x * p.z - p.x * q.z) ^ 2) ∧
  r.y * (q.x * p.z - p.x * q.z) * p.z =
    (q.y * p.z - p.y * q.z) * (p.x * r.z - r.x * p.z) - p.y * (q.x * p.z - p.x * q.z) * r.z

/-- `r` is the sum of `p` and itself along its tangent, stated without division. -/
def Coords.IsTangentSum (a : F) (p r : Coords F) : Prop :=
  r.z ≠ 0 ∧
  r.x * (2 * p.y * p.z) ^ 2 * p.z =
    r.z * ((3 * p.x ^ 2 + a * p.z ^ 2) ^ 2 * p.z - 2 * p.x * (2 * p.y * p.z) ^ 2) ∧
  r.y * (2 * p.y * p.z) * p.z =
    (3 * p.x ^ 2 + a * p.z ^ 2) * (p.x * r.z - r.x * p.z) - p.y * (2 * p.y * p.z) * r.z

theorem Coords.exists_affine (p : Coords F) (hz : p.z ≠ 0) : ∃ x y z, z ≠ 0 ∧ p = .affine x y z :=
  ⟨p.x / p.z, p.y / p.z, p.z, hz, Coords.ext (div_mul_cancel₀ _ hz).symm (div_mul_cancel₀ _ hz).symm rfl⟩

theorem Coords.onCurve_affine_iff {x y z : F} (hz : z ≠ 0) :
    OnCurve a b (affine x y z) ↔ y ^ 2 = x ^ 3 + a * x + b := by
  have hz3 : z ^ 3 ≠ 0 := pow_ne_zero 3 hz
  simp only [OnCurve, affine]
  constructor
  · exact fun h => mul_left_cancel₀ hz3 (by linear_combination h)
  · exact fun h => by linear_combination z ^ 3 * h

variable {z₁ z₂ : F}

/-- The sum is the affine sum of the line. -/
theorem Secant.add_eq_affine (h : Secant a b x₁ y₁ x₂ y₂ l) : Coords.add a b (.affine x₁ y₁ z₁) (.affine x₂ y₂ z₂) =
    .affine (sumX x₁ x₂ l) (sumY x₁ y₁ x₂ l) (Coords.add a b (.affine x₁ y₁ z₁) (.affine x₂ y₂ z₂)).z := by
  obtain ⟨rfl, rfl, rfl⟩ := h.determined
  ext
  case x => simp only [Coords.add, Coords.affine, sumX]; ring
  case y => simp only [Coords.add, Coords.affine, sumX, sumY]; ring
  case z => rfl

/-- Z of the sum, from the line through the first point and the opposite of the second. -/
theorem Secant.add_neg_z (h : Secant a b x₁ y₁ x₂ y₂ l) :
    (Coords.add a b (.affine x₁ y₁ z₁) (.affine x₂ (-y₂) z₂)).z =
      -((z₁ * z₂) ^ 2 * (x₁ - x₂) ^ 3 * sumY x₁ y₁ x₂ l) := by
  obtain ⟨rfl, rfl, rfl⟩ := h.determined
  simp only [Coords.add, Coords.affine, sumX, sumY]
  ring

/-- Y of the sum of opposite points, from the tangent. -/
theorem Secant.add_neg_y (h : Secant a b x₁ y₁ x₁ y₁ l) :
    (Coords.add a b (.affine x₁ y₁ z₁) (.affine x₁ (-y₁) z₂)).y =
      (z₁ * z₂) ^ 2 * (2 * y₁) ^ 3 * sumY x₁ y₁ x₁ l := by
  obtain ⟨-, rfl, rfl⟩ := h.determined
  simp only [Coords.add, Coords.affine, sumX, sumY]
  ring

theorem Coords.add_self_z (h : y₁ ^ 2 = x₁ ^ 3 + a * x₁ + b) :
    (add a b (affine x₁ y₁ z₁) (affine x₁ y₁ z₂)).z = (z₁ * z₂) ^ 2 * (2 * y₁) ^ 3 := by
  simp only [add, affine]
  linear_combination -(z₁ * z₂) ^ 2 * 6 * y₁ * h

/-! ### On a curve without points of order 2 -/

section
variable (h2 : (2 : F) ≠ 0) (hodd : ∀ x : F, x ^ 3 + a * x + b ≠ 0)
include hodd

theorem y_ne_zero (h : y₁ ^ 2 = x₁ ^ 3 + a * x₁ + b) : y₁ ≠ 0 := by
  rintro rfl
  exact hodd x₁ (by rw [← h]; ring)

theorem Secant.sumY_ne_zero (h : Secant a b x₁ y₁ x₂ y₂ l) : sumY x₁ y₁ x₂ l ≠ 0 :=
  y_ne_zero hodd h.sum_onCurve

include h2

theorem Coords.add_z_ne_zero (h₁ : y₁ ^ 2 = x₁ ^ 3 + a * x₁ + b) (h₂ : y₂ ^ 2 = x₂ ^ 3 + a * x₂ + b)
    (hne : ¬(x₁ = x₂ ∧ y₁ = -y₂)) (hz₁ : z₁ ≠ 0) (hz₂ : z₂ ≠ 0) :
    (add a b (affine x₁ y₁ z₁) (affine x₂ y₂ z₂)).z ≠ 0 := by
  have hz : (z₁ * z₂) ^ 2 ≠ 0 := pow_ne_zero 2 (mul_ne_zero hz₁ hz₂)
  by_cases heq : x₁ = x₂ ∧ y₁ = y₂
  · obtain ⟨rfl, rfl⟩ := heq
    rw [Coords.add_self_z h₁]
    exact mul_ne_zero hz (pow_ne_zero 3 (mul_ne_zero h2 (y_ne_zero hodd h₁)))
  · have hx : x₁ ≠ x₂ := by
      rintro rfl
      rcases sq_eq_sq_iff_eq_or_eq_neg.1 (h₁.trans h₂.symm) with hy | hy
      · exact heq ⟨rfl, hy⟩
      · exact hne ⟨rfl, hy⟩
    obtain ⟨l, hl⟩ := exists_secant h₁ ((neg_sq y₂).trans h₂) fun h => hx h.1
    have hadd := hl.add_neg_z (z₁ := z₁) (z₂ := z₂)
    rw [neg_neg] at hadd
    rw [hadd]
    exact neg_ne_zero.2 (mul_ne_zero (mul_ne_zero hz (pow_ne_zero 3 (sub_ne_zero.2 hx))) (hl.sumY_ne_zero hodd))

/-- The sum of points that are not opposite is an affine point, the sum along their line. -/
theorem Coords.exists_add_eq_affine (h₁ : y₁ ^ 2 = x₁ ^ 3 + a * x₁ + b) (h₂ : y₂ ^ 2 = x₂ ^ 3 + a * x₂ + b)
    (hne : ¬(x₁ = x₂ ∧ y₁ = -y₂)) (hz₁ : z₁ ≠ 0) (hz₂ : z₂ ≠ 0) : ∃ l z, Secant a b x₁ y₁ x₂ y₂ l ∧ z ≠ 0 ∧
      add a b (affine x₁ y₁ z₁) (affine x₂ y₂ z₂) = affine (sumX x₁ x₂ l) (sumY x₁ y₁ x₂ l) z := by
  obtain ⟨l, hl⟩ := exists_secant h₁ h₂ hne
  exact ⟨l, _, hl, Coords.add_z_ne_zero h2 hodd h₁ h₂ hne hz₁ hz₂, hl.add_eq_affine⟩

/-- The sum of opposite points is a multiple of the identity, not (0, 0, 0). -/
theorem Coords.add_affine_opposite (h₁ : y₁ ^ 2 = x₁ ^ 3 + a * x₁ + b) (hz₁ : z₁ ≠ 0) (hz₂ : z₂ ≠ 0) :
    (add a b (affine x₁ y₁ z₁) (affine x₁ (-y₁) z₂)).x = 0 ∧ (add a b (affine x₁ y₁ z₁) (affine x₁ (-y₁) z₂)).y ≠ 0 ∧
      (add a b (affine x₁ y₁ z₁) (affine x₁ (-y₁) z₂)).z = 0 := by
  have hy : 2 * y₁ ≠ 0 := mul_ne_zero h2 (y_ne_zero hodd h₁)
  obtain ⟨l, hl⟩ := exists_secant h₁ h₁ fun h => hy (by linear_combination h.2)
  obtain ⟨hx, hz⟩ := add_opposite a b (p := affine x₁ y₁ z₁) (q := affine x₁ (-y₁) z₂)
    (by simp only [affine]; ring) (by simp only [affine]; ring)
  refine ⟨hx, ?_, hz⟩
  rw [hl.add_neg_y]
  exact mul_ne_zero (mul_ne_zero (pow_ne_zero 2 (mul_ne_zero hz₁ hz₂)) (pow_ne_zero 3 hy)) (hl.sumY_ne_zero hodd)

theorem Coords.add_affine_chord (h₁ : y₁ ^ 2 = x₁ ^ 3 + a * x₁ + b) (h₂ : y₂ ^ 2 = x₂ ^ 3 + a * x₂ + b) (hz₁ : z₁ ≠ 0)
    (hz₂ : z₂ ≠ 0) (hne : x₁ ≠ x₂) :
    IsChordSum (affine x₁ y₁ z₁) (affine x₂ y₂ z₂) (add a b (affine x₁ y₁ z₁) (affine x₂ y₂ z₂)) := by
  obtain ⟨l, z, hl, hz, hadd⟩ := exists_add_eq_affine h2 hodd h₁ h₂ (fun h => hne h.1) hz₁ hz₂
  rw [hadd]
  obtain ⟨rfl, -⟩ := hl.determined
  refine ⟨hz, ?_, ?_⟩ <;> simp only [affine, sumX, sumY] <;> ring

theorem Coords.add_affine_tangent (h₁ : y₁ ^ 2 = x₁ ^ 3 + a * x₁ + b) (hz₁ : z₁ ≠ 0) (hz₂ : z₂ ≠ 0) :
    IsTangentSum a (affine x₁ y₁ z₁) (add a b (affine x₁ y₁ z₁) (affine x₁ y₁ z₂)) := by
  have hop : ¬(x₁ = x₁ ∧ y₁ = -y₁) := fun h => mul_ne_zero h2 (y_ne_zero hodd h₁) (by linear_combination h.2)
  obtain ⟨l, z, hl, hz, hadd⟩ := exists_add_eq_affine h2 hodd h₁ h₁ hop hz₁ hz₂
  rw [hadd]
  obtain ⟨-, rfl, -⟩ := hl.determined
  refine ⟨hz, ?_, ?_⟩ <;> simp only [affine, sumX, sumY] <;> ring

end

end

/-! ### The law for triples -/

section
variable {F : Type*} [Field F] {a b : F} {p q : Coords F} (hp : p.OnCurve a b) (hq : q.OnCurve a b)
include hp hq

/-- A triple on the curve with Z = 0 is a multiple of the identity, and adding it gives a multiple of the other. -/
theorem Coords.add_onCurve_of_z_eq_zero (hz : q.z = 0) : (add a b p q).OnCurve a b := by
  obtain ⟨x, y, z⟩ := q
  obtain rfl : z = 0 := hz
  simp only [OnCurve] at hp hq
  obtain rfl : x = 0 := (pow_eq_zero_iff (n := 3) (by omega)).1 (by linear_combination -hq)
  simp only [add_identity, OnCurve]
  linear_combination (p.y * y ^ 2) ^ 3 * hp

variable (h2 : (2 : F) ≠ 0) (hodd : ∀ x : F, x ^ 3 + a * x + b ≠ 0)
include h2 hodd

theorem Coords.add_onCurve : (add a b p q).OnCurve a b := by
  by_cases hpz : p.z = 0
  · rw [add_comm]
    exact add_onCurve_of_z_eq_zero hq hp hpz
  by_cases hqz : q.z = 0
  · exact add_onCurve_of_z_eq_zero hp hq hqz
  obtain ⟨x₁, y₁, z₁, hz₁, rfl⟩ := p.exists_affine hpz
  obtain ⟨x₂, y₂, z₂, hz₂, rfl⟩ := q.exists_affine hqz
  rw [onCurve_affine_iff hz₁] at hp
  rw [onCurve_affine_iff hz₂] at hq
  by_cases hop : x₁ = x₂ ∧ y₂ = -y₁
  · obtain ⟨rfl, rfl⟩ := hop
    obtain ⟨hx, -, hz⟩ := add_affine_opposite h2 hodd hp hz₁ hz₂
    rw [OnCurve, hx, hz]
    ring
  · have hne : ¬(x₁ = x₂ ∧ y₁ = -y₂) := fun h => hop ⟨h.1, by rw [h.2, neg_neg]⟩
    obtain ⟨l, z, hl, hz, hadd⟩ := exists_add_eq_affine h2 hodd hp hq hne hz₁ hz₂
    rw [hadd, onCurve_affine_iff hz]
    exact hl.sum_onCurve

theorem Coords.add_chord_tangent (hpz : p.z ≠ 0) (hqz : q.z ≠ 0) :
    (p.x * q.z ≠ q.x * p.z → IsChordSum p q (add a b p q)) ∧
    (p.x * q.z = q.x * p.z → p.y * q.z = q.y * p.z → IsTangentSum a p (add a b p q)) ∧
    (p.x * q.z = q.x * p.z → p.y * q.z = -(q.y * p.z) →
      (add a b p q).x = 0 ∧ (add a b p q).y ≠ 0 ∧ (add a b p q).z = 0) := by
  obtain ⟨x₁, y₁, z₁, hz₁, rfl⟩ := p.exists_affine hpz
  obtain ⟨x₂, y₂, z₂, hz₂, rfl⟩ := q.exists_affine hqz
  rw [onCurve_affine_iff hz₁] at hp
  rw [onCurve_affine_iff hz₂] at hq
  have hxy (u v : F) : u * z₁ * z₂ = v * z₂ * z₁ ↔ u = v := by
    rw [mul_assoc, mul_assoc, mul_comm z₂, mul_left_inj' (mul_ne_zero hz₁ hz₂)]
  simp only [affine, ← neg_mul, ne_eq, hxy]
  refine ⟨fun hne => add_affine_chord h2 hodd hp hq hz₁ hz₂ hne, ?_, ?_⟩
  · rintro rfl rfl
    exact add_affine_tangent h2 hodd hp hz₁ hz₂
  · rintro rfl hy
    obtain rfl : y₂ = -y₁ := by rw [hy, neg_neg]
    exact add_affine_opposite h2 hodd hp hz₁ hz₂

end

/-- Settles O40: the sum that PWADD writes is that of `Coords.add`, which is the affine sum of points that are not
opposite and the identity of opposite ones. -/
theorem pwaddIsTheGroupLaw : Obligations.PwaddIsTheGroupLaw := by
  intro rd rs1 rs2 s hpf hcurve hd h1 h2 hon1 hon2
  have : Fact s.cfg.p.Prime := ⟨hpf.primeP⟩
  have hp3 : 3 < s.cfg.p := (modulus_bounds hpf.sized .p).2.1
  have hp : 0 < s.cfg.p := by omega
  have htwo : (2 : ZMod s.cfg.p) ≠ 0 := by
    exact_mod_cast mt (cast_eq_zero_iff (show 2 < s.cfg.p by omega)).1 (by omega)
  have hodd : ∀ x : ZMod s.cfg.p, x ^ 3 + s.cfg.cwA * x + s.cfg.cwB ≠ 0 := fun x h0 => by
    refine hcurve.oddOrder x.val (Nat.dvd_iff_mod_eq_zero.1 <| (ZMod.natCast_eq_zero_iff _ _).1 ?_)
    push_cast
    rwa [ZMod.natCast_zmod_val]
  rw [onW_iff] at hon1 hon2
  obtain ⟨t, he, -, -, hpw⟩ := State.completes_putW hpf.sized hd (pwAdd_lt _ _ _ hp) (exec_pwadd hd h1 h2)
  have hr := congrArg (Coords.ofPoint s.cfg.p) hpw
  rw [ofPoint_pwAdd hp] at hr
  refine ⟨t, he, ?_, ?_⟩
  · rw [onW_iff, hr]
    exact Coords.add_onCurve hon1 hon2 htwo hodd
  · rintro _ _ _ _ _ _ _ _ _ _ rfl rfl rfl rfl rfl rfl rfl rfl rfl rfl hz1 hz2
    have hlaw := Coords.add_chord_tangent hon1 hon2 htwo hodd hz1 hz2
    rwa [← hr] at hlaw

end Sys2Proof.Machine
end

section
/-! PROOFS. The Edwards addition, doubling, negation and tests (45_edwards.md R266 to R272): one equation per command
for the state it leaves when its checks pass, and the quadruples of canonical values. -/

namespace Sys2Proof.Machine

/-! ### Quadruples in registers -/

@[simp] theorem State.pe_retire (s : State) (r : Nat) : s.retire.pe r = s.pe r := rfl

/-- A canonical value is read as it was written. -/
theorem State.val_putVals_of_lt (s : State) (f : FieldSel) {b k v : Nat} {vs : List Nat} (hs : s.cfg.sized = true)
    (hb : b + vs.length ≤ 32) (hk : vs[k]? = some v) (hv : v < s.cfg.modulus f) :
    (s.putVals f b vs).val f (b + k) = v := by
  obtain ⟨hlt, rfl⟩ := List.getElem?_eq_some_iff.1 hk
  rw [s.val_putVals f hb hs hlt, Nat.mod_eq_of_lt hv]

/-- Registers written with the values of `n` canonical words hold these words (00_scope.md R18). -/
theorem State.word_putVals_vals {s t : State} (ht : t.cfg = s.cfg) (hs : s.cfg.sized = true) {b r n : Nat}
    (hb : b + n ≤ 32) (hr : s.ReadsGroup r n) :
    ∀ k < n, (t.putVals .p b ((List.range n).map fun j => s.val .p (r + j))).word (b + k) = s.word (r + k) := by
  intro k hk
  rw [t.word_putVals .p (by simpa using hb) (by simpa using hk), List.getElem_map, List.getElem_range, ht]
  exact mont_val hs .p (hr.2 k hk).2

section
variable {s : State} (hs : s.cfg.sized = true) {b : Nat} (hb : b + 4 ≤ 32) {p : PointE}
  (hp : p.x < s.cfg.p ∧ p.y < s.cfg.p ∧ p.z < s.cfg.p ∧ p.t < s.cfg.p)
include hs hb hp

/-- A quadruple of canonical values is read as it was written. -/
theorem State.pe_putE : (s.putE b p).pe b = p := by
  obtain ⟨hx, hy, hz, ht⟩ := hp
  have hX : (s.putE b p).val .p b = p.x := s.val_putVals_of_lt .p (k := 0) hs hb rfl hx
  have hY : (s.putE b p).val .p (b + 1) = p.y := s.val_putVals_of_lt .p hs hb rfl hy
  have hZ : (s.putE b p).val .p (b + 2) = p.z := s.val_putVals_of_lt .p hs hb rfl hz
  have hT : (s.putE b p).val .p (b + 3) = p.t := s.val_putVals_of_lt .p hs hb rfl ht
  rw [State.pe, hX, hY, hZ, hT]

/-- What a command did that wrote one quadruple of canonical values and completed. -/
theorem State.completes_putE {o : Host.Outcome State Fault Refusal} (ho : o = .next (s.putE b p).retire) :
    ∃ t, o = .next t ∧ s.Completes t b 4 [] ∧ (∀ k < 4, t.word (b + k) < s.cfg.p) ∧ t.pe b = p := by
  refine ⟨_, ho, s.completes_putVals .p (vs := [p.x, p.y, p.z, p.t]) hb, fun k hk => ?_, ?_⟩
  · rw [State.word_retire]
    exact s.word_putVals_lt .p (vs := [p.x, p.y, p.z, p.t]) hb hs k hk
  · rw [State.pe_retire, State.pe_putE hs hb hp]

end

/-! ### The commands, with their checks passing -/

section
variable {s : State} {rd rs1 rs2 : FReg} (hen : s.cfg.edwEn = true)
include hen

theorem exec_peadd (hd : rd.val + 4 ≤ 32) (h1 : s.ReadsGroup rs1 4) (h2 : s.ReadsGroup rs2 4) :
    exec (.peadd rd rs1 rs2) s = .next (s.putE rd (peAdd s.cfg (s.pe rs1) (s.pe rs2))).retire := by
  rw [exec, execPeadd]
  exact runCommand_pass (Checks.pass_group_group hen (by simp [group, hd, h1.1, h2.1]) h1 h2)

theorem peUnaryCommand_pass (op : Config → PointE → PointE) (hd : rd.val + 4 ≤ 32) (h1 : s.ReadsGroup rs1 4) :
    peUnaryCommand op rd rs1 s = .next (s.putE rd (op s.cfg (s.pe rs1))).retire :=
  runCommand_pass (Checks.pass_group hen (by simp [group, hd, h1.1]) h1)

theorem exec_pedbl (hd : rd.val + 4 ≤ 32) (h1 : s.ReadsGroup rs1 4) :
    exec (.pedbl rd rs1) s = .next (s.putE rd (peDbl s.cfg (s.pe rs1))).retire :=
  peUnaryCommand_pass hen peDbl hd h1

theorem exec_peneg (hd : rd.val + 4 ≤ 32) (h1 : s.ReadsGroup rs1 4) :
    exec (.peneg rd rs1) s = .next (s.putE rd (peNeg s.cfg (s.pe rs1))).retire :=
  peUnaryCommand_pass hen peNeg hd h1

theorem exec_peisid (md : MReg) (h1 : s.ReadsGroup rs1 4) :
    exec (.peisid md rs1) s = .next (s.setM md (peIdentityFlag (s.pe rs1))).retire := by
  rw [exec, execPeisid]
  exact runCommand_pass (Checks.pass_group hen (by simp [group, h1.1]) h1)

theorem exec_peeq (md : MReg) (h1 : s.ReadsGroup rs1 4) (h2 : s.ReadsGroup rs2 4) :
    exec (.peeq md rs1 rs2) s = .next (s.setM md (peEqualFlag s.cfg.p (s.pe rs1) (s.pe rs2))).retire := by
  rw [exec, execPeeq]
  exact runCommand_pass (Checks.pass_group_group hen (by simp [group, h1.1, h2.1]) h1 h2)

end

/-! ### The addition and the doubling -/

/-- Settles O41: the command writes the quadruple of the step list, whose coordinates are the polynomials of
`cast_peAdd_x` and its companions. -/
theorem edwardsPolynomials : Obligations.EdwardsPolynomials := by
  rintro rd rs1 rs2 s hs hen hd h1 _ _ _ _ _ _ rfl rfl rfl rfl rfl rfl
  have hp : 0 < s.cfg.p := modulus_pos hs .p
  refine ⟨?pedbl, ?peadd⟩
  case pedbl =>
    obtain ⟨t, he, hc, hw, hpe⟩ := State.completes_putE hs hd (peDbl_lt _ _ hp) (exec_pedbl hen hd h1)
    refine ⟨t, he, hc, hw, ?_⟩
    rw [hpe]
    exact ⟨cast_peDbl_x _ _ hp, cast_peDbl_y _ _ hp, cast_peDbl_z _ _ hp, cast_peDbl_t _ _ hp⟩
  case peadd =>
    rintro h2 _ _ _ _ rfl rfl rfl rfl
    obtain ⟨t, he, hc, hw, hpe⟩ := State.completes_putE hs hd (peAdd_lt _ _ _ hp) (exec_peadd hen hd h1 h2)
    refine ⟨t, he, hc, hw, ?_⟩
    rw [hpe]
    exact ⟨cast_peAdd_x _ _ _ hp, cast_peAdd_y _ _ _ hp, cast_peAdd_z _ _ _ hp, cast_peAdd_t _ _ _ hp⟩

/-! ### Negation and the tests -/

theorem peNeg_lt {c : Config} {p : PointE} (hp : p.x < c.p ∧ p.y < c.p ∧ p.z < c.p ∧ p.t < c.p) :
    (peNeg c p).x < c.p ∧ (peNeg c p).y < c.p ∧ (peNeg c p).z < c.p ∧ (peNeg c p).t < c.p :=
  ⟨negMod_lt _ _ (by omega), hp.2.1, hp.2.2.1, negMod_lt _ _ (by omega)⟩

theorem peNeg_peNeg {c : Config} {p : PointE} (hx : p.x < c.p) (ht : p.t < c.p) : peNeg c (peNeg c p) = p := by
  rw [peNeg, peNeg, negMod_negMod hx, negMod_negMod ht]

/-- Settles O42: negation is an involution on canonical values, and the tests are of the values and their products. -/
theorem edwardsNegationAndTests : Obligations.EdwardsNegationAndTests := by
  intro rd rs1 rs2 md s hs hen h1
  have hp : 0 < s.cfg.p := modulus_pos hs .p
  have hlt := State.pe_lt hs rs1
  have ⟨hx, _, _, hT⟩ := hlt
  refine ⟨fun hd => ?peneg, ?peisid, fun h2 => ?peeq⟩
  case peneg =>
    obtain ⟨t, he, hc, hw, hpe⟩ := State.completes_putE hs hd (peNeg_lt hlt) (exec_peneg hen hd h1)
    have hcfg : t.cfg = s.cfg := by rw [hc.others]
    have hreads : t.ReadsGroup rd 4 :=
      ⟨hd, fun k hk => ⟨hc.written k hk, (hw k hk).trans_eq (congrArg Config.p hcfg.symm)⟩⟩
    refine ⟨t, _, he, hc, hw, ?_, exec_peneg (by rw [hcfg, hen]) hd hreads, ?_⟩
    · rw [hpe, peNeg, negMod_eq hx, negMod_eq hT]
    · intro k hk
      rw [State.word_retire, hpe, hcfg, peNeg_peNeg hx hT]
      exact State.word_putVals_vals hcfg hs hd h1 k hk
  case peisid =>
    refine ⟨_, exec_peisid hen md h1, s.completes_setM .., ?_⟩
    rw [State.mask_retire, State.mask_setM_self, peIdentityFlag, decide_eq_true_iff]
  case peeq =>
    refine ⟨_, exec_peeq hen md h1 h2, s.completes_setM .., ?_⟩
    rw [State.mask_retire, State.mask_setM_self, peEqualFlag, Bool.and_eq_true, crossEqual_iff hp, crossEqual_iff hp]

end Sys2Proof.Machine
end

section
/-! PROOFS. The Edwards addition is complete (45_edwards.md R266 to R269, R276). Where Z ≠ 0 and T·Z = X·Y, the curve
equation is `a·X² + Y² = Z² + d·T²`. If a denominator of a sum vanished, this would make d the quotient of two squares;
and the doubling of a quadruple is its sum with itself, each coordinate negated. -/

namespace Sys2Proof.Machine

/-! ### Quadruples over a ring -/

/-- Extended coordinates over a ring. -/
@[ext] structure ExtCoords (R : Type*) where
  x : R
  y : R
  z : R
  t : R

namespace ExtCoords

section
variable {R : Type*} [CommRing R] (a d : R) (p q : ExtCoords R)

/-- The addition of 45_edwards.md R266 as polynomials. -/
def add : ExtCoords R where
  x := (p.x * q.y + p.y * q.x) * (p.z * q.z - d * p.t * q.t)
  y := (p.z * q.z + d * p.t * q.t) * (p.y * q.y - a * p.x * q.x)
  z := (p.z * q.z - d * p.t * q.t) * (p.z * q.z + d * p.t * q.t)
  t := (p.x * q.y + p.y * q.x) * (p.y * q.y - a * p.x * q.x)

/-- The doubling of 45_edwards.md R268 as polynomials. -/
def dbl : ExtCoords R where
  x := 2 * p.x * p.y * (a * p.x ^ 2 + p.y ^ 2 - 2 * p.z ^ 2)
  y := (a * p.x ^ 2 + p.y ^ 2) * (a * p.x ^ 2 - p.y ^ 2)
  z := (a * p.x ^ 2 + p.y ^ 2 - 2 * p.z ^ 2) * (a * p.x ^ 2 + p.y ^ 2)
  t := 2 * p.x * p.y * (a * p.x ^ 2 - p.y ^ 2)

/-- Every coordinate negated: the same point. -/
def negAll : ExtCoords R := ⟨-p.x, -p.y, -p.z, -p.t⟩

/-- X and T negated: the opposite point (45_edwards.md R270). -/
def opposite : ExtCoords R := ⟨-p.x, p.y, p.z, -p.t⟩

/-- The quadruple is of a point of the curve: `Z ≠ 0`, `T·Z = X·Y`, and the curve equation divided by `Z²`. -/
structure Valid : Prop where
  z_ne_zero : p.z ≠ 0
  t_mul_z : p.t * p.z = p.x * p.y
  onCurve : a * p.x ^ 2 + p.y ^ 2 = p.z ^ 2 + d * p.t ^ 2

variable {a d p q}

theorem Valid.negAll (h : Valid a d p) : Valid a d p.negAll where
  z_ne_zero := neg_ne_zero.2 h.z_ne_zero
  t_mul_z := by simpa [ExtCoords.negAll] using h.t_mul_z
  onCurve := by simpa [ExtCoords.negAll] using h.onCurve

theorem Valid.opposite (h : Valid a d p) : Valid a d p.opposite where
  z_ne_zero := h.z_ne_zero
  t_mul_z := by simpa [ExtCoords.opposite] using h.t_mul_z
  onCurve := by simpa [ExtCoords.opposite] using h.onCurve

/-- The doubling agrees with the sum up to the sign of the quadruple. -/
theorem Valid.dbl_eq (h : Valid a d p) : dbl a p = (add a d p p).negAll := by
  have hc := h.onCurve
  ext <;> simp only [add, dbl, ExtCoords.negAll]
  case x => linear_combination 2 * p.x * p.y * hc
  case y => linear_combination (a * p.x ^ 2 - p.y ^ 2) * hc
  case z => linear_combination (a * p.x ^ 2 + p.y ^ 2 - p.z ^ 2 + d * p.t ^ 2) * hc
  case t => ring

/-! ### The sum of two points -/

/-- With e and h the polynomials of R266's E and H: `a·e² + h²`, `a·e² − h²` and `e·h` are polynomials in Z, T and the
`u = Y² − a·X²` of the two points, and the squares of these are polynomials in Z and T. -/
theorem add_onCurve (hp : Valid a d p) (hq : Valid a d q) :
    a * (add a d p q).x ^ 2 + (add a d p q).y ^ 2 = (add a d p q).z ^ 2 + d * (add a d p q).t ^ 2 := by
  obtain ⟨-, hpt, hpc⟩ := hp
  obtain ⟨-, hqt, hqc⟩ := hq
  simp only [add]
  generalize he : p.x * q.y + p.y * q.x = e
  generalize hh : p.y * q.y - a * p.x * q.x = h
  generalize hu : p.y ^ 2 - a * p.x ^ 2 = u
  generalize hv : q.y ^ 2 - a * q.x ^ 2 = v
  have hsum : a * e ^ 2 + h ^ 2 = (p.z ^ 2 + d * p.t ^ 2) * (q.z ^ 2 + d * q.t ^ 2) := by
    rw [← hpc, ← hqc, ← he, ← hh]
    ring
  have hdiff : a * e ^ 2 - h ^ 2 = 4 * a * (p.t * p.z) * (q.t * q.z) - u * v := by
    rw [hpt, hqt, ← he, ← hh, ← hu, ← hv]
    ring
  have hprod : e * h = p.t * p.z * v + q.t * q.z * u := by
    rw [hpt, hqt, ← he, ← hh, ← hu, ← hv]
    ring
  have husq : u ^ 2 = (p.z ^ 2 + d * p.t ^ 2) ^ 2 - 4 * a * (p.t * p.z) ^ 2 := by
    rw [hpt, ← hpc, ← hu]
    ring
  have hvsq : v ^ 2 = (q.z ^ 2 + d * q.t ^ 2) ^ 2 - 4 * a * (q.t * q.z) ^ 2 := by
    rw [hqt, ← hqc, ← hv]
    ring
  linear_combination ((p.z * q.z) ^ 2 + (d * p.t * q.t) ^ 2) * hsum - 2 * d * p.z * q.z * p.t * q.t * hdiff
    - d * (e * h + p.t * p.z * v + q.t * q.z * u) * hprod
    - d * ((p.t * p.z) ^ 2 * hvsq + (q.t * q.z) ^ 2 * husq)

/-- The denominators of the affine law are those of the step list, times `Z₁·Z₂`. -/
theorem denominator_add (hp : Valid a d p) (hq : Valid a d q) :
    (p.z * q.z) ^ 2 + d * p.x * q.x * p.y * q.y = p.z * q.z * (p.z * q.z + d * p.t * q.t) := by
  linear_combination -d * p.x * p.y * hq.t_mul_z - d * q.t * q.z * hp.t_mul_z

theorem denominator_sub (hp : Valid a d p) (hq : Valid a d q) :
    (p.z * q.z) ^ 2 - d * p.x * q.x * p.y * q.y = p.z * q.z * (p.z * q.z - d * p.t * q.t) := by
  linear_combination d * p.x * p.y * hq.t_mul_z + d * q.t * q.z * hp.t_mul_z

/-- The coordinates of the sum are those of the affine law. -/
theorem add_affine (hp : Valid a d p) (hq : Valid a d q) :
    (add a d p q).x * ((p.z * q.z) ^ 2 + d * p.x * q.x * p.y * q.y) =
      (add a d p q).z * ((p.x * q.y + p.y * q.x) * p.z * q.z) ∧
    (add a d p q).y * ((p.z * q.z) ^ 2 - d * p.x * q.x * p.y * q.y) =
      (add a d p q).z * ((p.y * q.y - a * p.x * q.x) * p.z * q.z) := by
  rw [denominator_add hp hq, denominator_sub hp hq, add]
  constructor <;> ring

end

/-! ### Over a field, for a square a and a non-square d -/

section
variable {F : Type*} [Field F] {a d r : F} {p q : ExtCoords F}

theorem eq_zero_of_sq_eq_mul_sq (hd : ¬IsSquare d) {u v : F} (h : u ^ 2 = d * v ^ 2) : v = 0 := by
  by_contra hv
  refine hd ⟨u / v, ?_⟩
  rw [← pow_two, div_pow, h, mul_div_cancel_right₀ _ (pow_ne_zero 2 hv)]

/-- If a denominator vanished, `Z₂·(r·X₁ + Y₁)` would be a root of d times the square of `T₁·(r·X₂ + Y₂)`, for each
root r of a. -/
theorem t_mul_eq_zero_of_denominator (hd : ¬IsSquare d) (hp : Valid a d p) (hq : Valid a d q) (hr : r ^ 2 = a)
    (h : p.z * q.z = d * p.t * q.t) : p.t * (r * q.x + q.y) = 0 := by
  refine eq_zero_of_sq_eq_mul_sq hd (u := q.z * (r * p.x + p.y)) ?_
  linear_combination (p.z * q.z + d * p.t * q.t + 2 * r * p.t * q.z) * h + q.z ^ 2 * hp.onCurve
    - d * p.t ^ 2 * hq.onCurve - 2 * r * q.z ^ 2 * hp.t_mul_z + 2 * r * d * p.t ^ 2 * hq.t_mul_z
    + (p.x ^ 2 * q.z ^ 2 - d * p.t ^ 2 * q.x ^ 2) * hr

variable (ha : IsSquare a) (hd : ¬IsSquare d) (h2 : (2 : F) ≠ 0) (hp : Valid a d p) (hq : Valid a d q)
include ha hd h2 hp hq

theorem denominator_sub_ne_zero : p.z * q.z - d * p.t * q.t ≠ 0 := by
  intro h0
  have h := sub_eq_zero.1 h0
  obtain ⟨r, hr⟩ := ha
  have hr : r ^ 2 = a := by rw [hr, pow_two]
  have hne : d * p.t * q.t ≠ 0 := h ▸ mul_ne_zero hp.z_ne_zero hq.z_ne_zero
  have hpt : p.t ≠ 0 := right_ne_zero_of_mul (left_ne_zero_of_mul hne)
  have hpos := (mul_eq_zero.1 (t_mul_eq_zero_of_denominator hd hp hq hr h)).resolve_left hpt
  have hneg := (mul_eq_zero.1 (t_mul_eq_zero_of_denominator hd hp hq ((neg_sq r).trans hr) h)).resolve_left hpt
  have hy : q.y = 0 := (mul_eq_zero.1 (show 2 * q.y = 0 by linear_combination hpos + hneg)).resolve_left h2
  have hqt : q.t * q.z = 0 := by rw [hq.t_mul_z, hy, mul_zero]
  exact mul_ne_zero (right_ne_zero_of_mul hne) hq.z_ne_zero hqt

/-- The other denominator is that of the sum with the opposite point. -/
theorem denominator_add_ne_zero : p.z * q.z + d * p.t * q.t ≠ 0 := by
  have h := denominator_sub_ne_zero ha hd h2 hp hq.opposite
  rwa [opposite, mul_neg, sub_neg_eq_add] at h

theorem add_valid : Valid a d (add a d p q) where
  z_ne_zero := mul_ne_zero (denominator_sub_ne_zero ha hd h2 hp hq) (denominator_add_ne_zero ha hd h2 hp hq)
  t_mul_z := by simp only [add]; ring
  onCurve := add_onCurve hp hq

end

end ExtCoords

/-! ### The classes of the values mod P -/

/-- The classes mod m of the four values. -/
def ExtCoords.ofPoint (m : Nat) (p : PointE) : ExtCoords (ZMod m) := ⟨p.x, p.y, p.z, p.t⟩

section
variable {c : Config}

theorem onE_iff [Fact c.p.Prime] (p : PointE) :
    OnE c p ↔ ExtCoords.Valid (c.ceA : ZMod c.p) c.ceD (.ofPoint c.p p) := by
  rw [OnE, Ne, ← Nat.dvd_iff_mod_eq_zero, ← ZMod.natCast_eq_zero_iff, ← ZMod.natCast_eq_natCast_iff',
    ← ZMod.natCast_eq_natCast_iff']
  push_cast
  constructor
  · rintro ⟨hz, ht, hc⟩
    refine ⟨hz, ht, mul_right_cancel₀ (pow_ne_zero 2 hz) ?_⟩
    simp only [ExtCoords.ofPoint]
    linear_combination hc - c.ceD * (p.t * p.z + p.x * p.y) * ht
  · rintro ⟨hz, ht, hc⟩
    refine ⟨hz, ht, ?_⟩
    simp only [ExtCoords.ofPoint] at ht hc
    linear_combination (p.z : ZMod c.p) ^ 2 * hc + c.ceD * (p.t * p.z + p.x * p.y) * ht

theorem isSquare_cast_mod {m : Nat} (hm : 0 < m) (a : Nat) : IsSquare (a : ZMod m) ↔ ∃ r : Nat, r * r % m = a % m := by
  rw [← isSquare_cast_iff (Nat.mod_lt a hm), ZMod.natCast_mod]

variable (h : 0 < c.p) (p q : PointE)
include h

theorem ofPoint_peAdd : ExtCoords.ofPoint c.p (peAdd c p q) =
    .add c.ceA c.ceD (.ofPoint c.p p) (.ofPoint c.p q) :=
  ExtCoords.ext (cast_peAdd_x c p q h) (cast_peAdd_y c p q h) (cast_peAdd_z c p q h) (cast_peAdd_t c p q h)

theorem ofPoint_peDbl : ExtCoords.ofPoint c.p (peDbl c p) = .dbl c.ceA (.ofPoint c.p p) :=
  ExtCoords.ext (cast_peDbl_x c p h) (cast_peDbl_y c p h) (cast_peDbl_z c p h) (cast_peDbl_t c p h)

theorem ofPoint_peNeg : ExtCoords.ofPoint c.p (peNeg c p) = (ExtCoords.ofPoint c.p p).opposite :=
  ExtCoords.ext (cast_negMod _ _ h) rfl rfl (cast_negMod _ _ h)

end

/-- Quadruples that differ in the sign of every coordinate are equal by PEEQ's test (45_edwards.md R272). -/
theorem crossProducts_eq_of_negAll {m : Nat} {p q : PointE}
    (h : ExtCoords.ofPoint m p = (ExtCoords.ofPoint m q).negAll) :
    p.x * q.z % m = q.x * p.z % m ∧ p.y * q.z % m = q.y * p.z % m := by
  obtain ⟨hx, hy, hz, -⟩ := ExtCoords.ext_iff.1 h
  simp only [ExtCoords.ofPoint, ExtCoords.negAll] at hx hy hz
  rw [← ZMod.natCast_eq_natCast_iff', ← ZMod.natCast_eq_natCast_iff']
  push_cast
  rw [hx, hy, hz]
  constructor <;> ring

/-- Settles O43: the sum that PEADD writes is that of `ExtCoords.add`, whose denominators are nonzero; the doubling is
valid as the negated sum of the point with itself. -/
theorem edwardsAdditionIsComplete : Obligations.EdwardsAdditionIsComplete := by
  intro rd rs1 rs2 s hpf hen hcurve hd h1 hon1
  have : Fact s.cfg.p.Prime := ⟨hpf.primeP⟩
  have hp3 : 3 < s.cfg.p := (modulus_bounds hpf.sized .p).2.1
  have hp : 0 < s.cfg.p := by omega
  have htwo : (2 : ZMod s.cfg.p) ≠ 0 := by
    exact_mod_cast mt (cast_eq_zero_iff (show 2 < s.cfg.p by omega)).1 (by omega)
  have ha : IsSquare (s.cfg.ceA : ZMod s.cfg.p) := (isSquare_cast_mod hp _).2 hcurve.aSquare
  have hns : ¬IsSquare (s.cfg.ceD : ZMod s.cfg.p) := fun hsq =>
    ((isSquare_cast_mod hp _).1 hsq).elim hcurve.dNonSquare
  rw [onE_iff] at hon1
  refine ⟨fun h2 hon2 => ?peadd, ?pedbl⟩
  case peadd =>
    rw [onE_iff] at hon2
    obtain ⟨t, he, -, -, hpe⟩ := State.completes_putE hpf.sized hd (peAdd_lt _ _ _ hp) (exec_peadd hen hd h1 h2)
    have hr := congrArg (ExtCoords.ofPoint s.cfg.p) hpe
    rw [ofPoint_peAdd hp] at hr
    refine ⟨t, he, ?_, ?_⟩
    · rw [onE_iff, hr]
      exact ExtCoords.add_valid ha hns htwo hon1 hon2
    · rintro _ _ _ _ _ _ _ _ rfl rfl rfl rfl rfl rfl rfl rfl
      have hz := mul_ne_zero hon1.z_ne_zero hon2.z_ne_zero
      have hplus := mul_ne_zero hz (ExtCoords.denominator_add_ne_zero ha hns htwo hon1 hon2)
      have hminus := mul_ne_zero hz (ExtCoords.denominator_sub_ne_zero ha hns htwo hon1 hon2)
      rw [← ExtCoords.denominator_add hon1 hon2] at hplus
      rw [← ExtCoords.denominator_sub hon1 hon2] at hminus
      obtain ⟨hx, hy⟩ := ExtCoords.add_affine hon1 hon2
      rw [← hr] at hx hy
      exact ⟨hx, hy, hplus, hminus⟩
  case pedbl =>
    obtain ⟨t, he, -, -, hpe⟩ := State.completes_putE hpf.sized hd (peDbl_lt _ _ hp) (exec_pedbl hen hd h1)
    obtain ⟨u, hu, -, -, hpu⟩ := State.completes_putE hpf.sized hd (peAdd_lt _ _ _ hp) (exec_peadd hen hd h1 h1)
    have hr : ExtCoords.ofPoint s.cfg.p (t.pe rd) = (ExtCoords.ofPoint s.cfg.p (u.pe rd)).negAll := by
      rw [hpe, hpu, ofPoint_peDbl hp, ofPoint_peAdd hp, hon1.dbl_eq]
    refine ⟨t, u, he, ?_, hu, crossProducts_eq_of_negAll hr⟩
    rw [onE_iff, hr, hpu, ofPoint_peAdd hp]
    exact (ExtCoords.add_valid ha hns htwo hon1 hon1).negAll

end Sys2Proof.Machine
end

section
/-! PROOFS. Scalar multiplication and cofactor clearing on both curves (46_scalar_cofactor.md R290 to R296). Both loops
are one fold over the bits of the multiplier, and a property that every sum and every doubling has, such as canonical
coordinates, holds of what the fold gives. -/

namespace Sys2Proof.Machine

/-! ### The fold over the bits of a multiplier -/

section
variable {α : Type} {add : α → α → α} {dbl : α → α} {o pt : α} {P : α → Prop} (hadd : ∀ x y, P (add x y))
  (hdbl : ∀ x, P (dbl x)) (ho : P o)
include hadd hdbl ho

theorem foldl_bits_closed (k : Nat) (is : List Nat) :
    P (is.foldl (fun r i => if k.testBit i then add (dbl r) pt else dbl r) o) := by
  refine List.foldlRecOn is _ ho fun r _ i _ => ?_
  split
  · exact hadd _ _
  · exact hdbl _

theorem smul_closed (width k : Nat) : P (smul width add dbl o pt k) := by
  rw [smul, ladder_eq_foldl]
  exact foldl_bits_closed hadd hdbl ho k _

theorem clearCofactor_closed (hpt : P pt) (h : Nat) : P (clearCofactor h add dbl o pt) := by
  rw [clearCofactor]
  split
  · exact hpt
  · rw [doubleAndAdd_eq_foldl]
    exact foldl_bits_closed hadd hdbl ho h _

end

section
variable {α : Type} (add : α → α → α) {dbl : α → α} {o : α} (pt : α)

/-- The scalar 0 has no bit set, so every iteration keeps the doubling (46_scalar_cofactor.md R291). -/
theorem smul_zero_of_dbl_eq (ho : dbl o = o) (width : Nat) : smul width add dbl o pt 0 = o := by
  rw [smul, ladder_eq_foldl]
  exact List.foldl_fixed' (fun i => by rw [Nat.zero_testBit, if_neg Bool.false_ne_true, ho]) _

theorem clearCofactor_one : clearCofactor 1 add dbl o pt = pt := if_pos rfl

theorem clearCofactor_eq_foldl {h : Nat} (hne : h ≠ 1) : clearCofactor h add dbl o pt =
    (List.range (Nat.log2 h + 1)).reverse.foldl (fun r i => if h.testBit i then add (dbl r) pt else dbl r) o := by
  rw [clearCofactor, if_neg hne, doubleAndAdd_eq_foldl]

end

/-! ### The two identities and the two curves -/

section
variable {c : Config} (hs : c.sized = true)
include hs

theorem one_lt_p : 1 < c.p := by
  have hb := modulus_bounds hs .p
  simp only [Config.modulus] at hb
  omega

theorem pwIdentity_lt : pwIdentity.x < c.p ∧ pwIdentity.y < c.p ∧ pwIdentity.z < c.p :=
  ⟨modulus_pos hs .p, one_lt_p hs, modulus_pos hs .p⟩

theorem peIdentity_lt : peIdentity.x < c.p ∧ peIdentity.y < c.p ∧ peIdentity.z < c.p ∧ peIdentity.t < c.p :=
  ⟨modulus_pos hs .p, one_lt_p hs, one_lt_p hs, modulus_pos hs .p⟩

/-- The doubling of a point of the curve is its sum with itself, and here both are the identity. -/
theorem pwDbl_pwIdentity : pwDbl c pwIdentity = pwIdentity := by
  have hon : OnW c pwIdentity := by simp [OnW, pwIdentity]
  rw [pwDbl_eq_pwAdd (modulus_pos hs .p) hon, pwAdd_identity (modulus_pos hs .p)]
  simp [pwIdentity, Nat.mod_eq_of_lt (one_lt_p hs)]

theorem pwSmul_lt (width k : Nat) (p : PointW) :
    let r := smul width (pwAdd c) (pwDbl c) pwIdentity p k
    r.x < c.p ∧ r.y < c.p ∧ r.z < c.p :=
  have hp : 0 < c.p := modulus_pos hs .p
  smul_closed (P := fun r : PointW => r.x < c.p ∧ r.y < c.p ∧ r.z < c.p)
    (fun x y => pwAdd_lt c x y hp) (fun x => pwDbl_lt c x hp) (pwIdentity_lt hs) width k

theorem peSmul_lt (width k : Nat) (p : PointE) :
    let r := smul width (peAdd c) (peDbl c) peIdentity p k
    r.x < c.p ∧ r.y < c.p ∧ r.z < c.p ∧ r.t < c.p :=
  have hp : 0 < c.p := modulus_pos hs .p
  smul_closed (P := fun r : PointE => r.x < c.p ∧ r.y < c.p ∧ r.z < c.p ∧ r.t < c.p)
    (fun x y => peAdd_lt c x y hp) (fun x => peDbl_lt c x hp) (peIdentity_lt hs) width k

theorem pwClear_lt {p : PointW} (hlt : p.x < c.p ∧ p.y < c.p ∧ p.z < c.p) :
    (pwClear c p).x < c.p ∧ (pwClear c p).y < c.p ∧ (pwClear c p).z < c.p :=
  have hp : 0 < c.p := modulus_pos hs .p
  clearCofactor_closed (P := fun r : PointW => r.x < c.p ∧ r.y < c.p ∧ r.z < c.p)
    (fun x y => pwAdd_lt c x y hp) (fun x => pwDbl_lt c x hp) (pwIdentity_lt hs) hlt c.cwH

theorem peClear_lt {p : PointE} (hlt : p.x < c.p ∧ p.y < c.p ∧ p.z < c.p ∧ p.t < c.p) :
    (peClear c p).x < c.p ∧ (peClear c p).y < c.p ∧ (peClear c p).z < c.p ∧ (peClear c p).t < c.p :=
  have hp : 0 < c.p := modulus_pos hs .p
  clearCofactor_closed (P := fun r : PointE => r.x < c.p ∧ r.y < c.p ∧ r.z < c.p ∧ r.t < c.p)
    (fun x y => peAdd_lt c x y hp) (fun x => peDbl_lt c x hp) (peIdentity_lt hs) hlt c.ceH

end

/-! ### The commands, with their checks passing -/

section
variable {s : State} {f : FieldSel} {rd rs1 rs2 : FReg}

theorem Checks.pass_group_canon {legal : Bool} {groups : List (Nat × Nat)} {n : Nat} (hl : legal = true)
    (hg : ∀ g ∈ groups, g.1 + g.2 ≤ 32) (h1 : s.ReadsGroup rs1 n) (h2 : s.Reads f rs2) :
    Checks.Pass { legal := legal, groups := groups, words := canonGroup rs1 n ++ [canon f rs2] } s where
  legal := hl
  groups := hg
  ranges := by simp
  expands := by simp
  valid := List.forall_mem_append.2 ⟨h1.valid, by simpa [canon] using h2.1⟩
  masks := by simp
  canonical := List.forall_mem_append.2 ⟨h1.canonical, by simpa [canon] using h2.2⟩

theorem exec_pwsmul (hd : rd.val + 3 ≤ 32) (h1 : s.ReadsGroup rs1 3) (h2 : s.Reads f rs2) :
    exec (.pwsmul f rd rs1 rs2) s = .next (s.putW rd
      (smul s.cfg.width (pwAdd s.cfg) (pwDbl s.cfg) pwIdentity (s.pw rs1) (s.val f rs2))).retire := by
  rw [exec, execPwsmul]
  exact runCommand_pass (Checks.pass_group_canon rfl (by simp [group, hd, h1.1]) h1 h2)

theorem exec_pesmul (hen : s.cfg.edwEn = true) (hd : rd.val + 4 ≤ 32) (h1 : s.ReadsGroup rs1 4)
    (h2 : s.Reads f rs2) : exec (.pesmul f rd rs1 rs2) s = .next (s.putE rd
      (smul s.cfg.width (peAdd s.cfg) (peDbl s.cfg) peIdentity (s.pe rs1) (s.val f rs2))).retire := by
  rw [exec, execPesmul]
  exact runCommand_pass (Checks.pass_group_canon hen (by simp [group, hd, h1.1]) h1 h2)

theorem exec_pwclr (hd : rd.val + 3 ≤ 32) (h1 : s.ReadsGroup rs1 3) :
    exec (.pwclr rd rs1) s = .next (s.putW rd (pwClear s.cfg (s.pw rs1))).retire :=
  pwUnaryCommand_pass pwClear hd h1

theorem exec_peclr (hen : s.cfg.edwEn = true) (hd : rd.val + 4 ≤ 32) (h1 : s.ReadsGroup rs1 4) :
    exec (.peclr rd rs1) s = .next (s.putE rd (peClear s.cfg (s.pe rs1))).retire :=
  peUnaryCommand_pass hen peClear hd h1

end

/-! ### The obligations -/

/-- Settles O44: the command writes what the ladder gives, which is the fold; for the scalar 0 the ladder doubles the
identity only. -/
theorem scalarMultiplicationLadder : Obligations.ScalarMultiplicationLadder := by
  intro f rd rs1 rs2 s hs h2
  refine ⟨fun hd h1 => ?pwsmul, fun hen hd h1 => ?pesmul⟩
  case pwsmul =>
    obtain ⟨t, he, hc, hw, hpw⟩ := State.completes_putW hs hd (pwSmul_lt hs ..) (exec_pwsmul hd h1 h2)
    refine ⟨t, he, hc, hw, hpw.trans (ladder_eq_foldl ..), fun hz => ?_⟩
    rw [hpw, hz]
    exact smul_zero_of_dbl_eq _ _ (pwDbl_pwIdentity hs) _
  case pesmul =>
    obtain ⟨t, he, hc, hw, hpe⟩ := State.completes_putE hs hd (peSmul_lt hs ..) (exec_pesmul hen hd h1 h2)
    exact ⟨t, he, hc, hw, hpe.trans (ladder_eq_foldl ..)⟩

/-- Settles O45: with multiplier 1 the command writes its source's values back, whose words are the source's; with
another it writes what double-and-add gives, which is the fold. -/
theorem cofactorClearing : Obligations.CofactorClearing := by
  intro rd rs1 s hs
  refine ⟨fun hd h1 => ?pwclr, fun hen hd h1 => ?peclr⟩
  case pwclr =>
    have hexec := exec_pwclr hd h1
    obtain ⟨t, he, hc, hw, hpw⟩ := State.completes_putW hs hd (pwClear_lt hs (State.pw_lt hs rs1)) hexec
    refine ⟨t, he, hc, hw, fun hone k hk => ?_, fun hne => hpw.trans (clearCofactor_eq_foldl _ _ hne)⟩
    obtain rfl := Host.Outcome.next.inj (hexec.symm.trans he)
    rw [State.word_retire, pwClear, hone, clearCofactor_one]
    exact State.word_putW_pw rfl hs hd h1 k hk
  case peclr =>
    have hexec := exec_peclr hen hd h1
    obtain ⟨t, he, hc, hw, hpe⟩ := State.completes_putE hs hd (peClear_lt hs (State.pe_lt hs rs1)) hexec
    refine ⟨t, he, hc, hw, fun hone k hk => ?_, fun hne => hpe.trans (clearCofactor_eq_foldl _ _ hne)⟩
    obtain rfl := Host.Outcome.next.inj (hexec.symm.trans he)
    rw [State.word_retire, peClear, hone, clearCofactor_one]
    exact State.word_putVals_vals rfl hs hd h1 k hk

end Sys2Proof.Machine
end

section
/-! PROOFS. The checks of a step and the error stop (60_exceptions.md R341, R346 to R350): a step in RUN is the stop of
its first failing check, or the execution of the fetched command; and what of this depends on secrets
(70_reset_and_hazards.md R392). -/

namespace Sys2Proof.Machine

/-! ### The stop of the first failing check -/

theorem sequencerStep_of_firstFailure {s : State} {e : ErrorCode} {w : Insn} (hr : s.run = .run)
    (hf : s.firstFailure = some (e, w)) : s.sequencerStep = .next (s.stopped e w) := by
  obtain ⟨t, ht⟩ := sequencerStep_total s
  rcases sequencerStep_cases hr ht with ⟨e', w', hf', -, rfl⟩ | ⟨hf', -⟩ | ⟨hf', -⟩
  · rw [hf] at hf'
    cases hf'
    exact ht
  · simp [hf] at hf'
  · simp [hf] at hf'

/-- A step is the stop with a code exactly when the check of that code is the first that fails. -/
theorem sequencerStep_eq_stopped_iff {s : State} (hr : s.run = .run) (e : ErrorCode) (w : Insn) :
    s.sequencerStep = .next (s.stopped e w) ↔ s.firstFailure = some (e, w) := by
  refine ⟨fun h => ?_, sequencerStep_of_firstFailure hr⟩
  rcases sequencerStep_ends hr h rfl with ⟨-, -, -, hhalt⟩ | ⟨e', w', hf, -, hstop⟩
  · exact absurd (congrArg State.done hhalt) Bool.false_ne_true
  · obtain rfl : e = e' := congrArg State.errcode hstop
    obtain rfl : w = w' := congrArg State.errinsn hstop
    exact hf

/-- With no failing check the fetched word is a command, and its execution is the step, counts in RETIRED and leaves
the error bits. -/
theorem sequencerStep_of_no_failure {s : State} (hr : s.run = .run) (hf : s.firstFailure = none) :
    ∃ i t, decode s.fetch = .ok i ∧ exec i s = .next t ∧ s.sequencerStep = .next t ∧
      t.retired = s.retired + 1 ∧ t.err = s.err ∧ t.errcode = s.errcode := by
  obtain ⟨t, ht⟩ := sequencerStep_total s
  rcases sequencerStep_cases hr ht with ⟨e, w, hf', -⟩ | ⟨-, -, -, hd, rfl⟩ |
    ⟨-, -, -, i, -, hd, -, he, ws, b, bs, u, hw, rfl⟩
  · simp [hf] at hf'
  · exact ⟨.halt, _, hd, exec_halt s, ht, rfl, rfl, rfl⟩
  · refine ⟨i, _, hd, he, ht, ?_⟩
    rw [hw.frame]
    exact ⟨rfl, rfl, rfl⟩

/-- Settles O8: the two checks before the fetch come first in the order, and a run that goes on counts `pc` up. -/
theorem stopsBeforeTheFetch : Obligations.StopsBeforeTheFetch := by
  intro s hturns hr
  rw [step_of_no_turns hturns]
  refine ⟨fun ha => ?abort, fun ha hp => ⟨?pcRange, hp, rfl⟩, fun t hp hstep ht => ?pc⟩
  case abort => exact sequencerStep_of_firstFailure hr (by rw [State.firstFailure, if_pos ha])
  case pcRange =>
    exact sequencerStep_of_firstFailure hr (by rw [State.firstFailure, ha, if_neg Bool.false_ne_true, if_pos hp.ge])
  case pc =>
    obtain ⟨-, -, hpc, -⟩ := sequencerStep_still_running hr hstep ht
    rw [hpc, pc_succ_toNat (by omega), hp]

/-- Settles O9, by the two outcomes of a step in RUN. -/
theorem firstFailingCheckIsReported : Obligations.FirstFailingCheckIsReported := by
  intro s hturns hr
  rw [step_of_no_turns hturns]
  exact ⟨fun _ _ => sequencerStep_of_firstFailure hr, sequencerStep_of_no_failure hr⟩

/-- Settles O10: the fields of the stopped state stand in its definition, and STATUS and the interrupt output are read
off them. -/
theorem errorStopRecord : Obligations.ErrorStopRecord := by
  intro s e w hturns hr hf
  refine ⟨s.stopped e w, (step_of_no_turns hturns).trans (sequencerStep_of_firstFailure hr hf), ?_⟩
  and_intros <;> rfl

/-! ### Malformed words -/

/-- The commands that a configuration lacks: those of a row with an Edwards opcode without EDW_EN, and three of the
hashing commands without H2C_EN (30_encoding.md R122). -/
theorem present_eq_false_iff (i : Instr) (c : Config) : i.present c = false ↔
    (0x30 ≤ i.opcode ∧ i.opcode ≤ 0x39) ∧ c.edwEn = false ∨
      i.mnemonic ∈ ["PWMAP", "PWH2C", "PWE2C"] ∧ c.h2cEn = false := by
  cases i <;> simp [Instr.present, Instr.opcode, Instr.mnemonic]

/-- Of a command's operand checks the first is that it is well-formed and in the configuration. -/
theorem State.operandError_eq_illegal_iff (s : State) (i : Instr) :
    s.operandError i = some .illegal ↔ i.wellFormed = false ∨ i.present s.cfg = false := by
  unfold State.operandError
  split_ifs with h <;> simp [h]

theorem State.firstFailure_eq_illegal_iff {s : State} (ha : s.abortReq = false) (hp : s.pc.toNat < 256) :
    s.firstFailure = some (.illegal, s.fetch) ↔
      ∀ i, decode s.fetch = .ok i → i.present s.cfg = false := by
  rw [State.firstFailure, ha, if_neg Bool.false_ne_true, if_neg (by omega)]
  cases hd : decode s.fetch with
  | error e => simp
  | ok i =>
    obtain ⟨-, -, -, -, hwf⟩ := readsRow_of_decode hd
    simp [State.operandError_eq_illegal_iff, hwf]

theorem bitsOf_opcode_of_encode {w : Insn} {i : Instr} (h : encode i = w) : bitsOf w 26 6 = i.opcode := by
  cases i
  all_goals
    simp only [encode, wordR_eq_iff, wordI_eq_iff, wordM_eq_iff, fbit_le_one, Fin.is_lt, Nat.reduceLT,
      Nat.zero_le] at h
    exact h.1

/-- A word matches one row at most, for the opcode alone selects the row (30_encoding.md R111). -/
theorem row_unique {w : Insn} {r q : OpcodeRow} (hr : r ∈ opcodeRows) (h : w &&& r.mask = r.matchWord)
    (hq : q ∈ opcodeRows) (h' : w &&& q.mask = q.matchWord) : r = q :=
  Option.some.inj ((rowOf_of_matches hr h).symm.trans (rowOf_of_matches hq h'))

/-- The fetched word is no command of the configuration: it matches no row, or its row finds the count or the feature
wrong (60_exceptions.md R341). -/
theorem no_present_command_iff (w : Insn) (c : Config) :
    (∀ i, decode w = .ok i → i.present c = false) ↔
      (∀ r ∈ opcodeRows, w &&& r.mask ≠ r.matchWord) ∨
      (∃ r ∈ opcodeRows, w &&& r.mask = r.matchWord ∧
        (r.mnemonic = "H2F" ∧ ¬(1 ≤ bitsOf w 0 16 ∧ bitsOf w 0 16 ≤ 32) ∨
          (0x30 ≤ r.opcode ∧ r.opcode ≤ 0x39) ∧ c.edwEn = false ∨
          r.mnemonic ∈ ["PWMAP", "PWH2C", "PWE2C"] ∧ c.h2cEn = false)) := by
  by_cases hrow : ∃ r ∈ opcodeRows, w &&& r.mask = r.matchWord
  · obtain ⟨r, hr, h⟩ := hrow
    obtain ⟨i, hm, henc, hd⟩ := decode_of_matches hr h
    have hop : r.opcode = i.opcode := by
      rw [← bitsOf_opcode_of_encode henc]
      exact (beq_iff_eq.mp (List.find?_some (rowOf_of_matches hr h) :)).symm
    have hwf : i.wellFormed = false ↔ r.mnemonic = "H2F" ∧ ¬(1 ≤ bitsOf w 0 16 ∧ bitsOf w 0 16 ≤ 32) := by
      rw [← Bool.not_eq_true, wellFormed_iff, hm, henc, Classical.not_imp]
    have hdec : (∀ j, decode w = .ok j → j.present c = false) ↔ i.wellFormed = false ∨ i.present c = false := by
      rw [hd]
      cases i.wellFormed <;> simp
    rw [hdec, hwf, present_eq_false_iff, hm, ← hop]
    constructor
    · exact fun hc => .inr ⟨r, hr, h, hc⟩
    · rintro (hnone | ⟨q, hq, h', hc⟩)
      · exact absurd h (hnone r hr)
      · obtain rfl := row_unique hr h hq h'
        exact hc
  · push Not at hrow
    refine iff_of_true (fun i hd => ?_) (.inl hrow)
    obtain ⟨r, zs, hq, hz, -⟩ := readsRow_of_decode hd
    exact absurd (hq.matches_iff.mpr hz) (hrow r hq.mem)

/-- Settles O7: the stop with E_ILLEGAL is that of a word which is no command of the configuration. -/
theorem malformedWordStopsWithIllegal : Obligations.MalformedWordStopsWithIllegal := by
  intro s hturns hr ha hp
  rw [step_of_no_turns hturns, sequencerStep_eq_stopped_iff hr, State.firstFailure_eq_illegal_iff ha hp]
  exact no_present_command_iff s.fetch s.cfg

/-! ### Secrets -/

theorem sequencerStep_turns {s t : State} (h : s.sequencerStep = .next t) : t.turns = s.turns := by
  cases hr : s.run with
  | idle =>
    rw [sequencerStep_of_idle hr] at h
    cases h
    rfl
  | run =>
    rcases sequencerStep_cases hr h with ⟨e, w, -, -, rfl⟩ | ⟨-, -, -, -, rfl⟩ |
      ⟨-, -, -, i, -, -, -, -, ws, b, bs, u, hw, rfl⟩
    · rfl
    · rfl
    · rw [hw.frame]
      rfl

/-- One step of two runs that differ in secrets only: they part at the check of canonical words, or they go on to
states that differ in secrets only. -/
theorem State.SameButSecrets.step_or_part {s₁ s₂ : State} (hs : s₁.SameButSecrets s₂) :
    (∃ t₁ t₂, s₁.sequencerStep = .next t₁ ∧ s₂.sequencerStep = .next t₂ ∧ t₁.SameButSecrets t₂) ∨
    (s₁.run = .run ∧
      (s₁.firstFailure = some (.nonCanon, s₁.fetch) ∧ s₂.firstFailure = none ∨
        s₁.firstFailure = none ∧ s₂.firstFailure = some (.nonCanon, s₂.fetch))) := by
  cases hr : s₁.run with
  | idle =>
    have hr₂ : s₂.run = .idle := by rw [← hs]; exact hr
    exact .inl ⟨s₁, s₂, sequencerStep_of_idle hr, sequencerStep_of_idle hr₂, hs⟩
  | run =>
    rcases hs.firstFailure with heq | hpart
    · obtain ⟨t₁, h₁⟩ := sequencerStep_total s₁
      obtain ⟨t₂, h₂⟩ := sequencerStep_total s₂
      exact .inl ⟨t₁, t₂, h₁, h₂, hs.sequencerStep heq h₁ h₂⟩
    · exact .inr ⟨rfl, hpart⟩

/-- Settles O18, by induction over the steps, from the first one on (`State.SameButSecrets.step_or_part`). -/
theorem secretsDoNotSteerARun : Obligations.SecretsDoNotSteerARun := by
  intro k
  induction k with
  | zero => exact fun s₁ s₂ _ hs => .inl ⟨s₁, s₂, rfl, rfl, hs⟩
  | succ k ih =>
    intro s₁ s₂ hturns hs
    have hturns₂ : s₂.turns = [] := by rw [← hs]; exact hturns
    rcases hs.step_or_part with ⟨t₁, t₂, h₁, h₂, ht⟩ | ⟨hr, hpart⟩
    · have hrun₁ (n : Nat) := run_succ_of_step n ((step_of_no_turns hturns).trans h₁)
      have hrun₂ (n : Nat) := run_succ_of_step n ((step_of_no_turns hturns₂).trans h₂)
      rw [hrun₁, hrun₂]
      rcases ih t₁ t₂ ((sequencerStep_turns h₁).trans hturns) ht with hsame | ⟨j, u₁, u₂, hj, hu₁, hu₂, hrest⟩
      · exact .inl hsame
      · exact .inr ⟨j + 1, u₁, u₂, by omega, (hrun₁ j).trans hu₁, (hrun₂ j).trans hu₂, hrest⟩
    · exact .inr ⟨0, s₁, s₂, by omega, rfl, rfl, hs, hr, hpart⟩

end Sys2Proof.Machine
end

section
/-! PROOFS. The two resets (70_reset_and_hazards.md R380, R381) and the interrupt registers (60_exceptions.md R360,
10_state.md R48). -/

namespace Sys2Proof.Machine

/-! ### Resets -/

theorem State.ctrlWrite_srst (s : State) {d : BitVec 32} (hd : d.getLsbD 2 = true) : s.ctrlWrite d = s.softReset :=
  if_pos hd

/-- Settles O52: SRST and the `rst` turn take `softReset` and `powerOn`, whose fields the laws of State give. -/
theorem resetsLeaveTheirValues : Obligations.ResetsLeaveTheirValues := by
  intro s rest d soft hsoft hrst
  cases soft with
  | true =>
    obtain ⟨hturns, hd⟩ := hsoft rfl
    refine ⟨_, step_of_bus_turn hturns, ?_⟩
    rw [State.busAccess_ctrl, State.ctrlWrite_srst _ hd]
    simpa [State.irq, State.fvalid_of_replicate, State.mvalid_of_replicate] using
      State.softReset_mem_idle { s with turns := rest }
  | false =>
    refine ⟨_, step_of_rst_turn (hrst rfl), ?_⟩
    simp [State.irq, State.fvalid_of_replicate, State.mvalid_of_replicate]

/-! ### Interrupts -/

theorem State.irq_iff (s : State) :
    s.irq = true ↔ s.doneIP = true ∧ s.doneIE = true ∨ s.errIP = true ∧ s.errIE = true := by
  simp [State.irq]

/-- Bits 0 and 1 of a word that holds two bits, and 0 elsewhere. -/
theorem getLsbD_two_bits (a b : Bool) (j : Nat) :
    (BitVec.ofNat 32 (bit a + 2 * bit b)).getLsbD j = (decide (j = 0) && a || decide (j = 1) && b) := by
  have hv : bit a + 2 * bit b = bitsValue [a, b] := by simp [bitsValue]
  rw [hv, BitVec.getLsbD_ofNat, testBit_bitsValue]
  match j with
  | 0 | 1 => simp
  | j + 2 => simp

/-- A pending bit of IRQST that is written as 1 is cleared. -/
theorem State.busAccess_irqst (s : State) (d : BitVec 32) : s.busAccess ⟨0x024, 4, .write d⟩ =
    { s with
      resp := ⟨0, false⟩, writes := s.writes + 1
      doneIP := if d.getLsbD 0 then false else s.doneIP
      errIP := if d.getLsbD 1 then false else s.errIP } := by
  have hclear (b c : Bool) : (b && !c) = if c then false else b := by cases b <;> cases c <;> rfl
  rw [State.busAccess_csr s 0x024 d rfl (by decide), ← hclear, ← hclear]
  rfl

theorem State.busAccess_irqen (s : State) (d : BitVec 32) : s.busAccess ⟨0x020, 4, .write d⟩ =
    { s with resp := ⟨0, false⟩, writes := s.writes + 1, doneIE := d.getLsbD 0, errIE := d.getLsbD 1 } :=
  State.busAccess_csr s 0x020 d rfl (by decide)

/-- Settles O53: the two registers are written in both run states, and each reads its word of two bits. -/
theorem interruptOutputAndClearing : Obligations.InterruptOutputAndClearing := by
  intro s rest d
  refine ⟨s.irq_iff, fun hturns => ?irqst, fun hturns => ?irqen, rfl, rfl, getLsbD_two_bits _ _, getLsbD_two_bits _ _⟩
  case irqst => rw [step_of_bus_turn hturns, State.busAccess_irqst]
  case irqen => rw [step_of_bus_turn hturns, State.busAccess_irqen]

end Sys2Proof.Machine
end

section
/-! PROOFS. The XMD expander (47_hash.md R305 to R307): the expansion is the first bytes of the chain of digests, for any
hash, and has the length asked for when the digests have 64 bytes, as those of BLAKE2b-512 have. -/

namespace Sys2Proof.Machine

/-! ### The expander -/

theorem i2osp_one (x : Nat) : i2osp x 1 = [BitVec.ofNat 8 x] := rfl

theorem i2osp_two (x : Nat) : i2osp x 2 = [BitVec.ofNat 8 (x / 256), BitVec.ofNat 8 x] := rfl

theorem i2osp_zero (n : Nat) : i2osp 0 n = List.replicate n 0#8 := by
  induction n with
  | zero => rfl
  | succ n ih => rw [i2osp, Nat.zero_div, ih, List.replicate_succ']

/-- `b_i` and the `k` digests after it, where each digest is that of the one before (47_hash.md R307). -/
theorem append_xmdDigests_eq_chain {hash : List Byte → List Byte} {b0 dstPrime : List Byte} {b : Nat → List Byte}
    {k i : Nat}
    (hb : ∀ j, i + 1 ≤ j → j ≤ i + k → b j = hash (strxor b0 (b (j - 1)) ++ i2osp j 1 ++ dstPrime)) :
    b i ++ xmdDigests hash b0 dstPrime k (i + 1) (b i) = ((List.range (k + 1)).map fun j => b (j + i)).flatten := by
  induction k generalizing i with
  | zero => simp [xmdDigests]
  | succ k ih =>
    have hnext : hash (strxor b0 (b i) ++ i2osp (i + 1) 1 ++ dstPrime) = b (i + 1) :=
      (hb (i + 1) (by omega) (by omega)).symm
    rw [xmdDigests, hnext, ih fun j h1 h2 => hb j (by omega) (by omega), List.range_succ_eq_map (n := k + 1),
      List.map_cons, List.flatten_cons, List.map_map]
    simp only [Function.comp_def, Nat.succ_eq_add_one, Nat.zero_add, Nat.add_assoc, Nat.add_comm 1 i]

/-- Settles O46: the digests are those of the chain, and none are needed when `n` is 0. -/
theorem expanderDigestChain : Obligations.ExpanderDigestChain := by
  intro hash msg dst n b h0 h1 hnext
  have hb0 : hash (i2osp 0 128 ++ msg ++ i2osp n 2 ++ i2osp 0 1 ++ (dst ++ i2osp dst.length 1)) = b 0 := by
    rw [h0, i2osp_zero, i2osp_two, i2osp_one, i2osp_one]
  have hb1 : hash (b 0 ++ i2osp 1 1 ++ (dst ++ i2osp dst.length 1)) = b 1 := h1.symm
  rw [expandMessageXmd, hb0, hb1]
  cases hell : ellOf n with
  | zero =>
    obtain rfl : n = 0 := by rw [ellOf] at hell; omega
    rw [List.take_zero, List.take_zero]
  | succ k =>
    rw [ellOf] at hell
    have hchain := append_xmdDigests_eq_chain (k := k) (i := 1) fun j h2 hle => hnext j h2 (by omega)
    rw [hell, Nat.add_sub_cancel]
    exact congrArg (List.take n) hchain

/-! ### The length of the expansion -/

/-- Four words in each row. -/
def BlakeRows.Square (v : BlakeRows) : Prop :=
  v.a.length = 4 ∧ v.b.length = 4 ∧ v.c.length = 4 ∧ v.d.length = 4

theorem length_turnLeft (n : Nat) (l : List Word64) : (turnLeft n l).length = l.length := by
  rw [turnLeft, List.length_append, List.length_drop, List.length_take]
  omega

theorem blakeMix_square {v : BlakeRows} (hv : v.Square) {x y : List Word64} (hx : x.length = 4) (hy : y.length = 4) :
    (blakeMix v x y).Square := by
  obtain ⟨ha, hb, hc, hd⟩ := hv
  simp [BlakeRows.Square, blakeMix, *]

theorem BlakeRows.Square.turn {v : BlakeRows} (hv : v.Square) (i j k : Nat) :
    BlakeRows.Square ⟨v.a, turnLeft i v.b, turnLeft j v.c, turnLeft k v.d⟩ := by
  simpa only [BlakeRows.Square, length_turnLeft] using hv

theorem blakeRound_square {v : BlakeRows} (hv : v.Square) (msg : List Word64) (perm : List Nat) :
    (blakeRound msg v perm).Square :=
  (blakeMix_square ((blakeMix_square hv rfl rfl).turn 1 2 3) rfl rfl).turn 3 2 1

theorem length_blakeCompress {h : List Word64} (hh : h.length = 8) (msg : List Word64) (t : Nat) (last : Bool) :
    (blakeCompress h msg t last).length = 8 := by
  rw [blakeCompress]
  generalize hv : List.foldl _ _ _ = v
  have hs : v.Square := by
    rw [← hv]
    refine List.foldlRecOn _ _ ?_ fun u hu perm _ => blakeRound_square hu msg perm
    simp [BlakeRows.Square, hh, blakeIV]
  obtain ⟨ha, hb, hc, hd⟩ := hs
  simp [ha, hb, hc, hd, hh]

theorem length_blakeBlocks {h : List Word64} (hh : h.length = 8) (k t : Nat) (msg : List Byte) :
    (blakeBlocks k h t msg).length = 8 := by
  induction k generalizing h t msg with
  | zero => exact hh
  | succ k ih =>
    rw [blakeBlocks]
    split
    · exact length_blakeCompress hh _ _ _
    · exact ih (length_blakeCompress hh _ _ _) _ _

theorem length_leBytes (n x : Nat) : (leBytes n x).length = n := by
  induction n generalizing x with
  | zero => rfl
  | succ n ih => rw [leBytes, List.length_cons, ih]

theorem length_blake2b512 (msg : List Byte) : (blake2b512 msg).length = 64 := by
  rw [blake2b512, List.length_flatMap]
  simp [length_leBytes, length_blakeBlocks, blakeIV]

theorem length_hashOf (h : HashName) (msg : List Byte) : (hashOf h msg).length = 64 := by
  cases h
  exact length_blake2b512 msg

theorem length_xmdDigests {hash : List Byte → List Byte} (hh : ∀ m, (hash m).length = 64) (b0 dstPrime : List Byte)
    (k i : Nat) (prev : List Byte) : (xmdDigests hash b0 dstPrime k i prev).length = 64 * k := by
  induction k generalizing i prev with
  | zero => rfl
  | succ k ih =>
    rw [xmdDigests, List.length_append, hh, ih]
    omega

/-- `ell` digests of 64 bytes are at least the `n` bytes asked for (47_hash.md R305). -/
theorem length_expandMessageXmd {hash : List Byte → List Byte} (hh : ∀ m, (hash m).length = 64) (msg dst : List Byte)
    (n : Nat) : (expandMessageXmd hash msg dst n).length = n := by
  rw [expandMessageXmd, List.length_take, List.length_append, hh, length_xmdDigests hh, ellOf]
  omega

end Sys2Proof.Machine
end

section
/-! PROOFS. The hashing commands XMD and H2F (47_hash.md R305, R308 to R310): the checks of a hashing command, and the
chunks of the expansion as integers. -/

namespace Sys2Proof.Machine

/-! ### The commands, with their checks passing -/

theorem wideBytes_le {c : Config} (h : c.sized = true) (f : FieldSel) : c.wideBytes f ≤ 128 := by
  simp only [Config.sized, Bool.and_eq_true, decide_eq_true_eq] at h
  cases f <;> simp only [Config.wideBytes] <;> tauto

section
variable {s : State} (hi : s.HashInputsOk)
include hi

theorem Checks.pass_hash {legal : Bool} {groups ranges : List (Nat × Nat)} {n : Nat} (hl : legal = true)
    (hg : ∀ g ∈ groups, g.1 + g.2 ≤ 32) (hr : ∀ r ∈ ranges, r.1 + r.2 ≤ 4096) (hn : n ≤ 4096) :
    Checks.Pass { legal := legal, groups := groups, ranges := s.hashRanges ++ ranges, expands := some n } s where
  legal := hl
  groups := hg
  ranges := List.forall_mem_append.2 ⟨by simp [State.hashRanges, hi.1, hi.2.1], hr⟩
  expands m hm := by
    obtain rfl : n = m := Option.some.inj hm
    exact ⟨hi.2.2, by rw [ellOf]; omega⟩
  valid := by simp
  masks := by simp
  canonical := by simp

theorem exec_xmd {addr : BitVec 12} (h : addr.toNat + s.xmdlen.toNat ≤ 4096) : exec (.xmd addr) s =
    .next (s.memWrite addr.toNat
      (expandMessageXmd (hashOf s.cfg.hash) s.message s.tag s.xmdlen.toNat)).retire := by
  rw [exec, execXmd]
  exact runCommand_pass (Checks.pass_hash hi rfl (by simp) (by simpa [range] using h) (by omega))

theorem exec_h2f (f : FieldSel) {rd : FReg} {count : BitVec 16} (hs : s.cfg.sized = true) (h1 : 1 ≤ count.toNat)
    (h2 : count.toNat ≤ 32) (hd : rd.val + count.toNat ≤ 32) : exec (.h2f f rd count) s =
    .next (s.putVals f rd (hashToField s.cfg f s.message s.tag count.toNat)).retire := by
  have hwf : (Instr.h2f f rd count).wellFormed = true := decide_eq_true ⟨h1, h2⟩
  have hn : count.toNat * s.cfg.wideBytes f ≤ 4096 := Nat.mul_le_mul h2 (wideBytes_le hs f)
  rw [exec, execH2f]
  exact runCommand_pass (Checks.pass_hash hi (ranges := []) hwf (by simpa [group] using hd) (by simp) hn)

end

/-! ### The chunks of the expansion -/

theorem getElem_fieldChunks (m l n : Nat) (bytes : List Byte) (k : Nat) (h : k < (fieldChunks m l n bytes).length) :
    (fieldChunks m l n bytes)[k] = os2ip ((bytes.drop (k * l)).take l) % m := by
  induction n generalizing bytes k with
  | zero => simp [fieldChunks] at h
  | succ n ih =>
    cases k with
    | zero => simp [fieldChunks]
    | succ k =>
      simp only [fieldChunks, List.getElem_cons_succ, ih, List.drop_drop]
      rw [Nat.succ_mul, Nat.add_comm l]

/-- A chunk as the sum of its bytes, the first the most significant (00_scope.md R20). -/
theorem os2ip_chunk {bytes : List Byte} {a l : Nat} (h : a + l ≤ bytes.length) :
    os2ip ((bytes.drop a).take l) =
      ∑ j ∈ Finset.range l, (bytes.getD (a + j) 0#8).toNat * 256 ^ (l - 1 - j) := by
  have hl : ((bytes.drop a).take l).length = l := by
    rw [List.length_take, List.length_drop]
    omega
  rw [os2ip_eq_sum, hl]
  refine Finset.sum_congr rfl fun j hj => ?_
  have hj := Finset.mem_range.1 hj
  simp [List.getD_eq_getElem?_getD, hj]

/-- Settles O47: the expansion has the length asked for, so XMD stores all of it and each chunk of H2F is whole. -/
theorem hashingCommands : Obligations.HashingCommands := by
  intro s hs hi
  refine ⟨fun addr h hm => ?xmd, fun f rd count h1 h2 hd => ?h2f⟩
  case xmd =>
    have hlen := length_expandMessageXmd (length_hashOf s.cfg.hash) s.message s.tag s.xmdlen.toNat
    have hread := Memory.readList_writeList hm (hlen.symm ▸ h)
    have hc : s.CompletesStore _ _ (expandMessageXmd (hashOf s.cfg.hash) s.message s.tag s.xmdlen.toNat).length :=
      s.completesStore_memWrite addr.toNat _
    rw [hlen] at hc hread
    exact ⟨_, exec_xmd hi h, hc, hread⟩
  case h2f =>
    have hcount := length_hashToField s.cfg f s.message s.tag count.toNat
    have hfits : rd.val + (hashToField s.cfg f s.message s.tag count.toNat).length ≤ 32 := hcount.symm ▸ hd
    have hc := s.completes_putVals f hfits
    rw [hcount] at hc
    refine ⟨_, exec_h2f hi f hs h1 h2 hd, hc, ?_⟩
    rintro bytes rfl
    have hlen := length_expandMessageXmd (length_hashOf s.cfg.hash) s.message s.tag (count.toNat * s.cfg.wideBytes f)
    refine ⟨hlen, fun k hk => ⟨?_, ?_⟩⟩
    · rw [State.word_retire]
      exact s.word_putVals_lt f hfits hs k (hcount.symm ▸ hk)
    · have hchunk : k * s.cfg.wideBytes f + s.cfg.wideBytes f ≤ count.toNat * s.cfg.wideBytes f := by
        rw [← Nat.succ_mul]
        exact Nat.mul_le_mul_right _ hk
      rw [State.val_retire, s.val_putVals f hfits hs (hcount.symm ▸ hk)]
      simp only [hashToField, getElem_fieldChunks, Nat.mod_mod]
      exact congrArg (· % s.cfg.modulus f) (os2ip_chunk (hlen.symm ▸ hchunk))

end Sys2Proof.Machine
end

section
/-! PROOFS. Fractions and the SSWU map (47_hash.md R315 to R321): one equation per command for the state it leaves when
its checks pass, the map over `ZMod P`, and the isogeny as polynomials. -/

namespace Sys2Proof.Machine

/-! ### The commands, with their checks passing -/

section
variable {s : State} {rd rs1 : FReg}

theorem exec_pwfrac (hd : rd.val + 3 ≤ 32) (h1 : s.ReadsGroup rs1 4) :
    exec (.pwfrac rd rs1) s = .next (s.putW rd (fractionPoint s.cfg (s.fraction rs1))).retire := by
  rw [exec, execPwfrac]
  exact runCommand_pass (Checks.pass_group rfl (by simp [group, hd, h1.1]) h1)

theorem exec_pwmap (hen : s.cfg.h2cEn = true) (hd : rd.val + 4 ≤ 32) (h1 : s.Reads .p rs1) :
    exec (.pwmap rd rs1) s = .next (s.putFraction rd (mapToCurve s.cfg (s.val .p rs1))).retire := by
  rw [exec, execPwmap]
  exact runCommand_pass (by constructor <;> simp [group, canon, hen, hd, h1.1, h1.2])

end

/-- What a command did that wrote one fraction of canonical values and completed. -/
theorem State.completes_putFraction {s : State} {o : Host.Outcome State Fault Refusal} {b : Nat} {q : Fraction}
    (hs : s.cfg.sized = true) (hb : b + 4 ≤ 32)
    (hq : q.xn < s.cfg.p ∧ q.xd < s.cfg.p ∧ q.yn < s.cfg.p ∧ q.yd < s.cfg.p)
    (ho : o = .next (s.putFraction b q).retire) :
    ∃ t, o = .next t ∧ s.Completes t b 4 [] ∧ (∀ k < 4, t.word (b + k) < s.cfg.p) ∧ t.fraction b = q := by
  obtain ⟨t, he, hc, hw, hpe⟩ := State.completes_putE (p := ⟨q.xn, q.xd, q.yn, q.yd⟩) hs hb hq ho
  exact ⟨t, he, hc, hw, congrArg (fun e : PointE => (⟨e.x, e.y, e.z, e.t⟩ : Fraction)) hpe⟩

/-! ### Fractions -/

theorem fractionPoint_lt {c : Config} (hs : c.sized = true) (q : Fraction) :
    (fractionPoint c q).x < c.p ∧ (fractionPoint c q).y < c.p ∧ (fractionPoint c q).z < c.p := by
  have hp : 0 < c.p := modulus_pos hs .p
  rw [fractionPoint]
  split
  · exact pwIdentity_lt hs
  · exact ⟨mulMod_lt _ _ _ hp, mulMod_lt _ _ _ hp, mulMod_lt _ _ _ hp⟩

/-- Settles O49: the command writes the point of the fraction, by whether its denominator is 0. -/
theorem fractionToPoint : Obligations.FractionToPoint := by
  intro rd rs1 s hs hd h1
  obtain ⟨t, he, hc, hw, hpw⟩ := State.completes_putW hs hd (fractionPoint_lt hs _) (exec_pwfrac hd h1)
  exact ⟨t, he, hc, hw, fun h0 => hpw.trans (if_pos h0), fun h0 => hpw.trans (if_neg h0)⟩

/-! ### SSWU over a finite field -/

section
variable {F : Type*} [Field F] [Fintype F]

theorem isSquare_mul_of_not_isSquare {a b : F} (ha : ¬IsSquare a) (hb : ¬IsSquare b) : IsSquare (a * b) := by
  classical
  have hne : a * b ≠ 0 := mul_ne_zero (fun h => ha (h ▸ IsSquare.zero)) (fun h => hb (h ▸ IsSquare.zero))
  rw [← quadraticChar_one_iff_isSquare hne, map_mul, quadraticChar_neg_one_iff_not_isSquare.2 ha,
    quadraticChar_neg_one_iff_not_isSquare.2 hb]
  rfl

/-- Where `g` of the first candidate is no square, `g` of the second is that times `Z³·U⁶`, a square (R318). -/
theorem isSquare_second_candidate {Z A B U X : F} (hZ : ¬IsSquare Z)
    (hX : X * A * (Z ^ 2 * U ^ 4 + Z * U ^ 2) = -B * (Z ^ 2 * U ^ 4 + Z * U ^ 2 + 1))
    (hg : ¬IsSquare (X ^ 3 + A * X + B)) :
    IsSquare ((Z * U ^ 2 * X) ^ 3 + A * (Z * U ^ 2 * X) + B) := by
  have hfactor : (Z * U ^ 2 * X) ^ 3 + A * (Z * U ^ 2 * X) + B = Z * (X ^ 3 + A * X + B) * (Z * U ^ 3) ^ 2 := by
    linear_combination (1 - Z * U ^ 2) * hX
  rw [hfactor]
  exact (isSquare_mul_of_not_isSquare hZ hg).mul (IsSquare.sq _)

end

/-! ### The step list of SSWU -/

theorem sswu_snd (c : Config) (u : Nat) : (sswu c u).2 =
    if sgn0 u = sgn0 (sqrtMod c.p (sswuG c (sswu c u).1)) then sqrtMod c.p (sswuG c (sswu c u).1)
    else negMod c.p (sqrtMod c.p (sswuG c (sswu c u).1)) := rfl

theorem sswu_fst_of_square {c : Config} {u : Nat} (h : isSquareMod c.p (sswuG c (sswuX1 c u)) = true) :
    (sswu c u).1 = sswuX1 c u := if_pos h

theorem sswu_fst_of_not_square {c : Config} {u : Nat} (h : ¬isSquareMod c.p (sswuG c (sswuX1 c u)) = true) :
    (sswu c u).1 = mulMod c.p (mulMod c.p c.sswuZ (mulMod c.p u u)) (sswuX1 c u) := if_neg h

theorem sswu_lt {c : Config} (hs : c.sized = true) (u : Nat) : (sswu c u).1 < c.p ∧ (sswu c u).2 < c.p := by
  have hb := modulus_bounds hs .p
  simp only [Config.modulus] at hb
  have hp : 0 < c.p := by omega
  constructor
  · by_cases h : isSquareMod c.p (sswuG c (sswuX1 c u)) = true
    · rw [sswu_fst_of_square h, sswuX1]
      split
      · exact mulMod_lt _ _ _ hp
      · exact mulMod_lt _ _ _ hp
    · rw [sswu_fst_of_not_square h]
      exact mulMod_lt _ _ _ hp
  · rw [sswu_snd]
    split
    · exact sqrtMod_lt (by omega) _
    · exact negMod_lt _ _ hp

theorem negMod_parity {m y : Nat} (hodd : m % 2 = 1) (hy : y < m) (h0 : negMod m y ≠ 0) : negMod m y % 2 ≠ y % 2 := by
  rw [negMod_eq hy] at h0 ⊢
  have hpos : y ≠ 0 := by
    rintro rfl
    simp at h0
  have hmod : (m - y) % m = m - y := Nat.mod_eq_of_lt (by omega)
  omega

/-- The sign of `y` is that of `u`, but for the root 0 (47_hash.md R318). -/
theorem sswu_snd_parity {c : Config} (hs : c.sized = true) {u : Nat} (h0 : (sswu c u).2 ≠ 0) :
    (sswu c u).2 % 2 = u % 2 := by
  have hb := modulus_bounds hs .p
  simp only [Config.modulus] at hb
  rw [sswu_snd] at h0 ⊢
  split at h0
  case isTrue h => rw [if_pos h]; exact h.symm
  case isFalse h =>
    have hpar := negMod_parity hb.1 (sqrtMod_lt (by omega) _) h0
    rw [if_neg h]
    simp only [sgn0] at h
    omega

theorem cast_sswuG (c : Config) (x : Nat) :
    ((sswuG c x : Nat) : ZMod c.p) = (x : ZMod c.p) ^ 3 + c.sswuA * x + c.sswuB := by
  simp only [sswuG, cast_addMod, cast_mulMod]
  ring

/-- `Z²·u⁴ + Z·u²` in `ZMod P`, whose zeros are the exceptional case of SSWU (47_hash.md R318). -/
def sswuW (c : Config) (u : Nat) : ZMod c.p := c.sswuZ ^ 2 * u ^ 4 + c.sswuZ * u ^ 2

/-- The inverse that SSWU takes of it, 0 in the exceptional case (47_hash.md R318). -/
def sswuTv (c : Config) (u : Nat) : Nat :=
  invMod c.p (addMod c.p (mulMod c.p (mulMod c.p c.sswuZ (mulMod c.p u u)) (mulMod c.p c.sswuZ (mulMod c.p u u)))
    (mulMod c.p c.sswuZ (mulMod c.p u u)))

theorem sswuX1_eq (c : Config) (u : Nat) : sswuX1 c u =
    if sswuTv c u = 0 then mulMod c.p c.sswuB (invMod c.p (mulMod c.p c.sswuZ c.sswuA))
    else mulMod c.p (mulMod c.p (negMod c.p c.sswuB) (invMod c.p (c.sswuA % c.p))) (addMod c.p 1 (sswuTv c u)) := rfl

theorem cast_sswuA_ne_zero {c : Config} (hok : c.SswuOk) : (c.sswuA : ZMod c.p) ≠ 0 := fun h => by
  have hab : ((c.sswuA * c.sswuB : Nat) : ZMod c.p) = 0 := by rw [Nat.cast_mul, h, zero_mul]
  exact hok.abNonzero (Nat.mod_eq_zero_of_dvd ((ZMod.natCast_eq_zero_iff _ _).1 hab))

section
variable {c : Config} (hpf : c.PrimeFields)
include hpf

theorem two_lt_p : 2 < c.p := by
  have hb := modulus_bounds hpf.sized .p
  simp only [Config.modulus] at hb
  omega

theorem cast_sswuTv (u : Nat) :
    ((sswuTv c u : Nat) : ZMod c.p) = (sswuW c u)⁻¹ := by
  rw [sswuTv, cast_invMod _ _ hpf.primeP (two_lt_p hpf)]
  simp only [cast_addMod, cast_mulMod, sswuW]
  congr 1
  ring

theorem sswuTv_eq_zero_iff (u : Nat) : sswuTv c u = 0 ↔ sswuW c u = 0 := by
  have := Fact.mk hpf.primeP
  have hlt : sswuTv c u < c.p := invMod_lt _ _ hpf.primeP.pos
  rw [← cast_eq_zero_iff hlt, cast_sswuTv hpf, inv_eq_zero]

variable (hok : c.SswuOk)
include hok

theorem sswuZ_not_isSquare : ¬IsSquare (c.sswuZ : ZMod c.p) := fun hsq =>
  ((isSquare_cast_mod hpf.primeP.pos _).1 hsq).elim hok.zNonSquare

variable {u : Nat}

theorem sswuX1_of_zero (hw : sswuW c u = 0) :
    ((sswuX1 c u : Nat) : ZMod c.p) * c.sswuZ * c.sswuA = c.sswuB := by
  have := Fact.mk hpf.primeP
  have hZ : (c.sswuZ : ZMod c.p) ≠ 0 := fun h => sswuZ_not_isSquare hpf hok (h ▸ IsSquare.zero)
  have hA := cast_sswuA_ne_zero hok
  rw [sswuX1_eq, if_pos ((sswuTv_eq_zero_iff hpf u).2 hw), cast_mulMod, cast_invMod _ _ hpf.primeP (two_lt_p hpf),
    cast_mulMod]
  field_simp

theorem sswuX1_of_ne_zero (hw : sswuW c u ≠ 0) :
    ((sswuX1 c u : Nat) : ZMod c.p) * c.sswuA * sswuW c u = -c.sswuB * (sswuW c u + 1) := by
  have := Fact.mk hpf.primeP
  have hA := cast_sswuA_ne_zero hok
  have hX : ((sswuX1 c u : Nat) : ZMod c.p) =
      -c.sswuB * (c.sswuA : ZMod c.p)⁻¹ * (1 + (sswuW c u)⁻¹) := by
    rw [sswuX1_eq, if_neg (mt (sswuTv_eq_zero_iff hpf u).1 hw), cast_mulMod, cast_mulMod, cast_addMod,
      cast_negMod _ _ hpf.primeP.pos, cast_invMod _ _ hpf.primeP (two_lt_p hpf), ZMod.natCast_mod, cast_sswuTv hpf,
      Nat.cast_one]
  rw [hX]
  field_simp

/-- `g` of the first candidate is a square in the exceptional case (00_scope.md R14). -/
theorem isSquare_sswuG_of_zero (hw : sswuW c u = 0) :
    IsSquare ((sswuG c (sswuX1 c u) : Nat) : ZMod c.p) := by
  have hx : sswuX1 c u * (c.sswuZ * c.sswuA) % c.p = c.sswuB % c.p := by
    rw [← ZMod.natCast_eq_natCast_iff', ← sswuX1_of_zero hpf hok hw]
    push_cast
    ring
  have hsq := (isSquare_cast_mod hpf.primeP.pos _).2 (hok.exceptionalSquare _ hx)
  rw [cast_sswuG]
  exact_mod_cast hsq

/-- The candidate that SSWU takes has a square `g` (47_hash.md R317, R318). -/
theorem isSquare_sswuG_fst : IsSquare ((sswuG c (sswu c u).1 : Nat) : ZMod c.p) := by
  have := Fact.mk hpf.primeP
  by_cases h : isSquareMod c.p (sswuG c (sswuX1 c u)) = true
  · rw [sswu_fst_of_square h]
    exact (isSquareMod_iff (two_lt_p hpf) _).1 h
  · rw [sswu_fst_of_not_square h, cast_sswuG]
    rw [isSquareMod_iff (two_lt_p hpf)] at h
    have hX := sswuX1_of_ne_zero hpf hok (mt (isSquare_sswuG_of_zero hpf hok) h)
    rw [cast_sswuG] at h
    simp only [cast_mulMod, ← pow_two]
    exact isSquare_second_candidate (sswuZ_not_isSquare hpf hok) hX h

/-- `(x, y)` is on the curve that SSWU runs on. -/
theorem sswu_onCurve :
    (((sswu c u).2 : Nat) : ZMod c.p) ^ 2 = ((sswu c u).1 : ZMod c.p) ^ 3 + c.sswuA * (sswu c u).1 + c.sswuB := by
  have := Fact.mk hpf.primeP
  have hroot := sqrtMod_spec (two_lt_p hpf) (sswuG c (sswu c u).1)
    ((isSquareMod_iff (two_lt_p hpf) _).2 (isSquare_sswuG_fst hpf hok))
  rw [cast_sswuG] at hroot
  rw [← hroot, sswu_snd]
  split
  · rfl
  · rw [cast_negMod _ _ hpf.primeP.pos, neg_sq]

end

/-! ### The isogeny as polynomials (47_hash.md R319) -/

theorem polyEval_lt {m : Nat} (hm : 0 < m) (x : Nat) (ks : List Nat) : polyEval m x ks < m := by
  cases ks with
  | nil => exact hm
  | cons k ks => exact addMod_lt _ _ _ hm

theorem cast_polyEval (m x : Nat) (ks : List Nat) : ((polyEval m x ks : Nat) : ZMod m) =
    ∑ i ∈ Finset.range ks.length, ((ks.getD i 0 : Nat) : ZMod m) * (x : ZMod m) ^ i := by
  induction ks with
  | nil => simp [polyEval]
  | cons k ks ih =>
    rw [polyEval, cast_addMod, cast_mulMod, ih, List.length_cons, Finset.sum_range_succ', Finset.mul_sum, add_comm]
    congr 1
    · refine Finset.sum_congr rfl fun i _ => ?_
      rw [List.getD_cons_succ]
      ring
    · simp

/-- A monic polynomial, whose leading 1 is not among its coefficients. -/
theorem cast_polyEval_monic (m x : Nat) (ks : List Nat) : ((polyEval m x (ks ++ [1]) : Nat) : ZMod m) =
    (x : ZMod m) ^ ks.length + ∑ i ∈ Finset.range ks.length, ((ks.getD i 0 : Nat) : ZMod m) * (x : ZMod m) ^ i := by
  rw [cast_polyEval, List.length_append, List.length_singleton, Finset.sum_range_succ, add_comm]
  congr 1
  · simp
  · exact Finset.sum_congr rfl fun i hi => by rw [List.getD_append _ _ _ _ (Finset.mem_range.1 hi)]

theorem mapToCurve_lt {c : Config} (hs : c.sized = true) (u : Nat) :
    (mapToCurve c u).xn < c.p ∧ (mapToCurve c u).xd < c.p ∧ (mapToCurve c u).yn < c.p ∧ (mapToCurve c u).yd < c.p := by
  have hp : 0 < c.p := modulus_pos hs .p
  obtain ⟨hx, hy⟩ := sswu_lt hs u
  rw [mapToCurve]
  split
  · exact ⟨polyEval_lt hp _ _, polyEval_lt hp _ _, mulMod_lt _ _ _ hp, polyEval_lt hp _ _⟩
  · exact ⟨hx, one_lt_p hs, hy, one_lt_p hs⟩

/-- Settles O48: the command writes the fraction of `(x, y)`, which is on the curve by `sswu_onCurve`. -/
theorem sswuMapping : Obligations.SswuMapping := by
  intro rd rs1 s hpf hen hok hd h1
  have hs := hpf.sized
  have := Fact.mk hpf.primeP
  obtain ⟨t, he, hc, hw, hq⟩ := State.completes_putFraction hs hd (mapToCurve_lt hs _) (exec_pwmap hen hd h1)
  obtain ⟨hx, hy⟩ := sswu_lt hs (s.val .p rs1)
  refine ⟨t, _, sswuX1 s.cfg (s.val .p rs1), _, _, he, hc, hw, rfl, hx, hy, ?candidates, sswu_snd_parity hs,
    fun hiso => ?plain, fun hiso => ?isogeny⟩
  case candidates =>
    rintro _ _ _ _ _ _ _ _ rfl rfl rfl rfl rfl rfl rfl rfl
    refine ⟨sswuX1_of_zero hpf hok, sswuX1_of_ne_zero hpf hok, fun hsq => ?_, fun hns => ?_, sswu_onCurve hpf hok⟩
    · rw [← cast_sswuG, ← isSquareMod_iff (two_lt_p hpf)] at hsq
      rw [sswu_fst_of_square hsq]
    · rw [← cast_sswuG, ← isSquareMod_iff (two_lt_p hpf)] at hns
      rw [sswu_fst_of_not_square hns]
      simp only [cast_mulMod, ← pow_two]
  case plain =>
    rw [hq, mapToCurve, hiso]
    rfl
  case isogeny =>
    rintro k1 k2 k3 k4 hk _ _ rfl rfl
    rw [hq, mapToCurve, if_pos hiso, isoMap, hk]
    exact ⟨cast_polyEval .., cast_polyEval_monic .., by rw [cast_mulMod, cast_polyEval], cast_polyEval_monic ..⟩

end Sys2Proof.Machine
end

section
/-! PROOFS. PWH2C and PWE2C against their sequences of commands (47_hash.md R322, R323). Every command of the sequences
puts a list of canonical values into consecutive registers, and keeps the lists it does not overwrite. -/

namespace Sys2Proof

/-- The values of a point in register order (00_scope.md R23). -/
def PointW.values (p : PointW) : List Nat := [p.x, p.y, p.z]

/-- The values of a fraction in register order (47_hash.md R320). -/
def Fraction.values (q : Fraction) : List Nat := [q.xn, q.xd, q.yn, q.yd]

@[simp] theorem PointW.length_values (p : PointW) : p.values.length = 3 := rfl

@[simp] theorem Fraction.length_values (q : Fraction) : q.values.length = 4 := rfl

end Sys2Proof

namespace Sys2Proof.Machine

/-! ### Lists of values in registers -/

/-- Under the configuration `c`, the registers from base `b` can be read under P and have the values `vs`. -/
structure State.HoldsVals (s : State) (c : Config) (b : Nat) (vs : List Nat) : Prop where
  cfg : s.cfg = c
  fits : b + vs.length ≤ 32
  vals : ∀ k v, vs[k]? = some v → s.Reads .p (b + k) ∧ s.val .p (b + k) = v

/-- The command completes, and writes the values `vs` into the registers from base `b` and nothing else. -/
structure State.PutsVals (s t : State) (c : Config) (i : Instr) (b : Nat) (vs : List Nat) : Prop where
  exec : exec i s = .next t
  completes : s.Completes t b vs.length []
  holds : t.HoldsVals c b vs

section
variable {s t : State} {c : Config} {i : Instr} {b r u : Nat} {us vs : List Nat}

theorem State.HoldsVals.head (h : s.HoldsVals c b (u :: us)) : s.HoldsVals c b [u] where
  cfg := h.cfg
  fits := (Nat.add_le_add_left (Nat.le_add_left 1 us.length) b).trans h.fits
  vals k v hk := by
    obtain ⟨hlt, rfl⟩ := List.getElem?_eq_some_iff.1 hk
    obtain rfl : k = 0 := Nat.lt_one_iff.1 hlt
    exact h.vals 0 _ rfl

theorem State.HoldsVals.tail (h : s.HoldsVals c b (u :: us)) : s.HoldsVals c (b + 1) us where
  cfg := h.cfg
  fits := by
    have hf := h.fits
    rw [List.length_cons] at hf
    omega
  vals k v hk := by
    rw [Nat.add_assoc, Nat.add_comm 1]
    exact h.vals (k + 1) v hk

theorem State.HoldsVals.readsGroup (h : s.HoldsVals c b vs) : s.ReadsGroup b vs.length :=
  ⟨h.fits, fun k hk => (h.vals k _ (List.getElem?_eq_getElem hk)).1⟩

/-- Canonical words are known by their values, also in two states. -/
theorem State.HoldsVals.word_eq (h : s.HoldsVals c b vs) (h' : t.HoldsVals c r vs) (hs : c.sized = true) :
    ∀ k < vs.length, s.word (b + k) = t.word (r + k) := by
  intro k hk
  obtain ⟨⟨-, hlt⟩, hv⟩ := h.vals k _ (List.getElem?_eq_getElem hk)
  obtain ⟨⟨-, hlt'⟩, hv'⟩ := h'.vals k _ (List.getElem?_eq_getElem hk)
  rw [h.cfg] at hlt
  rw [h'.cfg] at hlt'
  rw [State.val, h.cfg] at hv
  rw [State.val, h'.cfg] at hv'
  exact word_eq_of_val_eq hs .p hlt hlt' (hv.trans hv'.symm)

theorem State.PutsVals.keeps (h : s.PutsVals t c i b vs) (hu : s.HoldsVals c r us)
    (hd : r + us.length ≤ b ∨ b + vs.length ≤ r) : t.HoldsVals c r us where
  cfg := h.holds.cfg
  fits := hu.fits
  vals k v hk := by
    obtain ⟨hlt, -⟩ := List.getElem?_eq_some_iff.1 hk
    obtain ⟨hword, hvalid⟩ := h.completes.words (r + k) (by omega)
    rw [State.Reads, State.val, hword, hvalid, h.holds.cfg, ← hu.cfg]
    exact hu.vals k v hk

theorem State.putsVals_of_exec (hs : s.cfg.sized = true) (hb : b + vs.length ≤ 32) (hv : ∀ v ∈ vs, v < s.cfg.p)
    (he : Machine.exec i s = .next (s.putVals .p b vs).retire) : ∃ t, s.PutsVals t s.cfg i b vs := by
  have hc := s.completes_putVals .p hb
  have hcfg : (s.putVals .p b vs).retire.cfg = s.cfg := by rw [hc.others]
  refine ⟨_, he, hc, hcfg, hb, fun k v hk => ?_⟩
  obtain ⟨hlt, rfl⟩ := List.getElem?_eq_some_iff.1 hk
  refine ⟨⟨hc.written k hlt, ?_⟩, ?_⟩
  · rw [State.word_retire, hcfg]
    exact s.word_putVals_lt .p hb hs k hlt
  · rw [State.val_retire, s.val_putVals .p hb hs hlt]
    exact Nat.mod_eq_of_lt (hv _ (List.getElem_mem hlt))

theorem State.putsVals_point {p : PointW} (hs : s.cfg.sized = true) (hb : b + 3 ≤ 32)
    (hp : p.x < s.cfg.p ∧ p.y < s.cfg.p ∧ p.z < s.cfg.p) (he : Machine.exec i s = .next (s.putW b p).retire) :
    ∃ t, s.PutsVals t s.cfg i b p.values :=
  State.putsVals_of_exec hs hb (by simpa [PointW.values] using hp) he

theorem State.HoldsVals.pw_eq {p : PointW} (h : s.HoldsVals c b p.values) : s.pw b = p := by
  have hx : s.val .p b = p.x := (h.vals 0 _ rfl).2
  rw [State.pw, hx, (h.vals 1 _ rfl).2, (h.vals 2 _ rfl).2]

theorem State.HoldsVals.fraction_eq {q : Fraction} (h : s.HoldsVals c b q.values) : s.fraction b = q := by
  have hx : s.val .p b = q.xn := (h.vals 0 _ rfl).2
  rw [State.fraction, hx, (h.vals 1 _ rfl).2, (h.vals 2 _ rfl).2, (h.vals 3 _ rfl).2]

end

/-! ### The commands of the sequences -/

section
variable {s : State} {c : Config} (hs : c.sized = true) {rd r r' : FReg}
include hs

theorem State.HoldsVals.pwmap {u : Nat} (h : s.HoldsVals c r [u]) (hen : c.h2cEn = true) (hd : rd.val + 4 ≤ 32) :
    ∃ t, s.PutsVals t c (.pwmap rd r) rd (mapToCurve c u).values := by
  obtain rfl := h.cfg
  obtain ⟨hr, rfl⟩ := h.vals 0 u rfl
  exact State.putsVals_of_exec hs hd (by simpa [Fraction.values] using mapToCurve_lt hs _) (exec_pwmap hen hd hr)

theorem State.HoldsVals.pwfrac {q : Fraction} (h : s.HoldsVals c r q.values) (hd : rd.val + 3 ≤ 32) :
    ∃ t, s.PutsVals t c (.pwfrac rd r) rd (fractionPoint c q).values := by
  obtain rfl := h.cfg
  exact State.putsVals_point hs hd (fractionPoint_lt hs q) (h.fraction_eq ▸ exec_pwfrac hd h.readsGroup)

theorem State.HoldsVals.pwadd {p q : PointW} (h : s.HoldsVals c r p.values) (h' : s.HoldsVals c r' q.values)
    (hd : rd.val + 3 ≤ 32) : ∃ t, s.PutsVals t c (.pwadd rd r r') rd (pwAdd c p q).values := by
  obtain rfl := h.cfg
  have he := exec_pwadd hd h.readsGroup h'.readsGroup
  rw [h.pw_eq, h'.pw_eq] at he
  exact State.putsVals_point hs hd (pwAdd_lt _ p q (modulus_pos hs .p)) he

theorem State.HoldsVals.pwclr {p : PointW} (h : s.HoldsVals c r p.values) (hd : rd.val + 3 ≤ 32) :
    ∃ t, s.PutsVals t c (.pwclr rd r) rd (pwClear c p).values := by
  obtain rfl := h.cfg
  have hp := h.pw_eq ▸ State.pw_lt hs r
  exact State.putsVals_point hs hd (pwClear_lt hs hp) (h.pw_eq ▸ exec_pwclr hd h.readsGroup)

end

theorem hashToField_lt {c : Config} (hs : c.sized = true) (f : FieldSel) (msg dst : List Byte) (count : Nat) :
    ∀ v ∈ hashToField c f msg dst count, v < c.modulus f := by
  intro v hv
  obtain ⟨k, hk, rfl⟩ := List.getElem_of_mem hv
  simp only [hashToField, getElem_fieldChunks]
  exact Nat.mod_lt _ (modulus_pos hs f)

section
variable {s : State} (hi : s.HashInputsOk) (hs : s.cfg.sized = true) {rd : FReg}
include hi hs

theorem State.HashInputsOk.h2f {count : BitVec 16} (h1 : 1 ≤ count.toNat) (h2 : count.toNat ≤ 32)
    (hd : rd.val + count.toNat ≤ 32) : ∃ t, s.PutsVals t s.cfg (.h2f .p rd count) rd
      (hashToField s.cfg .p s.message s.tag count.toNat) :=
  State.putsVals_of_exec hs (by rwa [length_hashToField]) (hashToField_lt hs .p _ _ _) (exec_h2f hi .p hs h1 h2 hd)

variable (hen : s.cfg.h2cEn = true) (hd : rd.val + 3 ≤ 32)
include hen hd

theorem State.HashInputsOk.pwh2c :
    ∃ t, s.PutsVals t s.cfg (.pwh2c rd) rd (hashToCurve s.cfg s.message s.tag).values := by
  have hl : s.cfg.lP ≤ 128 := wideBytes_le hs .p
  refine State.putsVals_point hs hd (pwClear_lt hs (pwAdd_lt _ _ _ (modulus_pos hs .p))) ?_
  rw [exec, execPwh2c]
  exact runCommand_pass (Checks.pass_hash hi (ranges := []) hen (by simpa [group] using hd) (by simp) (by omega))

theorem State.HashInputsOk.pwe2c :
    ∃ t, s.PutsVals t s.cfg (.pwe2c rd) rd (encodeToCurve s.cfg s.message s.tag).values := by
  have hl : s.cfg.lP ≤ 128 := wideBytes_le hs .p
  refine State.putsVals_point hs hd (pwClear_lt hs (fractionPoint_lt hs _)) ?_
  rw [exec, execPwe2c]
  exact runCommand_pass (Checks.pass_hash hi (ranges := []) hen (by simpa [group] using hd) (by simp) (by omega))

end

/-- Settles O50: each sequence passes the values from command to command, and its last command and the command it spells
out write the same point, which canonical words hold in one way. -/
theorem hashToCurveIsItsSequence : Obligations.HashToCurveIsItsSequence := by
  intro rd s hs hen hd hi
  refine ⟨?pwh2c, ?pwe2c⟩
  case pwh2c =>
    obtain ⟨t, h⟩ := hi.pwh2c hs hen hd
    obtain ⟨t1, h1⟩ := hi.h2f hs (rd := 0) (count := 2) (by decide) (by decide) (by decide)
    have helems : t1.HoldsVals s.cfg 0 [_, _] := h1.holds
    obtain ⟨t2, h2⟩ := helems.head.pwmap hs (rd := 4) (r := 0) hen (by decide)
    obtain ⟨t3, h3⟩ := (h2.keeps helems.tail (by simp)).pwmap hs (rd := 8) (r := 1) hen (by decide)
    obtain ⟨t4, h4⟩ := (h3.keeps h2.holds (by simp)).pwfrac hs (rd := 12) (by decide)
    obtain ⟨t5, h5⟩ := (h4.keeps h3.holds (by simp)).pwfrac hs (rd := 15) (by decide)
    obtain ⟨t6, h6⟩ := (h5.keeps h4.holds (by simp)).pwadd hs h5.holds (rd := 18) (by decide)
    obtain ⟨t7, h7⟩ := h6.holds.pwclr hs (rd := 21) (by decide)
    exact ⟨t, t1, t2, t3, t4, t5, t6, t7, h.exec, h.completes, h1.exec, h2.exec, h3.exec, h4.exec, h5.exec, h6.exec,
      h7.exec, h.holds.word_eq h7.holds hs⟩
  case pwe2c =>
    obtain ⟨t, h⟩ := hi.pwe2c hs hen hd
    obtain ⟨t1, h1⟩ := hi.h2f hs (rd := 0) (count := 1) (by decide) (by decide) (by decide)
    obtain ⟨t2, h2⟩ := h1.holds.pwmap hs (rd := 4) (r := 0) hen (by decide)
    obtain ⟨t3, h3⟩ := h2.holds.pwfrac hs (rd := 8) (by decide)
    obtain ⟨t4, h4⟩ := h3.holds.pwclr hs (rd := 12) (by decide)
    exact ⟨t, t1, t2, t3, t4, h.exec, h.completes, h1.exec, h2.exec, h3.exec, h4.exec, h.holds.word_eq h4.holds hs⟩

end Sys2Proof.Machine
end
